-- ==== Sys2Proof/Word.lean ====
section
/-! DEFINITION. The widths the manual uses for its values, and the sparse table that holds a collection
of like things by number. Nothing here computes: the operations on tables are in Machine/Bits.lean. -/

namespace Sys2Proof

/-- A register value, an address word, a field of 32 bits (R52). -/
abbrev Word := BitVec 32

/-- A 64-bit value: a pair of registers, a handle, a global address (R52, R73). -/
abbrev DWord := BitVec 64

/-- A byte of memory (R6). -/
abbrev Byte := BitVec 8

/-- The 32 lane values of one wave-register, lane k at position k (R52). -/
abbrev Lanes := List Word

/-- A collection numbered from 0 of which only the listed entries differ from their default: keys strictly rise. -/
abbrev Tbl (α : Type) := List (Nat × α)

end Sys2Proof
end

