-- ==== Sys2Proof/Machine/Bits.lean ====
section
/-! DEFINITION. Tables by number, byte order (R6), bit fields, lane masks: the small operations that every other file
uses. -/

namespace Sys2Proof.Machine

open Sys2Proof

/-! ## Tables -/

/-- The entry listed at key `k`. -/
def tfind {α : Type} (t : Tbl α) (k : Nat) : Option α :=
  match t with
  | [] => none
  | (j, v) :: r => if j = k then some v else tfind r k

/-- The entry at key `k`, `d` where none is listed. -/
def tget {α : Type} (d : α) (t : Tbl α) (k : Nat) : α := (tfind t k).getD d

/-- Lists `v` at key `k`. -/
def tset {α : Type} (t : Tbl α) (k : Nat) (v : α) : Tbl α :=
  match t with
  | [] => [(k, v)]
  | (j, u) :: r => if j < k then (j, u) :: tset r k v else if j = k then (k, v) :: r else (k, v) :: (j, u) :: r

/-- Removes key `k`. -/
def tdel {α : Type} (t : Tbl α) (k : Nat) : Tbl α := t.filter (fun e => e.1 ≠ k)

/-- The lowest number from `n` up that is no key of `t`, looking at no more than the table's length of them. -/
def tfresh {α : Type} (t : Tbl α) (n : Nat) : Nat :=
  ((List.range (t.length + 1)).find? (fun i => (tfind t (n + i)).isNone)).elim (n + t.length) (n + ·)

/-- Applies `f` to the entry at key `k`, if it is listed. -/
def tmod {α : Type} (t : Tbl α) (k : Nat) (f : α → α) : Tbl α :=
  match tfind t k with
  | none => t
  | some v => tset t k (f v)

/-- Applies `f` to every listed entry. -/
def tmap {α : Type} (t : Tbl α) (f : Nat → α → α) : Tbl α := t.map (fun e => (e.1, f e.1 e.2))

/-- A list with its `n`-th entry replaced. -/
def lset {α : Type} (l : List α) (n : Nat) (v : α) : List α := l.set n v

/-! ## Fields and bytes -/

/-- Bits lo + len - 1 down to lo of `x`. -/
def fld (x lo len : Nat) : Nat := x / 2 ^ lo % 2 ^ len

/-- Bit `i` of `x`. -/
def nbit (x i : Nat) : Bool := x / 2 ^ i % 2 = 1

/-- A Bool as a bit. -/
def b2n (b : Bool) : Nat := if b then 1 else 0

/-- The least `n` bytes of `x`, little-endian (R6). -/
def leBytes (n x : Nat) : List Byte := (List.range n).map (fun i => BitVec.ofNat 8 (x / 256 ^ i))

/-- The number that bytes hold, little-endian (R6). -/
def ofLe (bs : List Byte) : Nat := bs.foldr (fun b acc => b.toNat + 256 * acc) 0

/-- `x` read as a two's complement number of `w` bits. -/
def asSigned (w x : Nat) : Int := if x % 2 ^ w < 2 ^ (w - 1) then (x % 2 ^ w : Int) else (x % 2 ^ w : Int) - 2 ^ w

/-- `n` modulo 2^w. -/
def modPow (n : Int) (w : Nat) : Nat := (n % (2 ^ w : Int)).toNat

/-- The XOR of the `n` low bits of `x` (R129). -/
def parity (n x : Nat) : Bool := (List.range n).foldl (fun a i => xor a (nbit x i)) false

/-- Splits a list into pieces of `n`, at most `k` of them. -/
def pieces {α : Type} (n : Nat) : Nat → List α → List (List α)
  | 0, _ => []
  | k + 1, l => l.take n :: pieces n k (l.drop n)

/-- Words of 32 bits from bytes, `n` of them. -/
def wordsOf (n : Nat) (bs : List Byte) : List Word := (pieces 4 n bs).map (fun p => BitVec.ofNat 32 (ofLe p))

/-- Low and high word of a 64-bit value. -/
def lo32 (x : DWord) : Word := BitVec.ofNat 32 x.toNat
/-- See `lo32`. -/
def hi32 (x : DWord) : Word := BitVec.ofNat 32 (x.toNat / 2 ^ 32)
/-- A 64-bit value from its low and high words (R52). -/
def dword (lo hi : Word) : DWord := BitVec.ofNat 64 (lo.toNat + 2 ^ 32 * hi.toNat)

/-! ## Lanes -/

/-- The lane numbers 0 to 31. -/
def laneList : List Nat := List.range 32

/-- Whether lane `k` is in the mask. -/
def laneOn (m : Word) (k : Nat) : Bool := m.getLsbD k

/-- The mask of the lanes that satisfy `f`. -/
def maskOf (f : Nat → Bool) : Word := BitVec.ofNat 32 (laneList.foldr (fun k acc => acc + (if f k then 2 ^ k else 0)) 0)

/-- The lanes of a mask, ascending. -/
def lanesOf (m : Word) : List Nat := laneList.filter (laneOn m)

/-- The lowest lane of a mask (0 of the empty mask). -/
def lowLane (m : Word) : Nat := (lanesOf m).headD 0

/-- Writes `f k` into lane k for the lanes of the mask; other lanes keep their value. -/
def mergeLanes (old : Lanes) (m : Word) (f : Nat → Word) : Lanes :=
  laneList.map (fun k => if laneOn m k then f k else old.getD k 0)

/-! ## Memory: the one canonical form -/

/-- The byte at an address: zero where none is listed (R487). -/
def memRead (m : List (Nat × Byte)) (a : Nat) : Byte := (tfind m a).getD 0

/-- Writes a byte; writing what an unlisted address reads as removes the entry. -/
def memWrite (m : List (Nat × Byte)) (a : Nat) (b : Byte) : List (Nat × Byte) :=
  if b = 0 then tdel m a else tset m a b

/-- `n` bytes from address `a` up. -/
def memBytes (m : List (Nat × Byte)) (a n : Nat) : List Byte := (List.range n).map (fun i => memRead m (a + i))

/-- Writes bytes from address `a` up. -/
def memPut (m : List (Nat × Byte)) (a : Nat) : List Byte → List (Nat × Byte)
  | [] => m
  | b :: r => memPut (memWrite m a b) (a + 1) r

/-- The number held in `n` bytes at `a`, little-endian (R6). -/
def memNat (m : List (Nat × Byte)) (a n : Nat) : Nat := ofLe (memBytes m a n)

/-- The keys of a table strictly rise. -/
def Sorted {α : Type} (t : Tbl α) : Prop := t.Pairwise (fun x y => x.1 < y.1)

/-- The canonical form: addresses strictly rise and no listed byte is zero. -/
abbrev Memory.wf (m : List (Nat × Byte)) : Prop := m.Pairwise (fun x y => x.1 < y.1) ∧ ∀ x ∈ m, x.2 ≠ 0

/-- A range in pieces that end at multiples of `z`. -/
def splitAt (z a n : Nat) : List (Nat × Nat) :=
  (List.range ((a % z + n + z - 1) / z)).map (fun i =>
    let lo := Nat.max a ((a / z + i) * z)
    (lo, Nat.min (a + n) ((a / z + i + 1) * z) - lo))

end Sys2Proof.Machine
end

