-- ==== Sys2Proof/Syntax.lean ====
section
/-! DEFINITION. The operations and events of the Kerob 9400: one constructor of `Instr` for each row of
spec/opcode_table.json. A wave instruction carries its decoded fields (R135) in one record, a stream command
its own fields (R322), an event the numbers that name the unit it acts on. -/

namespace Sys2Proof

/-- Type codes 0x0 to 0xF of the TYPE field (R143). -/
inductive Ty
  | b32 | b64 | i8 | i16 | i32 | i64 | n8 | n16 | n32 | n64 | f32 | f16 | bf16 | e4m3 | e5m2 | e2m1
  deriving DecidableEq, Repr

/-- Special registers 0x40 to 0x51 of the special space (R139, R284). -/
inductive SReg
  | grid | cohort | block | stage | wave | lane | chip | flags | lclock
  | cause | epcl | epch | emask | einfo0 | einfo1 | einfo2 | dbg
  deriving DecidableEq, Repr

/-- How a selector takes the immediate: as 32 bits or fewer, sign-extended or zero-extended to 64 (R139). -/
inductive ImmSel
  | v32 | sx64 | zx64
  deriving DecidableEq, Repr

/-- A 10-bit operand field, decoded (R139, R140). `bits` is a field that is no operand: SRCC of formats M and W
(R141) and the frame field of `call` and `ret` (R177). -/
inductive Operand
  | lane (n : BitVec 8)
  | unif (n : BitVec 6)
  | pred (n : BitVec 3)
  | idx (n : BitVec 2)
  | handle (n : BitVec 4)
  | sreg (r : SReg)
  | none
  | imm (s : ImmSel)
  | indexed (k : BitVec 2)
  | bits (v : BitVec 10)
  deriving DecidableEq, Repr

/-- GUARD: bit 83 negates, bits [82:80] name the predicate (R135, R137). -/
structure Guard where
  neg : Bool
  p : BitVec 3
  deriving DecidableEq, Repr

/-- The fields of a wave instruction below MAJOR and VARIANT (R135). `em` is EMODE with source a in bit 2 (R69);
`word` is WORD: immediate, modifier word or displacements (R140, R141). -/
structure Ops where
  guard : Guard
  hs : Bool
  em : BitVec 3
  d : Operand
  a : Operand
  b : Operand
  c : Operand
  ty : Ty
  word : Word
  deriving DecidableEq, Repr

/-- The two live PC slots of a wave (R24). -/
inductive Slot
  | A | B
  deriving DecidableEq, Repr

/-- Where a control-page update comes from: a pending access of a wave, or a host port (R310). -/
inductive CtrlSrc
  | wave (acc : Nat)
  | host (vault ctr : Nat) (v : Word)
  deriving DecidableEq, Repr

/-- What resets a chip (R487). -/
inductive ResetCause
  | powerOn | resetctl | fence
  deriving DecidableEq, Repr

/-- A firmware image: what its verification finds (R488, R489), and its contents as one number. The keys are fused and no rule gives them, so
whether a signature verifies is a fact about the image. -/
structure FwImage where
  readable : Bool
  headerOk : Bool
  ecdsaOk : Bool
  lmsOk : Bool
  svn : Nat
  body : Nat := 0
  deriving DecidableEq, Repr, Inhabited

/-- What the patrol scrubber finds in a line (R499). -/
inductive ScrubResult
  | clean | corrected | uncorrectable
  deriving DecidableEq, Repr

/-- An undetected upset of one row of a replica's tables (R456). -/
inductive Upset
  | chip (c capl capb capp : Nat)
  | cap (c : Nat) (w : DWord)
  | grid (g : Nat) (ggen : Word)
  | place (g c exec : Nat)
  deriving DecidableEq, Repr

/-- The operations and events of spec/opcode_table.json, one constructor per row. -/
inductive Instr
  /-- ADD (R159): Integer add of two sources, wrapping or saturating, into a lane, uniform or index register. -/
  | add (o : Ops)
  /-- SUB (R159): Integer subtract, wrapping or saturating. -/
  | sub (o : Ops)
  /-- MUL (R159): Integer multiply, low half, wrapping or saturating. -/
  | mul (o : Ops)
  /-- MUL_HI (R159): High half of the exact 2w-bit integer product. -/
  | mulHi (o : Ops)
  /-- MAD (R159): Integer multiply-add a*b+c. -/
  | mad (o : Ops)
  /-- MAD_HI (R159): High half of a*b plus c. -/
  | madHi (o : Ops)
  /-- MIN (R159): Integer minimum of two sources. -/
  | min (o : Ops)
  /-- MAX (R159): Integer maximum of two sources. -/
  | max (o : Ops)
  /-- ABS (R159): Absolute value of a signed integer. -/
  | abs (o : Ops)
  /-- NEG (R159): Integer negation. -/
  | neg (o : Ops)
  /-- ADD64 (R161): Adds a 32-bit value to a 64-bit address pair. -/
  | add64 (o : Ops)
  /-- KADD (R163): Adds a 64-bit value to a 128-bit counter quad modulo 2^128. -/
  | kadd (o : Ops)
  /-- LEA (R162): Forms a scaled address a + b*2^k. -/
  | lea (o : Ops)
  /-- AND (R165): Bitwise and, of registers or predicates. -/
  | and (o : Ops)
  /-- OR (R165): Bitwise or, of registers or predicates. -/
  | or (o : Ops)
  /-- XOR (R165): Bitwise exclusive or, of registers or predicates. -/
  | xor (o : Ops)
  /-- NOT (R165): Bitwise complement, of a register or predicate. -/
  | not (o : Ops)
  /-- SHL (R167): Shift left. -/
  | shl (o : Ops)
  /-- SHR (R167): Logical shift right. -/
  | shr (o : Ops)
  /-- SAR (R167): Arithmetic shift right. -/
  | sar (o : Ops)
  /-- ROT (R167): Rotate left. -/
  | rot (o : Ops)
  /-- CLZ (R168): Count leading zeros. -/
  | clz (o : Ops)
  /-- POPC (R168): Count one bits. -/
  | popc (o : Ops)
  /-- BREV (R168): Reverse bit order. -/
  | brev (o : Ops)
  /-- BFX (R169): Extracts a bit field under a field control. -/
  | bfx (o : Ops)
  /-- BFI (R170): Inserts a bit field into c. -/
  | bfi (o : Ops)
  /-- CMP (R172): Integer compare writing a predicate per lane. -/
  | cmp (o : Ops)
  /-- SEL (R173): Selects a or b by a predicate. -/
  | sel (o : Ops)
  /-- MOV (R174): Moves values between register classes in the permitted forms. -/
  | mov (o : Ops)
  /-- MOVI (R175): Loads a sign-extended 42-bit immediate into a 64-bit pair. -/
  | movi (o : Ops)
  /-- FADD (R189): Float add rounded once. -/
  | fadd (o : Ops)
  /-- FMUL (R189): Float multiply rounded once. -/
  | fmul (o : Ops)
  /-- FFMA (R189): Fused float multiply-add rounded once. -/
  | ffma (o : Ops)
  /-- FMIN (R191): Float minimum with NaN and signed-zero rules. -/
  | fmin (o : Ops)
  /-- FMAX (R191): Float maximum with NaN and signed-zero rules. -/
  | fmax (o : Ops)
  /-- FCMP (R192): Float compare writing a predicate per lane. -/
  | fcmp (o : Ops)
  /-- FSCALE (R189): Multiplies a float by a power of two and rounds. -/
  | fscale (o : Ops)
  /-- FFMA2 (R190): Two FP32 fused multiply-adds per lane on register pairs. -/
  | ffma2 (o : Ops)
  /-- FCVT (R194): Converts between float and integer formats through RoundToFormat. -/
  | fcvt (o : Ops)
  /-- HFMA2 (R195): Two packed 16-bit fused multiply-adds. -/
  | hfma2 (o : Ops)
  /-- DOT4 (R196): Four-byte dot product accumulated into c. -/
  | dot4 (o : Ops)
  /-- RCP (R198): Correctly rounded reciprocal. -/
  | rcp (o : Ops)
  /-- RSQ (R198): Correctly rounded reciprocal square root. -/
  | rsq (o : Ops)
  /-- SQRT (R198): Correctly rounded square root. -/
  | sqrt (o : Ops)
  /-- EXP2 (R198): Correctly rounded power of two. -/
  | exp2 (o : Ops)
  /-- LOG2 (R198): Correctly rounded base-2 logarithm. -/
  | log2 (o : Ops)
  /-- SIN (R198): Correctly rounded sine. -/
  | sin (o : Ops)
  /-- COS (R198): Correctly rounded cosine. -/
  | cos (o : Ops)
  /-- TANH (R198): Correctly rounded hyperbolic tangent. -/
  | tanh (o : Ops)
  /-- SHFL (R203): Cross-lane shuffle within segments of the path. -/
  | shfl (o : Ops)
  /-- VOTE (R204): Ballot, any, all or eq over a predicate of the path. -/
  | vote (o : Ops)
  /-- RFAL (R205): Reads a lane source from the lowest active lane into a uniform register. -/
  | rfal (o : Ops)
  /-- RED_W (R208): Wave reduction over participating lanes into a uniform register, setting EMPTY when none. -/
  | redW (o : Ops)
  /-- SCAN (R209): Inclusive or exclusive prefix combination over participants. -/
  | scan (o : Ops)
  /-- MATCH (R210): Mask of lanes whose value equals a given lane's. -/
  | matchLanes (o : Ops)
  /-- FAMAX (R199): Block maximum magnitude over lane blocks. -/
  | famax (o : Ops)
  /-- FQB (R200): Quantises lane blocks with QuantiseBlock into codes and a scale. -/
  | fqb (o : Ops)
  /-- KCG (R212): Computes KcgBlock of a counter quad and key. -/
  | kcg (o : Ops)
  /-- DMASK (R213): Dropout keep predicate from a KcgBlock draw. -/
  | dmask (o : Ops)
  /-- LD (R221): Global load through L1, short- or long-latency. -/
  | ld (o : Ops)
  /-- LDU (R221): Uniform global load through L1. -/
  | ldu (o : Ops)
  /-- LD_BYP (R82): Bypassing global load performed at the home slice. -/
  | ldByp (o : Ops)
  /-- LDU_BYP (R82): Uniform bypassing load performed at the home slice. -/
  | lduByp (o : Ops)
  /-- ST (R222): Global store written through to the home slice. -/
  | st (o : Ops)
  /-- LDS (R223): Local scratchpad load. -/
  | lds (o : Ops)
  /-- STS (R223): Local scratchpad store. -/
  | sts (o : Ops)
  /-- ATOM (R227): Global atomic read-modify-write at the home slice, returning the old value. -/
  | atom (o : Ops)
  /-- ATOM_L (R227): Local atomic at the scratchpad bank. -/
  | atomL (o : Ops)
  /-- RED (R83): Near-data atomic reduction with no returned value. -/
  | red (o : Ops)
  /-- GATH (R229): Gathers up to eight words near a lane address at the home slice. -/
  | gath (o : Ops)
  /-- RATOM (R241): Remote atomic on any chip, grouped by target address. -/
  | ratom (o : Ops)
  /-- FENCE (R96): Release then acquire at a scope. -/
  | fence (o : Ops)
  /-- ACQ (R96): Acquire at a scope, invalidating L1 as the scope requires. -/
  | acq (o : Ops)
  /-- REL (R96): Release at a scope, waiting for earlier accesses. -/
  | rel (o : Ops)
  /-- BAR (R231): Block barrier arrival with release, wait and acquire. -/
  | bar (o : Ops)
  /-- PBAR_INIT (R232): Initialises a phase-bit barrier object. -/
  | pbarInit (o : Ops)
  /-- PBAR_ARR (R232): Release then indivisible arrival on a phase-bit barrier object. -/
  | pbarArr (o : Ops)
  /-- PBAR_WAIT (R232): Waits until the object's phase differs from q, then acquires. -/
  | pbarWait (o : Ops)
  /-- PBAR_TEST (R232): Tests the object's phase into a predicate without waiting. -/
  | pbarTest (o : Ops)
  /-- CPY (R236): Starts a copy-unit command on this chip or local memory. -/
  | cpy (o : Ops)
  /-- PUT (R236): Starts a one-sided write to any chip. -/
  | put (o : Ops)
  /-- GET (R236): Starts a one-sided read from any chip. -/
  | get (o : Ops)
  /-- PUT_RED (R238): Starts a reducing put, one atomic per element at the target. -/
  | putRed (o : Ops)
  /-- GET_RED (R238): Starts a reducing get, reducing at the destination. -/
  | getRed (o : Ops)
  /-- TICKET (R240): Remote fetch-and-increment of an incast counter's NEXT. -/
  | ticket (o : Ops)
  /-- WWAIT (R244): Waits for a window slot owned by the wave with the given phase, then acquires. -/
  | wwait (o : Ops)
  /-- WWAIT_TEST (R244): Tests a window slot into a predicate without waiting. -/
  | wwaitTest (o : Ops)
  /-- WFREE (R244): Returns a window slot to the engine after earlier local stores are acknowledged. -/
  | wfree (o : Ops)
  /-- WPOST (R244): Raises a window's PENDING count or traps on overflow. -/
  | wpost (o : Ops)
  /-- OBIT_GIVE (R246): Hands a tile to the engine by its tile word. -/
  | obitGive (o : Ops)
  /-- OBIT_WAIT (R246): Waits until the tile word shows the wave owns the tile, then acquires. -/
  | obitWait (o : Ops)
  /-- OBIT_TEST (R246): Tests tile ownership into a predicate. -/
  | obitTest (o : Ops)
  /-- RES_ALLOC (R247): Allocates a residency table entry, DEMOTED. -/
  | resAlloc (o : Ops)
  /-- RES_PIN (R87): Pins a tensor in L2, demoting lower-priority tensors as needed. -/
  | resPin (o : Ops)
  /-- RES_DEMOTE (R247): Demotes a residency entry. -/
  | resDemote (o : Ops)
  /-- RES_EVICT (R87): Evicts a tensor from L2, writing modified lines. -/
  | resEvict (o : Ops)
  /-- RES_FREE (R86): Evicts and frees a residency entry, incrementing GEN. -/
  | resFree (o : Ops)
  /-- RES_PRIO (R247): Sets a residency entry's priority. -/
  | resPrio (o : Ops)
  /-- QEMIT (R248): Appends a node record to a work-graph bin of the cluster's queue engine. -/
  | qemit (o : Ops)
  /-- MWLD (R262): Queues a weight tile load into a bank. -/
  | mwld (o : Ops)
  /-- MCB (R263): Queues a codebook load into a bank. -/
  | mcb (o : Ops)
  /-- MLD (R270): Queues a copy from local memory into accumulator rows or sum cells. -/
  | mld (o : Ops)
  /-- MST (R270): Queues a copy from accumulator rows or sum cells into local memory. -/
  | mst (o : Ops)
  /-- MZERO (R269): Queues the clearing of accumulator rows. -/
  | mzero (o : Ops)
  /-- MMA (R265): Queues a matrix multiply of A rows against a bank into the accumulator. -/
  | mma (o : Ops)
  /-- MMA_T (R268): Queues a tandem matrix multiply on leader and follower banks. -/
  | mmaT (o : Ops)
  /-- MDRAIN (R272): Queues a drain of accumulator rows into an output tile. -/
  | mdrain (o : Ops)
  /-- MSTAT (R273): Reads the array status into a uniform pair. -/
  | mstat (o : Ops)
  /-- MSYNC (R274): Waits until the wave's array commands have completed. -/
  | msync (o : Ops)
  /-- COLL_ALLREDUCE (R387): Arrives at an allreduce collective of the block. -/
  | collAllreduce (o : Ops)
  /-- COLL_REDSCAT (R387): Arrives at a reduce-scatter collective. -/
  | collRedscat (o : Ops)
  /-- COLL_ALLGATH (R387): Arrives at an allgather collective. -/
  | collAllgath (o : Ops)
  /-- COLL_BCAST (R387): Arrives at a broadcast collective. -/
  | collBcast (o : Ops)
  /-- COLL_ALLTOALL (R387): Arrives at an all-to-all collective. -/
  | collAlltoall (o : Ops)
  /-- COLL_WAIT (R308): Waits for a collective's outcome and returns it as a plain value. -/
  | collWait (o : Ops)
  /-- COLL_ABORT (R308): Asks the collective unit to abort a collective. -/
  | collAbort (o : Ops)
  /-- NOP (R149): Does nothing. -/
  | nop (o : Ops)
  /-- BR (R180): Branch by displacement for the guard-true lanes. -/
  | br (o : Ops)
  /-- BRX (R180): Branch to per-lane register targets. -/
  | brx (o : Ops)
  /-- CALL (R181): Call with window slide and return PC. -/
  | call (o : Ops)
  /-- RET (R182): Return, releasing the frame and sliding the window back. -/
  | ret (o : Ops)
  /-- EXIT (R183): Removes the guard-true lanes from the path. -/
  | exit (o : Ops)
  /-- TRAP (R289): Raises a software trap with a service number. -/
  | trap (o : Ops)
  /-- TRAP_RES (R289): Leaves handler mode and resumes at the resumption PC or after it. -/
  | trapRes (o : Ops)
  /-- TRAP_RET (R289): Leaves handler mode and transfers to a register PC. -/
  | trapRet (o : Ops)
  /-- BRK (R289): Raises a breakpoint trap or stops the wave under a debugger. -/
  | brk (o : Ops)
  /-- GETSR (R288): Reads a special register. -/
  | getsr (o : Ops)
  /-- SETSR (R288): Writes a special register of Access RW. -/
  | setsr (o : Ops)
  /-- YIELD (R290): Removes the slot from candidacy for n+1 cycles. -/
  | yield (o : Ops)
  /-- CYC (R291): Reads the chip cycle counter. -/
  | cyc (o : Ops)
  /-- ICINV (R292): Discards the core's instruction cache. -/
  | icinv (o : Ops)
  /-- ICINV_CHIP (R292): Discards every core's instruction cache on the chip. -/
  | icinvChip (o : Ops)
  /-- FG_SYNC (R296): Waits for the wave's turn in fixed gear. -/
  | fgSync (o : Ops)
  /-- FG_CLK (R297): Reads the wave's logical clock. -/
  | fgClk (o : Ops)
  /-- APX_BEGIN (R300): Enters an approximable region, falling through or sending inputs to the surrogate. -/
  | apxBegin (o : Ops)
  /-- APX_END (R301): Closes the open region, sending true pairs or comparisons. -/
  | apxEnd (o : Ops)
  /-- APX_CTL_STATE (R343): Requests a region state change. -/
  | apxCtlState (o : Ops)
  /-- APX_CTL_REGISTER (R341): Writes a region register in every copy. -/
  | apxCtlRegister (o : Ops)
  /-- APX_CTL_LOAD (R344): Loads a surrogate image into every copy of a region. -/
  | apxCtlLoad (o : Ops)
  /-- APX_CTL_SAVE (R344): Saves the home copy's surrogate weights to memory. -/
  | apxCtlSave (o : Ops)
  /-- APX_INVAL (R304): Forces a region, or every region, to OFF. -/
  | apxInval (o : Ops)
  /-- APX_STAT (R304): Reads a region's status pair. -/
  | apxStat (o : Ops)
  /-- PROMOTION (R39): A ready, unissued candidate gains one priority promotion after 64 qualifying cycles. -/
  | promotion (p wid : Nat) (sl : Slot)
  /-- LOCALITY_SCORE_SHIFT (R45): Every 256 cycles scores halve and the permitted wave count is recomputed. -/
  | localityScoreShift (p core : Nat)
  /-- THROTTLE_PERMIT_EXPIRY (R46): A candidate held by the throttle for 4,096 cycles is permitted for its next instruction. -/
  | throttlePermitExpiry (p wid : Nat) (sl : Slot)
  /-- LONG_LATENCY_COMPLETE (R68): A long-latency producer writes its lanes, error mask and full bit. -/
  | longLatencyComplete (p prod : Nat)
  /-- LOAD_MISS_COMPLETE (R79): A line fetched for an L1 miss fills L1 and completes the load. -/
  | loadMissComplete (p prod : Nat)
  /-- STORE_ACK (R100): A home slice or scratchpad performs and acknowledges a store, atomic or red. -/
  | storeAck (p acc : Nat)
  /-- ORDERED_ATOMIC_PERFORM (R105): An ordered atomic is performed after every earlier ordered atomic of the wave. -/
  | orderedAtomicPerform (p acc : Nat)
  /-- COPY_UNIT_TRANSFER (R238): The copy unit moves one 16-byte unit of a command. -/
  | copyUnitTransfer (p cmd unit : Nat)
  /-- COPY_COMMAND_COMPLETE (R239): All units written and acknowledged, or the first failure: the status register fills and the range flips back. -/
  | copyCommandComplete (p cmd : Nat)
  /-- RATOM_GROUP_COMPLETE (R241): A remote atomic group's response fills its lanes. -/
  | ratomGroupComplete (p net : Nat)
  /-- INCAST_SERVE (R240): An INC put starts its units once SERVING equals its ticket. -/
  | incastServe (p cmd : Nat)
  /-- MWLD_PERFORM (R262): The array loads and aligns a weight tile and its check data into a bank. -/
  | mwldPerform (p core idx : Nat)
  /-- MCB_PERFORM (R263): The array sets a bank's codebook in queue order. -/
  | mcbPerform (p core idx : Nat)
  /-- MLD_PERFORM (R270): The array copies local memory into accumulator rows. -/
  | mldPerform (p core idx : Nat)
  /-- MST_PERFORM (R270): The array copies accumulator rows into local memory. -/
  | mstPerform (p core idx : Nat)
  /-- MZERO_PERFORM (R269): The array clears accumulator rows. -/
  | mzeroPerform (p core idx : Nat)
  /-- MMA_ROW (R265): The array computes, checks and accumulates one row of A. -/
  | mmaRow (p core idx mismatches : Nat)
  /-- MDRAIN_PERFORM (R272): The drain converts accumulator rows through scale, residual, dropout and output format. -/
  | mdrainPerform (p core idx : Nat)
  /-- ARRAY_COMMAND_COMPLETE (R255): An array command completes, sets its flags and arrives on its barrier object. -/
  | arrayCommandComplete (p core idx : Nat)
  /-- COLL_RANK_READY (R389): A rank's WORK holds its whole result and it sends READY. -/
  | collRankReady (p blk cid : Nat)
  /-- COLL_DECIDE (R389): The coordinator decides commit or abort and sends the decision to every rank. -/
  | collDecide (p grow cid : Nat)
  /-- COLL_RANK_OUTCOME (R306): A rank receives its decision, copies WORK to OUT on commit, flips tiles, writes the record and fills d. -/
  | collRankOutcome (p blk cid : Nat)
  /-- CTRL_COUNTER_ADD (R310): An add to a trigger counter through its control page. -/
  | ctrlCounterAdd (p : Nat) (src : CtrlSrc)
  /-- CTRL_COUNTER_SET (R320): A set of a trigger counter, cancelling unreleased armed commands. -/
  | ctrlCounterSet (p : Nat) (src : CtrlSrc)
  /-- CTRL_START_REQUEST (R311): An atom.exch at offset 0x100 starts a stream context and returns the start status. -/
  | ctrlStartRequest (p acc : Nat)
  /-- CTRL_START_STORE (R310): A st.b64 at offset 0x100 starts a stream context with the status discarded. -/
  | ctrlStartStore (p acc : Nat)
  /-- SNOP (R322): Stream command that does nothing. -/
  | snop
  /-- SETQ (R322): Sets a stream register to an immediate. -/
  | setq (qd : BitVec 4) (imm : BitVec 48)
  /-- SETQH (R322): Sets the top 16 bits of a stream register. -/
  | setqh (qd : BitVec 4) (imm : BitVec 16)
  /-- ADDQ (R322): Adds a signed immediate to a stream register. -/
  | addq (qd qs : BitVec 4) (imm : BitVec 48)
  /-- LDQ (R322): Loads 8 bytes into a stream register. -/
  | ldq (qd qa : BitVec 4) (off : Word)
  /-- STQ (R322): Stores a stream register to memory. -/
  | stq (qs qa : BitVec 4) (off : Word)
  /-- LAYOUT (R313): Loads a tensor layout record into a layout slot. -/
  | layout (sl : BitVec 2) (qa : BitVec 4)
  /-- SETIX (R322): Sets a layout slot's tile index. -/
  | setix (sl : BitVec 2) (qa : BitVec 4)
  /-- STEPIX (R323): Advances a tile index with carry. -/
  | stepix (sl dim : BitVec 2)
  /-- FETCH (R324): Fetches a tile and delivers it to the target's blocks. -/
  | fetch (rc : Bool) (sl tgt : BitVec 2)
  /-- FETCHS (R325): Fetches and delivers one slice of a tile. -/
  | fetchs (rc : Bool) (sl tgt : BitVec 2) (s sm1 : BitVec 6)
  /-- TILEW (R326): Writes a local tile image to the tensor under a tile word. -/
  | tilew (rc : Bool) (sl : BitVec 2) (qa qw : BitVec 4)
  /-- COPY (R327): Copies bytes between global addresses of the chip. -/
  | copy (rc : Bool) (qd qs qn : BitVec 4)
  /-- TARGET (R324): Sets a target slot's window handle and rank mask. -/
  | target (tgt : BitVec 2) (qh qm : BitVec 4)
  /-- ARM (R319): Makes the next command wait for a trigger counter threshold. -/
  | arm (c : BitVec 6) (thr : Word)
  /-- CADD (R318): Adds to a trigger counter of an engine of the chip. -/
  | cadd (c : BitVec 6) (e : BitVec 7) (v : Word)
  /-- CSET (R320): Sets a trigger counter of an engine, cancelling armed commands. -/
  | cset (c : BitVec 6) (e : BitVec 7) (v : Word)
  /-- LOOP (R322): Decrements a stream register and branches while non-zero. -/
  | loop (qd : BitVec 4) (disp : Word)
  /-- BRZ (R322): Branches when a stream register is zero. -/
  | brz (qd : BitVec 4) (disp : Word)
  /-- JUMP (R322): Jumps to a stream register address. -/
  | jump (qa : BitVec 4)
  /-- ARRIVE_CMD (R322): After earlier commands complete, arrives on a barrier object. -/
  | arriveCmd (qa : BitVec 4)
  /-- SFENCE (R322): Orders later stream commands after earlier ones' global writes. -/
  | sfence
  /-- SIGNAL (R322): After earlier commands complete, writes 8 bytes to memory. -/
  | signal (rc : Bool) (qv qa : BitVec 4) (off : Word)
  /-- HALT (R322): After earlier commands complete, ends the context. -/
  | halt (rc : Bool)
  /-- ARMED_RELEASE (R319): An armed command is released when Reached becomes true. -/
  | armedRelease (p vault ctx : Nat)
  /-- DELIVER_SLICE (R317): A slice is written into a slot it owns with PENDING above zero, flipping it on the last slice. -/
  | deliverSlice (p vault ctx cmd rank : Nat)
  /-- TILEW_WRITE (R326): With the tile word owned by the engine, writes the tile and flips it back. -/
  | tilewWrite (p vault ctx cmd : Nat)
  /-- CONTEXT_END (R312): A stream context ends, by halt, failure, cancellation or cohort end, writing a record as required. -/
  | contextEnd (p vault ctx : Nat)
  /-- EVENT_QUEUE_RECORD (R90): A unit writes a completion record into the event queue when an entry is free. -/
  | eventQueueRecord (p idx : Nat)
  /-- CCC_RECORD_PROCESS (R91): The cluster control core takes a record, appends it to the grid's mirror and updates a signal word. -/
  | cccRecordProcess (p cluster : Nat)
  /-- FIT_INVOCATION_EVAL (R349): The fitting engine evaluates an accepted invocation and delivers the outputs. -/
  | fitInvocationEval (p cluster : Nat)
  /-- FIT_INPUT_TAKE (R349): The engine takes a pair set or comparison from its input buffer while its queue is empty. -/
  | fitInputTake (p cluster : Nat)
  /-- FIT_VALIDATION (R346): A validation pair updates EWMA and SAMPLES and may move TRAIN to INVOKE. -/
  | fitValidation (p cluster region : Nat)
  /-- SGD_STEP (R346): A full batch of 32 training pairs makes one SGD step. -/
  | sgdStep (p cluster region : Nat)
  /-- APX_CTL_COMPLETE (R355): The engine completes an apx.ctl, fills d and writes a record. -/
  | apxCtlComplete (p idx : Nat)
  /-- FG_TURN (R359): A synchronising operation is performed when its logical time is lowest. -/
  | fgTurn (p wid : Nat) (sl : Slot)
  /-- QUANTUM_COMMIT (R365): A quantum commits buffered stores in ascending wave identifier. -/
  | quantumCommit (grow : Nat)
  /-- PACKET_FETCH (R417): The command processor reads a packet header, retrying while VALID is 0, then acquires and reads the body. -/
  | packetFetch (p half q : Nat)
  /-- LAUNCH_PACKET (R426): Checks a launch record and enters SUBMIT once a grid row is free. -/
  | launchPacket (p half q n : Nat)
  /-- BARRIER_PACKET (R416): Waits until every named dependency signal is at most 0. -/
  | barrierPacket (p half q n : Nat)
  /-- BARRIER_RECHECK (R416): Re-reads unresolved dependencies after each retirement and every 65,536 cycles. -/
  | barrierRecheck (p half q n : Nat)
  /-- SIGNAL_PACKET (R416): Adds a value to a target as one atomic. -/
  | signalPacket (p half q n : Nat) (hostAtomics : Bool)
  /-- COPY_PACKET (R416): Copies bytes in 16-byte units. -/
  | copyPacket (p half q n : Nat)
  /-- PACKET_RETIRE (R419): Writes the result header, releases and decrements the completion signal. -/
  | packetRetire (p half q n : Nat) (hostAtomics : Bool)
  /-- COHORT_ADMIT (R430): The queue engine admits the head pending cohort when it fits. -/
  | cohortAdmit (p cluster : Nat)
  /-- COHORT_VACATE (R431): Vacates bulk borrowers of reserved cores for a latency cohort. -/
  | cohortVacate (p cluster : Nat)
  /-- STEAL_REQUEST (R433): An idle core sends a steal request to another cluster after 4,096 cycles. -/
  | stealRequest (p core : Nat)
  /-- STEAL_ANSWER (R433): A victim queue engine answers from the tail of its lists. -/
  | stealAnswer (p idx : Nat)
  /-- BIN_TIMER_EXPIRY (R435): A bin timer reaching zero launches every pending record as a batch. -/
  | binTimerExpiry (p cluster bin : Nat)
  /-- GRID_CHIP_FINISH (R427): When the grid's blocks and bins on a chip are done, releases and proposes FINISH. -/
  | gridChipFinish (p grow rc : Nat)
  /-- EVENT_PROPOSE (R440): A chip sends an event proposal to the sequencer. -/
  | eventPropose (p idx : Nat)
  /-- PROPOSAL_RESEND (R440): An undelivered proposal is resent every 65,536 local cycles. -/
  | proposalResend (p idx : Nat)
  /-- SEQUENCE_EVENT (R440): The sequencer sequences a proposal, passing it to the standby then around the ring. -/
  | sequenceEvent (idx : Nat)
  /-- EVENT_DELIVER (R441): A chip delivers a multicast event in sequence order. -/
  | eventDeliver (p : Nat)
  /-- GAP_REQUEST (R441): A chip requests missing events from the retransmit buffer. -/
  | gapRequest (p : Nat)
  /-- STANDBY_TICK (R442): The sequencer sends the standby a tick every 4 µs. -/
  | standbyTick
  /-- STANDBY_TAKEOVER (R442): After 16 µs of silence the standby raises the term and takes over. -/
  | standbyTakeover
  /-- HEARTBEAT_SEND (R443): A heartbeat stream sends a heartbeat every 2^20 local cycles. -/
  | heartbeatSend (p g : Nat)
  /-- HEARTBEAT_TIMEOUT (R443): 1 ms without a heartbeat makes the sequencer emit CHIP_LOSS. -/
  | heartbeatTimeout (chip : Nat)
  /-- DIGEST_PROPOSE (R455): Each participant proposes its point digest after a digest point. -/
  | digestPropose (p point : Nat)
  /-- REJOIN (R458): A fenced or absent chip fetches a snapshot and tail, replays and proposes JOIN. -/
  | rejoin (p : Nat)
  /-- IDLE_FLIT (R377): An idle flit is sent at least every 64 link cycles. -/
  | idleFlit (p plane : Nat)
  /-- PAGE_WALK (R470): A walker translates a queued TLB miss through the page tables. -/
  | pageWalk (p vault : Nat)
  /-- FAULT_RECORD_WRITE (R473): A fault record is written into the fault queue when room allows. -/
  | faultRecordWrite (p idx : Nat)
  /-- TLBINV_DONE (R471): An invalidation finishes and BUSY clears. -/
  | tlbinvDone (p : Nat)
  /-- STEP_STOP (R295): After one stepped word the wave stops with reason 0x32. -/
  | stepStop (p wid : Nat)
  /-- ATTESTATION_DONE (R492): Writes the signed attestation report. -/
  | attestationDone (p : Nat)
  /-- L1_REPLACEMENT (R79): The L1 replaces a line of its own accord, in any cycle, and the replacement removes a possibly stale line and records a victim tag. -/
  | l1Replacement (p core line : Nat)
  /-- YIELD_EXPIRY (R290): The n + 1 cycles of a yield run out, and the slot becomes a candidate again. -/
  | yieldExpiry (p wid : Nat) (sl : Slot)
  /-- ARRAY_UNCORRECTABLE (R276): An uncorrectable error in array storage or operands is handled as a check failure with DETAIL 2. -/
  | arrayUncorrectable (p core idx : Nat)
  /-- HOST_START_REFUSED (R310): A start request through a host port is refused without a record. -/
  | hostStartRefused (p vault : Nat) (atomicOp : Bool)
  /-- FIT_UNCORRECTABLE (R354): An uncorrectable engine storage error forces the region OFF. -/
  | fitUncorrectable (p cluster region : Nat) (evaluating : Bool)
  /-- NOTIFY_WRITE (R414): A write to a queue page's NOTIFY raises the packet count. -/
  | notifyWrite (p half q : Nat) (v : DWord)
  /-- APPLY_SUBMIT (R450): Takes a grid row, queues the grid and retries gang placement. -/
  | applySubmit (p : Nat)
  /-- APPLY_FINISH (R450): Marks a placement row finished and ends the grid when all are. -/
  | applyFinish (p : Nat)
  /-- APPLY_BLOCKED (R450): Updates a chip's capacities and retries placement. -/
  | applyBlocked (p : Nat)
  /-- APPLY_FAULT (R450): Ends a faulted grid. -/
  | applyFault (p : Nat)
  /-- APPLY_FENCE (R450): Marks a chip FENCED. -/
  | applyFence (p : Nat)
  /-- APPLY_CHIP_LOSS (R451): LoseChip fences the chip and re-places or ends its work. -/
  | applyChipLoss (p : Nat)
  /-- APPLY_JOIN (R450): Marks a joining chip JOINING with its capacities. -/
  | applyJoin (p : Nat)
  /-- APPLY_DIGEST (R456): Records a digest report and forms the verdict when the set completes. -/
  | applyDigest (p : Nat)
  /-- FLIT_RECEIVE (R377): A receiver accepts an in-order good packet flit or discards it and requests replay. -/
  | flitReceive (p plane : Nat) (flit : BitVec 512)
  /-- REPLAY_REQUEST (R377): A sender resends kept flits after the named LACK. -/
  | replayRequest (p plane : Nat) (lack : Byte)
  /-- LINK_DOWN (R377): 16 failed replays or 2 µs without a good flit takes the link down. -/
  | linkDown (p plane : Nat)
  /-- LINK_RETRAIN (R377): A down link is retrained every 1 ms. -/
  | linkRetrain (p plane : Nat) (trained : Bool)
  /-- WR (R378): A write packet of a put unit performed at the target. -/
  | wr (p net : Nat)
  /-- ACK (R378): Response acknowledging a write or ticket advance. -/
  | ack (p net : Nat)
  /-- RD (R378): A read request of a get unit. -/
  | rd (p net : Nat)
  /-- RDD (R378): Read data response. -/
  | rdd (p net : Nat)
  /-- AT (R378): A remote atomic group request. -/
  | atReq (p net : Nat)
  /-- ATR (R378): Remote atomic response with old values. -/
  | atr (p net : Nat)
  /-- TK (R378): A ticket request. -/
  | tk (p net : Nat)
  /-- TKR (R378): Ticket response. -/
  | tkr (p net : Nat)
  /-- TKW (R378): An incast put waits for its ticket to be served. -/
  | tkw (p net : Nat)
  /-- TKG (R378): Grant sent when SERVING equals the ticket. -/
  | tkg (p net : Nat)
  /-- TKA (R378): Advances SERVING after an incast command completes. -/
  | tka (p net : Nat)
  /-- CL_PARAMETERS (R378): Collective parameters message to the coordinator. -/
  | clParameters (p net : Nat)
  /-- CL_DATA (R378): Collective result bytes written into WORK. -/
  | clData (p net : Nat)
  /-- CL_READY (R389): A rank's READY message at the coordinator. -/
  | clReady (p net : Nat)
  /-- CL_DECISION (R389): Coordinator's decision message at a rank. -/
  | clDecision (p net : Nat)
  /-- CL_ABORT_REQUEST (R389): An abort request at the coordinator. -/
  | clAbortRequest (p net : Nat)
  /-- CL_LOSS_NOTICE (R378): Collective loss notice message. -/
  | clLossNotice (p net : Nat)
  /-- EVP (R379): Event proposal packet to the sequencer's switch. -/
  | evp (net : Nat)
  /-- EV (R379): Sequenced event packet multicast to chips. -/
  | ev (p net : Nat)
  /-- HB (R379): Heartbeat packet passed to the sequencer. -/
  | hb (net : Nat)
  /-- RTQ (R379): Request for missing events answered with EV packets. -/
  | rtq (net : Nat)
  /-- SNQ (R379): Snapshot or event tail request to a neighbour. -/
  | snq (p net : Nat)
  /-- SND (R379): Snapshot or tail data piece. -/
  | snd (p net : Nat)
  /-- FQANS_WRITE (R475): The driver answers a held fault record to retry or fail. -/
  | fqansWrite (p : Nat) (v : DWord)
  /-- TLBINV_PAGE (R471): Removes TLB entries for one page. -/
  | tlbinvPage (p : Nat) (asid : BitVec 16) (page : BitVec 36)
  /-- TLBINV_ASID (R471): Removes every TLB entry of an ASID. -/
  | tlbinvAsid (p : Nat) (asid : BitVec 16)
  /-- TLBINV_ALL (R471): Removes every TLB entry of the chip. -/
  | tlbinvAll (p : Nat)
  /-- ASTBASE_WRITE (R464): Places or disables the address-space table. -/
  | astbaseWrite (p : Nat) (v : DWord)
  /-- LINE_POISON (R478): An uncorrectable error marks a line poisoned. -/
  | linePoison (p line : Nat)
  /-- DBGCTL_NONE (R484): DBGCTL write setting debug fields with no action. -/
  | dbgctlNone (p port : Nat) (v : Word)
  /-- DBG_STOP (R294): Stops the selected waves at an instruction boundary. -/
  | dbgStop (p port : Nat) (v : Word)
  /-- DBG_RESUME (R295): Resumes selected waves, optionally loading from DBGBUF and stepping. -/
  | dbgResume (p port : Nat) (v : Word)
  /-- DBG_SNAPSHOT (R485): Writes a stopped wave's record and registers to DBGBUF. -/
  | dbgSnapshot (p port : Nat) (v : Word)
  /-- SEMTAS_READ (R412): Test-and-set read of the hardware semaphore. -/
  | semtasRead (p port : Nat)
  /-- SEMREL_WRITE (R412): The owning port releases the semaphore. -/
  | semrelWrite (p port : Nat)
  /-- HOST_LINK_DOWN (R413): Loss of the owning port's link frees the semaphore within 1 ms. -/
  | hostLinkDown (p port : Nat)
  /-- CONTROLLED_WRITE_DENIED (R411): A controlled write from the non-owning port is ignored and sets DENIED. -/
  | controlledWriteDenied (p port off : Nat) (v : DWord)
  /-- CHIP_RESET (R487): Reset by power-on, RESETCTL or fence ends all work, clears registers and boots. -/
  | chipReset (p port : Nat) (cause : ResetCause)
  /-- POWER_ON (R487): Power is applied and the chip resets. -/
  | powerOn (p : Nat)
  /-- PCAP_WRITE (R495): Sets the package power cap, in force within 1 ms. -/
  | pcapWrite (p port : Nat) (v : DWord)
  /-- FWUP_GO (R490): Starts verification of a firmware image. -/
  | fwupGo (p port : Nat) (v : DWord)
  /-- FW_VERIFY_DONE (R490): Verification ends, staging the image or reporting failure. -/
  | fwVerifyDone (p : Nat) (image : FwImage)
  /-- JOINCTL_GO (R491): Loads plane order and chip identifier and proposes JOIN. -/
  | joinctlGo (p port : Nat) (v : DWord)
  /-- ATTREQ_WRITE (R492): Starts an attestation report over a nonce. -/
  | attreqWrite (p : Nat) (v : DWord)
  /-- MBOX_BIND_REGION (R494): Binds a region number to engines and a code range. -/
  | mboxBindRegion (p : Nat) (cmd : DWord)
  /-- MBOX_WITHDRAW_REGION (R494): Withdraws a region number. -/
  | mboxWithdrawRegion (p : Nat) (cmd : DWord)
  /-- MBOX_SET_LRES (R494): Sets a cluster's reserved core count. -/
  | mboxSetLres (p : Nat) (cmd : DWord)
  /-- MBOX_SET_PARTITION (R494): Sets a cluster's collective partition count. -/
  | mboxSetPartition (p : Nat) (cmd : DWord)
  /-- MBOX_CLEAR_POISON (R494): Clears a poisoned line to zero. -/
  | mboxClearPoison (p : Nat) (cmd : DWord)
  /-- MBOX_CREATE_QUEUE (R494): Creates a queue. -/
  | mboxCreateQueue (p : Nat) (cmd : DWord)
  /-- MBOX_REMOVE_QUEUE (R494): Removes a queue. -/
  | mboxRemoveQueue (p : Nat) (cmd : DWord)
  /-- MBOX_REFUSED (R494): A malformed command record is refused. -/
  | mboxRefused (p : Nat) (cmd : DWord)
  /-- REGISTER_WRITE (R7): A write to a register with no row of its own acts per its Access code. -/
  | registerWrite (p port off : Nat) (v : DWord)
  /-- THERMAL_THROTTLE (R495): At 105 °C cycles are withheld. -/
  | thermalThrottle (p half : Nat)
  /-- THERMAL_SHUTDOWN (R495): At 120 °C the chip stops every unit and its heartbeats. -/
  | thermalShutdown (p half : Nat)
  /-- POWER_CAP_WITHHOLD (R495): Issue cycles are withheld to keep power under the cap. -/
  | powerCapWithhold (p : Nat)
  /-- PATROL_SCRUB (R499): The scrubber reads and corrects or poisons a line. -/
  | patrolScrub (p line : Nat) (found : ScrubResult)
  /-- LINE_CRC_RESEND (R496): A line CRC mismatch resends the line once, poisoning on a second. -/
  | lineCrcResend (p line : Nat) (second : Bool)
  /-- CORRECTED_ERROR (R503): A corrected error counts in CECNT and is logged at limited rate. -/
  | correctedError (p cls loc : Nat)
  /-- POWER_LOSS (R496): A package loses its supply and stops, so its heartbeats cease and the pod later detects a chip loss. -/
  | powerLoss (p : Nat)
  /-- SCHEDULER_DIVERGENCE (R456): An undetected upset changes a row of one replica's Peloton tables, so that its later point digest differs from the majority. -/
  | schedulerDivergence (replica : Option Nat) (upset : Upset)
  deriving DecidableEq, Repr

end Sys2Proof
end

