-- ==== Sys2Proof/Machine/Forms.lean ====
section
/-! DEFINITION. The encoding of each wave instruction as data: its opcode (R148), the operand classes, widths and modifiers it
accepts (R138 to R143 and the tables of its own chapter). The legality check, the decoder, the readiness of operands and
the meanings all read this one table. -/

namespace Sys2Proof

open Machine

/-! ## Types -/

/-- Width of a type in bits (R108, R143). -/
def Ty.width : Ty → Nat
  | .b32 | .i32 | .n32 | .f32 => 32
  | .b64 | .i64 | .n64 => 64
  | .i8 | .n8 | .e4m3 | .e5m2 => 8
  | .i16 | .n16 | .f16 | .bf16 => 16
  | .e2m1 => 4

/-- A signed integer type. -/
def Ty.signed : Ty → Bool
  | .i8 | .i16 | .i32 | .i64 => true
  | _ => false

/-- The 32-bit registers that a value of a type occupies (R52, R155). -/
def Ty.regs (t : Ty) : Nat := if Ty.width t = 64 then 2 else 1

/-- The code of a type (R143). -/
def Ty.code : Ty → Nat
  | .b32 => 0 | .b64 => 1 | .i8 => 2 | .i16 => 3 | .i32 => 4 | .i64 => 5 | .n8 => 6 | .n16 => 7
  | .n32 => 8 | .n64 => 9 | .f32 => 10 | .f16 => 11 | .bf16 => 12 | .e4m3 => 13 | .e5m2 => 14 | .e2m1 => 15

/-- The type of a code (R143); codes 0x10 and above name no type of the TYPE field. -/
def Ty.ofCode (n : Nat) : Option Ty :=
  [Ty.b32, .b64, .i8, .i16, .i32, .i64, .n8, .n16, .n32, .n64, .f32, .f16, .bf16, .e4m3, .e5m2, .e2m1][n]?

/-- The integer types of R158. -/
def tysInt : List Ty := [.i8, .i16, .i32, .i64, .n8, .n16, .n32, .n64]
/-- The raw types. -/
def tysRaw : List Ty := [.b32, .b64]
/-- The float types of R188. -/
def tysF : List Ty := [.f32, .f16, .bf16]
/-- An unused TYPE field (R138). -/
def tys0 : List Ty := [.b32]

/-- The other slot of a wave (R24). -/
def Slot.other : Slot → Slot
  | .A => .B
  | .B => .A

/-! ## Operand positions -/

/-- The four operand fields. -/
inductive Pos
  | d | a | b | c
  deriving DecidableEq, Repr

/-- The operand in a position. -/
def opAt (o : Ops) : Pos → Operand
  | .d => o.d | .a => o.a | .b => o.b | .c => o.c

/-- Whether an operand is indexed (R140). -/
def Operand.isIndexed : Operand → Bool
  | .indexed _ => true
  | _ => false

/-- Whether an operand selects the immediate (R139). -/
def Operand.isImm : Operand → Bool
  | .imm _ => true
  | _ => false

/-- Whether an operand is a lane register, direct or indexed. -/
def Operand.isLane : Operand → Bool
  | .lane _ | .indexed _ => true
  | _ => false

/-- Whether an operand is a uniform register. -/
def Operand.isUnif : Operand → Bool
  | .unif _ => true
  | _ => false

/-- Whether an operand is a predicate. -/
def Operand.isPred : Operand → Bool
  | .pred _ => true
  | _ => false

/-- Whether an operand is an index register. -/
def Operand.isIdx : Operand → Bool
  | .idx _ => true
  | _ => false

/-- The ten bits of a field that is no operand. -/
def Operand.raw : Operand → Nat
  | .bits v => v.toNat
  | _ => 0

/-- Whether any operand is indexed, so that WORD holds displacements (R140). -/
def Ops.anyIndexed (o : Ops) : Bool := o.d.isIndexed || o.a.isIndexed || o.b.isIndexed || o.c.isIndexed

/-- Whether a source selects the immediate, so that WORD holds it. -/
def Ops.anyImm (o : Ops) : Bool := o.a.isImm || o.b.isImm || o.c.isImm

/-- The byte of WORD that displaces an indexed operand (R140). -/
def Ops.disp (o : Ops) : Pos → Nat
  | .a => fld o.word.toNat 0 8
  | .b => fld o.word.toNat 8 8
  | .c => fld o.word.toNat 16 8
  | .d => fld o.word.toNat 24 8

/-- The modifier word: zero where WORD holds displacements or an immediate (R140, R187). -/
def Ops.modw (o : Ops) : Nat := if o.anyIndexed || o.anyImm then 0 else o.word.toNat

/-- The modifier word of an instruction whose WORD holds its modifiers beside an immediate (`cmp`, `fcmp`, `shfl`). -/
def Ops.modi (o : Ops) : Nat := if o.anyIndexed then 0 else o.word.toNat

/-- SRCC [42:36] of format M (R216). -/
def Ops.mmod (o : Ops) : Nat := fld o.c.raw 0 7

/-- The scope code of format M (R95, R141). -/
def Ops.scope (o : Ops) : Nat := fld o.c.raw 7 3

/-- The 42-bit immediate of format W (R141). -/
def Ops.imm42 (o : Ops) : Nat := o.c.raw * 2 ^ 32 + o.word.toNat

/-! ## Forms -/

/-- Operand classes (R139). -/
inductive Cls
  | lane | unif | pred | idx | handle | sreg | none | imm | bits
  deriving DecidableEq, Repr

/-- The class of an operand. -/
def Operand.cls : Operand → Cls
  | .lane _ | .indexed _ => .lane
  | .unif _ => .unif
  | .pred _ => .pred
  | .idx _ => .idx
  | .handle _ => .handle
  | .sreg _ => .sreg
  | .none => .none
  | .imm _ => .imm
  | .bits _ => .bits

/-- What an operand field accepts: its classes, how many consecutive 32-bit registers it names, the alignment of a direct
number (R142, R164), and the type whose narrow immediates are checked (R142). -/
structure Opd where
  cls : List Cls
  n : Nat := 1
  al : Nat := 1
  nar : Option Ty := Option.none

/-- A field that holds 0x300. -/
def Opd.none : Opd := { cls := [.none] }
/-- A lane register or a uniform register. -/
def Opd.lu (n : Nat) : Opd := { cls := [.lane, .unif], n := n, al := n }
/-- A lane register, a uniform register or an immediate of type `t`. -/
def Opd.lui (t : Ty) : Opd := { cls := [.lane, .unif, .imm], n := t.regs, al := t.regs, nar := some t }
/-- A lane register. -/
def Opd.l (n : Nat) : Opd := { cls := [.lane], n := n, al := n }
/-- A uniform register. -/
def Opd.u (n : Nat) : Opd := { cls := [.unif], n := n, al := n }
/-- A predicate. -/
def Opd.p : Opd := { cls := [.pred] }
/-- A field that is no operand. -/
def Opd.bits : Opd := { cls := [.bits] }

/-- The encoding of one operation (R135 to R143). `once`: it acts once for the path (R137). `laneSrc`: it accepts a lane source with
a uniform destination (R142). `cross`: it reads its source a across lanes (R201). `every`: it acts for every active lane of the path where its guard allows (R300,
R301). `sc`: format M takes a scope. `w42`: SRCC is part of the immediate of format W (R141). `ext`: what else its description asks. -/
structure Form where
  d : Opd := Opd.none
  a : Opd := Opd.none
  b : Opd := Opd.none
  c : Opd := Opd.none
  tys : List Ty := tys0
  hs : Bool := false
  ix : Bool := true
  modOk : Nat → Bool := fun w => w == 0
  immOk : Nat → Bool := fun _ => true
  once : Bool := false
  laneSrc : Bool := false
  cross : Bool := false
  every : Bool := false
  sc : Bool := false
  w42 : Bool := false
  mmod : Nat → Bool := fun m => m == 0
  ext : Bool := true

/-- What position `p` accepts. -/
def Form.opd (f : Form) : Pos → Opd
  | .d => f.d | .a => f.a | .b => f.b | .c => f.c

/-- The narrow pattern of an immediate of type `t` in `w` bits (R142). -/
def narrowOk (w : Nat) (t : Ty) (x : Nat) : Bool :=
  if w ≤ t.width then true
  else if t.signed then asSigned t.width x == asSigned w x
  else x / 2 ^ t.width == 0

/-- The legality of one operand field (R142). -/
def Opd.legal (s : Opd) (ix : Bool) (immw : Nat → Bool) (word : Nat) (o : Operand) : Bool :=
  s.cls.contains o.cls &&
  match o with
  | .lane n => n.toNat % s.al == 0 && n.toNat + s.n ≤ 256
  | .unif n => n.toNat % s.al == 0 && n.toNat + s.n ≤ 64
  | .indexed _ => ix
  | .imm .v32 => s.n ≠ 2 && (match s.nar with | Option.none => true | some t => narrowOk 32 t word) && immw word
  | .imm _ => s.n == 2 && immw word
  | _ => true

/-- Bytes of WORD that belong to no indexed operand are zero (R140). -/
def dispOk (o : Ops) : Bool :=
  (o.a.isIndexed || o.disp .a == 0) && (o.b.isIndexed || o.disp .b == 0) &&
  (o.c.isIndexed || o.disp .c == 0) && (o.d.isIndexed || o.disp .d == 0)

/-- Whether an EMODE bit stands only at lane and uniform sources (R138). -/
def emodeOk (o : Ops) : Bool :=
  (!o.em.getLsbD 2 || o.a.isLane || o.a.isUnif) && (!o.em.getLsbD 1 || o.b.isLane || o.b.isUnif) &&
  (!o.em.getLsbD 0 || o.c.isLane || o.c.isUnif)

/-- A lane or index source beside a uniform destination (R142). -/
def uniformOk (f : Form) (o : Ops) : Bool :=
  !o.d.isUnif || (!(o.a.isIdx || o.b.isIdx || o.c.isIdx) && (f.laneSrc || !(o.a.isLane || o.b.isLane || o.c.isLane)))

/-- What WORD holds (R138, R140, R141). -/
def wordOk (f : Form) (o : Ops) : Bool :=
  if o.anyIndexed then !o.anyImm && dispOk o && f.modOk 0 else o.anyImm || f.modOk o.word.toNat

/-- SRCC of format M: scope and modifier (R216). -/
def srccOk (f : Form) (o : Ops) : Bool :=
  !f.c.cls.contains .bits || f.w42 || !f.sc && o.c.raw / 128 == 0 && f.mmod o.mmod || f.sc && o.c.raw / 128 ≤ 4 && f.mmod o.mmod

/-- At most one source selects the immediate (R142). -/
def oneImm (o : Ops) : Bool := !(o.a.isImm && o.b.isImm || o.a.isImm && o.c.isImm || o.b.isImm && o.c.isImm)

/-- Every check of R138 to R143 on the fields of one operation. -/
def Form.legal (f : Form) (o : Ops) : Bool :=
  f.tys.contains o.ty && (f.hs || !o.hs) &&
  f.d.legal f.ix (fun _ => false) o.word.toNat o.d && f.a.legal f.ix f.immOk o.word.toNat o.a &&
  f.b.legal f.ix f.immOk o.word.toNat o.b && (f.c.cls.contains .bits || f.c.legal f.ix f.immOk o.word.toNat o.c) &&
  (!f.c.cls.contains .bits || o.c.cls == .bits) &&
  oneImm o && emodeOk o && uniformOk f o && wordOk f o && srccOk f o && f.ext

/-! ## Integer forms (R158 to R175) -/

/-- `op.T d, a, b` over registers and immediates. -/
def formInt2 (tys : List Ty) (hs : Bool) (o : Ops) : Form :=
  { d := Opd.lu o.ty.regs, a := Opd.lui o.ty, b := Opd.lui o.ty, tys := tys, hs := hs, once := o.d.isUnif }

/-- `op.T d, a, b, c`. -/
def formInt3 (tys : List Ty) (hs : Bool) (o : Ops) : Form := { formInt2 tys hs o with c := Opd.lui o.ty }

/-- `op.T d, a`. -/
def formInt1 (tys : List Ty) (hs : Bool) (o : Ops) : Form := { formInt2 tys hs o with b := Opd.none }

/-- `add` and `sub`, with the index operands of R160. -/
def formAddSub (o : Ops) : Form :=
  let f := formInt2 tysInt true o
  if o.ty = .i32 then
    { f with d := { f.d with cls := .idx :: f.d.cls }, a := { f.a with cls := .idx :: f.a.cls },
             b := { f.b with cls := .idx :: f.b.cls } }
  else f

/-- `add64` (R161). -/
def formAdd64 (o : Ops) : Form :=
  { d := Opd.lu 2, a := { cls := [.lane, .unif, .imm], n := 2, al := 2 }, b := Opd.lui .i32, tys := [.i32, .n32],
    once := o.d.isUnif }

/-- `kadd` (R163). -/
def formKadd (o : Ops) : Form :=
  { d := Opd.lu 4, a := Opd.lu 4, b := { cls := [.lane, .unif, .imm], n := 2, al := 2 }, tys := [.i64, .n64],
    once := o.d.isUnif }

/-- `lea` (R162). -/
def formLea (o : Ops) : Form :=
  { d := Opd.lu 2, a := Opd.lu 2, b := Opd.lu 1, tys := [.i32, .n32], ix := false, modOk := fun w => w < 32,
    once := o.d.isUnif }

/-- `and`, `or`, `xor`, with the predicate form of R166. -/
def formLogic2 (o : Ops) : Form :=
  if o.d.isPred then { d := Opd.p, a := Opd.p, b := Opd.p } else formInt2 tysRaw false o

/-- `not`, with its predicate form. -/
def formLogic1 (o : Ops) : Form :=
  if o.d.isPred then { d := Opd.p, a := Opd.p } else formInt1 tysRaw false o

/-- The shifts, whose amount is 32 bits (R165). -/
def formShift (o : Ops) : Form := { formInt2 tysRaw false o with b := Opd.lui .n32 }

/-- `clz` and `popc`, which write one register (R168). -/
def formCount (o : Ops) : Form := { formInt1 tysRaw false o with d := Opd.lu 1 }

/-- `bfx` (R169). -/
def formBfx (o : Ops) : Form := { formInt2 [.i32, .n32, .i64, .n64] false o with b := Opd.lui .n32 }

/-- `bfi` (R170). -/
def formBfi (o : Ops) : Form := { formInt3 tysRaw false o with b := Opd.lui .n32 }

/-- `cmp` (R171): the condition shares WORD with a 28-bit immediate. -/
def formCmp (o : Ops) : Form :=
  let cc := fun w : Nat => w / 2 ^ 28 ≤ (if tysRaw.contains o.ty then 1 else 5)
  let s : Opd := { cls := [.lane, .unif, .imm], n := o.ty.regs, al := o.ty.regs }
  { d := Opd.p, a := s, b := s, tys := tysInt ++ tysRaw, modOk := fun w => cc w && w % 2 ^ 28 == 0,
    immOk := fun w => cc w && narrowOk 28 o.ty (w % 2 ^ 28) }

/-- `sel` (R173). -/
def formSel (o : Ops) : Form := { formInt2 (tysInt ++ tysRaw) false o with c := Opd.p }

/-- `mov` (R174): the permitted forms, by destination and source class. -/
def formMov (o : Ops) : Form :=
  match o.d with
  | .pred _ => { d := Opd.p, a := { cls := [.lane, .unif, .pred] } }
  | .idx _ => { d := { cls := [.idx] }, a := { cls := [.lane, .unif, .imm] }, tys := [.i32] }
  | .handle _ => { d := { cls := [.handle] }, a := Opd.u 2, tys := [.b64], once := true }
  | .unif _ =>
    if o.a.cls = .handle then { d := Opd.u 2, a := { cls := [.handle] }, tys := [.b64], once := true }
    else { formInt1 tysRaw false o with d := Opd.u o.ty.regs }
  | _ =>
    if o.a.isPred then { d := Opd.l 1, a := Opd.p }
    else if o.a.isIdx then { d := Opd.l 1, a := { cls := [.idx] }, tys := [.i32] }
    else { formInt1 tysRaw false o with d := Opd.l o.ty.regs }

/-- `movi` (R175). -/
def formMovi (o : Ops) : Form :=
  { d := Opd.lu 2, c := Opd.bits, tys := [.b64], ix := false, modOk := fun _ => true, once := o.d.isUnif,
    w42 := true }

/-! ## Float and cross-lane forms (R187 to R213) -/

/-- The rounding mode of a modifier word (R187). -/
def rmOf (w : Nat) : Nat := fld w 29 3

/-- `fadd`, `fmul`: all modes; source c is the random operand of RS (R188). -/
def formFadd (o : Ops) : Form :=
  { formInt2 tysF true o with c := if rmOf o.modw = 4 then Opd.lu 1 else Opd.none,
                              modOk := fun w => rmOf w ≤ 4 && w % 2 ^ 29 == 0 }

/-- `fscale`, whose b is `.i32`. -/
def formFscale (o : Ops) : Form := { formFadd o with b := Opd.lui .i32 }

/-- `ffma`. -/
def formFfma (o : Ops) : Form := { formInt3 tysF true o with modOk := fun w => rmOf w ≤ 3 && w % 2 ^ 29 == 0 }

/-- `fmin`, `fmax`. -/
def formFmin (o : Ops) : Form := formInt2 tysF false o

/-- `fcmp` (R192). -/
def formFcmp (o : Ops) : Form :=
  let s : Opd := { cls := if o.ty = .f32 then [.lane, .unif] else [.lane, .unif, .imm] }
  { d := Opd.p, a := s, b := s, tys := tysF, modOk := fun w => w / 2 ^ 28 ≤ 7 && w % 2 ^ 28 == 0,
    immOk := fun w => w / 2 ^ 28 ≤ 7 && fld w 16 12 == 0 }

/-- `ffma2` (R190). -/
def formFfma2 (o : Ops) : Form :=
  { d := Opd.lu 2, a := Opd.lu 2, b := Opd.lu 2, c := Opd.lu 2, tys := [.f32], hs := true,
    modOk := fun w => rmOf w ≤ 3 && w % 2 ^ 29 == 0, once := o.d.isUnif }

/-- The formats between which `fcvt` converts (R194). -/
def tysCvtF : List Ty := [.f32, .f16, .bf16, .e4m3, .e5m2, .e2m1]

/-- STYPE of `fcvt` (R187). -/
def stypeOf (w : Nat) : Option Ty := Ty.ofCode (fld w 24 5)

/-- `fcvt` (R194). -/
def formFcvt (o : Ops) : Form :=
  let pairOk := fun w : Nat => match stypeOf w with
    | none => false
    | some s => tysCvtF.contains s && (tysCvtF.contains o.ty || tysInt.contains o.ty) ||
                tysInt.contains s && tysCvtF.contains o.ty
  { d := Opd.lu o.ty.regs, a := Opd.lu (((stypeOf o.modw).map Ty.regs).getD 1),
    b := if rmOf o.modw = 4 then Opd.lu 1 else Opd.none, tys := tysCvtF ++ tysInt, hs := true,
    modOk := fun w => rmOf w ≤ 4 && pairOk w && w % 2 ^ 24 == 0, once := o.d.isUnif }

/-- `hfma2` (R195). -/
def formHfma2 (o : Ops) : Form :=
  let s : Opd := { cls := [.lane, .unif, .imm] }
  { d := Opd.lu 1, a := s, b := s, c := s, tys := [.f16, .bf16], hs := true,
    modOk := fun w => rmOf w ≤ 3 && w % 2 ^ 29 == 0, once := o.d.isUnif }

/-- `dot4` (R196). -/
def formDot4 (o : Ops) : Form := formInt3 [.i32, .n32] true o

/-- The special functions (R197). -/
def formSf (sat : Bool) (o : Ops) : Form := formInt1 [.f32] sat o

/-- `shfl` (R202, R203). -/
def formShfl (o : Ops) : Form :=
  let m := fun w : Nat => fld w 27 3 == 0 && fld w 24 3 ≤ 5
  { d := Opd.l o.ty.regs, a := Opd.l o.ty.regs, b := { cls := [.lane, .unif, .imm] }, tys := tysRaw,
    modOk := fun w => m w && w % 2 ^ 24 == 0, immOk := fun w => m w && fld w 8 16 == 0, cross := true }

/-- `vote` (R204). -/
def formVote (o : Ops) : Form :=
  { d := { cls := [.unif, .pred] }, a := Opd.p,
    modOk := fun w => w % 2 ^ 30 == 0 && (!o.d.isPred || w ≠ 0), once := o.d.isUnif }

/-- `rfal` (R205). -/
def formRfal (o : Ops) : Form :=
  { d := Opd.u o.ty.regs, a := Opd.l o.ty.regs, tys := tysRaw, laneSrc := true, once := true }

/-- Whether operation `op` of `red.w` and `scan` accepts type `t` (R206). -/
def redOk (op : Nat) (t : Ty) : Bool :=
  op ≤ 2 && [Ty.i32, .n32, .i64, .n64].contains t || 3 ≤ op && op ≤ 5 && tysRaw.contains t ||
  6 ≤ op && op ≤ 8 && t == .f32

/-- Saturation is accepted with add and fadd (R206). -/
def redSat (o : Ops) : Bool := o.modw / 2 ^ 28 == 0 || o.modw / 2 ^ 28 == 6

/-- `red.w` (R208). -/
def formRedW (o : Ops) : Form :=
  { d := Opd.u o.ty.regs, a := Opd.l o.ty.regs, b := Opd.p, tys := [.i32, .n32, .i64, .n64, .b32, .b64, .f32],
    hs := redSat o, modOk := fun w => redOk (w / 2 ^ 28) o.ty && w % 2 ^ 28 == 0, laneSrc := true, once := true, cross := true }

/-- `scan` (R209). -/
def formScan (o : Ops) : Form :=
  { d := Opd.l o.ty.regs, a := Opd.l o.ty.regs, tys := [.i32, .n32, .i64, .n64, .b32, .b64, .f32],
    hs := redSat o, modOk := fun w => redOk (w / 2 ^ 28) o.ty && w % 2 ^ 27 == 0 }

/-- `match` (R210). -/
def formMatch (o : Ops) : Form :=
  { d := Opd.lu 1, a := Opd.l o.ty.regs, tys := tysRaw, laneSrc := true, once := o.d.isUnif, cross := true }

/-- `famax` (R199). -/
def formFamax (_o : Ops) : Form :=
  { d := Opd.l 1, a := Opd.l 1, tys := tysF, modOk := fun w => w == 0 || w == 2 ^ 28 }

/-- `fqb` (R200). -/
def formFqb (o : Ops) : Form :=
  { d := Opd.l 2, a := Opd.l 1, b := if rmOf o.modw = 4 then Opd.l 1 else Opd.none, tys := tysF,
    modOk := fun w => [0, 1, 4].contains (rmOf w) && fld w 24 3 ≤ 4 && w % 2 ^ 24 == 0 }

/-- `kcg` (R212). DESIGN CHOICE: b of a uniform d may be an immediate: R212 asks for a uniform a and b there, and R156 lets an immediate stand where
a uniform may. -/
def formKcg (o : Ops) : Form :=
  { d := Opd.lu 4, a := Opd.lu 4, b := { cls := [.lane, .unif, .imm], n := 2, al := 2 }, once := o.d.isUnif }

/-- `dmask` (R213). -/
def formDmask (_o : Ops) : Form :=
  { d := Opd.p, a := Opd.lui .n16, b := Opd.lu 4, c := Opd.lu 2, tys := [.n16] }

/-! ## Memory forms (R215 to R248) -/

/-- The types of loads and stores (R219). -/
def tysMem : List Ty := tysInt ++ tysRaw

/-- VEC (R220). -/
def vecOf (o : Ops) : Nat := fld o.mmod 5 2

/-- Registers moved by a load or store (R220). -/
def memRegs (o : Ops) : Nat :=
  match vecOf o with
  | 0 => o.ty.regs
  | 1 => 2 * o.ty.regs
  | _ => 4

/-- VEC against TYPE (R220). -/
def vecOk (o : Ops) : Bool :=
  match vecOf o with
  | 0 => true
  | 1 => tysRaw.contains o.ty
  | 2 => o.ty == .b32
  | _ => false

/-- Loads from memory (R219): `d` what the destination accepts, `a` what the address accepts. -/
def formLoad (d a : List Cls) (an : Nat) (o : Ops) : Form :=
  { d := { cls := d, n := memRegs o, al := memRegs o }, a := { cls := a, n := an, al := an }, c := Opd.bits, tys := tysMem,
    ix := false, modOk := fun _ => true, mmod := fun m => m % 32 == 0, ext := vecOk o, once := o.d.isUnif }

/-- Stores to memory (R219). They act once where address and data are uniform (R218). -/
def formStore (an : Nat) (o : Ops) : Form :=
  { a := Opd.lu an, b := Opd.lu (memRegs o), c := Opd.bits, tys := tysMem,
    ix := false, modOk := fun _ => true, mmod := fun m => m % 32 == 0, ext := vecOk o, once := o.a.isUnif && o.b.isUnif }

/-- AOP (R224). -/
def aopOf (o : Ops) : Nat := fld o.mmod 3 4

/-- Whether operation `op` of an atomic accepts type `t` (R225). -/
def aopOk (op : Nat) (t : Ty) : Bool :=
  op ≤ 2 && [Ty.i32, .n32, .i64, .n64].contains t || 3 ≤ op && op ≤ 7 && tysRaw.contains t || op == 8 && t == .f32

/-- Registers of b: the compare value of `cas` follows it (R226). -/
def atomB (o : Ops) : Nat := if aopOf o = 7 then 2 * o.ty.regs else o.ty.regs

/-- Atomics with a result (R224). -/
def formAtom (an : Nat) (o : Ops) : Form :=
  { d := Opd.lu o.ty.regs, a := Opd.lu an, b := Opd.lu (atomB o), c := Opd.bits, hs := true,
    tys := [.i32, .n32, .i64, .n64, .b32, .b64, .f32], ix := false, modOk := fun _ => true,
    mmod := fun m => m % 8 == 0 && aopOk (m / 8) o.ty, once := o.d.isUnif }

/-- `red` (R224). -/
def formRed (o : Ops) : Form :=
  { formAtom 2 o with d := Opd.none, hs := false, once := o.a.isUnif && o.b.isUnif,
                      mmod := fun m => m % 8 == 0 && aopOk (m / 8) o.ty && m / 8 ≠ 6 && m / 8 ≠ 7 }

/-- Words that `gath` reads (R229). -/
def gathN (o : Ops) : Nat := fld o.mmod 0 3 + 1

/-- `gath` (R229). -/
def formGath (o : Ops) : Form :=
  { d := { cls := [.lane], n := gathN o, al := 8 }, a := Opd.lu 2, b := Opd.lu 2, c := Opd.bits, ix := false,
    modOk := fun _ => true, mmod := fun m => m < 8 }

/-- `fence`, `acq`, `rel` (R230). -/
def formFence (_o : Ops) : Form := { c := Opd.bits, ix := false, sc := true, once := true }

/-- `pd` that is p0 to p6. -/
def pdOk (o : Ops) : Bool := o.d ≠ .pred 7

/-- `bar` (R231). -/
def formBar (o : Ops) : Form :=
  { d := { cls := [.pred, .none] }, c := Opd.bits, ix := false, sc := true, mmod := fun _ => true, once := true, ext := pdOk o }

/-- `pbar` of kind `k` (R232). -/
def formPbar (k : Nat) (o : Ops) : Form :=
  { d := if k = 3 then Opd.p else Opd.none, a := Opd.u 1, b := if k = 0 then Opd.u 1 else Opd.none, c := Opd.bits, ix := false,
    modOk := fun _ => true, sc := k ≠ 0, mmod := fun m => m % 4 == k && m < 8 && (2 ≤ k || m < 4), once := true,
    ext := pdOk o }

/-- `cpy`, `put`, `get` and the reducing forms (R235, R236): which of DL, SL, INC and ROP the variant takes. -/
def formCopy (dl sl inc rop : Bool) (_o : Ops) : Form :=
  { d := Opd.u 1, a := Opd.u 2, b := Opd.u 4, c := Opd.bits, tys := if rop then [.f32, .bf16, .i32] else tys0, ix := false,
    modOk := fun _ => true, once := true,
    mmod := fun m => (dl || !nbit m 6) && (sl || !nbit m 5) && (inc || !nbit m 3) && m % 2 == 0 &&
      (if rop then fld m 1 2 ≤ 2 else fld m 1 2 == 0) }

/-- `ticket` (R240). -/
def formTicket (_o : Ops) : Form := { d := Opd.u 1, a := Opd.u 1, c := Opd.bits, ix := false, once := true }

/-- `wwait`, `wfree`, `wpost` (R244). -/
def formWin (pd : Bool) (o : Ops) : Form :=
  { d := if pd then Opd.p else Opd.none, a := { cls := [.handle] }, b := { cls := [.unif, .imm] }, once := true,
    ext := pdOk o }

/-- `obit` of op `k` (R246). -/
def formObit (k : Nat) (_o : Ops) : Form :=
  { d := if k = 2 then Opd.p else Opd.none, a := Opd.u 1, modOk := fun w => w == k, once := true }

/-- `res` of op `k` (R247). -/
def formRes (k : Nat) (_o : Ops) : Form :=
  { d := Opd.u (if k = 0 then 4 else 1), a := if k = 0 then Opd.none else { cls := [.handle] },
    b := if k = 0 then Opd.u 4 else if k = 5 then Opd.u 1 else Opd.none, modOk := fun w => w == k, once := true }

/-- `qemit` (R248). -/
def formQemit (_o : Ops) : Form := { d := Opd.u 1, a := Opd.u 1, b := Opd.u 1, once := true }

/-! ## Matrix, system and control forms (R258, R287, R299, R305, R176) -/

/-- Array commands with the sources and the WORD that R258 gives them. -/
def formArr (a b c : Opd) (bound : Nat) : Form := { a := a, b := b, c := c, modOk := fun w => w < bound, once := true }

/-- A barrier object address or 0x300. -/
def Opd.bo : Opd := { cls := [.unif, .none] }

/-- `mdrain` (R258). -/
def formMdrain (_o : Ops) : Form :=
  { formArr (Opd.u 1) Opd.bo Opd.none (2 ^ 19) with
    tys := [.f32, .f16, .bf16, .e4m3, .e5m2, .i8, .n8, .i16, .n16, .i32] }

/-- `mstat` (R258). -/
def formMstat (_o : Ops) : Form := { d := Opd.u 2, modOk := fun w => w == 0 || w == 2 ^ 16, once := true }

/-- An instruction all of whose fields hold 0x300, 0x0 and zero. -/
def formBare (once : Bool) : Form := { once := once }

/-- `coll` of kind `k` (R305). -/
def formColl (k : Nat) (_o : Ops) : Form :=
  { d := Opd.u 1, a := { cls := [.handle] }, b := Opd.bo, tys := [.f32, .f16, .bf16, .e4m3, .e5m2, .i32, .i8],
    modOk := fun w => w % 16 == k && w / 16 ≤ 2 && (k ≤ 1 || w < 16), once := true }

/-- `coll.wait` (R305). -/
def formCollWait (_o : Ops) : Form := { d := Opd.u 1, a := { cls := [.handle] }, once := true }

/-- `coll.abort` (R305). -/
def formCollAbort (_o : Ops) : Form := { a := { cls := [.handle] }, once := true }

/-- `br` (R176). -/
def formBr (_o : Ops) : Form :=
  { c := Opd.bits, hs := true, ix := false, modOk := fun _ => true, w42 := true }

/-- `brx` (R176). -/
def formBrx (_o : Ops) : Form := { a := Opd.lu 2, hs := true }

/-- The frame field of `call` and `ret` (R177). -/
def frameOk (o : Ops) : Bool := o.d.raw < 64

/-- F of `call` and `ret` (R177). -/
def frameOf (o : Ops) : Nat := 4 * (o.d.raw % 64 + 1)

/-- `call` (R176): the indirect form has a zero immediate. -/
def formCall (o : Ops) : Form :=
  { d := Opd.bits, a := { cls := [.none, .lane, .unif], n := 2, al := 2 }, c := Opd.bits, hs := true, ix := false,
    modOk := fun w => o.a == .none || w == 0, w42 := true,
    ext := frameOk o && (o.a == .none || o.c.raw == 0) }

/-- `ret` (R176). -/
def formRet (o : Ops) : Form := { d := Opd.bits, hs := true, ext := frameOk o }

/-- `trap n` (R287). -/
def formTrap (_o : Ops) : Form := { modOk := fun w => w < 2 ^ 16, once := true }

/-- `trap.res` (R287). -/
def formTrapRes (_o : Ops) : Form := { modOk := fun w => w == 2 ^ 30 || w == 2 ^ 30 + 1, once := true }

/-- `trap.ret` (R287). -/
def formTrapRet (_o : Ops) : Form := { a := Opd.u 2, modOk := fun w => w == 2 ^ 31, once := true }

/-- `getsr` (R287, R288): `sr.lane` only into a lane destination. -/
def formGetsr (o : Ops) : Form :=
  { d := Opd.lu 1, a := { cls := [.sreg] }, once := o.d.isUnif, ext := !(o.d.isUnif && o.a == .sreg .lane) }

/-- `setsr` (R287). -/
def formSetsr (_o : Ops) : Form := { d := { cls := [.sreg] }, a := { cls := [.unif, .imm] }, once := true }

/-- I and O of `apx.begin` and `apx.end` (R299). -/
def apxI (o : Ops) : Nat := fld o.modw 6 3 + 1
/-- See `apxI`. -/
def apxO (o : Ops) : Nat := fld o.modw 9 2 + 1

/-- `apx.begin` (R299). -/
def formApxBegin (o : Ops) : Form :=
  { d := { cls := [.lane], n := apxO o }, a := { cls := [.lane], n := apxI o }, tys := [.f32],
    modOk := fun w => fld w 11 2 == 0, once := true, every := true }

/-- `apx.end` (R299). -/
def formApxEnd (o : Ops) : Form :=
  { a := { cls := [.lane], n := apxO o }, tys := [.f32], modOk := fun w => fld w 6 3 == 0 && w / 2 ^ 11 == 0, once := true, every := true }

/-- `apx.ctl` of op `k` (R299). -/
def formApxCtl (k : Nat) (_o : Ops) : Form :=
  { d := Opd.u 1, a := Opd.u 1, b := Opd.u 2, once := true,
    modOk := fun w => w % 8 == k && (if k = 1 then w < 256 else w < 8) }

/-! ## Opcodes (R148) -/

/-- The fields of a wave instruction; none for stream commands and events. -/
def opsOf : Instr → Option Ops
  | .add o | .sub o | .mul o | .mulHi o | .mad o | .madHi o | .min o | .max o | .abs o | .neg o | .add64 o | .kadd o | .lea o
  | .and o | .or o | .xor o | .not o | .shl o | .shr o | .sar o | .rot o | .clz o | .popc o | .brev o | .bfx o | .bfi o
  | .cmp o | .sel o | .mov o | .movi o
  | .fadd o | .fmul o | .ffma o | .fmin o | .fmax o | .fcmp o | .fscale o | .ffma2 o | .fcvt o | .hfma2 o | .dot4 o
  | .rcp o | .rsq o | .sqrt o | .exp2 o | .log2 o | .sin o | .cos o | .tanh o
  | .shfl o | .vote o | .rfal o | .redW o | .scan o | .matchLanes o | .famax o | .fqb o | .kcg o | .dmask o
  | .ld o | .ldu o | .ldByp o | .lduByp o | .st o | .lds o | .sts o
  | .atom o | .atomL o | .red o | .gath o | .ratom o
  | .fence o | .acq o | .rel o | .bar o | .pbarInit o | .pbarArr o | .pbarWait o | .pbarTest o
  | .cpy o | .put o | .get o | .putRed o | .getRed o | .ticket o
  | .wwait o | .wwaitTest o | .wfree o | .wpost o | .obitGive o | .obitWait o | .obitTest o
  | .resAlloc o | .resPin o | .resDemote o | .resEvict o | .resFree o | .resPrio o | .qemit o
  | .mwld o | .mcb o | .mld o | .mst o | .mzero o | .mma o | .mmaT o | .mdrain o | .mstat o | .msync o
  | .collAllreduce o | .collRedscat o | .collAllgath o | .collBcast o | .collAlltoall o | .collWait o | .collAbort o
  | .nop o | .br o | .brx o | .call o | .ret o | .exit o
  | .trap o | .trapRes o | .trapRet o | .brk o | .getsr o | .setsr o | .yield o | .cyc o | .icinv o | .icinvChip o
  | .fgSync o | .fgClk o
  | .apxBegin o | .apxEnd o | .apxCtlState o | .apxCtlRegister o | .apxCtlLoad o | .apxCtlSave o | .apxInval o
  | .apxStat o => some o
  | _ => none

/-- Major opcode and variant of a wave instruction (R148). -/
def codeOf : Instr → Option (Nat × Nat)
  | .add _ => some (0x01, 0)
  | .sub _ => some (0x01, 1)
  | .mul _ => some (0x01, 2)
  | .mulHi _ => some (0x01, 3)
  | .mad _ => some (0x01, 4)
  | .madHi _ => some (0x01, 5)
  | .min _ => some (0x01, 6)
  | .max _ => some (0x01, 7)
  | .abs _ => some (0x01, 8)
  | .neg _ => some (0x01, 9)
  | .add64 _ => some (0x01, 10)
  | .kadd _ => some (0x01, 11)
  | .lea _ => some (0x01, 12)
  | .and _ => some (0x02, 0)
  | .or _ => some (0x02, 1)
  | .xor _ => some (0x02, 2)
  | .not _ => some (0x02, 3)
  | .shl _ => some (0x02, 4)
  | .shr _ => some (0x02, 5)
  | .sar _ => some (0x02, 6)
  | .rot _ => some (0x02, 7)
  | .clz _ => some (0x02, 8)
  | .popc _ => some (0x02, 9)
  | .brev _ => some (0x02, 10)
  | .bfx _ => some (0x02, 11)
  | .bfi _ => some (0x02, 12)
  | .cmp _ => some (0x03, 0)
  | .sel _ => some (0x03, 1)
  | .mov _ => some (0x03, 2)
  | .movi _ => some (0x03, 3)
  | .fadd _ => some (0x04, 0)
  | .fmul _ => some (0x04, 1)
  | .ffma _ => some (0x04, 2)
  | .fmin _ => some (0x04, 3)
  | .fmax _ => some (0x04, 4)
  | .fcmp _ => some (0x04, 5)
  | .fscale _ => some (0x04, 6)
  | .ffma2 _ => some (0x04, 7)
  | .fcvt _ => some (0x05, 0)
  | .hfma2 _ => some (0x05, 1)
  | .dot4 _ => some (0x05, 2)
  | .rcp _ => some (0x40, 0)
  | .rsq _ => some (0x40, 1)
  | .sqrt _ => some (0x40, 2)
  | .exp2 _ => some (0x40, 3)
  | .log2 _ => some (0x40, 4)
  | .sin _ => some (0x40, 5)
  | .cos _ => some (0x40, 6)
  | .tanh _ => some (0x40, 7)
  | .shfl _ => some (0x41, 0)
  | .vote _ => some (0x41, 1)
  | .rfal _ => some (0x41, 2)
  | .redW _ => some (0x41, 3)
  | .scan _ => some (0x41, 4)
  | .matchLanes _ => some (0x41, 5)
  | .famax _ => some (0x42, 0)
  | .fqb _ => some (0x42, 1)
  | .kcg _ => some (0x43, 0)
  | .dmask _ => some (0x43, 1)
  | .ld _ => some (0x80, 0)
  | .ldu _ => some (0x80, 1)
  | .ldByp _ => some (0x80, 2)
  | .lduByp _ => some (0x80, 3)
  | .st _ => some (0x80, 4)
  | .lds _ => some (0x81, 0)
  | .sts _ => some (0x81, 1)
  | .atom _ => some (0x82, 0)
  | .atomL _ => some (0x82, 1)
  | .red _ => some (0x82, 2)
  | .gath _ => some (0x82, 3)
  | .ratom _ => some (0x82, 4)
  | .fence _ => some (0x83, 0)
  | .acq _ => some (0x83, 1)
  | .rel _ => some (0x83, 2)
  | .bar _ => some (0x83, 3)
  | .pbarInit _ | .pbarArr _ | .pbarWait _ | .pbarTest _ => some (0x83, 4)
  | .cpy _ => some (0x84, 0)
  | .put _ => some (0x84, 1)
  | .get _ => some (0x84, 2)
  | .putRed _ => some (0x84, 3)
  | .getRed _ => some (0x84, 4)
  | .ticket _ => some (0x84, 5)
  | .wwait _ | .wwaitTest _ => some (0x85, 0)
  | .wfree _ => some (0x85, 1)
  | .wpost _ => some (0x85, 2)
  | .obitGive _ | .obitWait _ | .obitTest _ => some (0x85, 3)
  | .resAlloc _ | .resPin _ | .resDemote _ | .resEvict _ | .resFree _ | .resPrio _ => some (0x86, 0)
  | .qemit _ => some (0x86, 1)
  | .mwld _ => some (0x87, 0)
  | .mcb _ => some (0x87, 1)
  | .mld _ => some (0x87, 2)
  | .mst _ => some (0x87, 3)
  | .mzero _ => some (0x87, 4)
  | .mma _ => some (0x88, 0)
  | .mmaT _ => some (0x88, 1)
  | .mdrain _ => some (0x88, 2)
  | .mstat _ => some (0x88, 3)
  | .msync _ => some (0x88, 4)
  | .collAllreduce _ | .collRedscat _ | .collAllgath _ | .collBcast _ | .collAlltoall _ => some (0x89, 0)
  | .collWait _ => some (0x89, 1)
  | .collAbort _ => some (0x89, 2)
  | .nop _ => some (0xC0, 0)
  | .br _ => some (0xC0, 1)
  | .brx _ => some (0xC0, 2)
  | .call _ => some (0xC0, 3)
  | .ret _ => some (0xC0, 4)
  | .exit _ => some (0xC0, 5)
  | .trap _ | .trapRes _ | .trapRet _ => some (0xC1, 0)
  | .brk _ => some (0xC1, 1)
  | .getsr _ => some (0xC1, 2)
  | .setsr _ => some (0xC1, 3)
  | .yield _ => some (0xC1, 4)
  | .cyc _ => some (0xC1, 5)
  | .icinv _ | .icinvChip _ => some (0xC1, 6)
  | .fgSync _ => some (0xC2, 0)
  | .fgClk _ => some (0xC2, 1)
  | .apxBegin _ => some (0xC3, 0)
  | .apxEnd _ => some (0xC3, 1)
  | .apxCtlState _ | .apxCtlRegister _ | .apxCtlLoad _ | .apxCtlSave _ => some (0xC3, 2)
  | .apxInval _ => some (0xC3, 3)
  | .apxStat _ => some (0xC3, 4)
  | _ => none

/-- The encoding of a wave instruction, by its constructor. -/
def formOf : Instr → Option Form
  | .add o | .sub o => some (formAddSub o)
  | .mul o => some (formInt2 tysInt true o)
  | .mulHi o | .min o | .max o => some (formInt2 tysInt false o)
  | .mad o => some (formInt3 tysInt true o)
  | .madHi o => some (formInt3 tysInt false o)
  | .abs o => some (formInt1 [.i8, .i16, .i32, .i64] true o)
  | .neg o => some (formInt1 tysInt true o)
  | .add64 o => some (formAdd64 o)
  | .kadd o => some (formKadd o)
  | .lea o => some (formLea o)
  | .and o | .or o | .xor o => some (formLogic2 o)
  | .not o => some (formLogic1 o)
  | .shl o | .shr o | .sar o | .rot o => some (formShift o)
  | .clz o | .popc o => some (formCount o)
  | .brev o => some (formInt1 tysRaw false o)
  | .bfx o => some (formBfx o)
  | .bfi o => some (formBfi o)
  | .cmp o => some (formCmp o)
  | .sel o => some (formSel o)
  | .mov o => some (formMov o)
  | .movi o => some (formMovi o)
  | .fadd o | .fmul o => some (formFadd o)
  | .ffma o => some (formFfma o)
  | .fmin o | .fmax o => some (formFmin o)
  | .fcmp o => some (formFcmp o)
  | .fscale o => some (formFscale o)
  | .ffma2 o => some (formFfma2 o)
  | .fcvt o => some (formFcvt o)
  | .hfma2 o => some (formHfma2 o)
  | .dot4 o => some (formDot4 o)
  | .rcp o | .rsq o | .exp2 o => some (formSf true o)
  | .sqrt o | .log2 o | .sin o | .cos o | .tanh o => some (formSf false o)
  | .shfl o => some (formShfl o)
  | .vote o => some (formVote o)
  | .rfal o => some (formRfal o)
  | .redW o => some (formRedW o)
  | .scan o => some (formScan o)
  | .matchLanes o => some (formMatch o)
  | .famax o => some (formFamax o)
  | .fqb o => some (formFqb o)
  | .kcg o => some (formKcg o)
  | .dmask o => some (formDmask o)
  | .ld o | .ldByp o => some (formLoad [.lane] [.lane, .unif] 2 o)
  | .ldu o | .lduByp o => some (formLoad [.unif] [.unif] 2 o)
  | .st o => some (formStore 2 o)
  | .lds o => some (formLoad [.lane, .unif] [.lane, .unif] 1 o)
  | .sts o => some (formStore 1 o)
  | .atom o | .ratom o => some (formAtom 2 o)
  | .atomL o => some (formAtom 1 o)
  | .red o => some (formRed o)
  | .gath o => some (formGath o)
  | .fence o | .acq o | .rel o => some (formFence o)
  | .bar o => some (formBar o)
  | .pbarInit o => some (formPbar 0 o)
  | .pbarArr o => some (formPbar 1 o)
  | .pbarWait o => some (formPbar 2 o)
  | .pbarTest o => some (formPbar 3 o)
  | .cpy o => some (formCopy true true false false o)
  | .put o => some (formCopy false true true false o)
  | .get o => some (formCopy true false false false o)
  | .putRed o => some (formCopy false true true true o)
  | .getRed o => some (formCopy true false false true o)
  | .ticket o => some (formTicket o)
  | .wwait o | .wfree o | .wpost o => some (formWin false o)
  | .wwaitTest o => some (formWin true o)
  | .obitGive o => some (formObit 0 o)
  | .obitWait o => some (formObit 1 o)
  | .obitTest o => some (formObit 2 o)
  | .resAlloc o => some (formRes 0 o)
  | .resPin o => some (formRes 1 o)
  | .resDemote o => some (formRes 2 o)
  | .resEvict o => some (formRes 3 o)
  | .resFree o => some (formRes 4 o)
  | .resPrio o => some (formRes 5 o)
  | .qemit o => some (formQemit o)
  | .mwld _ => some (formArr (Opd.u 1) (Opd.u 1) Opd.none 4)
  | .mcb _ => some (formArr (Opd.u 8) Opd.none Opd.none 4)
  | .mld _ | .mst _ => some (formArr (Opd.u 1) Opd.none Opd.none (2 ^ 18))
  | .mzero _ => some (formArr Opd.none Opd.none Opd.none (2 ^ 17))
  | .mma _ | .mmaT _ => some (formArr (Opd.u 1) (Opd.u 1) Opd.bo (2 ^ 32))
  | .mdrain o => some (formMdrain o)
  | .mstat o => some (formMstat o)
  | .msync _ | .icinv _ | .fgSync _ => some (formBare true)
  | .collAllreduce o => some (formColl 0 o)
  | .collRedscat o => some (formColl 1 o)
  | .collAllgath o => some (formColl 2 o)
  | .collBcast o => some (formColl 3 o)
  | .collAlltoall o => some (formColl 4 o)
  | .collWait o => some (formCollWait o)
  | .collAbort o => some (formCollAbort o)
  | .nop _ | .exit _ => some (formBare false)
  | .br o => some (formBr o)
  | .brx o => some (formBrx o)
  | .call o => some (formCall o)
  | .ret o => some (formRet o)
  | .trap o | .brk o => some (formTrap o)
  | .trapRes o => some (formTrapRes o)
  | .trapRet o => some (formTrapRet o)
  | .getsr o => some (formGetsr o)
  | .setsr o => some (formSetsr o)
  | .yield _ => some { modOk := fun w => w < 256, once := true }
  | .cyc _ | .fgClk _ => some { d := Opd.u 2, once := true }
  | .icinvChip _ => some { modOk := fun w => w == 1, once := true }
  | .apxBegin o => some (formApxBegin o)
  | .apxEnd o => some (formApxEnd o)
  | .apxCtlState o => some (formApxCtl 0 o)
  | .apxCtlRegister o => some (formApxCtl 1 o)
  | .apxCtlLoad o => some (formApxCtl 2 o)
  | .apxCtlSave o => some (formApxCtl 3 o)
  | .apxInval _ => some { a := { cls := [.unif, .imm] }, once := true }
  | .apxStat _ => some { d := Opd.u 2, a := Opd.u 1, once := true }
  | _ => none

/-- The operation of a major opcode and variant with fields `o`; the modifier tells the kinds of one variant apart (R148 and the tables
of `trap`, `pbar`, `obit`, `res`, `coll`, `icinv`, `apx.ctl`, `wwait`). -/
def build (major variant : Nat) (o : Ops) : Option Instr :=
  match major, variant with
  | 0x01, 0 => some (.add o)
  | 0x01, 1 => some (.sub o)
  | 0x01, 2 => some (.mul o)
  | 0x01, 3 => some (.mulHi o)
  | 0x01, 4 => some (.mad o)
  | 0x01, 5 => some (.madHi o)
  | 0x01, 6 => some (.min o)
  | 0x01, 7 => some (.max o)
  | 0x01, 8 => some (.abs o)
  | 0x01, 9 => some (.neg o)
  | 0x01, 10 => some (.add64 o)
  | 0x01, 11 => some (.kadd o)
  | 0x01, 12 => some (.lea o)
  | 0x02, 0 => some (.and o)
  | 0x02, 1 => some (.or o)
  | 0x02, 2 => some (.xor o)
  | 0x02, 3 => some (.not o)
  | 0x02, 4 => some (.shl o)
  | 0x02, 5 => some (.shr o)
  | 0x02, 6 => some (.sar o)
  | 0x02, 7 => some (.rot o)
  | 0x02, 8 => some (.clz o)
  | 0x02, 9 => some (.popc o)
  | 0x02, 10 => some (.brev o)
  | 0x02, 11 => some (.bfx o)
  | 0x02, 12 => some (.bfi o)
  | 0x03, 0 => some (.cmp o)
  | 0x03, 1 => some (.sel o)
  | 0x03, 2 => some (.mov o)
  | 0x03, 3 => some (.movi o)
  | 0x04, 0 => some (.fadd o)
  | 0x04, 1 => some (.fmul o)
  | 0x04, 2 => some (.ffma o)
  | 0x04, 3 => some (.fmin o)
  | 0x04, 4 => some (.fmax o)
  | 0x04, 5 => some (.fcmp o)
  | 0x04, 6 => some (.fscale o)
  | 0x04, 7 => some (.ffma2 o)
  | 0x05, 0 => some (.fcvt o)
  | 0x05, 1 => some (.hfma2 o)
  | 0x05, 2 => some (.dot4 o)
  | 0x40, 0 => some (.rcp o)
  | 0x40, 1 => some (.rsq o)
  | 0x40, 2 => some (.sqrt o)
  | 0x40, 3 => some (.exp2 o)
  | 0x40, 4 => some (.log2 o)
  | 0x40, 5 => some (.sin o)
  | 0x40, 6 => some (.cos o)
  | 0x40, 7 => some (.tanh o)
  | 0x41, 0 => some (.shfl o)
  | 0x41, 1 => some (.vote o)
  | 0x41, 2 => some (.rfal o)
  | 0x41, 3 => some (.redW o)
  | 0x41, 4 => some (.scan o)
  | 0x41, 5 => some (.matchLanes o)
  | 0x42, 0 => some (.famax o)
  | 0x42, 1 => some (.fqb o)
  | 0x43, 0 => some (.kcg o)
  | 0x43, 1 => some (.dmask o)
  | 0x80, 0 => some (.ld o)
  | 0x80, 1 => some (.ldu o)
  | 0x80, 2 => some (.ldByp o)
  | 0x80, 3 => some (.lduByp o)
  | 0x80, 4 => some (.st o)
  | 0x81, 0 => some (.lds o)
  | 0x81, 1 => some (.sts o)
  | 0x82, 0 => some (.atom o)
  | 0x82, 1 => some (.atomL o)
  | 0x82, 2 => some (.red o)
  | 0x82, 3 => some (.gath o)
  | 0x82, 4 => some (.ratom o)
  | 0x83, 0 => some (.fence o)
  | 0x83, 1 => some (.acq o)
  | 0x83, 2 => some (.rel o)
  | 0x83, 3 => some (.bar o)
  | 0x83, 4 => (match fld o.mmod 0 2 with | 0 => some (.pbarInit o) | 1 => some (.pbarArr o) | 2 => some (.pbarWait o) | 3 => some (.pbarTest o) | _ => none)
  | 0x84, 0 => some (.cpy o)
  | 0x84, 1 => some (.put o)
  | 0x84, 2 => some (.get o)
  | 0x84, 3 => some (.putRed o)
  | 0x84, 4 => some (.getRed o)
  | 0x84, 5 => some (.ticket o)
  | 0x85, 0 => some (if o.d.isPred then .wwaitTest o else .wwait o)
  | 0x85, 1 => some (.wfree o)
  | 0x85, 2 => some (.wpost o)
  | 0x85, 3 => (match o.modw % 4 with | 0 => some (.obitGive o) | 1 => some (.obitWait o) | 2 => some (.obitTest o) | _ => none)
  | 0x86, 0 => (match o.modw % 8 with | 0 => some (.resAlloc o) | 1 => some (.resPin o) | 2 => some (.resDemote o) | 3 => some (.resEvict o) | 4 => some (.resFree o) | 5 => some (.resPrio o) | _ => none)
  | 0x86, 1 => some (.qemit o)
  | 0x87, 0 => some (.mwld o)
  | 0x87, 1 => some (.mcb o)
  | 0x87, 2 => some (.mld o)
  | 0x87, 3 => some (.mst o)
  | 0x87, 4 => some (.mzero o)
  | 0x88, 0 => some (.mma o)
  | 0x88, 1 => some (.mmaT o)
  | 0x88, 2 => some (.mdrain o)
  | 0x88, 3 => some (.mstat o)
  | 0x88, 4 => some (.msync o)
  | 0x89, 0 => (match o.modw % 16 with | 0 => some (.collAllreduce o) | 1 => some (.collRedscat o) | 2 => some (.collAllgath o) | 3 => some (.collBcast o) | 4 => some (.collAlltoall o) | _ => none)
  | 0x89, 1 => some (.collWait o)
  | 0x89, 2 => some (.collAbort o)
  | 0xC0, 0 => some (.nop o)
  | 0xC0, 1 => some (.br o)
  | 0xC0, 2 => some (.brx o)
  | 0xC0, 3 => some (.call o)
  | 0xC0, 4 => some (.ret o)
  | 0xC0, 5 => some (.exit o)
  | 0xC1, 0 => (match o.modw / 2 ^ 30 with | 0 => some (.trap o) | 1 => some (.trapRes o) | 2 => some (.trapRet o) | _ => none)
  | 0xC1, 1 => some (.brk o)
  | 0xC1, 2 => some (.getsr o)
  | 0xC1, 3 => some (.setsr o)
  | 0xC1, 4 => some (.yield o)
  | 0xC1, 5 => some (.cyc o)
  | 0xC1, 6 => (match o.modw % 2 with | 0 => some (.icinv o) | 1 => some (.icinvChip o) | _ => none)
  | 0xC2, 0 => some (.fgSync o)
  | 0xC2, 1 => some (.fgClk o)
  | 0xC3, 0 => some (.apxBegin o)
  | 0xC3, 1 => some (.apxEnd o)
  | 0xC3, 2 => (match o.modw % 8 with | 0 => some (.apxCtlState o) | 1 => some (.apxCtlRegister o) | 2 => some (.apxCtlLoad o) | 3 => some (.apxCtlSave o) | _ => none)
  | 0xC3, 3 => some (.apxInval o)
  | 0xC3, 4 => some (.apxStat o)
  | _, _ => none

end Sys2Proof
end

