-- ==== Sys2Proof/WellFormed.lean ====
section
/-! DEFINITION. Which instructions have an encoding: the checks of R138 to R143 on a wave instruction, through its form, and
the one check that R322 puts between two fields of a stream command. Events have no encoding and nothing to check. -/

namespace Sys2Proof

/-- The fields of the instruction are ones that its encoding admits. -/
def Instr.wf (i : Instr) : Bool :=
  match opsOf i, formOf i with
  | some o, some f => f.legal o
  | _, _ => match i with
    | .fetchs _ _ _ s sm1 => s ≤ sm1
    | _ => true

end Sys2Proof
end

