-- ==== Sys2Proof/Decode.lean ====
section
/-! DEFINITION. The decoder of wave instructions (R135, R139, R148) and of stream commands (R321, R322), total on any bits, and the
encoder written from the same tables. -/

namespace Sys2Proof

open Machine

/-- Why bits are no instruction. -/
inductive DecodeError
  /-- An unassigned major opcode or variant (R148), or an unassigned kind of one. -/
  | noOpcode
  /-- An operand field that names nothing (R139). -/
  | noOperand
  /-- A reserved field not zero, or an operand, selector, modifier or type that the instruction does not accept (R138 to R143). -/
  | illegalField
  /-- A stream command with opcode 0x18 to 0x1F, a reserved bit set, or s > S - 1 (R322). -/
  | illegalCommand
  deriving DecidableEq, Repr

/-! ## Operand fields (R139) -/

/-- The number of a special register (R139, R284). -/
def SReg.code : SReg → Nat
  | .grid => 0x40 | .cohort => 0x41 | .block => 0x42 | .stage => 0x43 | .wave => 0x44 | .lane => 0x45 | .chip => 0x46
  | .flags => 0x48 | .lclock => 0x49 | .cause => 0x4A | .epcl => 0x4B | .epch => 0x4C | .emask => 0x4D | .einfo0 => 0x4E
  | .einfo1 => 0x4F | .einfo2 => 0x50 | .dbg => 0x51

/-- The special register of a number. -/
def SReg.ofCode : Nat → Option SReg
  | 0x40 => some .grid | 0x41 => some .cohort | 0x42 => some .block | 0x43 => some .stage | 0x44 => some .wave
  | 0x45 => some .lane | 0x46 => some .chip | 0x48 => some .flags | 0x49 => some .lclock | 0x4A => some .cause
  | 0x4B => some .epcl | 0x4C => some .epch | 0x4D => some .emask | 0x4E => some .einfo0 | 0x4F => some .einfo1
  | 0x50 => some .einfo2 | 0x51 => some .dbg | _ => none

/-- The ten bits of an operand field. -/
def Operand.encode : Operand → Nat
  | .lane n => n.toNat
  | .unif n => 0x100 + n.toNat
  | .pred n => 0x200 + n.toNat
  | .idx n => 0x208 + n.toNat
  | .handle n => 0x210 + n.toNat
  | .sreg r => 0x200 + r.code
  | .none => 0x300
  | .imm .v32 => 0x301
  | .imm .sx64 => 0x302
  | .imm .zx64 => 0x303
  | .indexed k => 0x304 + k.toNat
  | .bits v => v.toNat

/-- An operand from its field; `raw` where the field is no operand. -/
def Operand.decode (raw : Bool) (x : Nat) : Option Operand :=
  if raw then some (.bits (BitVec.ofNat 10 x))
  else
    let n := x % 256
    match x / 256 % 4 with
    | 0 => some (.lane (BitVec.ofNat 8 n))
    | 1 => if n < 64 then some (.unif (BitVec.ofNat 6 n)) else none
    | 2 =>
      if n < 8 then some (.pred (BitVec.ofNat 3 n))
      else if n < 12 then some (.idx (BitVec.ofNat 2 (n - 8)))
      else if n < 16 then none
      else if n < 32 then some (.handle (BitVec.ofNat 4 (n - 16)))
      else (SReg.ofCode n).map .sreg
    | _ =>
      match n with
      | 0 => some .none
      | 1 => some (.imm .v32)
      | 2 => some (.imm .sx64)
      | 3 => some (.imm .zx64)
      | _ => if n < 8 then some (.indexed (BitVec.ofNat 2 (n - 4))) else none

/-! ## Wave instructions (R135) -/

/-- Whether DST of an opcode is the frame field (R177). -/
def dstRaw (major variant : Nat) : Bool := major == 0xC0 && (variant == 3 || variant == 4)

/-- Whether SRCC of an opcode is no operand: formats M and W (R141, R148). -/
def srccRaw (major variant : Nat) : Bool :=
  0x80 ≤ major && major ≤ 0x84 || major == 0xC0 && (variant == 1 || variant == 3) || major == 0x03 && variant == 3

/-- The common layout of 96 bits (R135). -/
def encodeOps (major variant : Nat) (o : Ops) : Nat :=
  major * 2 ^ 88 + variant * 2 ^ 84 + (b2n o.guard.neg * 8 + o.guard.p.toNat) * 2 ^ 80 + b2n o.hs * 2 ^ 79 +
  o.em.toNat * 2 ^ 76 + o.d.encode * 2 ^ 66 + o.a.encode * 2 ^ 56 + o.b.encode * 2 ^ 46 + o.c.encode * 2 ^ 36 +
  o.ty.code * 2 ^ 32 + o.word.toNat

/-- The fields of a 96-bit word below MAJOR and VARIANT. -/
def decodeOps (x : Nat) : Option Ops :=
  let mj := fld x 88 8
  let vr := fld x 84 4
  match Operand.decode (dstRaw mj vr) (fld x 66 10), Operand.decode false (fld x 56 10),
        Operand.decode false (fld x 46 10), Operand.decode (srccRaw mj vr) (fld x 36 10), Ty.ofCode (fld x 32 4) with
  | some d, some a, some b, some c, some t =>
    some { guard := { neg := nbit x 83, p := BitVec.ofNat 3 (fld x 80 3) }, hs := nbit x 79,
           em := BitVec.ofNat 3 (fld x 76 3), d := d, a := a, b := b, c := c, ty := t, word := BitVec.ofNat 32 x }
  | _, _, _, _, _ => none

/-- The wave instruction of 96 bits, or why there is none. -/
def decodeWave (x : Nat) : Except DecodeError Instr :=
  match decodeOps x with
  | none => .error .noOperand
  | some o =>
    match build (fld x 88 8) (fld x 84 4) o with
    | none => .error .noOpcode
    | some i => if i.wf then .ok i else .error .illegalField

/-! ## Stream commands (R321, R322) -/

/-- The 64 bits of a stream command: OPC, REC and the fields. -/
def encodeCmd : Instr → Option Nat
  | .snop => some 0
  | .setq d i => some (0x01 * 2 ^ 59 + d.toNat * 2 ^ 54 + i.toNat)
  | .setqh d i => some (0x02 * 2 ^ 59 + d.toNat * 2 ^ 54 + i.toNat)
  | .addq d s i => some (0x03 * 2 ^ 59 + d.toNat * 2 ^ 54 + s.toNat * 2 ^ 50 + i.toNat)
  | .ldq d a off => some (0x04 * 2 ^ 59 + d.toNat * 2 ^ 54 + a.toNat * 2 ^ 50 + off.toNat)
  | .stq s a off => some (0x05 * 2 ^ 59 + s.toNat * 2 ^ 54 + a.toNat * 2 ^ 50 + off.toNat)
  | .layout l a => some (0x06 * 2 ^ 59 + l.toNat * 2 ^ 56 + a.toNat * 2 ^ 52)
  | .setix l a => some (0x07 * 2 ^ 59 + l.toNat * 2 ^ 56 + a.toNat * 2 ^ 52)
  | .stepix l dim => some (0x08 * 2 ^ 59 + l.toNat * 2 ^ 56 + dim.toNat * 2 ^ 54)
  | .fetch r l t => some (0x09 * 2 ^ 59 + b2n r * 2 ^ 58 + l.toNat * 2 ^ 56 + t.toNat * 2 ^ 54)
  | .fetchs r l t s n =>
    some (0x0A * 2 ^ 59 + b2n r * 2 ^ 58 + l.toNat * 2 ^ 56 + t.toNat * 2 ^ 54 + s.toNat * 2 ^ 48 + n.toNat * 2 ^ 42)
  | .tilew r l a w => some (0x0B * 2 ^ 59 + b2n r * 2 ^ 58 + l.toNat * 2 ^ 56 + a.toNat * 2 ^ 52 + w.toNat * 2 ^ 48)
  | .copy r d s n => some (0x0C * 2 ^ 59 + b2n r * 2 ^ 58 + d.toNat * 2 ^ 54 + s.toNat * 2 ^ 50 + n.toNat * 2 ^ 46)
  | .target t h m => some (0x0D * 2 ^ 59 + t.toNat * 2 ^ 56 + h.toNat * 2 ^ 52 + m.toNat * 2 ^ 48)
  | .arm c thr => some (0x0E * 2 ^ 59 + c.toNat * 2 ^ 52 + thr.toNat)
  | .cadd c e v => some (0x0F * 2 ^ 59 + c.toNat * 2 ^ 52 + e.toNat * 2 ^ 45 + v.toNat)
  | .cset c e v => some (0x10 * 2 ^ 59 + c.toNat * 2 ^ 52 + e.toNat * 2 ^ 45 + v.toNat)
  | .loop d disp => some (0x11 * 2 ^ 59 + d.toNat * 2 ^ 54 + disp.toNat)
  | .brz d disp => some (0x12 * 2 ^ 59 + d.toNat * 2 ^ 54 + disp.toNat)
  | .jump a => some (0x13 * 2 ^ 59 + a.toNat * 2 ^ 54)
  | .arriveCmd a => some (0x14 * 2 ^ 59 + a.toNat * 2 ^ 54)
  | .sfence => some (0x15 * 2 ^ 59)
  | .signal r v a off => some (0x16 * 2 ^ 59 + b2n r * 2 ^ 58 + a.toNat * 2 ^ 54 + v.toNat * 2 ^ 50 + off.toNat)
  | .halt r => some (0x17 * 2 ^ 59 + b2n r * 2 ^ 58)
  | _ => none

/-- The command of 64 bits read by opcode, whatever its reserved bits hold. -/
def readCmd (x : Nat) : Option Instr :=
  let q := fun (lo : Nat) => BitVec.ofNat 4 (fld x lo 4)
  let l := BitVec.ofNat 2 (fld x 56 2)
  let rc := nbit x 58
  let w := BitVec.ofNat 32 x
  match x / 2 ^ 59 with
  | 0x00 => some .snop
  | 0x01 => some (.setq (q 54) (BitVec.ofNat 48 x))
  | 0x02 => some (.setqh (q 54) (BitVec.ofNat 16 x))
  | 0x03 => some (.addq (q 54) (q 50) (BitVec.ofNat 48 x))
  | 0x04 => some (.ldq (q 54) (q 50) w)
  | 0x05 => some (.stq (q 54) (q 50) w)
  | 0x06 => some (.layout l (q 52))
  | 0x07 => some (.setix l (q 52))
  | 0x08 => some (.stepix l (BitVec.ofNat 2 (fld x 54 2)))
  | 0x09 => some (.fetch rc l (BitVec.ofNat 2 (fld x 54 2)))
  | 0x0A => some (.fetchs rc l (BitVec.ofNat 2 (fld x 54 2)) (BitVec.ofNat 6 (fld x 48 6)) (BitVec.ofNat 6 (fld x 42 6)))
  | 0x0B => some (.tilew rc l (q 52) (q 48))
  | 0x0C => some (.copy rc (q 54) (q 50) (q 46))
  | 0x0D => some (.target l (q 52) (q 48))
  | 0x0E => some (.arm (BitVec.ofNat 6 (fld x 52 6)) w)
  | 0x0F => some (.cadd (BitVec.ofNat 6 (fld x 52 6)) (BitVec.ofNat 7 (fld x 45 7)) w)
  | 0x10 => some (.cset (BitVec.ofNat 6 (fld x 52 6)) (BitVec.ofNat 7 (fld x 45 7)) w)
  | 0x11 => some (.loop (q 54) w)
  | 0x12 => some (.brz (q 54) w)
  | 0x13 => some (.jump (q 54))
  | 0x14 => some (.arriveCmd (q 54))
  | 0x15 => some .sfence
  | 0x16 => some (.signal rc (q 50) (q 54) w)
  | 0x17 => some (.halt rc)
  | _ => none

/-- The stream command of 64 bits, or why there is none: every bit that no field names is zero (R321). -/
def decodeCmd (x : Nat) : Except DecodeError Instr :=
  match readCmd x with
  | none => .error .noOpcode
  | some i => if i.wf && encodeCmd i == some x then .ok i else .error .illegalCommand

/-! ## Both -/

/-- The words of an instruction as one number: 96 bits of a wave instruction, 64 of a stream command; none of an event. -/
def encode (i : Instr) : Option Nat :=
  match codeOf i, opsOf i with
  | some (m, v), some o => some (encodeOps m v o)
  | _, _ => encodeCmd i

/-- What the decoder reads from an instruction whose bits are `w`: 64 bits are a stream command, any other length the low bits of a
96-bit wave instruction (R128, R321). -/
def decodeTableWord (nbits w : Nat) : Option Instr :=
  if nbits = 64 then (decodeCmd (w % 2 ^ 64)).toOption else (decodeWave (w % 2 ^ 96)).toOption

end Sys2Proof
end

