-- ==== Sys2Proof/Config.lean ====
section
/-! DEFINITION. What the manual leaves open, as constants with no value that a proof can see. Each is applied to the
model's own counter `State.tick`, or to the operands it depends on. The assumption log names each of them. -/

namespace Sys2Proof.Config

/-- A 32-bit value that the manual leaves undefined: a register of the frame that `call` opens (R60), an accumulator
cell after an array failure (R275), a surrogate weight after an uncorrectable error (R354), the register that an
out-of-range number names in a lane whose guard is false (R65). -/
opaque freeWord : Nat → Word

/-- A byte that the manual leaves undefined: WORK after a collective (R389), the rest of a new allocation (R428). -/
opaque freeByte : Nat → Byte

/-- Which of several agents that may act moves next, where no rule orders them (R40 orders one core only). -/
opaque schedule : Nat → Nat

/-- Cycles of the arithmetic clock that pass in a step on a package: each has a clock of its own (R14, R291), and no rule says how many cycles a
step takes. Applied to the package and the tick. -/
opaque elapsed : Nat → Nat → Nat

/-- The key by which the lanes of an unordered local atomic are put in order when two of them touch the same bytes (R104). -/
opaque laneKey : Nat → Nat → Nat

/-- The firmware image that stands at an address of a chip's DRAM (R490): the cells of the DRAM, the address. The spec gives no format for it, and keys that it
is verified with are in fuses. -/
opaque fwImage : List (Nat × Byte) → Nat → FwImage

/-- Byte `n` of the SHA-384 digest of an image (R492). -/
opaque imageDigest : FwImage → Nat → Byte

/-- Byte `n` of the two signatures of a report (R492), by the fused secret and the image from which the key pairs are derived, the count of LMS indices left, the
time, and the bytes that are signed. -/
opaque signature : Nat → FwImage → Nat → Nat → List Byte → Nat → Byte

/-- Whether a fetch whose line stands in the instruction cache gives that line or memory's, where the two differ (R85). -/
opaque fetchFresh : Nat → Bool

/-- Which entry of a full cache makes room for another, where the replacement policy is not architectural (R79, R469). -/
opaque replace : Nat → Nat

/-- The line of a vault in which a corrected error of DRAM was found (R502). -/
opaque eccLine : Nat → Nat

end Sys2Proof.Config
end

