-- ==== Sys2Proof/Machine/State.lean ====
section
/-! DEFINITION. The state of a pod as plain data: the packages with their waves, blocks, cores, clusters, stream engines,
queues and tables, the sequencing switch, the packets in flight and the host's memory; the reasons a step can stop;
the state after reset. The rules of spec/ that name each piece stand beside it. -/

namespace Sys2Proof.Machine

open Sys2Proof

/-- Bytes by address, addresses strictly rising, no byte equal to what an unlisted address reads as: zero, by R487 for
DRAM. DESIGN CHOICE: host memory reads as zero where nothing has written it. A new allocation lists free values (R428). -/
abbrev Memory := List Host.Cell

/-! ## Waves -/

/-- A lane register of the logical stack with its full bit, error bit and error mask (R52, R57, R67). -/
structure LaneReg where
  vals : Lanes
  full : Bool
  err : Bool
  mask : Word
  deriving DecidableEq, Repr

/-- A uniform register with its bits (R52, R67). -/
structure UReg where
  val : Word
  full : Bool
  err : Bool
  mask : Word
  deriving DecidableEq, Repr

/-- Which half of an issued word is performed: a word of one operation, or the first or second operation of a pair (R144, R146). -/
inductive Half
  | single | first | second
  deriving DecidableEq, Repr

/-- Where an access is performed: DRAM, host memory, the register aperture (R461, R462, R466), or a block's allocation or
follower part (R75). -/
inductive Target
  | dram (pa : Nat)
  | host (pa : Nat)
  | aperture (pa : Nat)
  | loc (blk : Nat) (fol : Bool) (off : Nat)
  deriving DecidableEq, Repr

/-- What a released path still writes when it goes on: the destination predicate of `bar` (R231), or the status register of `coll.wait`
(R308). -/
inductive FreedVal
  | none
  | pred (n : BitVec 3) (v : Bool)
  | unif (n : BitVec 6) (v : Word)
  deriving DecidableEq, Repr

/-- What a path that has issued an instruction waits in (R29). `half` says which operation of its word it waits in. `polling`: it tries again
(`second` where that is the second operation of a pair); `second`: the first operation of its pair has waited and is complete, the second
is still to be performed (R146). `bar` keeps what the end of the phase needs (R231): the barrier, the count given, the scope, the
destination predicate. `pbar` and `coll` are the parked waits of fixed gear (R361): the object, q and scope, or the collective's
identifier and the status register of `coll.wait`. `freed`: what it waited for has come about; its acquire at `scope`, what it writes, and
going on are left. -/
inductive Wait
  | none
  | polling (second : Bool)
  | second
  | freed (half : Half) (scope : Nat) (val : FreedVal)
  | bar (half : Half) (id cnt scope : Nat) (pd : Option (BitVec 3))
  | pbar (half : Half) (obj : Target) (q : Bool) (scope : Nat)
  | coll (half : Half) (cid : Nat) (d : BitVec 6)
  deriving DecidableEq, Repr

/-- One 4 KiB page of a held word: token of its record, lanes that met it, status word, whether its record is written,
the driver's answer (R475), and whether it was the second operation of a pair that met it (R146, R284). -/
structure HeldPage where
  token : Word
  page : DWord
  lanes : Word
  status : Word
  written : Bool
  answer : Option Bool
  second : Bool := false
  deriving DecidableEq, Repr

/-- A path: PC, lane mask, window base, fresh bit (R24, R37), the wait it stands in (R29), whether its Arrive is deferred until it takes a
slot (R29), the pages that hold it at its word (R475), whether that word has a place in the ordered sequence (R476), the fetch line it
issues from once it has entered it (R131, R292), and whether, while it waits in the first operation of a pair, the second is already performed
(R146). -/
structure Path where
  pc : DWord
  mask : Word
  wbase : Nat
  fresh : Bool
  wait : Wait
  late : Bool := false
  held : List HeldPage := []
  ord : Bool := false
  line : Option (BitVec 512) := none
  beside : Bool := false
  deriving DecidableEq, Repr

/-- What the issue rules keep for one slot (R39, R46, R290): promotions, the age (the cycle in which it last became ready, none while it
is not), the cycle from which the next promotion counts, the cycle from which the throttle has held it, the cycle in which the last
`yield` ends, whether the throttle's permit of R46 is granted. -/
structure SlotIssue where
  promo : Nat
  age : Option DWord
  since : DWord
  throttledAt : Option DWord
  yieldEnd : Option DWord
  permit : Bool
  deriving DecidableEq, Repr

/-- How an open region runs (R300, R347, R348). -/
inductive RegionMode
  | trueCode | recorded | sampled | surrogate
  deriving DecidableEq, Repr

/-- The open region of a wave: number, state at entry, I and O of the instruction, mode, lanes that entered, inputs kept
(R300, R301, R482). -/
structure OpenRegion where
  num : Nat
  state : Nat
  outs : Nat
  mode : RegionMode
  lanes : Word
  inputs : List Lanes
  deriving DecidableEq, Repr

/-- One lane's store held in a fixed-gear store buffer: target, type, bytes, the quantum of the store (R364), the region it was issued in
(R302), the number that the next command would have had then. -/
structure BufStore where
  tgt : Target
  ty : Ty
  data : List Byte
  quantum : Nat
  region : Option Nat := none
  seq : Nat := 0
  deriving DecidableEq, Repr

/-- A single step of the debugger (R295): none, resumed and not yet issued, issued and not yet stopped. -/
inductive StepStage
  | none | armed | issued
  deriving DecidableEq, Repr

/-- A register without an error bit of its own: a predicate, index or handle register (R53, R67). -/
inductive SoftReg
  | p (n : Nat)
  | i (n : Nat)
  | h (n : Nat)
  deriving DecidableEq, Repr

/-- A destination register in the register file of a wave: a logical lane register or a uniform register (R61, R68). -/
inductive RegRef
  | v (x : Nat)
  | s (n : Nat)
  deriving DecidableEq, Repr

/-- A wave (R15-R25, R52-R72, R284, R357). `v` is the logical register stack, whose register x of a path is WBASE + n (R57);
`vbase` is A, the start of its lane-register allotment in its core's register file (R58). `turn` is the slot that has its turn in fixed gear and the
clock before its word (R358, R359); `quant` are the quanta that have committed for the wave (R365, R371). `raised` are the flags raised in the cycle in progress (R286). Uncorrectable errors (R13, R498): `sick` are the
registers whose error bit comes of one that no consumer has met; `soft` the predicate, index and handle registers that hold one, with the lanes
and whether a consumer has met it. -/
structure Wave where
  grow : Nat
  blk : Nat
  core : Nat
  stage : Nat
  swave : Nat
  wno : Nat
  L : Nat
  D : Nat
  U : Nat
  prio : Nat
  heapDepth : Nat
  slotA : Option Path
  slotB : Option Path
  heap : List Path
  heapRes : Nat
  issueA : SlotIssue
  issueB : SlotIssue
  vbase : Nat
  v : Tbl LaneReg
  s : Tbl UReg
  p : Tbl Word
  i : Tbl Lanes
  h : Tbl DWord
  flags : Word
  cause : Word
  epc : DWord
  emask : Word
  einfo0 : Word
  einfo1 : Word
  einfo2 : Word
  dbg : Word
  hslot : Slot
  clock : DWord
  turn : Option (Slot × DWord)
  buf : List BufStore
  inv : Word
  region : Option OpenRegion
  ordSeq : List Nat
  score : Nat
  vtags : List Nat
  stepping : StepStage
  arrayTrap : Option (Nat × Nat)
  saved : Option Nat
  ended : Bool
  quant : Nat := 0
  raised : Word := 0
  sick : List RegRef := []
  soft : List (SoftReg × Word × Bool) := []
  deriving DecidableEq, Repr

/-! ## Grids, cohorts, blocks -/

/-- The settings of one stage in a launch record (R19, R424). -/
structure StageSet where
  waves : Nat
  L : Nat
  D : Nat
  U : Nat
  prio : Nat
  heap : Nat
  entry : Nat
  deriving DecidableEq, Repr

/-- A window entry of a launch record (R425). -/
structure WinEntry where
  nslot : Nat
  fol : Bool
  off : Nat
  deriving DecidableEq, Repr

/-- A launch record, decoded (R421-R425). -/
structure LaunchRec where
  code : DWord
  trapPc : DWord
  hspill : DWord
  nblocks : Nat
  csize : Nat
  tandem : Bool
  fgear : Bool
  fuseL1 : Bool
  nothrot : Bool
  pcoll : Bool
  latency : Bool
  gang : Bool
  restart : Bool
  lsize : Nat
  acc : Nat
  narg : Nat
  nwin : Nat
  nbin : Nat
  rmir : Nat
  key : DWord
  bintab : DWord
  stages : List StageSet
  wins : List WinEntry
  args : List Word
  deriving DecidableEq, Repr

/-- A grid as a chip runs it: its row and generation, address space, record, the submitter (R427, R447), and in fixed gear whether every block of the grid
has been admitted (R356). -/
structure GridRun where
  grow : Nat
  ggen : Word
  asid : Nat
  origin : Nat
  kern : LaunchRec
  recAddr : DWord
  live : Bool
  deriving DecidableEq, Repr

/-- Where a cohort stands in its cluster (R430, R431, R433). -/
inductive CohortAt
  | pending | resident | vacated | finished
  deriving DecidableEq, Repr

/-- What a node block adds to a block (R435, R437): its bin, the first record and the record count of its batch, NODE's record. -/
structure NodeInfo where
  bin : Nat
  first : Nat
  count : Nat
  kern : LaunchRec
  deriving DecidableEq, Repr

/-- A cohort handed to a cluster (R16, R427, R430): its number, the placement row's chip, its blocks once admitted, how late it was admitted; a
batch of node records is a cohort of one node block (R435, R437). -/
structure Cohort where
  grow : Nat
  num : Nat
  rc : Nat
  first : Nat
  count : Nat
  cluster : Nat
  status : CohortAt
  blocks : List Nat
  order : Nat
  node : Option NodeInfo
  deriving DecidableEq, Repr

/-- One `bar` barrier of a block (R231): arrived waves, the count fixed by the first arrival, the phase. -/
structure Bar where
  arrived : List Nat
  count : Nat
  fixed : Bool
  phase : Bool
  deriving DecidableEq, Repr

/-- A block (R17, R18, R428). `bad` are the words of its allocation, or follower part, in which an uncorrectable error stands, `met` those of them that
a consumer has met (R496, R498). `core` is the package-wide number of the core that holds it, the leader of a tandem pair; `saved` the save-pool
slots of its leader's and its follower's part while it is vacated, the same where it has no follower (R479). -/
structure Block where
  grow : Nat
  block : Nat
  cohort : Nat
  crank : Nat
  core : Nat
  tandem : Bool
  lsize : Nat
  acc : Nat
  mem : Memory
  folMem : Memory
  bars : Tbl Bar
  waves : List Nat
  node : Option NodeInfo
  saved : Option (Nat × Nat)
  ended : Bool
  bad : List (Bool × Nat) := []
  met : List (Bool × Nat) := []
  deriving DecidableEq, Repr

/-! ## Cores -/

/-- A line of L1: its physical line number, its 128 bytes, the wave whose miss filled it (R79, R43), and those of its 32-bit words that hold an
uncorrectable error (R498). -/
structure L1Line where
  line : Nat
  data : List Byte
  filler : Nat
  bad : List Nat := []
  deriving DecidableEq, Repr

/-- A TLB entry: one page of any size, tagged by ASID (R469), with what its leaf permits (R466, R468). -/
structure TlbEntry where
  asid : Nat
  base : Nat
  log2 : Nat
  pa : Nat
  w : Bool
  x : Bool
  host : Bool
  deriving DecidableEq, Repr

/-- A bank of the matrix array (R252). `tile` is the source data of the tile, of which the aligned tile is a function; `scales` the B block scale
codes; `check` the check data, one entry per row: a residue, or 16 counts (R262). -/
structure Bank where
  loaded : Bool
  efmt : Nat
  tile : Memory
  scp : Bool
  sf : Bool
  bl : Bool
  scales : Tbl (BitVec 16)
  cbT : List (BitVec 8)
  cbX : BitVec 5
  issScp : Bool
  issX0 : Bool
  issFmt : Nat
  issLoaded : Bool
  check : List (List Nat) := []
  deriving DecidableEq, Repr

/-- The kinds of array command (R253). -/
inductive ArrOp
  | mwld | mcb | mld | mst | mzero | mma | mmaT | mdrain
  deriving DecidableEq, Repr

/-- An array command in the queue with what it read at issue (R253, R258, R260, R271), the local ranges it reads (by role) and writes (R254),
its barrier object, the next row (R277), the flags it has raised (R257) and the region it was issued in (R302). -/
structure ArrCmd where
  id : Nat
  op : ArrOp
  wid : Nat
  blk : Nat
  mask : Word
  fol : Bool
  bank : Nat
  fb : BitVec 256
  desc : BitVec 512
  image : List Word
  r0 : Nat
  n : Nat
  q : Nat
  st : Nat
  sum : Bool
  ty : Ty
  reads : List (Nat × Target × Nat)
  writes : List (Target × Nat)
  bo : Option Target
  clock : DWord
  row : Nat
  flags : Word
  done : Bool
  region : Option Nat := none
  deriving DecidableEq, Repr

/-- A core (R3, R79, R251-R253, R433, R469). Its accumulator cell (row, col) is at key row × 256 + col; the follower of a tandem
pair keeps its own. `icBad` are the lines of its instruction cache in which an uncorrectable error stands (R131), `icMet` those of them that a path has met. `shiftAt` is the cycle of the
last shift of its lost-locality scores (R44). `chosen` are the slots that its two issue ports have chosen in cycle `pcycle`, with the pipe classes they took (R40). -/
structure Core where
  l1 : List L1Line
  acc : Tbl Word
  sums : Tbl Word
  banks : Tbl Bank
  aq : List ArrCmd
  retry : Nat
  icache : Tbl (BitVec 512)
  icBad : List Nat
  tlb : List TlbEntry
  lfsr : BitVec 16
  permitN : Nat
  pcycle : DWord
  chosen : List (Nat × Slot × List Nat)
  retired : Bool
  shiftAt : DWord := 0
  icMet : List Nat := []
  deriving DecidableEq, Repr

/-! ## Accesses and long-latency producers -/

/-- What one lane of a producer ended with: the words it writes, or the status word of its failure (R68). -/
inductive LaneRes
  | ok (ws : List Word)
  | fail (status : Word)
  deriving DecidableEq, Repr

/-- One lane of a load or gather that is still to be read (R221, R229): the targets left with the byte each begins at, the bytes read so far,
and the bytes that the wave's store buffer holds for it in fixed gear, by place (R364). -/
structure LaneLoad where
  lane : Nat
  tgts : List (Nat × Target)
  got : List Byte
  fwd : List (Nat × Byte)
  deriving DecidableEq, Repr

/-- What a long-latency producer waits for (R67): memory reads (through L1, or at the home slice), lanes of an atomic,
remote groups, a copy command, a ticket, a surrogate's outputs, an `apx.ctl`, a collective. -/
inductive ProdKind
  | load (ty : Ty) (size : Nat) (fill : Bool) (reads : List LaneLoad)
  | atomic
  | remote
  | copy
  | ticket
  | apxOut
  | apxCtl
  | coll
  deriving DecidableEq, Repr

/-- An outstanding long-latency producer: its wave, the lanes of the path that issued it and of those that have merged with it (R94), the registers
each lane writes, the lanes already ended (R68), the region it was issued in (R302). -/
structure Producer where
  wid : Nat
  pathMask : Word
  kind : ProdKind
  dests : List (Nat × List RegRef)
  res : List (Nat × LaneRes)
  region : Option Nat := none
  deriving DecidableEq, Repr

/-- What a pending access does at its home slice or scratchpad (R79, R83, R225). -/
inductive AccKind
  | store
  | atomic (aop : Nat) (cmp : DWord)
  deriving DecidableEq, Repr

/-- One lane's store, `red` or atomic that is not yet performed (R79, R93, R100, R222), with the lanes of the path that issued it and of those that
have merged with it (R94), and the region it was issued in (R302). `prod` names the producer of a returning atomic and the lane it fills. -/
structure PendAcc where
  id : Nat
  seq : Nat
  wid : Nat
  pathMask : Word
  kind : AccKind
  ty : Ty
  tgt : Target
  size : Nat
  data : DWord
  ordered : Bool
  lane : Nat
  prod : Option Nat
  region : Option Nat := none
  deriving DecidableEq, Repr

/-- A copy-unit command (R235-R239): addresses, length, tag, the reducing operation, its producer, the units started, those
finished, the first failure. -/
structure CopyCmd where
  id : Nat
  wid : Nat
  blk : Nat
  core : Nat
  asid : Nat
  put : Bool
  get : Bool
  red : Option (Nat × Ty)
  dl : Bool
  sl : Bool
  dst : DWord
  src : DWord
  len : Nat
  tag : Word
  record : Bool
  inc : Bool
  granted : Bool
  prod : Nat
  sent : List Nat
  finished : List Nat
  wrote : Nat
  failed : Option Word
  clock : DWord
  grow : Nat
  deriving DecidableEq, Repr

/-! ## Stream engines -/

/-- A layout slot: the tensor layout record and the tile index (R309, R313). -/
structure LayoutSlot where
  lay : BitVec 512
  j : List (BitVec 16)
  deriving DecidableEq, Repr

/-- A target slot: window handle, rank mask, next slot (R309, R324). -/
structure TargetSlot where
  handle : DWord
  mask : Word
  next : Nat
  deriving DecidableEq, Repr

/-- How far the delivery of a slice to one block is: its bytes wait, are in the slot, the slot has flipped (R317), or the block has ended. -/
inductive DelState
  | waiting | written | flipped | dropped
  deriving DecidableEq, Repr

/-- One delivery of a `fetch` or `fetchs` to one block (R317, R324): rank, window slot, how far it is. -/
structure Delivery where
  rank : Nat
  slot : Nat
  state : DelState
  deriving DecidableEq, Repr

/-- A data command of a context that is in flight (R324-R326). `bytes` is the image or the data read, with the first status met. -/
inductive DataOp
  | fetch (win : DWord) (off : Nat) (bytes : List Byte) (total : Nat) (dels : List Delivery)
  | tilew (lrec : BitVec 512) (j : List (BitVec 16)) (img tword : Word)
  deriving DecidableEq, Repr

/-- A data command with its record flag, tag and status (R329, R331), and the target whose deliveries it makes (R324). -/
structure DataCmd where
  op : DataOp
  record : Bool
  tag : Word
  status : Word
  done : Bool
  target : Nat
  deriving DecidableEq, Repr

/-- A context of a stream engine (R309, R311, R312). `arms` are the conditions for the next command, `armed` those of the command at the head with
whether each has been met (R319). -/
structure Ctx where
  busy : Bool
  ptr : DWord
  q : Tbl DWord
  lay : Tbl LayoutSlot
  tgt : Tbl TargetSlot
  cohort : Nat
  grow : Nat
  cluster : Nat
  wid : Nat
  asid : Nat
  arms : List (BitVec 6 × Word)
  armed : List (BitVec 6 × Word × Bool)
  cmds : List DataCmd
  count : Nat
  ending : Option Word
  halted : Bool
  reported : Bool
  deriving DecidableEq, Repr

/-- A stream engine: 64 trigger counters and 8 contexts (R309, R318). `bad` are the counters that hold an uncorrectable error, each with whether a
consumer has met it (R498). -/
structure Engine where
  cnt : Tbl Word
  ctx : Tbl Ctx
  bad : List (Nat × Bool) := []
  deriving DecidableEq, Repr

/-- A completion record with the cluster it goes to and the grid it belongs to (R89, R91). -/
structure RecordOut where
  cluster : Nat
  grow : Option Nat
  tag : Word
  count : Word
  status : Word
  unit : Nat
  source : Nat
  deriving DecidableEq, Repr

/-! ## Fitting engines -/

/-- A surrogate: shape and FP32 weights in the order of its image (R339, R340). -/
structure Surrogate where
  ni : Nat
  no : Nat
  h1 : Nat
  h2 : Nat
  w : List Word
  deriving DecidableEq, Repr

/-- A training pair: number, inputs, true outputs, the grid it came from (R345, R355). -/
structure Pair where
  num : Nat
  x : List Word
  t : List Word
  grow : Nat
  deriving DecidableEq, Repr

/-- A copy of a region held by an engine (R336-R346). -/
structure RegionCopy where
  home : Bool
  state : Nat
  ewma : Word
  samples : Nat
  sur : Option Surrogate
  ring : List Pair
  nextPair : Nat
  obs : Nat
  batch : List Pair
  deriving DecidableEq, Repr

/-- An accepted invocation (R300, R344, R349): the surrogate it is evaluated with, the inputs of each lane. -/
structure Invocation where
  wid : Nat
  grow : Nat
  region : Nat
  lanes : Word
  inputs : List Lanes
  sur : Surrogate
  prod : Nat
  deriving DecidableEq, Repr

/-- An entry of an engine's input buffer: a pair set or a comparison (R349), with the state its invocation fixed (R353). -/
structure FitInput where
  sampled : Bool
  region : Nat
  state : Nat
  lanes : Word
  inputs : List Lanes
  outputs : List Lanes
  grow : Nat
  deriving DecidableEq, Repr

/-- The fitting engine of a cluster (R336, R349). -/
structure FitEngine where
  regions : Tbl RegionCopy
  queue : List Invocation
  input : List FitInput
  deriving DecidableEq, Repr

/-- The driver's binding of a region number (R336, R338): home, mirrors, frames of its code, whether an image was loaded
since binding, and its registers THR ALPHA SEXP LR OBSN EPS (R341). -/
structure Binding where
  home : Nat
  mirrors : List Nat
  asid : Nat
  first : Nat
  last : Nat
  frames : List Nat
  loaded : Bool
  regs : List Word
  deriving DecidableEq, Repr

/-- An `apx.ctl` not yet completed (R304, R355). -/
structure ApxOp where
  wid : Nat
  grow : Nat
  cluster : Nat
  asid : Nat
  op : Nat
  idx : Nat
  region : Nat
  b : DWord
  fgear : Bool
  prod : Nat
  deriving DecidableEq, Repr

/-! ## Clusters and queues -/

/-- A work-graph bin (R434, R435): descriptor, tail index, pending and held record counts, whether its timer runs. -/
structure Bin where
  grow : Nat
  num : Nat
  timer : Nat
  cnt : Nat
  buf : DWord
  node : LaunchRec
  tail : Nat
  pending : Nat
  held : Nat
  running : Bool
  deriving DecidableEq, Repr

/-- A cluster: L1 mode, event queue, pending lists, bins, reserved and partition cores, L2 TLB, fitting engine
(R80, R90, R429, R430, R434, R469, R494). -/
structure Cluster where
  fused : Bool
  evq : List RecordOut
  evqHead : Nat
  lat : List Nat
  bulk : List Nat
  bins : List Bin
  lres : Nat
  part : Nat
  l2tlb : List TlbEntry
  fit : FitEngine
  deriving DecidableEq, Repr

/-- A steal request on its way to a victim cluster (R433). -/
structure Steal where
  core : Nat
  victim : Nat
  deriving DecidableEq, Repr

/-- How far a packet is (R416, R418, R427): read but not started, started, a LAUNCH that waits for a grid row, one that is submitted, one whose
result stands. -/
inductive PktStage
  | fetched | started | waiting | submitted | resolved
  deriving DecidableEq, Repr

/-- A packet that has started and not retired (R415-R420): header, completion signal, payload, unresolved dependencies, the
result to retire with. -/
structure StartedPkt where
  n : Nat
  hdr : DWord
  csig : DWord
  payload : List DWord
  stage : PktStage
  deps : List DWord
  code : Nat
  detail : Nat
  cause : Nat
  faultId : DWord
  kern : Option LaunchRec
  deriving DecidableEq, Repr

/-- A queue (R414): ring, size, address space, NOTIFY, FETCH, DONE, STALL, packets in progress, packets whose retirement let
later ones start. -/
structure Queue where
  ring : DWord
  log2 : Nat
  asid : Nat
  notify : DWord
  fetch : DWord
  doneCnt : DWord
  stall : Bool
  started : List StartedPkt
  deriving DecidableEq, Repr

/-! ## Translation, faults, log -/

/-- The access a walk is for (R468, R474). -/
inductive AccessKind
  | load | store | atomic | fetch | heap | unitRead | unitWrite
  deriving DecidableEq, Repr

/-- Who asked for a walk: a slot of a wave with the PC of its word, its access, the lanes that need the page, the lowest byte they name in
it (R470, R474), and whether the second operation of a pair did (R284). -/
structure WalkReq where
  kind : AccessKind
  wid : Nat
  slot : Slot
  pc : DWord
  core : Nat
  lanes : Word
  addr : Nat
  second : Bool := false
  deriving DecidableEq, Repr

/-- A miss of a unit (R470): its access, the cluster whose L2 TLB it has looked up, and a number for who asks, the same at each try and no other's. -/
structure UnitReq where
  kind : AccessKind
  cluster : Nat
  who : Nat
  deriving DecidableEq, Repr

/-- A queued walk: its age among those of the chip, its page, the words that have joined it, and the misses of units that have (R470). -/
structure Walk where
  age : Nat
  asid : Nat
  page : Nat
  reqs : List WalkReq
  units : List UnitReq := []
  deriving DecidableEq, Repr

/-- What a walk has found for the miss of a unit, not yet taken (R470): the page's entry, or the cause and level of the failure. -/
structure UnitWalk where
  asid : Nat
  page : Nat
  req : UnitReq
  entry : Option TlbEntry
  cause : Nat
  level : Nat
  deriving DecidableEq, Repr

/-- A page that a unit has missed, or whose walk it has taken, at a package (R470). -/
structure UnitAsk where
  pkg : Nat
  asid : Nat
  page : Nat
  req : UnitReq
  deriving DecidableEq, Repr

/-- A fault record waiting for room in the ring (R473, R474). -/
structure PendFault where
  record : BitVec 256
  token : Word
  deriving DecidableEq, Repr

/-- Corrected errors of one (CLASS, LOC) since its last record (R503). -/
structure LogRate where
  cls : Nat
  loc : Nat
  count : Nat
  lastCycle : Nat
  deriving DecidableEq, Repr

/-! ## Peloton -/

/-- STATE of a chip row (R446). -/
inductive ChipState
  | absent | joining | alive | fenced
  deriving DecidableEq, Repr

/-- A row of the chip table (R446). -/
structure ChipRow where
  state : ChipState
  capl : Nat
  capb : Nat
  capp : Nat
  deriving DecidableEq, Repr

/-- STATE of a grid row (R447). -/
inductive GridState
  | free | waiting | running
  deriving DecidableEq, Repr

/-- A row of the grid table (R447): the SUBMIT fields of R445 as well. -/
structure GridRow where
  state : GridState
  ggen : Word
  sseq : DWord
  origin : Nat
  lrec : DWord
  asid : Nat
  nbm1 : Nat
  csm1 : Nat
  kc : Nat
  cls : Nat
  gang : Bool
  restart : Bool
  fgear : Bool
  qtag : Word
  deriving DecidableEq, Repr

/-- STATE of a placement row (R448). -/
inductive PlaceState
  | empty | running | finished
  deriving DecidableEq, Repr

/-- A placement row P[g, c] (R448). -/
structure PlaceRow where
  state : PlaceState
  first : Nat
  count : Nat
  cores : Nat
  exec : Nat
  deriving DecidableEq, Repr

/-- A digest point: its participants, reports (chip, or none for the witness), this replica's own digest, verdict, and once the next point
has found it incomplete the participants whose CHIP_LOSS it waits for (R455, R456). -/
structure DigestPoint where
  seq : Nat
  parts : List Nat
  reports : List (Option Nat × BitVec 128)
  own : BitVec 128
  verdict : Option (BitVec 128)
  late : Option (List Nat)
  deriving DecidableEq, Repr

/-- The tables that every replica holds (R446-R456); grid row g and chip c name placement row g × 512 + c. -/
structure Replica where
  chips : Tbl ChipRow
  caps : Tbl DWord
  grids : Tbl GridRow
  places : Tbl PlaceRow
  dg : BitVec 128
  seq : Nat
  term : Nat
  counted : Nat
  points : List DigestPoint
  deriving DecidableEq, Repr

/-- An event record (R444). -/
abbrev EventRec := BitVec 512

/-- How far a rejoin is (R458): the chip takes part; it has been reset and buffers what it receives; it has asked for the snapshot; for the tail; it has proposed JOIN and applies events to
its tables alone until that JOIN. -/
inductive RejoinStage
  | none | start | snapshot | tail | proposed
  deriving DecidableEq, Repr

/-- A chip's part in the ordered event service (R440, R441, R458): its replica; the number of its last proposal; proposals not yet sent, and sent
but not delivered back; events received, and delivered but not applied; the delivered events it keeps; its replica as it stood after each
point without verdict and after the last point it won; a rejoin with the pieces received, and the number of pieces where the last is known;
whether its missing events have left the retransmit buffer; the points it has to report. -/
structure Peloton where
  rep : Replica
  pnum : Nat
  props : List EventRec
  outstanding : List EventRec
  inbuf : List EventRec
  apply : List EventRec
  kept : List EventRec
  taken : List (Nat × Replica)
  snap : Option Replica
  rejoining : RejoinStage
  pieces : Tbl (List Byte)
  pieceCount : Option Nat
  stuck : Bool
  due : List Nat
  src : Option Replica := none
  deriving DecidableEq, Repr

/-! ## Fabric -/

/-- A packet, decoded (R378). `ctx` and `unit` say which of the source's commands, groups or units it serves, `ty` the type of its elements (whose
signedness the operation word of AT has no bit for), `plane` the plane it travels on. -/
structure Packet where
  ptype : Nat
  src : Nat
  srcSw : Bool
  dst : Nat
  dstSw : Bool
  tid : Word
  opw : Word
  addr : DWord
  asid : Nat
  len : Nat
  data : List Byte
  ctx : Nat
  unit : Nat
  ty : Ty
  plane : Nat
  deriving DecidableEq, Repr

/-- A fabric port's link (R376, R377): LSEQ of the last packet flit sent, the last one accepted, the replay buffer, the flits that wait
for a credit or for room in it (channel, SOP, EOP, body), the packets whose last flit is among them, credits held and credits to
return by channel, the bodies of a packet not yet whole by channel, replays in a row that failed, whether the link is up, the flits that the
port sent last. -/
structure Link where
  lseq : Byte
  accepted : Byte
  replay : List (Byte × BitVec 512)
  waiting : List (Nat × Bool × Bool × BitVec 448)
  parcels : List Packet
  credits : List Nat
  owed : List Nat
  bodies : Tbl (List (BitVec 448))
  failed : Nat
  up : Bool
  out : List (BitVec 512)
  deriving DecidableEq, Repr

/-! ## Collectives -/

/-- A collective at one rank, that is one block (R305-R308, R385, R389): the waves that have arrived with their status registers and the lanes of
their paths, its producers and the chips of its ranks once it has started, in fixed gear the logical time at which it is held once every rank
has started (R362), the bytes of WORK received, whether READY is sent, the decision (commit, ranks, detail, coordinator's chip), the
status of its outcome, the chip whose loss decides it, and the number that the ranks of one use of a CID on a chip share (R307). -/
structure Coll where
  cid : Nat
  grow : Nat
  blk : Nat
  rank : Nat
  handle : DWord
  ty : Ty
  word : Word
  crec : BitVec 512
  arrived : List (Nat × Nat × Word)
  prods : List Nat
  chips : List Nat
  heldAt : Option Nat
  bo : Option Target
  started : Bool
  clock : DWord
  startWid : Nat
  got : Nat
  ready : Bool
  sat : Nat
  decision : Option (Bool × Nat × Nat × Nat)
  outcome : Option Word
  lost : Option Nat
  gen : Nat := 0
  deriving DecidableEq, Repr

/-- A collective at its coordinator (R389): of each rank heard its number, chip, record, type and WORD; the chips of its ranks; the ready ranks; the
decision; the DETAIL of an abort that is wanted. -/
structure Coord where
  cid : Nat
  grow : Nat
  params : List (Nat × Nat × BitVec 512 × Ty × Word)
  chips : List Nat
  ready : List Nat
  decided : Option (List Nat × Nat)
  want : Option Nat
  deriving DecidableEq, Repr

/-- An entry of the residency table (R86, R87, R247). -/
inductive ResState
  | free | pinned | demoted
  deriving DecidableEq, Repr

/-- See `ResState`. -/
structure ResEntry where
  gen : Word
  base : DWord
  lines : Nat
  prio : Nat
  state : ResState
  asid : Nat
  deriving DecidableEq, Repr

/-! ## Packages and the pod -/

/-- A package (R1): its memory, waves, units, registers, replica and fabric ports. `srcs` holds, for each slot that waits in an issued word, the
wave as that word reads it: the registers from before the word (R146); its key is twice the wave's, plus 1 for slot B. `lineOld` holds, for
each 64 bytes of DRAM that waves and copy units have written and not yet released at chip scope, the bytes from before and the writers, each with the
bytes it has written: twice a wave's key, or twice a copy command's plus 1 (R85). `askWait` are requests that wait while 32,768 are outstanding to their chip (R378). `lrecs` are the copies of
launch records that its command processors have placed, by the offset of LREC, each with its address space (R445). `semTie` is the port that wins the next tie for the semaphore (R413). -/
structure Chip where
  dram : Memory
  poison : List Nat
  lineOld : Tbl (BitVec 512 × List (Nat × BitVec 64))
  waves : Tbl Wave
  srcs : Tbl Wave
  blocks : Tbl Block
  cohorts : Tbl Cohort
  grids : Tbl GridRun
  cores : Tbl Core
  clusters : Tbl Cluster
  engines : Tbl Engine
  recOut : List RecordOut
  prods : Tbl Producer
  pend : List PendAcc
  copies : List CopyCmd
  colls : Tbl Coll
  coords : List Coord
  res : Tbl ResEntry
  incast : Tbl (BitVec 24 × BitVec 24)
  bindings : Tbl Binding
  apxOps : List ApxOp
  steals : List Steal
  queues : Tbl Queue
  lrecs : Tbl (Nat × List Byte)
  walks : Tbl (List Walk)
  pendFaults : List PendFault
  nextToken : Word
  savedParts : Tbl Core
  links : Tbl Link
  tids : Tbl Nat
  requests : List Packet
  askWait : List Packet
  answered : List (Nat × Word × Packet)
  snSent : List (Nat × Word × List Byte × Option Replica) := []
  tkWait : List Packet
  got : List Packet
  ownCap : DWord
  pel : Peloton
  cycle : DWord
  next : Nat
  semOwner : Nat
  semTie : Nat
  denied : List Bool
  portRead : List DWord
  astbase : DWord
  fqbase : DWord
  fqhead : DWord
  fqtail : DWord
  fqovf : Word
  tlbBusy : Bool
  tlbScope : Option (Nat × Nat × Nat)
  savepool : DWord
  dbgsel : DWord
  dbgstat : Word
  dbgbuf : DWord
  dbgAll : List (Nat × Word)
  pcap : BitVec 12
  fwState : Nat
  fwFail : Nat
  fwBank : Nat
  fwBanks : List FwImage
  fwRun : FwImage
  recovery : Bool := false
  fwBase : DWord := 0
  fwSram : Option FwImage := none
  secret : Nat := 0
  certs : List Byte := []
  keyImage : FwImage := { readable := true, headerOk := true, ecdsaOk := true, lmsOk := true, svn := 0 }
  attNonce : List Byte := []
  fwMin : Nat
  attState : Nat
  attLeft : Word
  attBuf : DWord
  rejoin : Bool
  chipId : Nat
  joined : Bool
  planeOrder : List Byte
  elbase : DWord
  elhead : DWord
  eltail : DWord
  elovf : Word
  cecntD : Word
  cecntS : Word
  logRates : List LogRate
  stopped : Bool
  powered : Bool
  unitWalks : List UnitWalk := []
  deriving DecidableEq, Repr

/-- The sequencing switches (R439-R443): the plane order and the sequencer's place in it, the term, the next sequence number, the last
proposal number taken from each origin, the records received and not yet sequenced, the retransmit buffer, the witness replicas of the
sequencer and the standby, the FENCE and CHIP_LOSS still to emit, the chips heard since the last look, whether the standby has heard the
sequencer since its last look. -/
structure Switch where
  order : List Byte
  pos : Nat
  term : Nat
  nextSeq : Nat
  lastPnum : Tbl Nat
  inbox : List EventRec
  retrans : List EventRec
  witness : Replica
  standby : Replica
  emit : List EventRec
  heard : List Nat
  ticked : Bool
  deriving DecidableEq, Repr

/-- What issues: package, wave, slot of the wave. -/
structure Cursor where
  pkg : Nat
  wid : Nat
  slot : Slot
  half : Half
  deriving DecidableEq, Repr

/-- What the last operation did: it completed, it was not ready (R39), or it raised a trap with its cause, source, and three
record words (R282, R284). -/
inductive Last
  | completed
  | notReady
  | trapped (cause src : Nat) (e0 e1 e2 : Word)
  deriving DecidableEq, Repr

/-- An uncorrectable error in the storage of a unit (R13, R496, R498). It arises in a word of a block's allocation, a register of a wave in some
lanes, a predicate, index or handle register, a line of an instruction cache, a word of a line in an L1, a trigger counter; it is found as the unit uses
it in a line of an L2 slice, which UNIT `unit` reads, in the paths and resident heap of a wave, the state of a stream context, an element at the
collective unit, a packet at a command processor, a cohort at a queue engine. -/
inductive Damage
  | word (blk : Nat) (fol : Bool) (off : Nat)
  | reg (wid : Nat) (r : RegRef) (lanes : Word)
  | soft (wid : Nat) (r : SoftReg) (lanes : Word)
  | path (wid : Nat)
  | slice (line unit : Nat)
  | icache (core pa : Nat)
  | l1 (core line word : Nat)
  | counter (vault n : Nat)
  | context (vault ctx : Nat)
  | element (coll : Nat)
  | packet (half q n : Nat)
  | cohort (k : Nat)
  deriving DecidableEq, Repr

/-- What happens next from outside or by choice: an event of the table, the choice of an issue port of a core (R40), the issue of a slot, a stream
command of a context, the arrival of the packet at a place of `State.net` at a package (or at its switch), the
acknowledgement of what a port has sent by the switch at the other end of its link (R377), the application of the next delivered event, the end of a verification of firmware (R490), an access of a host port to device memory or to the aperture (R310, R411, R414), its read of a register of its management window (R7), two reads of
SEMTAS in one cycle (R413), an uncorrectable error (R13). -/
inductive Input
  | ev (i : Instr)
  | port (p core : Nat)
  | issue (c : Cursor)
  | stream (p vault ctx : Nat)
  | packet (p net : Nat)
  | ack (p plane : Nat)
  | apply (p : Nat)
  | verify (p : Nat)
  | hostRead (p port pa n : Nat)
  | hostWrite (p port pa : Nat) (bs : List Byte)
  | hostAtomic (p port pa aop : Nat) (t : Ty) (v cmp : DWord)
  | regRead (p port off : Nat)
  | semBoth (p : Nat)
  | damage (p : Nat) (d : Damage)
  deriving DecidableEq, Repr

/-- The state of a pod. `inputs`, `tick`, `cur`, `scur`, `last`, `lastWord` (the damaged local bytes that a trap of one operation of a pair tells of), `pairSrc`,
`asks` and `taken` (the walks that the unit at work still wants, and those it has taken) are the model's own. -/
structure State where
  chips : Tbl Chip
  sw : Switch
  net : List Packet
  host : Memory
  inputs : List Input
  tick : Nat
  cur : Cursor
  scur : Nat × Nat × Nat
  last : Last
  lastWord : Option (Target × Nat) := none
  pairSrc : Option Wave
  asks : List UnitAsk := []
  taken : List UnitAsk := []
  hostAtomics : Option Bool := none
  deriving DecidableEq, Repr

/-! ## The reasons a step can stop -/

/-- Why the machine stops with a fault. -/
inductive Fault
  /-- An instruction of a wave is executed where no path stands (the cursor names no wave, or an empty slot): no hardware
  state corresponds. Raised by the issue of an instruction. Safe: nothing of the machine goes on from there. -/
  | noPath
  /-- A stream command is executed where no context runs. Raised by the stream commands. Safe, as above. -/
  | noContext
  deriving DecidableEq, Repr

/-- Why an instruction has no meaning. -/
inductive Refusal
  /-- The instruction named has no meaning yet. Raised by an arm of `exec` only. Safe. -/
  | notModelled (mnemonic : String)
  deriving DecidableEq, Repr

/-! ## Defaults of the tables and the state after reset -/

def LaneReg.zero : LaneReg := { vals := List.replicate 32 0, full := true, err := false, mask := 0 }
def UReg.zero : UReg := { val := 0, full := true, err := false, mask := 0 }
def SlotIssue.zero : SlotIssue := { promo := 0, age := none, since := 0, throttledAt := none, yieldEnd := none, permit := false }
def Bar.zero : Bar := { arrived := [], count := 0, fixed := false, phase := false }

/-- A bank at admission: EMPTY, with the INT4 codebook (R251, R118). -/
def Bank.empty : Bank :=
  { loaded := false, efmt := 0, tile := [], scp := false, sf := false, bl := false, scales := [],
    cbT := [0, 1, 2, 3, 4, 5, 6, 7, 0xF8, 0xF9, 0xFA, 0xFB, 0xFC, 0xFD, 0xFE, 0xFF], cbX := 0,
    issScp := false, issX0 := true, issFmt := 0, issLoaded := false }

/-- Core n of a package after reset: its steal state is its number plus 1 (R433). -/
def Core.reset (n : Nat) : Core :=
  { l1 := [], acc := [], sums := [], banks := [], aq := [], retry := 0, icache := [], icBad := [], tlb := [],
    lfsr := BitVec.ofNat 16 (n + 1), permitN := 64, pcycle := 0, chosen := [], retired := false }

def FitEngine.reset : FitEngine := { regions := [], queue := [], input := [] }

def Cluster.reset : Cluster :=
  { fused := false, evq := [], evqHead := 0, lat := [], bulk := [], bins := [], lres := 0, part := 0, l2tlb := [],
    fit := FitEngine.reset }

/-- A free context (R311): every register, index, layout slot and target slot is zero or unloaded. -/
def Ctx.free : Ctx :=
  { busy := false, ptr := 0, q := [], lay := [], tgt := [], cohort := 0, grow := 0, cluster := 0, wid := 0, asid := 0,
    arms := [], armed := [], cmds := [], count := 0, ending := none, halted := false, reported := false }

def Engine.reset : Engine := { cnt := [], ctx := [] }
def ChipRow.absent : ChipRow := { state := .absent, capl := 0, capb := 0, capp := 0 }

def GridRow.free : GridRow :=
  { state := .free, ggen := 0, sseq := 0, origin := 0, lrec := 0, asid := 0, nbm1 := 0, csm1 := 0, kc := 0, cls := 0,
    gang := false, restart := false, fgear := false, qtag := 0 }

def PlaceRow.empty : PlaceRow := { state := .empty, first := 0, count := 0, cores := 0, exec := 0 }

/-- A replica at pod formation: every chip ABSENT, every grid FREE, D zero, term 1 (R439, R446, R447, R453). -/
def Replica.formation : Replica :=
  { chips := [], caps := [], grids := [], places := [], dg := 0, seq := 0, term := 1, counted := 0, points := [] }

def Peloton.reset : Peloton :=
  { rep := Replica.formation, pnum := 0, props := [], outstanding := [], inbuf := [], apply := [], kept := [], taken := [],
    snap := none, rejoining := .none, pieces := [], pieceCount := none, stuck := false, due := [] }

def Link.trained : Link :=
  { lseq := 0, accepted := 0, replay := [], waiting := [], parcels := [], credits := [256, 256, 256, 256], owed := [0, 0, 0, 0], bodies := [], failed := 0, up := true,
    out := [] }

/-- A FREE entry. DESIGN CHOICE: its GEN is 0 after reset; the spec gives no reset value. -/
def ResEntry.free : ResEntry := { gen := 0, base := 0, lines := 0, prio := 0, state := .free, asid := 0 }

/-- The firmware image the model's package leaves the factory with (no rule gives its SVN). -/
def FwImage.factory : FwImage := { readable := true, headerOk := true, ecdsaOk := true, lmsOk := true, svn := 0 }

/-- The capability word of a chip of revision 0x01: every defined bit is set (R380). -/
def capRevision1 : DWord := 0x010000FFFFFFF000

/-- A package after reset by power-on (R487): every register at its Reset value, DRAM zero and unpoisoned, no join state,
Peloton tables cleared. PCAP is 2,400 (R486). -/
def Chip.reset : Chip :=
  { dram := [], poison := [], lineOld := [], waves := [], srcs := [], blocks := [], cohorts := [], grids := [], cores := [], clusters := [],
    engines := [], recOut := [], prods := [], pend := [], copies := [], colls := [], coords := [],
    res := [], incast := [], bindings := [], apxOps := [], steals := [], queues := [], lrecs := [], walks := [], pendFaults := [],
    nextToken := 1, savedParts := [], links := [], tids := [], requests := [], askWait := [], answered := [], tkWait := [], got := [],
    ownCap := capRevision1, pel := Peloton.reset,
    cycle := 0, next := 1, semOwner := 0, semTie := 0, denied := [false, false], portRead := [0, 0], astbase := 0, fqbase := 0, fqhead := 0,
    fqtail := 0, fqovf := 0, tlbBusy := false, tlbScope := none, savepool := 0, dbgsel := 0, dbgstat := 0, dbgbuf := 0,
    dbgAll := [], pcap := 2400, fwState := 0, fwFail := 0, fwBank := 0, fwBanks := [FwImage.factory, FwImage.factory],
    fwRun := FwImage.factory, fwMin := 0, attState := 0, attLeft := 0x100000, attBuf := 0, rejoin := false, chipId := 0,
    joined := false, planeOrder := [], elbase := 0, elhead := 0, eltail := 0, elovf := 0, cecntD := 0, cecntS := 0,
    logRates := [], stopped := false, powered := true }

/-- The switches at pod formation: term 1, sequence 1 first (R439); the plane order comes with the first join (R491). -/
def Switch.formation : Switch :=
  { order := [], pos := 0, term := 1, nextSeq := 1, lastPnum := [], inbox := [], retrans := [],
    witness := Replica.formation, standby := Replica.formation, emit := [], heard := [], ticked := true }

/-- The pod right after reset: every package reset, nothing in flight, no input. -/
def State.reset : State :=
  { chips := [], sw := Switch.formation, net := [], host := [], inputs := [], tick := 0,
    cur := { pkg := 0, wid := 0, slot := .A, half := .single }, scur := (0, 0, 0), last := .completed, pairSrc := none }

end Sys2Proof.Machine
end

