-- ==== Sys2Proof/Machine/Flags.lean ====
section
/-! DEFINITION. The sticky flags of `sr.flags` (R285, R286) and how an operation raises them. -/

namespace Sys2Proof.Machine

open Sys2Proof

/-- QSAT: a rounding saturated or mapped a NaN to zero (R113, R114). -/
def flagQsat : Word := 1
/-- SCUF: a block scale clamped at its smallest code (R120). -/
def flagScuf : Word := 2
/-- AOVF: an FP32 accumulator overflowed (R125). -/
def flagAovf : Word := 4
/-- ASAT: an INT32 accumulator saturated (R126). -/
def flagAsat : Word := 8
/-- EMPTY: a wave reduction had no participant (R208). -/
def flagEmpty : Word := 16
/-- APXS: a store ran inside an approximable region (R302). -/
def flagApxs : Word := 32

/-- The bits of `sr.flags` that exist (R285). -/
def flagMask : Word := 0x3F

/-- A flag set by any source is ORed in (R286). -/
def Wave.raise (w : Wave) (m : Word) : Wave := { w with flags := w.flags ||| m, raised := w.raised ||| m }

/-- Raises a flag where a condition holds. -/
def Wave.raiseIf (w : Wave) (b : Bool) (m : Word) : Wave := if b then w.raise m else w

/-- `setsr` to `sr.flags`: the reserved bits stay zero (R285, R288); a flag that is raised in the same cycle is set after the write (R286). -/
def Wave.writeFlags (w : Wave) (v : Word) : Wave := { w with flags := (v &&& flagMask) ||| w.raised }

end Sys2Proof.Machine
end

