-- ==== Sys2Proof/Machine/Num.lean ====
section
/-! DEFINITION. Number formats, exact values and the one rounding (R107 to R127): integers of a type, floats as exact values, RoundToFormat,
QuantiseBlock, Align and KPass. -/

namespace Sys2Proof.Machine

open Sys2Proof

/-! ## Integers (R107, R155) -/

/-- IntVal (R155): the low bits that the width of `t` holds. -/
def intVal (t : Ty) (x : Nat) : Int := if t.signed then asSigned t.width x else ((x % 2 ^ t.width : Nat) : Int)

/-- Least value of an integer type. -/
def Ty.least (t : Ty) : Int := if t.signed then -(2 ^ (t.width - 1) : Int) else 0
/-- Greatest value of an integer type. -/
def Ty.greatest (t : Ty) : Int := if t.signed then 2 ^ (t.width - 1) - 1 else 2 ^ t.width - 1

/-- Wrap (R155). -/
def wrapInt (t : Ty) (n : Int) : Int := if t.signed then asSigned t.width (modPow n t.width) else (modPow n t.width : Int)

/-- Sat (R155). -/
def satInt (t : Ty) (n : Int) : Int := Min.min (Max.max n (Ty.least t)) (Ty.greatest t)

/-- Reduction of an exact result (R159). -/
def reduceInt (t : Ty) (sat : Bool) (n : Int) : Int := if sat then satInt t n else wrapInt t n

/-! ## Exact values -/

/-- A non-zero real n / d × 2^e, with d > 0. -/
structure Ex where
  n : Int
  d : Nat
  e : Int
  deriving DecidableEq, Repr

/-- What an operand or an exact result is: NaN, an infinity, a signed zero, or a non-zero real. -/
inductive FNum
  | nan
  | inf (neg : Bool)
  | zero (neg : Bool)
  | fin (x : Ex)
  deriving DecidableEq, Repr

/-- 2^k for a possibly negative k, as numerator and denominator. -/
def pow2 (k : Int) : Nat × Nat := if 0 ≤ k then (2 ^ k.toNat, 1) else (1, 2 ^ (-k).toNat)

/-- An exact sum; zero as none. -/
def Ex.add (x y : Ex) : Option Ex :=
  let e := Min.min x.e y.e
  let n := x.n * 2 ^ (x.e - e).toNat * y.d + y.n * 2 ^ (y.e - e).toNat * x.d
  if n = 0 then none else some { n := n, d := x.d * y.d, e := e }

/-- An exact product. -/
def Ex.mul (x y : Ex) : Ex := { n := x.n * y.n, d := x.d * y.d, e := x.e + y.e }

/-- An exact quotient. -/
def Ex.div (x y : Ex) : Ex :=
  { n := x.n * (y.d : Int) * y.n.sign, d := x.d * y.n.natAbs, e := x.e - y.e }

/-- floor(log2 |x|). -/
def Ex.log2 (x : Ex) : Int :=
  let a := x.n.natAbs
  let k : Int := (Nat.log2 a : Int) - (Nat.log2 x.d : Int)
  let lt := if 0 ≤ k then a < x.d * 2 ^ k.toNat else a * 2 ^ (-k).toNat < x.d
  (if lt then k - 1 else k) + x.e

/-- The sign of a value; NaN has none. -/
def FNum.neg? : FNum → Bool
  | .nan => false
  | .inf b | .zero b => b
  | .fin x => x.n < 0

/-- A value of an exact real that may be zero. -/
def FNum.ofInt (n : Int) : FNum := if n = 0 then .zero false else .fin { n := n, d := 1, e := 0 }

/-- Negation. -/
def FNum.neg : FNum → FNum
  | .nan => .nan
  | .inf b => .inf (!b)
  | .zero b => .zero (!b)
  | .fin x => .fin { x with n := -x.n }

/-- An exact sum by IEEE rules; `rd` where a zero sum of unlike signs is -0 (R110). -/
def FNum.add (rd : Bool) (a b : FNum) : FNum :=
  match a, b with
  | .nan, _ => .nan
  | _, .nan => .nan
  | .inf s, .inf t => if s = t then .inf s else .nan
  | .inf s, _ => .inf s
  | _, .inf t => .inf t
  | .zero s, .zero t => if s = t then .zero s else .zero rd
  | .zero _, y => y
  | x, .zero _ => x
  | .fin x, .fin y => match x.add y with
    | none => .zero rd
    | some z => .fin z

/-- An exact product by IEEE rules (R189). -/
def FNum.mul (a b : FNum) : FNum :=
  match a, b with
  | .nan, _ => .nan
  | _, .nan => .nan
  | .inf _, .zero _ => .nan
  | .zero _, .inf _ => .nan
  | .fin x, .fin y => .fin (x.mul y)
  | .inf s, y => .inf (xor s y.neg?)
  | x, .inf t => .inf (xor x.neg? t)
  | .zero s, y => .zero (xor s y.neg?)
  | x, .zero t => .zero (xor x.neg? t)

/-- The magnitude of a value. -/
def FNum.abs : FNum → FNum
  | .nan => .nan
  | .inf _ => .inf false
  | .zero _ => .zero false
  | .fin x => .fin { x with n := x.n.natAbs }

/-- Whether a value is NaN. -/
def FNum.isNan : FNum → Bool
  | .nan => true
  | _ => false

/-- Whether a value is an infinity. -/
def FNum.isInf : FNum → Bool
  | .inf _ => true
  | _ => false

/-- Whether a value is a zero. -/
def FNum.isZero : FNum → Bool
  | .zero _ => true
  | _ => false

/-- a < b of values that are not NaN; zeros are equal. -/
def FNum.lt (a b : FNum) : Bool :=
  match a, b with
  | .nan, _ => false
  | _, .nan => false
  | .inf s, .inf t => s && !t
  | .inf s, _ => s
  | _, .inf t => !t
  | .zero _, .zero _ => false
  | .zero _, .fin y => 0 < y.n
  | .fin x, .zero _ => x.n < 0
  | .fin x, .fin y => match x.add { y with n := -y.n } with
    | none => false
    | some z => z.n < 0

/-- Numeric equality of values that are not NaN. -/
def FNum.eqv (a b : FNum) : Bool := !a.isNan && !b.isNan && !a.lt b && !b.lt a

/-- a < b with -0 below +0 (R191). -/
def FNum.below (a b : FNum) : Bool := a.lt b || (a.isZero && b.isZero && a.neg? && !b.neg?)

/-! ## Formats (R108, R109) -/

/-- A floating-point format: significand bits, smallest normal exponent, bias, canonical NaN and infinity where it has them, the code of its
largest finite magnitude, the bit of its sign. -/
structure FFmt where
  p : Nat
  emin : Int
  bias : Int
  nan : Option Nat
  inf : Option Nat
  maxCode : Nat
  sign : Nat
  deriving DecidableEq, Repr

/-- The format of a floating-point type (R108). -/
def ffmt : Ty → FFmt
  | .f16 => { p := 11, emin := -14, bias := 15, nan := some 0x7E00, inf := some 0x7C00, maxCode := 0x7BFF, sign := 15 }
  | .bf16 => { p := 8, emin := -126, bias := 127, nan := some 0x7FC0, inf := some 0x7F80, maxCode := 0x7F7F, sign := 15 }
  | .e5m2 => { p := 3, emin := -14, bias := 15, nan := some 0x7E, inf := some 0x7C, maxCode := 0x7B, sign := 7 }
  | .e4m3 => { p := 4, emin := -6, bias := 7, nan := some 0x7F, inf := none, maxCode := 0x7E, sign := 7 }
  | .e2m1 => { p := 2, emin := 0, bias := 1, nan := none, inf := none, maxCode := 0x7, sign := 3 }
  | _ => { p := 24, emin := -126, bias := 127, nan := some 0x7FC00000, inf := some 0x7F800000, maxCode := 0x7F7FFFFF, sign := 31 }

/-- Whether a type is a floating-point one. -/
def Ty.isFloat : Ty → Bool
  | .f32 | .f16 | .bf16 | .e4m3 | .e5m2 | .e2m1 => true
  | _ => false

/-- FVal (R108, R186): the value of the low bits of a register. -/
def fval (t : Ty) (x : Nat) : FNum :=
  let f := ffmt t
  let s := nbit x f.sign
  let mag := x % 2 ^ f.sign
  let m := mag % 2 ^ (f.p - 1)
  let e := mag / 2 ^ (f.p - 1)
  if f.maxCode < mag then if f.inf = some mag then .inf s else .nan
  else if mag = 0 then .zero s
  else
    let sg : Int := if s then -1 else 1
    if e = 0 then .fin { n := sg * m, d := 1, e := f.emin - (f.p - 1 : Nat) }
    else .fin { n := sg * (2 ^ (f.p - 1) + m : Nat), d := 1, e := e - f.bias - (f.p - 1 : Nat) }

/-! ## Rounding (R112, R113) -/

/-- |x| / 2^u as a fraction; a value far below the unit keeps only that it is positive and below 2^-33. -/
def Ex.inUnits (x : Ex) (u : Int) : Nat × Nat :=
  if x.log2 < u - 40 then (1, 2 ^ 40)
  else
    let s := x.e - u
    (x.n.natAbs * (pow2 s).1, x.d * (pow2 s).2)

/-- Whether a magnitude q + r / d rounds up (R113); modes RNE, RZ, RU, RD, RS are 0 to 4. -/
def roundUp (mode : Nat) (neg : Bool) (q r d rnd : Nat) : Bool :=
  r ≠ 0 &&
  match mode with
  | 0 => d < 2 * r || (2 * r = d && q % 2 = 1)
  | 1 => false
  | 2 => !neg
  | 3 => neg
  | _ => rnd < r * 2 ^ 32 / d

/-- RoundToFormat of a non-zero real into a floating-point format: the encoding and QSAT (R113). -/
def roundFloat (f : FFmt) (x : Ex) (mode : Nat) (sat : Bool) (rnd : Nat) : Nat × Bool :=
  let neg : Bool := x.n < 0
  let l := x.log2
  let u := Max.max l f.emin - (f.p - 1 : Nat)
  let (a, b) := x.inUnits u
  let q := a / b
  let m := if roundUp mode neg q (a % b) b rnd then q + 1 else q
  let (m, u) := if m = 2 ^ f.p then (m / 2, u + 1) else (m, u)
  let code : Nat := if m < 2 ^ (f.p - 1) then m
    else ((u + (f.p - 1 : Nat) + f.bias) * 2 ^ (f.p - 1)).toNat + (m - 2 ^ (f.p - 1))
  let s := b2n neg * 2 ^ f.sign
  if f.maxCode < code then
    let away := mode = 0 || mode = 4 || (mode = 2 && !neg) || (mode = 3 && neg)
    match f.inf with
    | some i => if !sat && away then (s + i, false) else (s + f.maxCode, true)
    | none => (s + f.maxCode, true)
  else (s + code, false)

/-- RoundToInteger into [lo, hi] (R113). -/
def roundInt (lo hi : Int) (x : Ex) (mode rnd : Nat) : Int × Bool :=
  let neg : Bool := x.n < 0
  if 80 < x.log2 then (if neg then lo else hi, true)
  else
    let (a, b) := x.inUnits 0
    let q := a / b
    let m := if roundUp mode neg q (a % b) b rnd then q + 1 else q
    let n : Int := if neg then -(m : Int) else m
    if n < lo then (lo, true) else if hi < n then (hi, true) else (n, false)

/-- RoundToFormat into the integers from `lo` to `hi` (R113, R114). -/
def roundToInt (lo hi : Int) (x : FNum) (mode rnd : Nat) : Int × Bool :=
  match x with
  | .nan => (0, true)
  | .inf neg => (if neg then lo else hi, true)
  | .zero _ => (0, false)
  | .fin y => roundInt lo hi y mode rnd

/-- RoundToFormat into a floating-point type: the encoding and QSAT (R113). -/
def roundToF (t : Ty) (x : FNum) (mode : Nat) (sat : Bool) (rnd : Nat) : Nat × Bool :=
  let f := ffmt t
  match x with
  | .nan => match f.nan with
    | some n => (n, false)
    | none => (0, true)
  | .inf neg => match f.inf with
    | some i => if sat then (b2n neg * 2 ^ f.sign + f.maxCode, true) else (b2n neg * 2 ^ f.sign + i, false)
    | none => (b2n neg * 2 ^ f.sign + f.maxCode, true)
  | .zero neg => (b2n neg * 2 ^ f.sign, false)
  | .fin y => roundFloat f y mode sat rnd

/-- RoundToFormat (R113) into any type: the number written and QSAT. -/
def roundTo (t : Ty) (x : FNum) (mode : Nat) (sat : Bool) (rnd : Nat) : Int × Bool :=
  if Ty.isFloat t then ((roundToF t x mode sat rnd).1, (roundToF t x mode sat rnd).2)
  else roundToInt (Ty.least t) (Ty.greatest t) x mode rnd

/-- One FP32 rounding to nearest even. -/
def rne32 (x : FNum) : Nat := (roundToF .f32 x 0 false 0).1

/-- The canonical NaN of FP32 (R109). -/
def nan32 : Nat := 0x7FC00000

/-! ## Sums (R207) -/

/-- An exact sum of values: NaN with a NaN or with both infinities; an exact zero is -0 when every element is -0, else +0 (R207). -/
def fsum (l : List FNum) : FNum :=
  if l.any FNum.isNan then .nan
  else
    let pos := l.any (fun x => x == .inf false)
    let neg := l.any (fun x => x == .inf true)
    if pos && neg then .nan else if pos then .inf false else if neg then .inf true
    else
      let r := l.foldl (fun (acc : Option Ex) x => match x, acc with
        | .fin y, none => some y
        | .fin y, some z => z.add y
        | _, a => a) none
      match r with
      | some z => .fin z
      | none => .zero (l.all (fun x => x == .zero true) && !l.isEmpty)

/-- fmin of two encodings (R191): the other operand beside a NaN, the canonical NaN of two, else the smaller, unchanged. -/
def fminN (t : Ty) (a b : Nat) : Nat :=
  let x := fval t a
  let y := fval t b
  if x.isNan && y.isNan then ((ffmt t).nan).getD 0 else if x.isNan then b else if y.isNan then a else if y.below x then b else a

/-- fmax of two encodings (R191). -/
def fmaxN (t : Ty) (a b : Nat) : Nat :=
  let x := fval t a
  let y := fval t b
  if x.isNan && y.isNan then ((ffmt t).nan).getD 0 else if x.isNan then b else if y.isNan then a else if x.below y then b else a

/-! ## Scales and quantisation (R115, R120) -/

/-- ScaleValue (R115); `sf` is SC8 / SF: false UE5M11, true UE3M5. -/
def scaleValue (sf : Bool) (code : Nat) : Ex :=
  if sf then { n := (32 + code % 32 : Nat), d := 1, e := (code / 32 % 8 : Nat) - 4 - 5 }
  else { n := (2048 + code % 2048 : Nat), d := 1, e := (code / 2048 % 32 : Nat) - 15 - 11 }

/-- Exact comparison of positive reals. -/
def Ex.ltb (x y : Ex) : Bool := FNum.lt (.fin x) (.fin y)

/-- The smallest code whose scale is at least `req`, which lies within the scale's range (R120). -/
def scaleCode (sf : Bool) (req : Ex) : Nat :=
  let mb : Nat := if sf then 5 else 11
  let bias : Int := if sf then 4 else 15
  let l := req.log2
  let (a, b) := req.inUnits (l - mb)
  let m := (a + b - 1) / b
  ((l + bias) * 2 ^ mb).toNat + (m - 2 ^ mb)

/-- Element formats of `fqb` (R187): 0 E4M3, 1 E5M2, 2 E2M1, 3 INT8, 4 INT4. -/
def qmax (ef : Nat) : Nat := match ef with | 0 => 448 | 1 => 57344 | 2 => 6 | 3 => 127 | _ => 7

/-- RoundToFormat into an element format with sat 1: the encoding in the format's width, and QSAT. -/
def roundElem (ef : Nat) (x : FNum) (mode rnd : Nat) : Nat × Bool :=
  match ef with
  | 0 => roundToF .e4m3 x mode true rnd
  | 1 => roundToF .e5m2 x mode true rnd
  | 2 => roundToF .e2m1 x mode true rnd
  | 3 => let r := roundToInt (-128) 127 x mode rnd; (modPow r.1 8, r.2)
  | _ => let r := roundToInt (-8) 7 x mode rnd; (modPow r.1 4, r.2)

/-- The largest magnitude over the values that are not NaN: zero if there is none (R120, R199). -/
def amaxOf (l : List FNum) : FNum :=
  l.foldl (fun acc x => if !x.isNan && acc.lt x.abs then x.abs else acc) (.zero false)

/-- A value divided by a positive scale. -/
def FNum.divEx (a : FNum) (s : Ex) : FNum :=
  match a with
  | .fin x => .fin (x.div s)
  | x => x

/-- The scale code of a block with QSAT and SCUF (R120). -/
def blockCode (ef : Nat) (sf : Bool) (amax : FNum) : Nat × Bool × Bool :=
  let top := if sf then 255 else 65535
  match amax with
  | .fin a =>
    let req := a.div { n := qmax ef, d := 1, e := 0 }
    if (scaleValue sf top).ltb req then (top, true, false)
    else if req.ltb (scaleValue sf 0) then (0, false, true)
    else (scaleCode sf req, false, false)
  | .inf _ => (top, true, false)
  | _ => (0, false, false)

/-- QuantiseBlock (R120): the scale code, the element encodings, QSAT, SCUF. Each element comes with its random operand. -/
def quantiseBlock (ef : Nat) (sf : Bool) (mode : Nat) (xs : List (FNum × Nat)) : Nat × List Nat × Bool × Bool :=
  let (code, q, u) := blockCode ef sf (amaxOf (xs.map (·.1)))
  let ys := xs.map (fun x => roundElem ef (x.1.divEx (scaleValue sf code)) mode x.2)
  (code, ys.map (·.1), q || ys.any (·.2), u)

/-! ## Alignment and passes (R122 to R127) -/

/-- The formats of matrix operands by EFMT (R250): 0 INT4, 1 E2M1, 2 CB4, 3 INT8, 4 E4M3, 5 E5M2, 6 BF16. -/
def efmtBits (e : Nat) : Nat := if e ≤ 2 then 4 else if e = 6 then 16 else 8

/-- A code of E2M1 doubled (R118). -/
def e2m1Entry (c : Nat) : Int :=
  let m : Int := [0, 1, 2, 3, 4, 6, 8, 12].getD (c % 8) 0
  if 8 ≤ c % 16 then -m else m

/-- A codebook: 16 signed entries and the shared exponent (R118). -/
structure Codebook where
  t : List Int
  x : Int
  deriving DecidableEq, Repr

/-- Align (R123): magnitudes with sign, exponent, special bit. `cb` is the codebook of EFMT 2. -/
def alignGroup (efmt : Nat) (cb : Codebook) (xs : List Nat) : List Int × Int × Bool :=
  match efmt with
  | 0 => (xs.map (fun c => asSigned 4 c), 0, false)
  | 1 => (xs.map e2m1Entry, -1, false)
  | 2 => (xs.map (fun c => cb.t.getD (c % 16) 0), cb.x, false)
  | 3 => (xs.map (fun c => asSigned 8 c), 0, false)
  | _ =>
    let t : Ty := if efmt = 4 then .e4m3 else if efmt = 5 then .e5m2 else .bf16
    let w : Int := if efmt = 6 then 16 else 8
    let vs := xs.map (fval t)
    if vs.any (fun v => v.isNan || v.isInf) then (xs.map (fun _ => 0), 0, true)
    else
      let leads := vs.filterMap (fun v => match v with | .fin x => some x.log2 | _ => none)
      match leads with
      | [] => (xs.map (fun _ => 0), 0, false)
      | a :: r =>
        let e := r.foldl Max.max a - w + 1
        (vs.map (fun v => match v with
          | .fin x =>
            let (p, q) := (x.n.natAbs * (pow2 (x.e - e)).1, x.d * (pow2 (x.e - e)).2)
            (if x.n < 0 then -((p / q : Nat) : Int) else ((p / q : Nat) : Int))
          | _ => 0), e, false)

/-- A pass over groups (R124): per group the aligned A and B and the scales of its elements; the exact total. -/
def passTotal (gs : List ((List Int × Int × Bool) × (List Int × Int × Bool) × List (Ex × Ex))) : Option Ex :=
  gs.foldl (fun acc g =>
    let (a, b, sc) := g
    ((a.1.zip b.1).zip sc).foldl (fun (acc : Option Ex) x =>
      let m := x.1.1 * x.1.2
      if m = 0 then acc
      else
        let t := ({ n := m, d := 1, e := a.2.1 + b.2.1 } : Ex).mul (x.2.1.mul x.2.2)
        match acc with
        | none => some t
        | some z => z.add t) acc) none

/-- One as a scale. -/
def Ex.one : Ex := { n := 1, d := 1, e := 0 }

/-- KPass after alignment (R124): the FP32 encoding of one pass; `band` is 1 when none is named. -/
def kPass (gs : List ((List Int × Int × Bool) × (List Int × Int × Bool) × List (Ex × Ex))) (band : FNum) : Nat :=
  if gs.any (fun g => g.1.2.2 || g.2.1.2.2) || band.isNan || band.isInf then nan32
  else match passTotal gs, band with
    | some t, .fin b => (roundFloat (ffmt .f32) (t.mul b) 0 false 0).1
    | _, _ => 0

/-- AccumulateF (R125): the new cell and AOVF. -/
def accumulateF (a p : Nat) : Nat × Bool :=
  let x := fval .f32 a
  let n := (roundToF .f32 (FNum.add false x (fval .f32 p)) 0 false 0).1
  (n, (fval .f32 n).isInf && !x.isInf && !x.isNan)

/-- AccumulateI (R126): the new cell and ASAT. -/
def accumulateI (a : Nat) (p : Int) : Nat × Bool :=
  let n := asSigned 32 a + p
  if 2 ^ 31 - 1 < n then (2 ^ 31 - 1, true) else if n < -(2 ^ 31) then (2 ^ 31, true) else (modPow n 32, false)

/-- The FP32 row sum of a pass (R127). -/
def rowSumF (gs : List ((List Int × Int × Bool) × List Ex)) (band : FNum) : Nat :=
  if gs.any (fun g => g.1.2.2) || band.isNan || band.isInf then nan32
  else
    let tot := gs.foldl (fun (acc : Option Ex) (g : (List Int × Int × Bool) × List Ex) => (g.1.1.zip g.2).foldl (fun (acc : Option Ex) (x : Int × Ex) =>
      if x.1 = 0 then acc
      else
        let t := Ex.mul { n := x.1, d := 1, e := g.1.2.1 } x.2
        match acc with
        | none => some t
        | some z => z.add t) acc) none
    match tot, band with
    | some t, .fin b => (roundFloat (ffmt .f32) (t.mul b) 0 false 0).1
    | _, _ => 0

end Sys2Proof.Machine
end

