-- ==== Sys2Proof/Machine/Ops.lean ====
section
/-! DEFINITION. The named operations over the state: packages and their units, physical memory with poison (R461, R478), page
tables (R463 to R468), TLBs (R469), fault records (R473 to R475), event proposals (R440), fetch lines (R128 to R131), paths
(R29), the taking of a trap (R279 to R285) and the return from one (R289). -/

namespace Sys2Proof.Machine

open Sys2Proof

/-! ## Packages and their units -/

/-- The package at index `p`. -/
def State.chip (s : State) (p : Nat) : Chip := tget Chip.reset s.chips p
/-- Replaces the package at index `p`. -/
def State.setChip (s : State) (p : Nat) (c : Chip) : State := { s with chips := tset s.chips p c }
/-- Applies `f` to the package at index `p`. -/
def State.modChip (s : State) (p : Nat) (f : Chip → Chip) : State := s.setChip p (f (s.chip p))

/-- The package that has chip identifier `id`: a powered one whose identifier it is, one that has joined first (R491). -/
def State.pkgOf (s : State) (id : Nat) : Option Nat :=
  let l := s.chips.filter (fun e => e.2.powered && e.2.chipId == id)
  ((l.find? (fun e => e.2.joined)).or l.head?).map (·.1)

/-- Core `n` of the package, 0 to 511. -/
def Chip.core (c : Chip) (n : Nat) : Core := tget (Core.reset n) c.cores n
/-- Replaces core `n`. -/
def Chip.setCore (c : Chip) (n : Nat) (k : Core) : Chip := { c with cores := tset c.cores n k }
/-- Cluster `n` of the package, 0 to 15. -/
def Chip.cluster (c : Chip) (n : Nat) : Cluster := tget Cluster.reset c.clusters n
/-- Replaces cluster `n`. -/
def Chip.setCluster (c : Chip) (n : Nat) (k : Cluster) : Chip := { c with clusters := tset c.clusters n k }
/-- The cluster of a core (R3). -/
def clusterOf (core : Nat) : Nat := core / 32
/-- The stream engine of vault `n`. -/
def Chip.engine (c : Chip) (n : Nat) : Engine := tget Engine.reset c.engines n
/-- Replaces the stream engine of vault `n`. -/
def Chip.setEngine (c : Chip) (n : Nat) (k : Engine) : Chip := { c with engines := tset c.engines n k }
/-- Context `x` of a stream engine. -/
def Engine.context (k : Engine) (x : Nat) : Ctx := tget Ctx.free k.ctx x
/-- Replaces context `x`. -/
def Chip.setCtx (c : Chip) (v x : Nat) (k : Ctx) : Chip :=
  let e := c.engine v
  c.setEngine v { e with ctx := tset e.ctx x k }
/-- Replaces a wave. -/
def Chip.setWave (c : Chip) (wid : Nat) (w : Wave) : Chip := { c with waves := tset c.waves wid w }
/-- Applies `f` to a wave. -/
def Chip.modWave (c : Chip) (wid : Nat) (f : Wave → Wave) : Chip := { c with waves := tmod c.waves wid f }
/-- Replaces a block. -/
def Chip.setBlock (c : Chip) (k : Nat) (b : Block) : Chip := { c with blocks := tset c.blocks k b }

/-- The grid run of a grid row. -/
def Chip.grid? (c : Chip) (grow : Nat) : Option GridRun := tfind c.grids grow

/-- The launch record of a wave: NODE's in a node block, else its grid's (R437). -/
def Chip.kernOf (c : Chip) (w : Wave) : Option LaunchRec :=
  match (tfind c.blocks w.blk).bind Block.node with
  | some n => some n.kern
  | none => (c.grid? w.grow).map GridRun.kern

/-- The address space of a grid row (R463). -/
def Chip.asidOf (c : Chip) (grow : Nat) : Nat := ((c.grid? grow).map GridRun.asid).getD 0

/-- Whether the wave's grid runs in fixed gear (R356). -/
def Chip.fgear (c : Chip) (grow : Nat) : Bool := ((c.grid? grow).map (fun g => g.kern.fgear)).getD false

/-- The chip-wide physical frame limit: 384 GiB (R461). -/
def dramBytes : Nat := 384 * 2 ^ 30

/-! ## Status words (R71) -/

/-- A status word from CODE, UNIT, CHIP and DETAIL (R71). -/
def statusWord (code unit chip detail : Nat) : Word :=
  BitVec.ofNat 32 (code * 2 ^ 24 + unit * 2 ^ 20 + chip % 512 * 2 ^ 11 + detail % 2048)

/-- The codes of R71. -/
def codePoison : Nat := 1
/-- See `codePoison`. -/
def codeXlate : Nat := 2
/-- See `codePoison`. -/
def codeProt : Nat := 3
/-- See `codePoison`. -/
def codeReject : Nat := 4
/-- See `codePoison`. -/
def codeCancelled : Nat := 5
/-- See `codePoison`. -/
def codeAborted : Nat := 6
/-- See `codePoison`. -/
def codeLost : Nat := 7

/-! ## Physical memory -/

/-- Whether a byte lies in a poisoned line (R478). -/
def Chip.isPoisoned (c : Chip) (pa : Nat) : Bool := c.poison.contains (pa / 128)

/-- Whether `n` bytes from a physical address cannot be accessed: they are no DRAM (R461), or a line of them is poisoned (R478). -/
def Chip.noAccess (c : Chip) (pa n : Nat) : Bool :=
  dramBytes < pa + n || c.poison.any (fun line => pa / 128 ≤ line && line ≤ (pa + (n - 1)) / 128)

/-- 8 bytes of DRAM, none where they cannot be accessed. -/
def Chip.dramWord (c : Chip) (pa : Nat) : Option Nat := if c.noAccess pa 8 then none else some (memNat c.dram pa 8)

/-- A copy forced to OFF (R342): SAMPLES cleared, EWMA +0, the ring emptied; weights kept. -/
def RegionCopy.off (r : RegionCopy) : RegionCopy :=
  if r.state = 0 then r else { r with state := 0, ewma := 0, samples := 0, ring := [], batch := [], obs := 0 }

/-- Forces every copy of a region to OFF (R350). -/
def Chip.regionOff (c : Chip) (region : Nat) : Chip :=
  { c with clusters := tmap c.clusters (fun _ k =>
      { k with fit := { k.fit with regions := tmod k.fit.regions region RegionCopy.off } }) }

/-- Forces to OFF every region that holds the frame of a written byte (R338, R350). -/
def Chip.codeWritten (c : Chip) (pa : Nat) : Chip :=
  c.bindings.foldl (fun k e => if e.2.frames.contains (pa / 4096) then k.regionOff e.1 else k) c

/-- The 64 bytes of DRAM at a multiple of 64, as one number. -/
def Chip.line64 (c : Chip) (pa : Nat) : BitVec 512 := BitVec.ofNat 512 (memNat c.dram pa 64)

/-- A line in which the bytes of a mask come from another. -/
def mergeLine (old new : BitVec 512) (m : BitVec 64) : BitVec 512 :=
  let k : BitVec 512 := BitVec.ofNat 512 ((List.range 64).foldl (fun a i => if m.getLsbD i then a + 255 * 256 ^ i else a) 0)
  (old &&& ~~~k) ||| (new &&& k)

/-- The bytes of the line of 64 that `n` bytes from an address lie in. -/
def lineBytes (pa n : Nat) : BitVec 64 := BitVec.ofNat 64 ((2 ^ n - 1) * 2 ^ (pa % 64))

/-- Bytes that no release is awaited for are fetchable as soon as they are written (R85). -/
def Chip.freshLines (c : Chip) (pa n : Nat) : Chip :=
  { c with lineOld := (splitAt 64 pa n).foldl (fun t x =>
      tmod t (x.1 / 64) (fun e => (mergeLine e.1 (c.line64 (x.1 / 64 * 64)) (lineBytes x.1 x.2), e.2))) c.lineOld }

/-- Writes DRAM bytes; false, and nothing written, where they cannot be accessed (R461, R478). -/
def Chip.writeDram (c : Chip) (pa : Nat) (bs : List Byte) : Chip × Bool :=
  if c.noAccess pa bs.length then (c, false)
  else (({ c with dram := memPut c.dram pa bs }.freshLines pa bs.length).codeWritten pa, true)

/-- Physical writes by firmware of the part, which put 8-byte words. -/
def Chip.putWords (c : Chip) (pa : Nat) (ws : List DWord) : Chip :=
  (c.writeDram pa (ws.flatMap (fun x => leBytes 8 x.toNat))).1

/-- The bytes of an allocation or its follower part. -/
def Block.part (b : Block) (fol : Bool) : Memory := if fol then b.folMem else b.mem
/-- Replaces the bytes of an allocation or its follower part. -/
def Block.setPart (b : Block) (fol : Bool) (m : Memory) : Block := if fol then { b with folMem := m } else { b with mem := m }

/-- Whether an uncorrectable error stands in a word of a range of an allocation or follower part (R496, R498). -/
def Block.damaged (b : Block) (fol : Bool) (off n : Nat) : Bool := b.bad.any (fun e => e.1 = fol && 4 * e.2 < off + n && off < 4 * e.2 + 4)

/-- A write of whole words gives them new check bits; an error in a word that is written in part stays. -/
def Block.mend (b : Block) (fol : Bool) (off n : Nat) : Block :=
  let keep := fun (e : Bool × Nat) => !(e.1 = fol && off ≤ 4 * e.2 && 4 * e.2 + 4 ≤ off + n)
  { b with bad := b.bad.filter keep, met := b.met.filter keep }

/-- Reads `n` bytes of a target that is no aperture page; none where they cannot be accessed, or a word of local memory is damaged. -/
def State.readTgt (s : State) (p : Nat) (t : Target) (n : Nat) : Option (List Byte) :=
  match t with
  | .dram pa =>
    let c := s.chip p
    if c.noAccess pa n then none else some (memBytes c.dram pa n)
  | .host pa => some (memBytes s.host pa n)
  | .aperture _ => some (List.replicate n 0)
  | .loc k fol off =>
    match tfind (s.chip p).blocks k with
    | none => some (List.replicate n 0)
    | some b => if b.damaged fol off n then none else some (memBytes (b.part fol) off n)

/-- Writes bytes at a target that is no aperture page; false where the write is discarded. -/
def State.writeTgt (s : State) (p : Nat) (t : Target) (bs : List Byte) : State × Bool :=
  match t with
  | .dram pa =>
    let r := (s.chip p).writeDram pa bs
    (s.setChip p r.1, r.2)
  | .host pa => ({ s with host := memPut s.host pa bs }, true)
  | .aperture _ => (s, true)
  | .loc k fol off =>
    match tfind (s.chip p).blocks k with
    | none => (s, true)
    | some b => (s.modChip p (fun c => c.setBlock k ((b.setPart fol (memPut (b.part fol) off bs)).mend fol off bs.length)), true)

/-- Moves a target by `n` bytes. -/
def Target.shift (t : Target) (n : Nat) : Target :=
  match t with
  | .dram pa => .dram (pa + n)
  | .host pa => .host (pa + n)
  | .aperture pa => .aperture (pa + n)
  | .loc k f off => .loc k f (off + n)

/-! ## Page tables (R463 to R468) -/

/-- The result of a walk: a leaf, or the cause and level of a failure (R470). -/
inductive Xlate
  | ok (e : TlbEntry)
  | fail (cause level : Nat)
  deriving DecidableEq, Repr

/-- Whether an access writes (R468). -/
def AccessKind.writes : AccessKind → Bool
  | .store | .atomic | .unitWrite | .heap => true
  | _ => false

/-- KIND of a fault record (R474). -/
def AccessKind.code : AccessKind → Nat
  | .load => 0 | .store => 1 | .atomic => 2 | .fetch => 3 | .heap => 4 | .unitRead => 5 | .unitWrite => 6

/-- Why a leaf refuses an access, the lowest cause first (R468, R470). -/
def TlbEntry.refuse (e : TlbEntry) (k : AccessKind) : Option Nat :=
  if k.writes && !e.w then some 3
  else if k = .fetch && !e.x then some 4
  else if (k = .fetch || k = .atomic) && e.host then some 5
  else none

/-- A physical frame number that names DRAM (R461). -/
def dramFrame (pfn : Nat) : Bool := pfn < dramBytes / 4096

/-- A frame of the register aperture that holds a control page or a queue page (R462). -/
def apertureFrame (pfn : Nat) : Bool :=
  let a := pfn - 0x8000000
  0x8000000 ≤ pfn && (a < 128 || 0x400 ≤ a && a < 0x800)

/-- Whether an entry with V set is malformed at a level (R466). -/
def pteBad (level pte : Nat) : Bool :=
  let leaf := nbit pte 1
  let pfn := fld pte 12 40
  let host := nbit pte 60
  let cont := nbit pte 59
  let size := if level = 1 then 2 ^ 18 else if level = 2 then 2 ^ 9 else if cont then 16 else 1
  nbit pte 63 || fld pte 52 7 ≠ 0 || fld pte 2 10 ≠ 0 ||
  (leaf && level = 0) || (!leaf && level = 3) ||
  (!leaf && (nbit pte 62 || nbit pte 61 || host || cont)) ||
  (leaf && cont && (level = 1 || level = 2)) ||
  (leaf && pfn % size ≠ 0) ||
  (!leaf && !dramFrame pfn) ||
  (leaf && !host && !dramFrame pfn && !(level = 3 && !cont && apertureFrame pfn))

/-- The leaf of an entry: its page of 2^log2 bytes holds offset `off`. -/
def pteLeaf (asid off log2 pte : Nat) (k : AccessKind) (level : Nat) : Xlate :=
  let e : TlbEntry := { asid := asid, base := off / 2 ^ log2 * 2 ^ log2, log2 := log2, pa := fld pte 12 40 * 4096,
                        w := nbit pte 61, x := nbit pte 62, host := nbit pte 60 }
  match e.refuse k with
  | some cause => .fail cause level
  | none => .ok e

/-- The walk from a table at `base`, over the levels that remain (R465 to R467). -/
def walkFrom (c : Chip) (asid off : Nat) (k : AccessKind) (base : Nat) : List Nat → Xlate
  | [] => .fail 2 3
  | level :: rest =>
    let ix := fld off (39 - 9 * level) 9
    if level = 3 then
      match c.dramWord (base + 8 * (ix / 16 * 16)), c.dramWord (base + 8 * ix) with
      | none, _ => .fail 2 3
      | some first, own =>
        if nbit first 0 && nbit first 59 then
          if pteBad 3 first then .fail 2 3 else pteLeaf asid off 16 first k 3
        else match own with
          | none => .fail 2 3
          | some pte0 =>
            let pte := if nbit pte0 59 then pte0 - 2 ^ 59 else pte0
            if !nbit pte 0 then .fail 1 3 else if pteBad 3 pte then .fail 2 3 else pteLeaf asid off 12 pte k 3
    else
      match c.dramWord (base + 8 * ix) with
      | none => .fail 2 level
      | some pte =>
        if !nbit pte 0 then .fail 1 level
        else if pteBad level pte then .fail 2 level
        else if nbit pte 1 then pteLeaf asid off (39 - 9 * level) pte k level
        else walkFrom c asid off k (fld pte 12 40 * 4096) rest

/-- A walk from the address-space table (R463, R464). -/
def walkTable (c : Chip) (asid off : Nat) (k : AccessKind) : Xlate :=
  let b := c.astbase.toNat
  if !nbit b 0 then .fail 6 0
  else match c.dramWord (fld b 19 33 * 2 ^ 19 + 8 * asid) with
    | none => .fail 6 0
    | some row =>
      if !nbit row 0 || fld row 1 11 ≠ 0 || fld row 52 12 ≠ 0 || !dramFrame (fld row 12 40) then .fail 6 0
      else walkFrom c asid off k (fld row 12 40 * 4096) [0, 1, 2, 3]

/-- The target of an offset inside a page (R461, R462, R466). -/
def TlbEntry.target (e : TlbEntry) (off : Nat) : Target :=
  let pa := e.pa + off % 2 ^ e.log2
  if e.host then .host pa else if dramBytes ≤ pa then .aperture pa else .dram pa

/-- What the page tables give for an access to an offset of an address space, or the cause and level of the failure. -/
def Chip.xlate (c : Chip) (asid off : Nat) (k : AccessKind) : Except (Nat × Nat) Target :=
  match walkTable c asid (off % 2 ^ 48) k with
  | .ok e => .ok (e.target (off % 2 ^ 48))
  | .fail cause level => .error (cause, level)

/-- The status code of a failed walk: a refusal is a permission fault (R468). -/
def causeCode (cause : Nat) : Nat := if cause = 3 || cause = 4 || cause = 5 then codeProt else codeXlate

/-! ## TLBs (R469) -/

/-- Whether an entry holds offset `off` of an address space. -/
def TlbEntry.covers (e : TlbEntry) (asid off : Nat) : Bool := e.asid == asid && off / 2 ^ e.log2 == e.base / 2 ^ e.log2

/-- A lookup for a core: an entry that permits the access, in its L1 TLB or its cluster's L2 TLB. -/
def Chip.tlbLookup (c : Chip) (core asid off : Nat) (k : AccessKind) : Option TlbEntry :=
  ((c.core core).tlb ++ (c.cluster (clusterOf core)).l2tlb).find? (fun e => e.covers asid off && (e.refuse k).isNone)

/-- The set of an L2 TLB that holds an entry: one of 1,024 (R469). DESIGN CHOICE: the number of its page modulo 1,024; the spec gives no index. -/
def TlbEntry.l2set (e : TlbEntry) : Nat := e.base / 2 ^ e.log2 % 1024

/-- Drops what a list of entries, the latest first, holds of a set beyond its first 8 (R469). -/
def dropWays (set : Nat) : Nat → List TlbEntry → List TlbEntry
  | _, [] => []
  | n, e :: l =>
    if e.l2set ≠ set then e :: dropWays set n l
    else if n = 0 then dropWays set 0 l
    else e :: dropWays set (n - 1) l

/-- Fills the L2 TLB of a cluster: 1,024 sets of 8 ways (R469). DESIGN CHOICE: in a full set the entry filled earliest makes room. -/
def Chip.l2Fill (c : Chip) (cluster : Nat) (e : TlbEntry) : Chip :=
  let cl := c.cluster cluster
  c.setCluster cluster { cl with l2tlb := dropWays e.l2set 8 (e :: cl.l2tlb.filter (· ≠ e)) }

/-- Fills a core's L1 TLB, of 256 entries, and its cluster's L2 TLB (R469). DESIGN CHOICE: in a full L1 TLB the entry filled earliest makes room. -/
def Chip.tlbFill (c : Chip) (core : Nat) (e : TlbEntry) : Chip :=
  let k := c.core core
  (c.setCore core { k with tlb := (e :: k.tlb.filter (· ≠ e)).take 256 }).l2Fill (clusterOf core) e

/-- A lookup that misses a core's L1 TLB and hits the L2 TLB of its cluster fills the L1 TLB (R469). -/
def Chip.tlbTouch (c : Chip) (core asid off : Nat) (k : AccessKind) : Chip :=
  match c.tlbLookup core asid off k with
  | none => c
  | some e =>
    let x := c.core core
    if x.tlb.contains e then c else c.setCore core { x with tlb := (e :: x.tlb).take 256 }

/-- The vault whose walk queue takes a page (R470). -/
def walkVault (asid off : Nat) : Nat := (off / 2 ^ 21 % 128) ^^^ (asid % 128)

/-- Joins the walk that is queued for the same page, or queues one while there is room (R470). -/
def Chip.queueWalk (c : Chip) (asid off : Nat) (r : WalkReq) : Chip :=
  let v := walkVault asid off
  let q := tget [] c.walks v
  let page := off / 4096
  let q' :=
    match q.find? (fun x => x.asid == asid && x.page == page) with
    | some x => if x.reqs.contains r then q else q.map (fun y => if y == x then { y with reqs := y.reqs ++ [r] } else y)
    | none => if q.length < 256 then q ++ [{ age := c.next, asid := asid, page := page, reqs := [r] }] else q
  { c with next := c.next + 1, walks := tset c.walks v q' }

/-- A unit's miss joins the walk that is queued for the same page, or queues one while there is room; else it waits (R470). -/
def Chip.queueUnit (c : Chip) (a : UnitAsk) : Chip :=
  let v := walkVault a.asid (a.page * 4096)
  let q := tget [] c.walks v
  let q' :=
    match q.find? (fun x => x.asid == a.asid && x.page == a.page) with
    | some x => if x.units.contains a.req then q else q.map (fun y => if y == x then { y with units := y.units ++ [a.req] } else y)
    | none => if q.length < 256 then q ++ [{ age := c.next, asid := a.asid, page := a.page, reqs := [], units := [a.req] }] else q
  { c with next := c.next + 1, walks := tset c.walks v q' }

/-- What stands ready for the access of a unit to an offset: an entry of the L2 TLB of a cluster that permits it, or the result of its walk; none
where it has missed (R469, R470). -/
def Chip.unitLook (c : Chip) (r : UnitReq) (asid off : Nat) : Option (Except (Nat × Nat) Target) :=
  match (c.cluster r.cluster).l2tlb.find? (fun e => e.covers asid off && (e.refuse r.kind).isNone) with
  | some e => some (.ok (e.target off))
  | none => (c.unitWalks.find? (fun x => x.asid = asid && x.page = off / 4096 && x.req = r)).map (fun x =>
      match x.entry with
      | some e => .ok (e.target off)
      | none => .error (x.cause, x.level))

/-- Where an address lies, as an L2 TLB of the chip has it, else as its page tables do. -/
def Chip.unitPeek (c : Chip) (asid addr : Nat) : Except (Nat × Nat) Target :=
  match (c.clusters.flatMap (fun e => e.2.l2tlb)).find? (fun e => e.covers asid (addr % 2 ^ 48)) with
  | some e => .ok (e.target (addr % 2 ^ 48))
  | none => c.xlate asid addr .unitRead

/-- The cluster whose L2 TLB a unit looks up. DESIGN CHOICE: that of the wave which started its command, where that is one of the chip; else, of the 16
clusters, that of the vault whose queue takes the walk, 8 vaults to each. -/
def unitCluster (w : Option Wave) (asid off : Nat) : Nat := (w.map (fun w => clusterOf w.core)).getD (walkVault asid off / 8)

/-- The step of a unit from `s` that has come to `t`: it is made where every translation it needs stood ready, and the results of walks that it has taken are
gone; else it waits, and its misses are queued (R470). -/
def State.unitStep (s t : State) : State :=
  if t.asks.isEmpty then
    if t.taken.isEmpty then t
    else { t with taken := [], chips := t.taken.foldl (fun l a => tmod l a.pkg (fun c =>
      { c with unitWalks := c.unitWalks.filter (fun x => !(x.asid = a.asid && x.page = a.page && x.req = a.req)) })) t.chips }
  else t.asks.foldl (fun u a => u.modChip a.pkg (fun c => c.queueUnit a)) s

/-! ## Fault records (R473, R474, R477) -/

/-- Whether a wave belongs to a node block (R437). -/
def Chip.isNode (c : Chip) (w : Wave) : Bool := ((tfind c.blocks w.blk).bind Block.node).isSome

/-- A block number of a wave within its grid (R22). -/
def Chip.blockNo (c : Chip) (w : Wave) : Nat := ((tfind c.blocks w.blk).map Block.block).getD 0

/-- A fault record with PHASE 0 (R474); `w` is the wave named, none when no wave started the command, and `home` its chip. -/
def faultRecord (c : Chip) (addr asid : Nat) (k : AccessKind) (cause level : Nat) (status : Word) (token unit : Nat)
    (w : Option Wave) (home : Chip := c) : BitVec 256 :=
  let wf := match w with
    | none => 0
    | some w => w.grow % 4096 * 2 ^ 84 + home.blockNo w * 2 ^ 60 + w.stage % 4 * 2 ^ 58 + w.wno % 32 * 2 ^ 53 + b2n (home.isNode w) * 2 ^ 48
  BitVec.ofNat 256 (addr * 2 ^ 192 + asid % 65536 * 2 ^ 176 + k.code * 2 ^ 168 + level * 2 ^ 166 + cause * 2 ^ 160 +
    status.toNat * 2 ^ 128 + token * 2 ^ 96 + wf + unit * 2 ^ 49)

/-- SZ of the fault queue, 0 where it is disabled (R473). -/
def Chip.fqSz (c : Chip) : Nat :=
  let z := fld c.fqbase.toNat 0 5
  if 7 ≤ z && z ≤ 16 then z else 0

/-- Whether the fault queue has room for a record. -/
def Chip.fqRoom (c : Chip) : Bool := c.fqSz ≠ 0 && (c.fqhead - c.fqtail).toNat ≠ 2 ^ c.fqSz

/-- Writes a record at HEAD with its PHASE, and advances HEAD (R473). -/
def Chip.fqPut (c : Chip) (r : BitVec 256) : Chip :=
  let n := c.fqhead.toNat
  let x := r.toNat + b2n (nbit n c.fqSz)
  let c1 := (c.writeDram (fld c.fqbase.toNat 12 40 * 4096 + 32 * (n % 2 ^ c.fqSz)) (leBytes 32 x)).1
  { c1 with fqhead := c.fqhead + 1 }

/-- The record of an asynchronous fault: written, or dropped and counted where there is no room (R477). -/
def Chip.asyncFault (c : Chip) (addr asid : Nat) (k : AccessKind) (cause level unit : Nat) (w : Option Wave) (home : Chip := c) : Chip :=
  let st := statusWord (causeCode cause) unit c.chipId 0
  if c.fqRoom then c.fqPut (faultRecord c (addr % 2 ^ 48 + c.chipId * 2 ^ 48) asid k cause level st 0 unit w home)
  else { c with fqovf := c.fqovf + 1 }

/-! ## Slots of a wave -/

/-- The path in a slot (R24). -/
def Wave.path? (w : Wave) : Slot → Option Path
  | .A => w.slotA
  | .B => w.slotB

/-- Puts a path, or none, in a slot. -/
def Wave.setPath (w : Wave) (sl : Slot) (q : Option Path) : Wave :=
  match sl with
  | .A => { w with slotA := q }
  | .B => { w with slotB := q }

/-- The pages that hold the path of a slot (R475). -/
def Wave.held (w : Wave) (sl : Slot) : List HeldPage := ((w.path? sl).map Path.held).getD []

/-- Replaces the pages that hold the path of a slot. -/
def Wave.setHeld (w : Wave) (sl : Slot) (l : List HeldPage) : Wave := w.setPath sl ((w.path? sl).map (fun q => { q with held := l }))

/-- Issue bookkeeping of a slot. -/
def Wave.issueOf (w : Wave) : Slot → SlotIssue
  | .A => w.issueA
  | .B => w.issueB

/-- Replaces the issue bookkeeping of a slot. -/
def Wave.setIssue (w : Wave) (sl : Slot) (i : SlotIssue) : Wave :=
  match sl with
  | .A => { w with issueA := i }
  | .B => { w with issueB := i }

/-- Every path of a wave. -/
def Wave.paths (w : Wave) : List Path := w.slotA.toList ++ w.slotB.toList ++ w.heap

/-- Changes every path of a wave. -/
def Wave.mapPaths (w : Wave) (f : Path → Path) : Wave :=
  { w with slotA := w.slotA.map f, slotB := w.slotB.map f, heap := w.heap.map f }

/-- The lanes that have not exited (R24). -/
def Wave.lanes (w : Wave) : Word := w.paths.foldl (fun m q => m ||| q.mask) 0

/-- Whether the wave is in handler mode (R284). -/
def Wave.hmode (w : Wave) : Bool := w.cause.getLsbD 15

/-- Holds the path of a slot for a page that failed (R475): a record with a token of its own waits for room in the ring, or, with the
queue disabled, the page counts as answered with FAIL set. `second`: the second operation of a pair met it (R146). -/
def Chip.holdPage (c : Chip) (wid : Nat) (sl : Slot) (lanes : Word) (addr asid : Nat) (k : AccessKind) (cause level : Nat) (second : Bool := false) :
    Chip :=
  match tfind c.waves wid with
  | none => c
  | some w =>
    let st := statusWord (causeCode cause) 0 c.chipId 0
    let off := c.fqSz = 0
    let h : HeldPage := { token := c.nextToken, page := BitVec.ofNat 64 (addr / 4096 * 4096), lanes := lanes, status := st,
                          written := false, answer := if off then some true else none, second := second }
    let rec0 := faultRecord c (addr % 2 ^ 48 + c.chipId * 2 ^ 48) asid k cause level st c.nextToken.toNat 0 (some w)
    let nt := if c.nextToken + 1 = 0 then 1 else c.nextToken + 1
    let pf := if off then c.pendFaults else c.pendFaults ++ [{ record := rec0, token := c.nextToken }]
    { c with nextToken := nt, pendFaults := pf }.setWave wid (w.setHeld sl (w.held sl ++ [h]))

/-- Whether a package takes writes to its management window besides FWUP, ATTREQ and the semaphore: it has power, and is not in recovery (R487). -/
def Chip.accepts (c : Chip) : Bool := c.powered && !c.recovery

/-! ## Peloton proposals (R440, R444) -/

/-- An event record (R444). -/
def eventRec (wit : Bool) (origin ty pnum term seq payload : Nat) : EventRec :=
  BitVec.ofNat 512 (payload * 2 ^ 160 + b2n wit * 2 ^ 145 + origin % 512 * 2 ^ 136 + ty * 2 ^ 128 + pnum % 2 ^ 32 * 2 ^ 96 +
    term % 2 ^ 32 * 2 ^ 64 + seq % 2 ^ 64)

/-- A proposal of a chip: the record waits to be sent, and takes its PNUM as it is (R440). -/
def Chip.propose (c : Chip) (ty payload : Nat) : Chip :=
  { c with pel := { c.pel with props := c.pel.props ++ [eventRec false c.chipId ty 0 0 0 payload] } }

/-! ## Fetch lines (R128 to R131) -/

/-- Whether a writer can still release what it has written: its wave has not ended, or has accesses on their way; its copy command runs. -/
def Chip.writerLives (c : Chip) (writer : Nat) : Bool :=
  if writer % 2 = 0 then (tfind c.waves (writer / 2)).any (fun w => !w.ended) || c.pend.any (fun a => a.wid = writer / 2)
  else c.copies.any (fun k => k.id = writer / 2)

/-- The fetch line that memory gives: without the bytes that a writer has written and not released, so that no fetch sees a mixture (R85). DESIGN CHOICE:
never the new one before the release; the stores of a wave that has ended without one are fetchable once all are performed. -/
def Chip.lineMem (c : Chip) (pa : Nat) : Option (BitVec 512) :=
  if c.isPoisoned pa then none
  else some (match tfind c.lineOld (pa / 64) with
    | none => c.line64 pa
    | some e => mergeLine e.1 (c.line64 pa) ((e.2.filter (fun w => !c.writerLives w.1)).foldl (fun m w => m ||| w.2) 0))

/-- A writer is about to write `n` bytes of DRAM: the lines from before are kept until it releases them (R85). -/
def Chip.noteLines (c : Chip) (writer pa n : Nat) : Chip :=
  { c with lineOld := (splitAt 64 pa n).foldl (fun t x =>
      let e := (tfind t (x.1 / 64)).getD (c.line64 (x.1 / 64 * 64), [])
      let m := lineBytes x.1 x.2
      tset t (x.1 / 64) (e.1, if e.2.any (fun w => w.1 = writer) then e.2.map (fun w => if w.1 = writer then (w.1, w.2 ||| m) else w)
        else e.2 ++ [(writer, m)])) c.lineOld }

/-- What a writer has written is released at chip scope: its bytes are new in their lines from here on (R85). DESIGN CHOICE: where another writer has
since written one of them and not released it, that byte is the other's. -/
def Chip.publish (c : Chip) (writer : Nat) : Chip :=
  { c with lineOld := (tmap c.lineOld (fun ln (e : BitVec 512 × List (Nat × BitVec 64)) =>
      ((e.2.filter (fun w => w.1 = writer)).foldl (fun l w => mergeLine l (c.line64 (ln * 64)) w.2) e.1,
        e.2.filter (fun w => w.1 ≠ writer)))).filter (fun e => !e.2.2.isEmpty) }

/-- The line that a core fetches: the one its instruction cache holds, or memory's; where both exist and differ, either (R85). None where the line
is poisoned, or stands in the cache with an uncorrectable error (R131). -/
def Chip.fetchLine (c : Chip) (tick core pa : Nat) : Option (BitVec 512) :=
  if (c.core core).icBad.contains pa then none
  else match tfind (c.core core).icache pa, c.lineMem pa with
  | none, m => m
  | some l, none => some l
  | some l, some m => if l = m then some l else if Config.fetchFresh tick then some m else some l

/-- The lines that an instruction cache of 64 KiB holds (R3). -/
def icacheLines : Nat := 1024

/-- A fetched line stands in the core's instruction cache; where that is full, a line of no fixed choice makes room (R3). -/
def Chip.cacheLine (c : Chip) (tick core pa : Nat) (l : BitVec 512) : Chip :=
  let k := c.core core
  let old := if (tfind k.icache pa).isSome || k.icache.length < icacheLines then k.icache
    else k.icache.eraseIdx (Config.replace tick % k.icache.length)
  let stays := fun (n : Nat) => (tfind old n).isSome
  c.setCore core { k with icache := tset old pa l, icBad := k.icBad.filter stays, icMet := k.icMet.filter stays }

/-- The 96 bits in line slot `k` (R128). -/
def lineSlot (l : BitVec 512) (k : Nat) : Nat := fld l.toNat (96 * k) 96

/-- The line word (R129). -/
def lineWord (l : BitVec 512) : Nat := fld l.toNat 480 32

/-- Whether a line word is malformed (R130). -/
def lineBad (l : BitVec 512) : Bool :=
  let w := lineWord l
  fld w 15 17 ≠ 0 || parity 15 w ||
  (List.range 5).any (fun k => parity 96 (lineSlot l k) ≠ nbit w (9 + k)) ||
  (List.range 3).any (fun j => nbit w (5 + j) && nbit w (6 + j)) ||
  (List.range 4).any (fun j => nbit w (5 + j) && nbit w (j + 1))

/-- The line address of a PC (R132). -/
def pcLine (pc : DWord) : Nat := pc.toNat / 64 * 64
/-- The line slot of a PC (R132). -/
def pcSlot (pc : DWord) : Nat := pc.toNat % 8
/-- A PC from a line address and a slot. -/
def mkPc (line slot : Nat) : DWord := BitVec.ofNat 64 (line + slot)

/-- The PC that follows `n` slots further on (R132). -/
def pcNext (pc : DWord) (n : Nat) : DWord :=
  if pcSlot pc + n < 5 then mkPc (pcLine pc) (pcSlot pc + n) else mkPc (pcLine pc + 64) (pcSlot pc + n - 5)

/-- What a look at the line of a PC gives: a translation failure, a damaged or malformed line, or the line. -/
inductive LineView
  | fault (cause level : Nat)
  | bad (word : Word) (poisoned : Bool)
  | good (l : BitVec 512)
  deriving DecidableEq, Repr

/-- The line at a PC as a wave of address space `asid` on `core` would fetch it, by the page tables. -/
def Chip.viewLine (c : Chip) (tick core asid : Nat) (pc : DWord) : LineView :=
  match c.xlate asid (pcLine pc) .fetch with
  | .error (cause, level) => .fault cause level
  | .ok (.dram pa) =>
    match c.fetchLine tick core pa with
    | none => .bad 0 true
    | some l => if lineBad l then .bad (BitVec.ofNat 32 (lineWord l)) false else .good l
  | .ok _ => .bad 0 false

/-- Whether a PC is a check point (R26): its slot is in TMASK of a line that can be read. -/
def Chip.checkPoint (c : Chip) (tick core asid : Nat) (pc : DWord) : Bool :=
  match c.viewLine tick core asid pc with
  | .good l => pcSlot pc < 5 && nbit (lineWord l) (pcSlot pc)
  | _ => false

/-- The fate of a transfer target (R133). -/
inductive TargetFate
  | ok
  | illegal
  | hold (cause level : Nat)
  deriving DecidableEq, Repr

/-- Checks a transfer target (R133): a malformed or poisoned line does not make the target illegal. -/
def Chip.checkTarget (c : Chip) (tick core asid : Nat) (pc : DWord) : TargetFate :=
  if fld pc.toNat 3 3 ≠ 0 || 5 ≤ pcSlot pc then .illegal
  else match c.viewLine tick core asid pc with
    | .fault cause level => .hold cause level
    | .bad _ _ => .ok
    | .good l => if nbit (lineWord l) (pcSlot pc) then .ok else .illegal

/-! ## Paths: Arrive, Fill, Diverge (R29) -/

/-- Whether a path is waiting (R29). -/
def Path.waiting (q : Path) : Bool := q.wait ≠ .none

/-- Mergeable paths (R29). -/
def Path.mergeable (q r : Path) : Bool := q.pc == r.pc && q.wbase == r.wbase && !q.waiting && !r.waiting

/-- A path that takes another's lanes: what is deferred, held or in the ordered sequence for either is so for the merged path. -/
def Path.absorb (q r : Path) : Path := { q with mask := q.mask ||| r.mask, held := q.held ++ r.held, ord := q.ord || r.ord }

/-- The merged path of Diverge (R29). -/
def Path.merge (q r : Path) : Path := { q.absorb r with fresh := q.fresh && r.fresh, late := q.late || r.late }

/-- PC order, ties by window base. -/
def Path.before (q r : Path) : Bool := q.pc.toNat < r.pc.toNat || q.pc == r.pc && q.wbase < r.wbase

/-- Sorted insertion into the heap (R27). -/
def heapInsert (q : Path) : List Path → List Path
  | [] => [q]
  | r :: h => if q.before r then q :: r :: h else r :: heapInsert q h

/-- Sorts paths (R29). -/
def sortPaths (l : List Path) : List Path := l.foldl (fun h q => heapInsert q h) []

/-- Adds a path to a list, merged into a mergeable one that stands at a check point (R29). -/
def mergeAdd (cp : DWord → Bool) (q : Path) : List Path → List Path
  | [] => [q]
  | r :: l => if cp r.pc && r.mergeable q then r.merge q :: l else r :: mergeAdd cp q l

/-- Arrive before its Fill: the merges and the exchange with the heap's head (R29). A path that has arrived has no Arrive deferred. -/
def arriveCore (w : Wave) (sl : Slot) : Wave :=
  match w.path? sl with
  | none => w
  | some x =>
    if x.waiting then w
    else
      let (w, x) := match w.path? sl.other with
        | some y => if y.mergeable x then ((w.setPath sl.other none), x.absorb y) else (w, x)
        | none => (w, x)
      let (w, x) := match w.heap with
        | h :: t => if h.mergeable x then ({ w with heap := t }, x.absorb h) else (w, x)
        | [] => (w, x)
      let x := { x with late := false }
      match w.heap with
      | h :: t => if h.pc.toNat < x.pc.toNat then { w with heap := heapInsert x t }.setPath sl (some h) else w.setPath sl (some x)
      | [] => w.setPath sl (some x)

/-- The Arrive that is deferred for the path of a slot is performed, now that it has one (R29). -/
def arriveLate (arr : Wave → Slot → Wave) (cp : DWord → Bool) (w : Wave) (sl : Slot) : Wave :=
  match w.path? sl with
  | some h =>
    if !h.late then w
    else
      let w1 := w.setPath sl (some { h with late := false })
      if cp h.pc then arr w1 sl else w1
  | none => w

/-- Moves the heap's head into an empty slot; a successor whose Arrive was deferred then arrives (R29). -/
def fillSlot (arr : Wave → Slot → Wave) (cp : DWord → Bool) (w : Wave) (sl : Slot) : Wave :=
  match w.path? sl, w.heap with
  | none, h :: t => arriveLate arr cp ({ w with heap := t }.setPath sl (some h)) sl
  | _, _ => w

/-- Fill over both slots, in the order A, B (R29). -/
def fillWith (arr : Wave → Slot → Wave) (cp : DWord → Bool) (w : Wave) : Wave := fillSlot arr cp (fillSlot arr cp w .A) .B

/-- Arrive (R29): the merges and the exchange, the deferred Arrive of a head that an exchange brings into the slot, Fill. Each deferred Arrive
is performed once, so the bound is never met. -/
def arrive : Nat → (DWord → Bool) → Wave → Slot → Wave
  | 0, _, w, _ => w
  | n + 1, cp, w, sl => fillWith (arrive n cp) cp (arriveLate (arrive n cp) cp (arriveCore w sl) sl)

/-- Arrive with the bound of R24. -/
def Wave.arriveAt (cp : DWord → Bool) (w : Wave) (sl : Slot) : Wave := arrive 34 cp w sl

/-- Fill (R29). -/
def Wave.fill (cp : DWord → Bool) (w : Wave) : Wave := fillWith (arrive 33 cp) cp w

/-- Arrive for a slot whose PC is a check point. -/
def Wave.arriveIf (cp : DWord → Bool) (w : Wave) (sl : Slot) : Wave :=
  match w.path? sl with
  | some q => if cp q.pc then w.arriveAt cp sl else w
  | none => w

/-- A successor of Diverge: until it takes a slot its Arrive is deferred. -/
def Path.deferred (q : Path) : Path := { q with late := true }

/-- A path that takes a slot in Diverge: its Arrive is not deferred. -/
def Path.seated (q : Path) : Path := { q with late := false }

/-- Diverge (R29): slot `sl` held the executing path, `succ` are its successors, `hint` the lanes of the hinted one. A successor that gets no
slot has its Arrive deferred, also where it has merged with another path. -/
def Wave.diverge (cp : DWord → Bool) (w : Wave) (sl : Slot) (succ : List Path) (hint : Option Word) : Wave :=
  let keep := match w.path? sl.other with
    | some y => y.waiting
    | none => false
  let y := if keep then [] else (w.path? sl.other).toList
  let p := sortPaths ((succ.map Path.deferred ++ w.heap ++ y).foldl (fun l q => mergeAdd cp q l) [])
  let lanes := succ.foldl (fun m q => m ||| q.mask) 0
  let inSucc := fun (q : Path) => q.mask &&& lanes ≠ 0
  match p with
  | [] => w
  | first :: rest =>
    if keep then { w with heap := rest }.setPath sl (some first.seated) |>.arriveIf cp sl
    else
      match rest with
      | [] => (({ w with heap := [] }.setPath .A (some first.seated)).setPath .B none).arriveIf cp .A
      | second :: h =>
        let swap := match hint with
          | some m => inSucc first && inSucc second && first.mask &&& m = 0 && second.mask &&& m ≠ 0
          | none => false
        let a := if swap then second else first
        let b := if swap then first else second
        (({ w with heap := h }.setPath .A (some a.seated)).setPath .B (some b.seated)).arriveIf cp .A |>.arriveIf cp .B

/-- Whether a slot is stalled (R30, R35). -/
def Wave.stalled (cp : DWord → Bool) (fg : Bool) (w : Wave) (sl : Slot) : Bool :=
  match w.path? sl, w.path? sl.other with
  | some x, some y => cp x.pc && (!x.fresh || fg) && y.pc.toNat < x.pc.toNat
  | _, _ => false

/-- How many heap entries stay in the resident area of `depth` entries: an insertion that would pass the depth moves the highest to the spill
area, and a resident count below half the depth brings the lowest spilled ones back (R36). DESIGN CHOICE: they come back until the resident
area is half full, rounded up; the spec does not say how many. -/
def heapKeep (depth oldLen oldRes newLen : Nat) : Nat :=
  let res := newLen - (oldLen - oldRes)
  if depth < res then depth else if 2 * res < depth then Nat.min newLen ((depth + 1) / 2) else res

/-- A path in the layout of R37. -/
def Path.image (q : Path) : Nat := b2n q.fresh * 2 ^ 112 + q.wbase * 2 ^ 96 + q.mask.toNat * 2 ^ 64 + q.pc.toNat

/-! ## The wave's own view of lines -/

/-- Check points as the wave sees them. -/
def State.cpOf (s : State) (p : Nat) (w : Wave) : DWord → Bool :=
  fun pc => (s.chip p).checkPoint s.tick w.core ((s.chip p).asidOf w.grow) pc

/-! ## Ending waves of a grid -/

/-- The end of every wave of a grid row on this chip, without saving (R281, R450): slots and heap empty. -/
def Chip.endWaves (c : Chip) (grow : Nat) : Chip :=
  { c with
      waves := tmap c.waves (fun _ w =>
        if w.grow = grow then { w with slotA := none, slotB := none, heap := [], ended := true } else w)
      blocks := tmap c.blocks (fun _ b => if b.grow = grow then { b with ended := true } else b) }

/-- The end of the grid's stream contexts with DETAIL 10 (R335). -/
def Chip.endContexts (c : Chip) (grow : Nat) (detail : Nat) : Chip :=
  { c with engines := tmap c.engines (fun _ e => { e with ctx := tmap e.ctx (fun _ x =>
      if x.busy && x.grow = grow && x.ending.isNone then { x with ending := some (statusWord codeCancelled 2 c.chipId detail) }
      else x) }) }

/-- FAULTID of a wave (R420). -/
def Chip.faultId (c : Chip) (w : Wave) : Nat :=
  b2n (c.isNode w) * 2 ^ 31 + c.blockNo w * 2 ^ 7 + w.stage % 4 * 2 ^ 5 + w.wno % 32

/-- A fault of a grid that no wave raised (R434): FAULT is proposed with a FAULTID of zero. -/
def Chip.gridFault (c : Chip) (grow cause : Nat) : Chip :=
  c.propose 3 (cause * 2 ^ 44 + ((c.grid? grow).map (fun g => g.ggen.toNat)).getD 0 * 2 ^ 12 + grow)

/-- A wave faults (R281): every wave of its grid ends here, and FAULT is proposed, which ends the grid on every chip (R450). -/
def State.waveFault (s : State) (p wid : Nat) (cause : Nat) : State :=
  match tfind (s.chip p).waves wid with
  | none => s
  | some w =>
    s.modChip p (fun c =>
      let ggen := ((c.grid? w.grow).map GridRun.ggen).getD 0
      ((c.endWaves w.grow).endContexts w.grow 10).propose 3
        (c.faultId w * 2 ^ 64 + cause % 256 * 2 ^ 44 + ggen.toNat * 2 ^ 12 + w.grow))

/-! ## The end of blocks -/

/-- Whether two blocks are of one cohort; the numbers of node blocks repeat from cluster to cluster (R16, R437). -/
def Block.sameCohort (a b : Block) : Bool :=
  a.grow == b.grow && a.cohort == b.cohort && a.node.isSome == b.node.isSome && (a.node.isNone || clusterOf a.core == clusterOf b.core)

/-- The block of the wave that started a context: it stands for its cohort. -/
def Chip.ctxOwner (c : Chip) (x : Ctx) : Option Block := (tfind c.waves x.wid).bind (fun w => tfind c.blocks w.blk)

/-- Whether a block of a context's cohort has not ended (R312); a node block is a cohort of its own (R437). -/
def Chip.ctxAlive (c : Chip) (x : Ctx) : Bool :=
  (c.ctxOwner x).any (fun b => !b.ended || b.node.isNone && c.blocks.any (fun e => e.2.sameCohort b && !e.2.ended))

/-- The end of a cohort ends its stream contexts, with DETAIL 10 where no earlier cause has (R312, R335). -/
def Chip.endCohort (c : Chip) : Chip :=
  { c with engines := tmap c.engines (fun _ e => { e with ctx := tmap e.ctx (fun _ x =>
      if x.busy && x.ending.isNone && !c.ctxAlive x then { x with ending := some (statusWord codeCancelled 2 c.chipId 10) } else x) }) }

/-- A block has ended once its last wave has ended and its array queue is empty (R184, R274); a node block then gives up the records of its
batch (R435). -/
def Chip.blockEnd (c : Chip) (k : Nat) : Chip :=
  match tfind c.blocks k with
  | none => c
  | some b =>
    if b.ended || b.waves.any (fun i => (tfind c.waves i).any (fun w => !w.ended)) || (c.core b.core).aq.any (fun a => a.blk = k) then c
    else
      let c1 := (c.setBlock k { b with ended := true }).endCohort
      match b.node with
      | none => c1
      | some n =>
        let cl := clusterOf b.core
        let u := c1.cluster cl
        c1.setCluster cl { u with bins := u.bins.map (fun x =>
          if x.grow = b.grow && x.num = n.bin then { x with held := x.held - n.count } else x) }

/-! ## Traps -/

/-- What a trap records: cause, operand concerned, einfo0 to einfo2 (R282, R284); `word`: the local bytes whose damage it tells of (R498). -/
structure TrapInfo where
  cause : Nat
  src : Nat := 0
  e0 : Word := 0
  e1 : Word := 0
  e2 : Word := 0
  word : Option (Target × Nat) := none
  deriving DecidableEq, Repr

/-- Whether the trap entry of a launch record can be entered (R281): not zero, a legal target, its line neither malformed nor
poisoned. A line that fails translation does not fail the check. -/
def Chip.trapEntryOk (c : Chip) (tick core asid : Nat) (pc : DWord) : Bool :=
  pc ≠ 0 && fld pc.toNat 3 3 = 0 && pcSlot pc < 5 &&
  match c.viewLine tick core asid pc with
  | .fault _ _ => true
  | .bad _ _ => false
  | .good l => nbit (lineWord l) (pcSlot pc)

/-- The trap registers, handler mode, and the path at the trap entry (R279, R284). `k` slots past the first of the word the operation
trapped; the resumption PC is the word's own, or for `trap` and `brk`, which have completed, the one that follows. -/
def Wave.enterTrap (w : Wave) (sl : Slot) (q : Path) (t : TrapInfo) (k : Nat) (epc entry : DWord) (fg : Bool) : Wave :=
  { w with
      cause := BitVec.ofNat 32 (2 ^ 15 + (pcSlot q.pc + k) % 8 * 2 ^ 12 + t.src % 16 * 2 ^ 8 + t.cause % 256)
      epc := epc, emask := q.mask, einfo0 := t.e0, einfo1 := t.e1, einfo2 := t.e2, hslot := sl, turn := none, stepping := if w.stepping = StepStage.armed then StepStage.issued else w.stepping
      clock := if fg then w.clock + (if t.cause = 0x30 || t.cause = 0x31 then 2 else 1) else w.clock }.setPath sl
    (some { q with pc := entry, fresh := false, wait := .none, held := [], ord := false, line := none, beside := false })

/-- The arrival of a wave at a `bar` of its block is withdrawn: the instruction is abandoned with no effect (R275). -/
def Block.unarrive (b : Block) (wid id : Nat) : Block :=
  let bar := tget Bar.zero b.bars id
  if !bar.arrived.contains wid then b
  else
    let rest := bar.arrived.filter (· ≠ wid)
    { b with bars := tset b.bars id (if rest.isEmpty then { bar with arrived := [], count := 0, fixed := false } else { bar with arrived := rest }) }

/-- What a path that waits has done is withdrawn where its instruction is abandoned (R275): the arrival of its wave at a `bar`. -/
def Chip.abandon (c : Chip) (wid blk : Nat) (q : Path) : Chip :=
  match q.wait with
  | .bar _ id _ _ _ => { c with blocks := tmod c.blocks blk (fun b => b.unarrive wid id) }
  | _ => c

/-- The place of the wave that a slot's waiting word reads in `Chip.srcs`. -/
def srcKey (wid : Nat) (sl : Slot) : Nat := 2 * wid + (if sl = .A then 0 else 1)

/-- The word of a slot is over: what it read is kept no longer. -/
def Chip.dropSrc (c : Chip) (wid : Nat) (sl : Slot) : Chip := { c with srcs := tdel c.srcs (srcKey wid sl) }

/-- TAKING A TRAP (R279 to R281): one shared operation. A trap in handler mode, or one whose trap entry cannot be entered, makes the
wave fault. `k` is 1 for the second operation of a pair; `epc` is the resumption PC. -/
def State.takeTrap (s : State) (p wid : Nat) (sl : Slot) (t : TrapInfo) (k : Nat) (epc : DWord) : State :=
  match tfind (s.chip p).waves wid with
  | none => s
  | some w =>
    match w.path? sl with
    | none => s
    | some q =>
      let c := s.chip p
      let entry := ((c.kernOf w).map LaunchRec.trapPc).getD 0
      if w.hmode || !c.trapEntryOk s.tick w.core (c.asidOf w.grow) entry then s.waveFault p wid t.cause
      else s.modChip p (fun c => ((c.abandon wid w.blk q).dropSrc wid sl).setWave wid
        (w.enterTrap sl q t k epc entry (c.fgear w.grow)))

/-- RETURN FROM A TRAP (R289): handler mode ends, the path stands at `pc`, and Arrive is performed at a check point. -/
def Wave.leaveTrap (cp : DWord → Bool) (w : Wave) (sl : Slot) (pc : DWord) (fg : Bool) : Wave :=
  match w.path? sl with
  | none => w
  | some q =>
    ({ w with cause := w.cause &&& 0xFFFF7FFF, clock := if fg then w.clock + 1 else w.clock }.setPath sl
      (some { q with pc := pc, line := none })).arriveIf cp sl

end Sys2Proof.Machine
end

