-- ==== Sys2Proof/Machine/ErrorLog.lean ====
section
/-! DEFINITION. The error log of a chip (R501 to R503), its capacities (R446), and the retirement of a core (R500). -/

namespace Sys2Proof.Machine

open Sys2Proof

/-! ## Error records -/

/-- SZ of the error log, 0 where it is disabled (R501). -/
def Chip.elSz (c : Chip) : Nat :=
  let z := fld c.elbase.toNat 0 5
  if 7 ≤ z && z ≤ 16 then z else 0

/-- An error record with PHASE 0 (R502). -/
def errorRecord (cyc addr : Nat) (status : Word) (count cls action loc : Nat) : Nat :=
  cyc % 2 ^ 64 * 2 ^ 192 + addr % 2 ^ 64 * 2 ^ 128 + status.toNat * 2 ^ 96 + Nat.min count 65535 * 2 ^ 80 + cls % 256 * 2 ^ 72 +
    action % 256 * 2 ^ 64 + loc % 65536 * 2 ^ 48

/-- Writes a record, or drops it and counts it where the ring is full. DEDUCED: a record for a disabled ring is dropped and counted too, as the fault
queue, by which this ring works, has it (R477, R501). -/
def Chip.elPut (c : Chip) (r : Nat) : Chip :=
  let z := c.elSz
  if z = 0 then { c with elovf := c.elovf + 1 }
  else if (c.elhead - c.eltail).toNat = 2 ^ z then { c with elovf := c.elovf + 1 }
  else
    let n := c.elhead.toNat
    let c1 := (c.writeDram (fld c.elbase.toNat 12 40 * 4096 + 32 * (n % 2 ^ z)) (leBytes 32 (r + b2n (nbit n z)))).1
    { c1 with elhead := c.elhead + 1 }

/-- Adds 1 to a counter that saturates. -/
def satInc (x : Word) : Word := if x = 0xFFFFFFFF then x else x + 1

/-- An event that writes its own record with COUNT 1 (R503). -/
def Chip.logEvent (c : Chip) (cls action loc addr : Nat) (status : Word) : Chip :=
  c.elPut (errorRecord c.cycle.toNat addr status 1 cls action loc)

/-- The record of an uncorrectable SRAM error that has been met (R496, R502): the unit's code and number in LOC, the status word of its consumer. -/
def Chip.logSram (c : Chip) (action unit num : Nat) (status : Word) (addr : Nat := 0) : Chip :=
  c.logEvent 4 action (unit * 2 ^ 12 + num % 2 ^ 12) addr status

/-- The status word of a damaged datum (R71, R498). -/
def Chip.poisonStatus (c : Chip) (unit : Nat) : Word := statusWord codePoison unit c.chipId 0

/-- A consumer meets the uncorrectable errors of local bytes: the state with them marked, and the core of each that none has met before. -/
def Chip.meetWord (c : Chip) (tg : Target) (n : Nat) : Chip × List Nat :=
  match tg with
  | .loc k fol off =>
    match tfind c.blocks k with
    | none => (c, [])
    | some b =>
      let new := b.bad.filter (fun e => e.1 = fol && 4 * e.2 < off + n && off < 4 * e.2 + 4 && !b.met.contains e)
      (if new.isEmpty then c else c.setBlock k { b with met := b.met ++ new }, new.map (fun _ => b.core + b2n fol))
  | _ => (c, [])

/-- A consumer meets the uncorrectable errors of local bytes: each that none has met before is logged, in class 4 (R496, R503). -/
def Chip.senseWord (c : Chip) (tg : Target) (n action : Nat) (st : Word) : Chip :=
  let r := c.meetWord tg n
  r.2.foldl (fun c core => c.logSram action 0 core st) r.1

/-- A corrected error of class 1, 3 or 7: at most one record in 2^20 cycles for a class and place; COUNT holds the events since the last
(R503). Classes 1 and 3 count in CECNT. -/
def Chip.logCorrected (c : Chip) (cls loc addr : Nat) : Chip :=
  let c1 := if cls = 1 then { c with cecntD := satInc c.cecntD } else if cls = 3 then { c with cecntS := satInc c.cecntS } else c
  let same := fun (r : LogRate) => r.cls == cls && r.loc == loc
  let old := c1.logRates.find? same
  let rest := c1.logRates.filter (fun r => !same r)
  let n := (old.map LogRate.count).getD 0 + 1
  let due := match old with
    | none => true
    | some r => r.lastCycle + 2 ^ 20 ≤ c1.cycle.toNat
  if due then
    ({ c1 with logRates := rest ++ [{ cls := cls, loc := loc, count := 0, lastCycle := c1.cycle.toNat }] } : Chip).elPut
      (errorRecord c1.cycle.toNat addr 0 n cls 0 loc)
  else { c1 with logRates := rest ++ [{ cls := cls, loc := loc, count := n, lastCycle := (old.map LogRate.lastCycle).getD 0 }] }

/-! ## Capacities (R429, R446, R500) -/

/-- The collective partition: cores 0 to P - 1 of a cluster (R494). -/
def Chip.inPartition (c : Chip) (core : Nat) : Bool := core % 32 < (c.cluster (clusterOf core)).part
/-- The reserved cores: cores 32 - LRES to 31 of a cluster (R429). -/
def Chip.inReserve (c : Chip) (core : Nat) : Bool := 32 - (c.cluster (clusterOf core)).lres ≤ core % 32

/-- CAPL, CAPB and CAPP of the chip as it now stands. -/
def Chip.capacity (c : Chip) : Nat × Nat × Nat :=
  let up := (List.range 512).filter (fun n => !((tfind c.cores n).map Core.retired).getD false)
  let gen := up.filter (fun n => !c.inPartition n)
  (gen.length, (gen.filter (fun n => !c.inReserve n)).length, (up.filter c.inPartition).length)

/-- BLOCKED is proposed when a change has moved a capacity (R446). -/
def Chip.sendBlocked (c old : Chip) : Chip :=
  let k := c.capacity
  if k = old.capacity then c else c.propose 2 (k.1 + k.2.1 * 2 ^ 10 + k.2.2 * 2 ^ 20)

/-- A core is retired at once (R500). -/
def Chip.retireCore (c : Chip) (n : Nat) : Chip := (c.setCore n { c.core n with retired := true }).sendBlocked c

end Sys2Proof.Machine
end

