-- ==== Sys2Proof/Machine/Operands.lean ====
section
/-! DEFINITION. What every wave instruction shares: the registers its operands name (R52 to R65), the readiness and operand checks
(R39, R56, R65, R68, R69), the guard (R137), reading and writing of every operand form, and the end of an issued word. -/

namespace Sys2Proof.Machine

open Sys2Proof

/-! ## Registers of a wave -/

/-- Logical lane register `x` (R57). -/
def Wave.lreg (w : Wave) (x : Nat) : LaneReg := tget LaneReg.zero w.v x
/-- Uniform register `n`. -/
def Wave.ureg (w : Wave) (n : Nat) : UReg := tget UReg.zero w.s n
/-- Predicate `n` in lane `k`; p7 is true (R53). -/
def Wave.pbit (w : Wave) (n k : Nat) : Bool := n == 7 || laneOn (tget 0 w.p n) k
/-- Index register `n` in lane `k`. -/
def Wave.ireg (w : Wave) (n k : Nat) : Word := (tget [] w.i n).getD k 0
/-- Handle register `n`. -/
def Wave.hreg (w : Wave) (n : Nat) : DWord := tget 0 w.h n

/-- A register by reference: its full bit. -/
def Wave.isFull (w : Wave) : RegRef → Bool
  | .v x => (w.lreg x).full
  | .s n => (w.ureg n).full

/-- Its error bit. -/
def Wave.isErr (w : Wave) : RegRef → Bool
  | .v x => (w.lreg x).err
  | .s n => (w.ureg n).err

/-- Its error mask. -/
def Wave.errMask (w : Wave) : RegRef → Word
  | .v x => (w.lreg x).mask
  | .s n => (w.ureg n).mask

/-- A short-latency write of the lanes of `m` (R70, R157): it clears those lanes' bits of the error mask. -/
def LaneReg.write (r : LaneReg) (m : Word) (f : Nat → Word) : LaneReg :=
  let e := r.mask &&& ~~~m
  { r with vals := mergeLanes r.vals m f, mask := e, err := r.err && e ≠ 0 }

/-- A write of a predicate, index or handle register in the lanes of `m` gives them new check bits (R498). -/
def Wave.mendSoft (w : Wave) (r : SoftReg) (m : Word) : Wave :=
  { w with soft := (w.soft.map (fun e => if e.1 = r then (e.1, e.2.1 &&& ~~~m, e.2.2) else e)).filter (fun e => e.1 ≠ r || e.2.1 ≠ 0) }

/-- Writes a lane register in the lanes of `m`. -/
def Wave.putV (w : Wave) (x : Nat) (m : Word) (f : Nat → Word) : Wave := { w with v := tset w.v x ((w.lreg x).write m f) }

/-- Writes a uniform register, a write to every lane (R157). -/
def Wave.putS (w : Wave) (n : Nat) (v : Word) : Wave := { w with s := tset w.s n { val := v, full := true, err := false, mask := 0 } }

/-- Writes a predicate in the lanes of `m`; a write to p7 is ignored (R53). -/
def Wave.putP (w : Wave) (n : Nat) (m : Word) (f : Nat → Bool) : Wave :=
  if n = 7 then w
  else { w with p := tset w.p n (maskOf (fun k => if laneOn m k then f k else laneOn (tget 0 w.p n) k)) }.mendSoft (.p n) m

/-- Writes an index register in the lanes of `m`. -/
def Wave.putI (w : Wave) (n : Nat) (m : Word) (f : Nat → Word) : Wave :=
  { w with i := tset w.i n (mergeLanes (tget [] w.i n) m f) }.mendSoft (.i n) m

/-- Writes a handle register. -/
def Wave.putH (w : Wave) (n : Nat) (v : DWord) : Wave := { w with h := tset w.h n v }.mendSoft (.h n) 0xFFFFFFFF

/-- Marks a register empty and clears its error bit and mask, as a producer does at issue (R68). -/
def Wave.markEmpty (w : Wave) (r : RegRef) : Wave :=
  let sick := w.sick.filter (· ≠ r)
  match r with
  | .v x => { w with v := tset w.v x { w.lreg x with full := false, err := false, mask := 0 }, sick := sick }
  | .s n => { w with s := tset w.s n { w.ureg n with full := false, err := false, mask := 0 }, sick := sick }

/-- The number and class that stand for a predicate, index or handle register in `sr.einfo2` (R139, R285). -/
def SoftReg.code : SoftReg → Nat
  | .p n => n * 2 ^ 10 + 2 ^ 9
  | .i n => (8 + n) * 2 ^ 10 + 2 ^ 9
  | .h n => (16 + n) * 2 ^ 10 + 2 ^ 9

/-- The predicate, index or handle register that an operand reads: an indexed one reads its index register. -/
def softOf : Operand → Option SoftReg
  | .pred n => if n = 7 then none else some (.p n.toNat)
  | .idx n => some (.i n.toNat)
  | .handle n => some (.h n.toNat)
  | .indexed n => some (.i n.toNat)
  | _ => none

/-- The lanes of `m` in which a predicate, index or handle register holds an uncorrectable error. -/
def Wave.softBad (w : Wave) (r : SoftReg) (m : Word) : Word := ((w.soft.find? (fun e => e.1 = r)).map (fun e => e.2.1 &&& m)).getD 0

/-! ## What an operand names -/

/-- The lane register number that an indexed operand names in lane `k`, a signed sum formed exactly (R64). -/
def Wave.ixNum (w : Wave) (i : BitVec 2) (disp k : Nat) : Int := asSigned 32 (w.ireg i.toNat k).toNat + disp

/-- The registers that an operand of `n` registers names in lane `k`, for a path with window base `wb` (R57, R64). -/
def Wave.refs (w : Wave) (wb : Nat) (op : Operand) (disp n k : Nat) : List RegRef :=
  match op with
  | .lane x => (List.range n).map (fun j => .v (wb + x.toNat + j))
  | .unif x => (List.range n).map (fun j => .s (x.toNat + j))
  | .indexed i => (List.range n).map (fun j => .v (wb + (w.ixNum i disp k).toNat + j))
  | _ => []

/-- The lanes in which an operand of `n` registers, aligned to `al` when indexed, is out of range: every active lane for a direct
operand (R56, R65, R140, R164). -/
def Wave.rangeBad (w : Wave) (act chk : Word) (op : Operand) (disp n al : Nat) : Word :=
  match op with
  | .lane x => if x.toNat + n ≤ w.L then 0 else act
  | .unif x => if x.toNat + n ≤ w.U then 0 else act
  | .indexed i => chk &&& maskOf (fun k =>
      let x := w.ixNum i disp k
      x < 0 || (w.L : Int) < x + n || x % (al : Int) ≠ 0)
  | _ => 0

/-! ## The issue context -/

/-- What an issued operation sees: where it issues, the wave to write, the wave whose registers it reads (the one from before the
pair, R146), its path, its fields and form, the guard-true active lanes, the guard of the lowest active lane, the immediate. -/
structure Iss where
  p : Nat
  wid : Nat
  sl : Slot
  half : Half
  tick : Nat
  c : Chip
  w : Wave
  r : Wave
  q : Path
  o : Ops
  f : Form
  exe : Word
  go : Bool
  immw : Word

/-- The active lanes whose guard is true (R137). -/
def guardMask (w : Wave) (g : Guard) (act : Word) : Word :=
  act &&& maskOf (fun k => xor (w.pbit g.p.toNat k) g.neg)

/-- The context of an operation at the cursor; none where no path stands. -/
def issOf (f : Form) (o : Ops) (s : State) : Option Iss :=
  let c := s.chip s.cur.pkg
  match tfind c.waves s.cur.wid with
  | none => none
  | some w =>
    match w.path? s.cur.slot with
    | none => none
    | some q =>
      let r := s.pairSrc.getD w
      let exe := guardMask r o.guard q.mask
      some { p := s.cur.pkg, wid := s.cur.wid, sl := s.cur.slot, half := s.cur.half, tick := s.tick, c := c, w := w, r := r, q := q,
             o := o, f := f, exe := exe, go := laneOn exe (lowLane q.mask), immw := o.word }

/-- The lanes in which the range of an indexed operand is checked (R65): the active lanes whose guard is true. DESIGN CHOICE: none where the
operation acts once and its guard is false in the lowest active lane, since it then performs nothing; in an operation that acts once (`rfal`,
`red.w`, `match` with a uniform d) R65's words are taken lane by lane all the same. DEDUCED: every active lane in an operation that acts for
each of them (`apx.begin`, `apx.end`). -/
def Iss.chk (x : Iss) : Word := if x.f.once && !x.go then 0 else if x.f.every then x.q.mask else x.exe

/-- The lanes whose registers a source names: those checked (R65, R69). An operation that reads its source a across lanes reads it in guard-false
active lanes too: `shfl` and `match` in every active lane (R203, R210), `red.w` in those whose predicate b is true (R208). The full bits and error bits of the registers
that those lanes name are looked at as well. DEDUCED. -/
def Iss.readLanes (x : Iss) (ps : Pos) : Word :=
  if !x.f.cross || ps ≠ .a || x.f.once && !x.go then x.chk
  else match opAt x.o .b with
    | .pred n => x.q.mask &&& maskOf (fun k => laneOn x.chk k || x.r.pbit n.toNat k)
    | _ => x.q.mask

/-- The registers an operand names over the lanes that read it; an indexed one names none where it is out of range. -/
def Iss.refsAt (x : Iss) (ps : Pos) : List RegRef :=
  let op := opAt x.o ps
  let n := (x.f.opd ps).n
  if op.isIndexed then
    let m := x.readLanes ps
    let bad := x.r.rangeBad x.q.mask m op (x.o.disp ps) n (x.f.opd ps).al
    ((lanesOf (m &&& ~~~bad)).flatMap (fun k => x.r.refs x.q.wbase op (x.o.disp ps) n k)).dedup
  else x.r.refs x.q.wbase op 0 n 0

/-- The lanes in which an operand is out of range. -/
def Iss.badAt (x : Iss) (ps : Pos) : Word :=
  let fo := x.f.opd ps
  x.r.rangeBad x.q.mask x.chk (opAt x.o ps) (x.o.disp ps) fo.n fo.al

/-- The EMODE bit of a source (R69). -/
def Iss.emode (x : Iss) : Pos → Bool
  | .a => x.o.em.getLsbD 2
  | .b => x.o.em.getLsbD 1
  | .c => x.o.em.getLsbD 0
  | .d => false

/-- SRC of `sr.cause` (R284). -/
def posSrc : Pos → Nat
  | .a => 1 | .b => 2 | .c => 3 | .d => 4

/-- The sources in the order of R69. -/
def srcPos : List Pos := [.a, .b, .c]

/-- The predicate, index and handle registers that an operation reads, each with its SRC: the guard, the sources, the index of its destination. -/
def Iss.softReads (x : Iss) : List (Nat × SoftReg) :=
  let at_ := fun (ps : Pos) => ((softOf (opAt x.o ps)).map (fun r => (posSrc ps, r))).toList
  (if x.o.guard.p = 7 then [] else [(0, .p x.o.guard.p.toNat)]) ++ srcPos.flatMap at_ ++ (if x.o.d.isIndexed then at_ .d else [])

/-- The operand-error trap of an operation that reads a damaged predicate, index or handle register (R13, R496, R498). DESIGN CHOICE: these registers
have no error bit, and the spec names no trap for them; the trap is that of a register which holds POISON. -/
def Iss.softTrap (x : Iss) : Option TrapInfo :=
  (x.softReads.find? (fun e => x.r.softBad e.2 x.q.mask ≠ 0)).map (fun e =>
    { cause := 0x0A, src := e.1, e0 := x.r.softBad e.2 x.q.mask, e1 := statusWord codePoison 0 x.c.chipId 0, e2 := BitVec.ofNat 32 e.2.code })

/-- What the operand checks come to. -/
inductive Check
  | ready
  | wait
  | trap (t : TrapInfo)
  deriving DecidableEq, Repr

/-- The register-range trap of a position (R282). -/
def Iss.rangeTrap (x : Iss) (ps : Pos) (bad : Word) : TrapInfo :=
  { cause := 0x08, src := (posSrc ps), e0 := bad, e2 := BitVec.ofNat 32 (fieldOf (opAt x.o ps)) }
where
  /-- The operand field as encoded. -/
  fieldOf : Operand → Nat
    | .lane n => n.toNat
    | .unif n => 0x100 + n.toNat
    | .indexed k => 0x304 + k.toNat
    | .bits v => v.toNat
    | _ => 0x300

/-- The register of R285: window-relative, with its class; for an indexed operand the lowest named by a checked lane. -/
def Iss.regCode (x : Iss) (ps : Pos) (r : RegRef) : Word :=
  match opAt x.o ps, r with
  | .indexed i, _ => BitVec.ofNat 32 (((lanesOf x.chk).map (fun k => (x.r.ixNum i (x.o.disp ps) k).toNat)).foldl Nat.min 255 * 2 ^ 10)
  | _, .v n => BitVec.ofNat 32 ((n - x.q.wbase) * 2 ^ 10)
  | _, .s n => BitVec.ofNat 32 (n * 2 ^ 10 + 2 ^ 8)

/-- The operand-error trap of a register (R69, R282): its error mask and the status word of the lowest failing lane. -/
def Iss.errTrap (x : Iss) (ps : Pos) (r : RegRef) : TrapInfo :=
  let m := x.r.errMask r
  let st := match r with
    | .v n => (x.r.lreg n).vals.getD (lowLane m) 0
    | .s n => (x.r.ureg n).val
  { cause := 0x0A, src := (posSrc ps), e0 := m, e1 := st, e2 := x.regCode ps r }

/-- The first position that satisfies `f`. -/
def firstPos (l : List Pos) (f : Pos → Bool) : Option Pos := l.find? f

/-- The first register of a position with its error bit set. DESIGN CHOICE: where an indexed source names several of them, it is the first in lane
order, and the error mask and status word of the trap are its own; `sr.einfo2` names the lowest register of any checked lane (R285). -/
def Iss.errReg (x : Iss) (ps : Pos) : Option RegRef := (x.refsAt ps).find? x.r.isErr

/-- R39, R68, R69 and R56 in one: waiting for empty registers, then a register-range trap, an empty-operand trap, an
operand-error trap, that of a damaged predicate, index or handle register last; among traps of one kind the lowest source first. -/
def Iss.check (x : Iss) : Check :=
  let inRange := fun ps => x.badAt ps == 0
  let empties := fun ps => inRange ps && (x.refsAt ps).any (fun r => !x.r.isFull r)
  if srcPos.any (fun ps => !x.emode ps && empties ps) || inRange .d && (x.refsAt .d).any (fun r => !x.w.isFull r) then .wait
  else match firstPos [.a, .b, .c, .d] (fun ps => x.badAt ps ≠ 0) with
    | some ps => .trap (x.rangeTrap ps (x.badAt ps))
    | none =>
      match firstPos srcPos empties with
      | some ps =>
        .trap { cause := 0x09, src := (posSrc ps),
                e2 := (((x.refsAt ps).find? (fun r => !x.r.isFull r)).map (x.regCode ps)).getD 0 }
      | none =>
        match firstPos srcPos (fun ps => (x.errReg ps).isSome) with
        | some ps =>
          match x.errReg ps with
          | some r => .trap (x.errTrap ps r)
          | none => .ready
        | none => (x.softTrap.map Check.trap).getD .ready

/-! ## Reading sources -/

/-- Word `j` of an operand in lane `k` (R139, R141, R155). A guard-false lane that an operation across lanes reads is not checked for its range
(R65): the spec gives no value for a register that does not exist, so it supplies a free one. -/
def Iss.word (x : Iss) (ps : Pos) (k j : Nat) : Word :=
  match opAt x.o ps with
  | .lane n => (x.r.lreg (x.q.wbase + n.toNat + j)).vals.getD k 0
  | .unif n => (x.r.ureg (n.toNat + j)).val
  | .indexed i =>
    let n := x.r.ixNum i (x.o.disp ps) k
    if n < 0 || (x.r.L : Int) ≤ n + j then Config.freeWord (x.tick * 2 ^ 20 + k)
    else (x.r.lreg (x.q.wbase + n.toNat + j)).vals.getD k 0
  | .imm .v32 => if j = 0 then x.immw else 0
  | .imm .sx64 => if j = 0 then x.immw else if x.immw.msb then 0xFFFFFFFF else 0
  | .imm .zx64 => if j = 0 then x.immw else 0
  | .idx n => x.r.ireg n.toNat k
  | .pred n => if x.r.pbit n.toNat k then 1 else 0
  | .handle n => if j = 0 then lo32 (x.r.hreg n.toNat) else hi32 (x.r.hreg n.toNat)
  | _ => 0

/-- The 64-bit value of an operand in lane `k`. -/
def Iss.dword (x : Iss) (ps : Pos) (k : Nat) : DWord := Machine.dword (x.word ps k 0) (x.word ps k 1)

/-- The value of an operand of type `t` in lane `k`, as the bits its width holds. -/
def Iss.valN (x : Iss) (t : Ty) (ps : Pos) (k : Nat) : Nat :=
  if t.width = 64 then (x.dword ps k).toNat else (x.word ps k 0).toNat % 2 ^ t.width

/-- The predicate that an operand names, in lane `k`. -/
def Iss.predAt (x : Iss) (ps : Pos) (k : Nat) : Bool :=
  match opAt x.o ps with
  | .pred n => x.r.pbit n.toNat k
  | _ => false

/-- The lane whose guard governs an operation that acts once (R137). -/
def Iss.low (x : Iss) : Nat := lowLane x.q.mask

/-! ## Writing the destination -/

/-- Writes word `j` of an indexed destination, each lane its own register (R64). -/
def putIndexed (w : Wave) (wb : Nat) (num : Nat → Nat) (j : Nat) (m : Word) (f : Nat → Word) : Wave :=
  (lanesOf m).foldl (fun w k => w.putV (wb + num k + j) (maskOf (· == k)) f) w

/-- Writes an operand of `n` registers at position d: `f k j` is word `j` for lane `k`. A uniform destination takes the value of the
lowest active lane, where the guard allows (R137, R157). -/
def Iss.put (x : Iss) (n : Nat) (f : Nat → Nat → Word) (w : Wave) : Wave :=
  match x.o.d with
  | .lane d => (List.range n).foldl (fun w j => w.putV (x.q.wbase + d.toNat + j) x.exe (fun k => f k j)) w
  | .unif d => if x.go then (List.range n).foldl (fun w j => w.putS (d.toNat + j) (f x.low j)) w else w
  | .indexed i => (List.range n).foldl (fun w j => putIndexed w x.q.wbase
      (fun k => (x.r.ixNum i (x.o.disp .d) k).toNat) j x.exe (fun k => f k j)) w
  | .pred d => w.putP d.toNat x.exe (fun k => f k 0 ≠ 0)
  | .idx d => w.putI d.toNat x.exe (fun k => f k 0)
  | .handle d => if x.go then w.putH d.toNat (Machine.dword (f x.low 0) (f x.low 1)) else w
  | _ => w

/-- Writes a predicate destination for an operation that acts once or per lane. -/
def Iss.putPred (x : Iss) (f : Nat → Bool) (w : Wave) : Wave :=
  match x.o.d with
  | .pred d => w.putP d.toNat x.exe f
  | _ => w

/-- The words of a value written by WriteInt (R155): its width fixes how many registers. -/
def intWords (t : Ty) (n : Int) (j : Nat) : Word :=
  if t.width = 64 then BitVec.ofNat 32 (modPow n 64 / 2 ^ (32 * j)) else BitVec.ofNat 32 (modPow n 32)

/-! ## The end of an issued word -/

/-- What an operation comes to: its effect is made and the path falls through; its effect is made and the paths already stand where they go on;
a trap; the path waits, or the word is not ready. -/
inductive Eff
  | done (s : State)
  | moved (s : State)
  | trap (t : TrapInfo)
  | wait (s : State)

/-- The lanes for which an operation computes: those it writes, or for a uniform destination the lowest where the guard allows. -/
def Iss.outLanes (x : Iss) : List Nat := if x.f.once then (if x.go then [x.low] else []) else lanesOf x.exe

/-- Replaces the wave of an issue context. -/
def Iss.set (x : Iss) (s : State) (w : Wave) : State := s.modChip x.p (fun c => c.setWave x.wid w)

/-- The PC that follows the word that holds the operation (R132). -/
def Iss.nextPc (x : Iss) : DWord :=
  match x.half with
  | .single => pcNext x.q.pc 1
  | _ => pcNext x.q.pc 2

/-- The PC of the operation itself: the second of a pair stands one slot further. -/
def Iss.ownPc (x : Iss) : DWord :=
  match x.half with
  | .second => pcNext x.q.pc 1
  | _ => x.q.pc

/-- The spill-area address of a wave's heap (R36); a node block's counts by where it runs (R437). -/
def Chip.heapBase (c : Chip) (w : Wave) : Nat :=
  let waves := ((c.kernOf w).map (fun k => (k.stages.map StageSet.waves).foldl (· + ·) 0)).getD 0
  let blk := if c.isNode w then (c.chipId * 16 + clusterOf w.core) * 262144 + c.blockNo w else c.blockNo w
  (((c.kernOf w).map LaunchRec.hspill).getD 0).toNat + 512 * (blk * waves + w.wno)

/-- Which places of the spill area an access reaches when the spilled entries change from `old` to `new`: those of the `fill` entries that move
back to the resident area, and those whose entry is another (R36). DESIGN CHOICE: the spilled entries stand in ascending order from offset 0 of
the wave's area. -/
def spillTouched (old new : List Path) (fill : Nat) : List Nat :=
  (List.range (Nat.max old.length new.length)).filter (fun i => i < fill || i < new.length && new[i]?.map Path.image ≠ old[i]?.map Path.image)

/-- What stops a spill or fill: an address that the TLBs miss, or an entry that comes back damaged. -/
inductive HeapStop
  | miss (addr : Nat)
  | damaged
  deriving DecidableEq, Repr

/-- Performs the accesses of a spill or fill at the places given, of which those below `fill` are read (R36, R37, R469, R478). The bytes at a page of host
memory are written there; a page of the register aperture takes none. -/
def State.spillEntries (p core asid base fill : Nat) (new : List Path) : State → List Nat → Except HeapStop State
  | s, [] => .ok s
  | s, i :: r =>
    match (s.chip p).tlbLookup core asid ((base + 16 * i) % 2 ^ 48) .heap with
    | none => .error (.miss (base + 16 * i))
    | some e =>
      let tg := e.target ((base + 16 * i) % 2 ^ 48)
      let s1 := s.modChip p (fun c => c.tlbTouch core asid ((base + 16 * i) % 2 ^ 48) .heap)
      if i < fill && (s.readTgt p tg 16).isNone then .error .damaged
      else match new[i]? with
        | none => State.spillEntries p core asid base fill new s1 r
        | some q => State.spillEntries p core asid base fill new (s1.writeTgt p tg (leBytes 16 q.image)).1 r

/-- Settles which heap entries are resident and moves the others to and from the spill area (R36), where the heap was `old` with `oldRes` entries
resident. -/
def State.settleHeap (s : State) (p wid : Nat) (old : List Path) (oldRes : Nat) : Except HeapStop State :=
  match tfind (s.chip p).waves wid with
  | none => .ok s
  | some w =>
    let keep := heapKeep w.heapDepth old.length oldRes w.heap.length
    let s1 := s.modChip p (fun c => c.setWave wid { w with heapRes := keep })
    let fill := keep - (w.heap.length - (old.length - oldRes))
    let oldS := old.drop oldRes
    let newS := w.heap.drop keep
    match spillTouched oldS newS fill with
    | [] => .ok s1
    | l => s1.spillEntries p w.core ((s.chip p).asidOf w.grow) ((s.chip p).heapBase w) fill newS l

/-- A path that has issued its word and goes on at `pc`: no longer fresh, no longer waiting, in the line it has entered as long as it stays in it
(R28, R131). -/
def Path.goTo (q : Path) (pc : DWord) : Path :=
  { q with pc := pc, fresh := false, wait := .none, held := [], ord := false, line := if pcLine pc = pcLine q.pc then q.line else none,
           beside := false }

/-- The path of a slot steps to `pc`; at a check point it arrives, but not in handler mode (R26, R280). -/
def Wave.stepTo (cp : DWord → Bool) (w : Wave) (sl : Slot) (pc : DWord) : Wave :=
  match w.path? sl with
  | none => w
  | some q =>
    let w1 := w.setPath sl (some (q.goTo pc))
    if w.hmode then w1 else w1.arriveIf cp sl

/-- What every issued operation does besides its effect: it counts on the logical clock in fixed gear (R357), and an issue returns the
slot's promotions to zero (R39) and ends the step of a debugger (R295). -/
def Wave.count (w : Wave) (sl : Slot) (fg : Bool) : Wave :=
  { w with clock := if fg then w.clock + 1 else w.clock, stepping := if w.stepping = StepStage.armed then StepStage.issued else w.stepping }.setIssue sl
    { w.issueOf sl with promo := 0, age := none, permit := false }

/-- The operation at which a slot had its turn has been performed (R359). -/
def Wave.endTurn (w : Wave) (sl : Slot) : Wave := if w.turn.any (fun t => t.1 = sl) then { w with turn := none } else w

/-- The heap of a wave stops the word of a path at a spill or fill: a miss queues its walk, and the word has no effect and is not ready; a failure then holds it
(R36, R470, R475). DESIGN CHOICE: a damaged entry, whose path is lost, faults the wave, with cause 0 (R13, R281, R478). -/
def State.heapStop (s : State) (p wid : Nat) (sl : Slot) (w : Wave) (q : Path) (second : Bool) (f : HeapStop) : State :=
  match f with
  | .miss addr =>
    { s.modChip p (fun c => c.queueWalk (c.asidOf w.grow) (addr % 2 ^ 48)
        { kind := .heap, wid := wid, slot := sl, pc := q.pc, core := w.core, lanes := q.mask, addr := addr % 2 ^ 48, second := second })
      with last := .notReady }
  | .damaged => { s.waveFault p wid 0 with last := .completed }

/-- The failing lanes of an access by 4 KiB page, each with its lowest byte and the cause and level of its first failure (R474, R475). -/
def mergePages (l : List (Nat × Word × Nat × Nat)) : List (Nat × Word × Nat × Nat) :=
  l.foldl (fun acc e =>
    if acc.any (fun g => g.1 / 4096 = e.1 / 4096) then
      acc.map (fun g => if g.1 / 4096 = e.1 / 4096 then (Nat.min g.1 e.1, g.2.1 ||| e.2.1, g.2.2) else g)
    else acc ++ [e]) []

/-- Holds the word for pages that failed translation: one record for each page (R475). -/
def Iss.holdPages (x : Iss) (s : State) (k : AccessKind) (l : List (Nat × Word × Nat × Nat)) : State :=
  s.modChip x.p (fun c => (mergePages l).foldl (fun c e =>
    c.holdPage x.wid x.sl e.2.1 e.1 (c.asidOf x.w.grow) k e.2.2.1 e.2.2.2 (x.half = .second)) c)

/-- The path waits in the operation it has issued (R29); a path that has issued is no longer fresh (R28). -/
def Iss.poll (x : Iss) (w : Wave) : Wave :=
  w.setPath x.sl (some { x.q with wait := .polling (x.half = .second), fresh := false, ord := false })

/-- Whether an operation is the last of its word to be performed: it is no first operation of a pair, or the second is already performed (R146). -/
def Iss.ends (x : Iss) : Bool := x.half ≠ .first || x.q.beside

/-- Counts the operation, unless it has waited and was counted at its issue, and settles the heap. The first operation of a pair leaves what the
word reads, and its turn, to the second. -/
def Iss.settle (x : Iss) (s0 s : State) : State :=
  let s1 := s.modChip x.p (fun c => c.modWave x.wid (fun w =>
    let u := if x.q.waiting then w else w.count x.sl (c.fgear w.grow)
    if x.ends then u.endTurn x.sl else u))
  let s2 := if x.q.waiting && x.ends then s1.modChip x.p (fun c => c.dropSrc x.wid x.sl) else s1
  match s2.settleHeap x.p x.wid x.w.heap x.w.heapRes with
  | .ok s3 => { s3 with last := .completed }
  | .error f => s0.heapStop x.p x.wid x.sl x.w x.q (x.half = .second) f

/-- The first operation of a pair is complete: the second is performed next, or is still to be performed where the first has waited. -/
def Wave.halfDone (w : Wave) (sl : Slot) (waited : Bool) : Wave :=
  match w.path? sl with
  | none => w
  | some q => w.setPath sl (some { q with wait := if waited then .second else .none, ord := false })

/-- The path falls through to the next PC. The first operation of a pair moves no PC while the second is to come (R146). -/
def Iss.fall (x : Iss) (s : State) : State :=
  if x.ends then s.modChip x.p (fun c => c.modWave x.wid (fun w => w.stepTo (s.cpOf x.p w) x.sl x.nextPc))
  else s.modChip x.p (fun c => c.modWave x.wid (fun w => w.halfDone x.sl x.q.waiting))

/-- Counts an operation that has now issued and waits (R29, R357), and keeps the wave as its word reads it (R146). -/
def Iss.countWait (x : Iss) (s : State) : State :=
  let c := s.chip x.p
  if !x.q.waiting && (((tfind c.waves x.wid).bind (fun w => w.path? x.sl)).map Path.waiting).getD false then
    s.modChip x.p (fun c => { c with srcs := tset c.srcs (srcKey x.wid x.sl) x.r }.modWave x.wid (fun w => w.count x.sl (c.fgear w.grow)))
  else s

/-- What a trap tells of an uncorrectable error that no consumer has met: the register or word that it names is met, and logged with ACTION 2 (R496,
R502, R503). DEDUCED: the registers are those that hold the trap's error mask and status word. -/
def Chip.noteTrap (c : Chip) (wid : Nat) (t : TrapInfo) : Chip :=
  match tfind c.waves wid with
  | none => c
  | some w =>
    if t.cause ≠ 0x0A then c
    else
      let st := fun (r : RegRef) => match r with
        | .v n => (w.lreg n).vals.getD (lowLane t.e0) 0
        | .s n => (w.ureg n).val
      let named := fun (r : RegRef) => w.isErr r && w.errMask r = t.e0 && st r = t.e1
      let new := fun (e : SoftReg × Word × Bool) => BitVec.ofNat 32 e.1.code = t.e2 && !e.2.2
      let n := (w.sick.filter named).length + (w.soft.filter new).length
      let c1 := if n = 0 then c
        else c.setWave wid { w with sick := w.sick.filter (fun r => !named r), soft := w.soft.map (fun e => if new e then (e.1, e.2.1, true) else e) }
      let c2 := (List.range n).foldl (fun c _ => c.logSram 2 0 w.core t.e1) c1
      match t.word with
      | some (tg, m) => c2.senseWord tg m 2 t.e1
      | none => c2

/-- A trap is taken at an operation, and what it tells of damaged data is logged. -/
def State.trapAt (s : State) (p wid : Nat) (sl : Slot) (t : TrapInfo) (k : Nat) (epc : DWord) : State :=
  (s.modChip p (fun c => c.noteTrap wid t)).takeTrap p wid sl t k epc

/-- What a released path writes when it goes on (R231, R308). -/
def FreedVal.write (v : FreedVal) (q : Path) (w : Wave) : Wave :=
  match v with
  | .none => w
  | .pred n b => w.putP n.toNat q.mask (fun _ => b)
  | .unif n v => w.putS n.toNat v

/-- The clock before the word that holds the operation (R358): the clock of its turn where it has one, else that of the wave it reads. -/
def Iss.time (x : Iss) : DWord := match x.w.turn with
  | some t => if t.1 = x.sl then t.2 else x.r.clock
  | none => x.r.clock

/-- The end of an operation issued from state `s0`. The trap of one operation of a pair is taken by the word (R146). -/
def Iss.finish (x : Iss) (s0 : State) : Eff → State
  | .done s => x.settle s0 (x.fall s)
  | .moved s => x.settle s0 s
  | .wait s => { x.countWait s with last := .notReady }
  | .trap t =>
    match x.half with
    | .single =>
      { s0.trapAt x.p x.wid x.sl t 0 (if t.cause = 0x30 || t.cause = 0x31 then x.nextPc else x.q.pc) with
        last := .trapped t.cause t.src t.e0 t.e1 t.e2 }
    | _ => { s0 with last := .trapped t.cause t.src t.e0 t.e1 t.e2, lastWord := t.word }

/-- Whether a path waits in an operation that it has itself issued; the second operation of a pair whose first has waited has still to be
performed. -/
def Path.issued (q : Path) : Bool := q.waiting && q.wait ≠ .second

/-- The issue of one operation at the cursor: the operand checks, then `run`. A path that waits in the operation has issued it already,
and is not checked again (R29). -/
def issue (f : Form) (o : Ops) (s : State) (run : Iss → State → Eff) : Host.Outcome State Fault Refusal :=
  match issOf f o s with
  | none => .fault .noPath
  | some x =>
    .next (x.finish s (if x.q.issued then run x s
      else match x.check with
        | .wait => .wait s
        | .trap t => .trap t
        | .ready => run x s))

/-- The issue of an array command: while the queue of its block's core is full it does not issue, and no other check of it is made (R253). -/
def issueArray (f : Form) (o : Ops) (s : State) (run : Iss → State → Eff) : Host.Outcome State Fault Refusal :=
  if (issOf f o s).any (fun x => !x.q.issued && (tfind x.c.blocks x.w.blk).any (fun b => 8 ≤ (x.c.core b.core).aq.length)) then
    .next { s with last := .notReady }
  else issue f o s run

/-- The issue of a synchronising operation: in fixed gear it is not ready before its turn, whatever its guard and its operands, and no other check of it
is made (R359, R360). -/
def issueSync (f : Form) (o : Ops) (s : State) (run : Iss → State → Eff) : Host.Outcome State Fault Refusal :=
  if (issOf f o s).any (fun x => x.c.fgear x.w.grow && !x.q.issued && !x.w.turn.any (fun t => t.1 = x.sl)) then
    .next { s with last := .notReady }
  else issue f o s run

/-- An operation that acts once and does nothing where its guard is false in the lowest active lane (R137). -/
def once (run : Iss → State → Eff) (x : Iss) (s : State) : Eff := if x.go || x.q.issued then run x s else .done s

/-- An operation whose whole effect is on the wave. -/
def onWave (f : Iss → Wave) (x : Iss) (s : State) : Eff := .done (x.set s (f x))

end Sys2Proof.Machine
end

