-- ==== Sys2Proof/Machine/Save.lean ====
section
/-! DEFINITION. The context save area (R479 to R483) and the layouts that a debug snapshot shares with it (R485). -/

namespace Sys2Proof.Machine

open Sys2Proof

/-! ## Physical ranges -/

/-- Writes a physical range line by line; a poisoned line keeps its bytes (R478). -/
def Chip.putLong (c : Chip) (pa : Nat) (bs : List Byte) : Chip :=
  (splitAt 128 pa bs.length).foldl (fun c e => (c.writeDram e.1 ((bs.drop (e.1 - pa)).take e.2)).1) c

/-- Fills up with zero bytes to a length. -/
def padTo (n : Nat) (bs : List Byte) : List Byte := bs ++ List.replicate (n - bs.length) 0

/-! ## A wave's record and registers (R480, R482) -/

/-- m of a wave: the lowest window base among its paths (R58). -/
def Wave.low (w : Wave) : Nat :=
  match w.paths with
  | [] => w.D
  | q :: r => r.foldl (fun m x => Nat.min m x.wbase) q.wbase

/-- The bits of a register as the layouts hold them. -/
def bitsWord (full err : Bool) (mask : Word) : List Byte := leBytes 8 (b2n full + 2 * b2n err + 2 ^ 32 * mask.toNat)

/-- The bytes of a lane register. -/
def LaneReg.image (r : LaneReg) : List Byte := laneList.flatMap (fun k => leBytes 4 (r.vals.getD k 0).toNat)
/-- The bits of a lane register. -/
def LaneReg.bits (r : LaneReg) : List Byte := bitsWord r.full r.err r.mask

/-- A path, or none, as 16 bytes (R37). -/
def pathBytes (q : Option Path) : List Byte := leBytes 16 ((q.map Path.image).getD 0)

/-- The open region's word (R482). -/
def Wave.regionWord (w : Wave) : Nat :=
  w.inv.toNat + (match w.region with
    | none => 0
    | some r => r.num * 2 ^ 32 + 2 ^ 40 + r.state * 2 ^ 41 + b2n (r.mode = .sampled) * 2 ^ 44)

/-- The special registers of a record, in its order. -/
def Wave.specials (w : Wave) : List Word :=
  [w.flags, w.cause, BitVec.ofNat 32 w.epc.toNat, hi32 w.epc, w.emask, w.einfo0, w.einfo1, w.einfo2, w.dbg]

/-- The registers of a record, from 0x40 to 0x700. -/
def Wave.recordRegs (w : Wave) : List Byte :=
  let preds := (List.range 8).flatMap (fun n => leBytes 4 (if n = 7 then 2 ^ 32 - 1 else (tget 0 w.p n).toNat))
  let idx := (List.range 4).flatMap (fun n => laneList.flatMap (fun k => leBytes 4 ((tget [] w.i n).getD k 0).toNat))
  let hs := (List.range 16).flatMap (fun n => leBytes 8 (tget 0 w.h n).toNat)
  let us := (List.range 64).flatMap (fun n => leBytes 4 (w.ureg n).val.toNat)
  let ub := (List.range 64).flatMap (fun n => bitsWord (w.ureg n).full (w.ureg n).err (w.ureg n).mask)
  padTo 0x40 (w.specials.flatMap (fun x => leBytes 4 x.toNat)) ++ padTo 0x80 preds ++ padTo 0x300 (idx ++ hs) ++ us ++ ub

/-- A wave record (R482); `stalled` tells which slots are stalled. -/
def Wave.recordBytes (w : Wave) (stalled : Slot → Bool) : List Byte :=
  let head := pathBytes w.slotA ++ pathBytes w.slotB ++
    leBytes 8 (b2n w.slotA.isSome + 2 * b2n w.slotB.isSome + 4 * b2n (stalled .A) + 8 * b2n (stalled .B) + 16 * b2n w.hmode +
      2 ^ 8 * w.heap.length + 2 ^ 16 * w.low + 2 ^ 32 * w.D + 2 ^ 48 * w.L) ++
    leBytes 8 w.clock.toNat ++ leBytes 8 w.regionWord
  padTo 8192 (padTo 0x800 (padTo 0x40 head ++ w.recordRegs) ++ w.heap.flatMap (fun q => pathBytes (some q)))

/-- The registers of the resident range, and their bits. -/
def Wave.residentBytes (w : Wave) : List Byte := (List.range w.L).flatMap (fun i => (w.lreg (w.low + i)).image)
/-- See `Wave.residentBytes`. -/
def Wave.residentBits (w : Wave) : List Byte := (List.range w.L).flatMap (fun i => (w.lreg (w.low + i)).bits)

/-- The spill area of a wave (R58): registers from m + L on; the places of the others are zero. -/
def Wave.spillBytes (w : Wave) : List Byte :=
  let held := fun i => w.low + w.L ≤ i + w.L
  (List.range w.D).flatMap (fun i => if held i then (w.lreg (i + w.L)).image else List.replicate 128 0) ++
  (List.range w.D).flatMap (fun i => if held i then (w.lreg (i + w.L)).bits else List.replicate 8 0)

/-! ## Reading them back -/

/-- A path of a record: the one that was saved where the record shows it unchanged, else as the record has it (R37). The line it stood in is
fetched afresh. -/
def pathFrom (old : Option Path) (v : Nat) : Path :=
  match old with
  | some q => if q.image = v then { q with line := none } else
      { pc := BitVec.ofNat 64 v, mask := BitVec.ofNat 32 (fld v 64 32), wbase := fld v 96 12, fresh := nbit v 112, wait := .none }
  | none => { pc := BitVec.ofNat 64 v, mask := BitVec.ofNat 32 (fld v 64 32), wbase := fld v 96 12, fresh := nbit v 112, wait := .none }

/-- A lane register from its bytes and bits. -/
def laneRegFrom (m : Memory) (val bits : Nat) : LaneReg :=
  let b := memNat m bits 8
  { vals := laneList.map (fun k => BitVec.ofNat 32 (memNat m (val + 4 * k) 4)), full := nbit b 0, err := nbit b 1,
    mask := BitVec.ofNat 32 (fld b 32 32) }

/-- Reads the resident range back from physical memory. -/
def Wave.readResident (w : Wave) (m : Memory) (vals bits : Nat) : Wave :=
  { w with v := (List.range w.L).foldl (fun t i => tset t (w.low + i) (laneRegFrom m (vals + 128 * i) (bits + 8 * i))) w.v }

/-- Reads the registers of the spill area back. -/
def Wave.readSpill (w : Wave) (m : Memory) (a : Nat) : Wave :=
  { w with v := (List.range w.D).foldl (fun t i =>
      if w.low ≤ i then tset t (i + w.L) (laneRegFrom m (a + 128 * i) (a + 128 * w.D + 8 * i)) else t) w.v }

/-- Reads a wave record back (R482): registers, bits and flags; `all` where every field is taken as it stands, else those of Access RW and the
paths (R485). -/
def Wave.readRecord (w : Wave) (m : Memory) (a : Nat) (all : Bool) : Wave :=
  let n4 := fun off => BitVec.ofNat 32 (memNat m (a + off) 4)
  let occ := memNat m (a + 0x20) 8
  let path := fun (old : Option Path) off on => if on then some (pathFrom old (memNat m (a + off) 16)) else none
  let w1 := { w with
    slotA := path w.slotA 0 (nbit occ 0), slotB := path w.slotB 0x10 (nbit occ 1),
    heap := (List.range (fld occ 8 5)).map (fun i => pathFrom w.heap[i]? (memNat m (a + 0x800 + 16 * i) 16)),
    flags := n4 0x40,
    p := (List.range 7).foldl (fun t i => tset t i (n4 (0x80 + 4 * i))) w.p,
    i := (List.range 4).foldl (fun t i => tset t i (laneList.map (fun k => n4 (0x100 + 128 * i + 4 * k)))) w.i,
    h := (List.range 16).foldl (fun t i => tset t i (BitVec.ofNat 64 (memNat m (a + 0x300 + 8 * i) 8))) w.h,
    s := (List.range w.U).foldl (fun t i =>
      let b := memNat m (a + 0x500 + 8 * i) 8
      tset t i { val := n4 (0x400 + 4 * i), full := nbit b 0, err := nbit b 1, mask := BitVec.ofNat 32 (fld b 32 32) }) w.s }
  if all then
    { w1 with clock := BitVec.ofNat 64 (memNat m (a + 0x28) 8), inv := n4 0x30, cause := n4 0x44, epc := dword (n4 0x48) (n4 0x4C),
              emask := n4 0x50, einfo0 := n4 0x54, einfo1 := n4 0x58, einfo2 := n4 0x5C, dbg := n4 0x60 }
  else w1

/-! ## Slots of the save pool (R479) -/

/-- NSLOT. -/
def Chip.poolSlots (c : Chip) : Nat := fld c.savepool.toNat 0 10
/-- The physical address of a slot. -/
def Chip.slotAt (c : Chip) (n : Nat) : Nat := fld c.savepool.toNat 21 31 * 2 ^ 21 + n * 2 ^ 21
/-- The free slots, lowest first. DESIGN CHOICE: a slot that the register places outside DRAM is none. -/
def Chip.freeSlots (c : Chip) : List Nat :=
  (List.range c.poolSlots).filter (fun n => (tfind c.savedParts n).isNone && c.slotAt n + 2 ^ 21 ≤ dramBytes)
/-- Whether a line of a slot is poisoned (R478). -/
def Chip.slotLost (c : Chip) (n : Nat) : Bool := c.poison.any (fun line => line / 2 ^ 14 = c.slotAt n / 2 ^ 21)

/-- The waves of a block with the number of lane registers before each. -/
def Chip.waveOffsets (c : Chip) (b : Block) : List (Nat × Wave × Nat) :=
  (b.waves.foldl (fun (acc : List (Nat × Wave × Nat) × Nat) i =>
    match tfind c.waves i with
    | none => acc
    | some w => (acc.1 ++ [(i, w, acc.2)], acc.2 + w.L)) ([], 0)).1

/-- Where the spill areas of a block's waves begin in a slot: after the allocation, in wave order. -/
def spillStarts (b : Block) (ws : List (Nat × Wave × Nat)) : List (Wave × Nat) :=
  (ws.foldl (fun (acc : List (Wave × Nat) × Nat) e => (acc.1 ++ [(e.2.1, acc.2)], acc.2 + 136 * e.2.1.D)) ([], 0xC9000 + b.lsize)).1

/-- The header of a part (R481). -/
def Chip.saveHeader (c : Chip) (b : Block) (fol : Bool) (other retry : Nat) : List Byte :=
  let g := c.grid? b.grow
  let bar := fun (n : Nat) =>
    let v := tget Bar.zero b.bars n
    v.arrived.length + 2 ^ 8 * v.count + 2 ^ 16 * b2n v.fixed + 2 ^ 24 * b2n v.phase
  leBytes 8 (2 ^ 32 * (g.map (fun x => x.ggen.toNat)).getD 0 + b.grow) ++
  leBytes 8 (2 ^ 40 * b.block + 2 ^ 32 * b.crank + 2 ^ 16 * c.asidOf b.grow + b.acc) ++
  leBytes 8 ((g.map (fun x => x.recAddr.toNat)).getD 0) ++
  leBytes 8 ((if fol then 0 else b.waves.length) + 2 ^ 8 * b2n b.tandem + 2 ^ 9 * b2n fol + 2 ^ 16 * other + 2 ^ 48 * (retry % 65536)) ++
  (List.range 4).flatMap (fun n => leBytes 8 (bar n))

/-- The accumulator rows and sum cells of a core as bytes (R270, R480). -/
def Core.accBytes (k : Core) (rows : Nat) : List Byte :=
  padTo 262144 ((List.range rows).flatMap (fun r => (List.range 256).flatMap (fun col => leBytes 4 (tget 0 k.acc (r * 256 + col)).toNat))) ++
  (List.range 256).flatMap (fun r => leBytes 4 (tget 0 k.sums r).toNat)

/-- Writes one part of a block into its slot. -/
def Chip.savePart (c : Chip) (stalled : Wave → Slot → Bool) (b : Block) (fol : Bool) (core slot other : Nat) : Chip :=
  let base := c.slotAt slot
  let k := c.core core
  let ws := if fol then [] else c.waveOffsets b
  let c1 := c.putLong base (padTo 4096 (c.saveHeader b fol other k.retry))
  let c2 := ws.foldl (fun c e =>
    ((c.putLong (base + 0x1000 + 8192 * e.2.1.wno) (e.2.1.recordBytes (stalled e.2.1))).putLong
      (base + 0x41000 + 128 * e.2.2) e.2.1.residentBytes).putLong (base + 0xC1000 + 8 * e.2.2) e.2.1.residentBits) c1
  let c3 := (spillStarts b ws).foldl (fun c e => c.putLong (base + e.2) e.1.spillBytes) (c2.putLong (base + 0xC9000) (memBytes (b.part fol) 0 b.lsize))
  c3.putLong (base + 0x129000) (k.accBytes b.acc)

/-- The array part of a core, as its slot keeps it: accumulators, banks, queue, retries (R277). -/
def Core.arrayPart (k : Core) : Core := { Core.reset 0 with acc := k.acc, sums := k.sums, banks := k.banks, aq := k.aq, retry := k.retry }
/-- A core without them. -/
def Core.arrayClear (k : Core) : Core := { k with acc := [], sums := [], banks := [], aq := [], retry := 0 }

/-- The cores of a block: leader, and follower of a tandem pair. -/
def Block.cores (b : Block) : List Nat := if b.tandem then [b.core, b.core + 1] else [b.core]

/-- The wave's state stands in a slot of the pool. -/
def Wave.vacated (w : Wave) (slot : Nat) : Wave := { w with saved := some slot }

/-- Vacates a block into the lowest free slots (R479): records of its held words are ignored from here on, and a word that is held is
checked afresh on resume (R475). -/
def Chip.saveBlock (c : Chip) (stalled : Wave → Slot → Bool) (n : Nat) : Chip :=
  match tfind c.blocks n with
  | none => c
  | some b =>
    let sl := c.freeSlots.headD 0
    let sf := if b.tandem then c.freeSlots.getD 1 0 else sl
    let c1 := c.savePart stalled b false b.core sl (if b.tandem then sf else 0)
    let c2 := if b.tandem then c1.savePart stalled b true (b.core + 1) sf sl else c1
    let own := b.acc ≠ 0
    let part := fun (k : Nat) => if own then (c.core k).arrayPart else Core.reset 0
    let parts := tset c2.savedParts sl (part b.core)
    let c3 := { c2 with savedParts := if b.tandem then tset parts sf (part (b.core + 1)) else parts }
    let c4 := if own then b.cores.foldl (fun c k => c.setCore k (c.core k).arrayClear) c3 else c3
    let tokens := b.waves.flatMap (fun i => ((tfind c.waves i).map (fun w => (w.paths.flatMap Path.held).map HeldPage.token)).getD [])
    let c5 := { c4 with pendFaults := c4.pendFaults.filter (fun f => !tokens.contains f.token) }
    (b.waves.foldl (fun c i => c.modWave i (fun w => (w.mapPaths (fun q => { q with held := [] })).vacated sl)) c5).setBlock n
      { b with saved := some (sl, sf) }

/-- What a producer of a saved wave writes goes into the slot (R72, R483), and so does what the debug interface changes of it (R484, R485): the registers, bits
and special registers of its record, and its lane registers. -/
def Chip.resave (c : Chip) (wid : Nat) : Chip :=
  match tfind c.waves wid with
  | none => c
  | some w =>
    match w.saved, tfind c.blocks w.blk with
    | some sl, some b =>
      let base := c.slotAt sl
      let ws := c.waveOffsets b
      let rec_ := base + 0x1000 + 8192 * w.wno
      let c1 := c.putLong (rec_ + 0x40) w.recordRegs
      let c2 := (ws.filter (fun e => e.1 = wid)).foldl (fun c e =>
        (c.putLong (base + 0x41000 + 128 * e.2.2) w.residentBytes).putLong (base + 0xC1000 + 8 * e.2.2) w.residentBits) c1
      ((spillStarts b ws).filter (fun e => e.1.wno = w.wno)).foldl (fun c e => c.putLong (base + e.2) w.spillBytes) c2
    | _, _ => c

/-- Reads the accumulators of a part back. -/
def Core.readAcc (k : Core) (m : Memory) (a rows : Nat) : Core :=
  let cell := fun i => BitVec.ofNat 32 (memNat m (a + 4 * i) 4)
  { k with
      acc := (List.range (rows * 256)).foldl (fun t i => if cell i = 0 then t else tset t i (cell i)) []
      sums := (List.range 256).foldl (fun t r =>
        let v := BitVec.ofNat 32 (memNat m (a + 262144 + 4 * r) 4)
        if v = 0 then t else tset t r v) [] }

/-- The bytes of a part's allocation as a memory of its own. -/
def partMemory (m : Memory) (a n : Nat) : Memory := memPut [] 0 (memBytes m a n)

/-- Resumes a block on a core, or a tandem pair, from its slots, which become free (R277, R483). A wave that debug had stopped before it was
vacated keeps the whole block stopped (R485). DESIGN CHOICE: its waves keep their lost-locality scores and victim tags (R44), wherever they resume; the spec
does not say. -/
def Chip.restoreBlock (c : Chip) (n core : Nat) : Chip :=
  match tfind c.blocks n with
  | none => c
  | some b =>
    match b.saved with
    | none => c
    | some (sl, sf) =>
      let base := c.slotAt sl
      let fbase := c.slotAt sf
      let ws := c.waveOffsets b
      let stop := ws.any (fun e => e.2.1.dbg.getLsbD 0)
      let waves := ws.foldl (fun t e =>
        let w1 := e.2.1.readRecord c.dram (base + 0x1000 + 8192 * e.2.1.wno) true
        let w2 := w1.readResident c.dram (base + 0x41000 + 128 * e.2.2) (base + 0xC1000 + 8 * e.2.2)
        let at_ := (((spillStarts b ws).find? (fun x => x.1.wno = e.2.1.wno)).map (·.2)).getD 0
        let w3 := w2.readSpill c.dram (base + at_)
        tset t e.1 { w3 with core := core, saved := none, issueA := SlotIssue.zero, issueB := SlotIssue.zero,
                             dbg := if stop then w3.dbg ||| 1 else w3.dbg }) c.waves
      let put := fun (c : Chip) (k slot a : Nat) =>
        if b.acc = 0 then c
        else
          let part := (tget (Core.reset 0) c.savedParts slot).readAcc c.dram (a + 0x129000) b.acc
          let old := c.core k
          c.setCore k { old with acc := part.acc, sums := part.sums, banks := part.banks, aq := part.aq, retry := part.retry }
      let c1 := put { c with waves := waves } core sl base
      let c2 := if b.tandem then put c1 (core + 1) sf fbase else c1
      { c2 with savedParts := tdel (tdel c2.savedParts sl) sf }.setBlock n
        { b with core := core, saved := none, mem := partMemory c.dram (base + 0xC9000) b.lsize,
                 folMem := if b.tandem then partMemory c.dram (fbase + 0xC9000) b.lsize else b.folMem }

end Sys2Proof.Machine
end

