-- ==== Sys2Proof/Machine/StreamCore.lean ====
section
/-! DEFINITION. Trigger counters (R318 to R320), the start of stream contexts (R311), their completion records (R329), and the register
aperture with control pages (R310) and queue pages (R414). -/

namespace Sys2Proof.Machine

open Sys2Proof

/-! ## Completion records (R89) -/

/-- Hands a completion record to its cluster's event queue (R90). -/
def Chip.record (c : Chip) (cluster : Nat) (grow : Option Nat) (tag count status : Word) (unit source : Nat) : Chip :=
  { c with recOut := c.recOut ++ [{ cluster := cluster, grow := grow, tag := tag, count := count, status := status, unit := unit,
                                    source := source }] }

/-! ## Trigger counters -/

/-- Counter `n` of an engine. -/
def Engine.counter (e : Engine) (n : Nat) : Word := tget 0 e.cnt n

/-- Reached (R319). -/
def reached (cnt thr : Word) : Bool := (cnt - thr).toNat < 2 ^ 31

/-- Whether a counter holds an uncorrectable error. -/
def Engine.isBad (e : Engine) (n : Nat) : Bool := e.bad.any (fun b => b.1 = n)

/-- The conditions of an armed command, those that are met marked; none once all are, for then it is released and stays so (R319). A damaged counter is
not compared. -/
def Engine.stillArmed (e : Engine) (l : List (BitVec 6 × Word × Bool)) : List (BitVec 6 × Word × Bool) :=
  let l1 := l.map (fun a => (a.1, a.2.1, a.2.2 || !e.isBad a.1.toNat && reached (e.counter a.1.toNat) a.2.1))
  if l1.all (fun a => a.2.2) then [] else l1

/-- Evaluates Reached for every context of an engine, as after every change of a counter (R319). -/
def Engine.release (e : Engine) : Engine := { e with ctx := tmap e.ctx (fun _ x => { x with armed := e.stillArmed x.armed }) }

/-- The first cause of a context's end stands (R335). -/
def Ctx.fail (x : Ctx) (status : Word) : Ctx := if x.ending.isSome || !x.busy then x else { x with ending := some status }

/-- A consumer meets a damaged counter: the first one logs it with the status word it receives, and every context with an unmet condition on the counter,
which can no longer be compared, ends (R13, R496, R498). DEDUCED: with POISON, UNIT 2. -/
def Chip.senseCounter (c : Chip) (v n : Nat) (st : Word) : Chip :=
  let e := c.engine v
  let c1 := c.setEngine v { e with
    bad := e.bad.map (fun b => if b.1 = n then (n, true) else b)
    ctx := tmap e.ctx (fun _ x => if x.armed.any (fun a => a.1.toNat = n && !a.2.2) then x.fail (c.poisonStatus 2) else x) }
  if e.bad.any (fun b => b.1 = n && !b.2) then c1.logSram 1 2 v st else c1

/-- A context looks at the counters of its conditions, and meets those that are damaged. -/
def Chip.lookArmed (c : Chip) (v k : Nat) : Chip :=
  (((c.engine v).context k).armed.filter (fun a => !a.2.2 && (c.engine v).isBad a.1.toNat)).foldl (fun c a =>
    c.senseCounter v a.1.toNat (c.poisonStatus 2)) c

/-- An add to a counter (R318); one to a damaged counter leaves it as it is. -/
def Chip.ctrAdd (c : Chip) (v n : Nat) (x : Word) : Chip :=
  let e := c.engine v
  if e.isBad n then c.senseCounter v n (c.poisonStatus 2)
  else c.setEngine v (Engine.release { e with cnt := tset e.cnt n (e.counter n + x) })

/-- A set of a counter: it cancels every command armed on it that is not released (R320), and gives a damaged counter new check bits. -/
def Chip.ctrSet (c : Chip) (v n : Nat) (val : Word) : Chip :=
  let e := c.engine v
  c.setEngine v (Engine.release { e with
    cnt := tset e.cnt n val
    bad := e.bad.filter (fun b => b.1 ≠ n)
    ctx := tmap e.ctx (fun _ x => if x.armed.any (fun a => a.1.toNat = n) || x.arms.any (fun a => a.1.toNat = n) then x.fail (statusWord codeCancelled 2 c.chipId 9) else x) })

/-! ## Start requests (R311) -/

/-- A start request from a wave: the context taken, or none free, which is refused with a record. The start status. -/
def Chip.startContext (c : Chip) (v wid : Nat) (req : DWord) : Chip × DWord :=
  match tfind c.waves wid with
  | none => (c, 0)
  | some w =>
    match (List.range 8).find? (fun k => !((c.engine v).context k).busy) with
    | none =>
      let st := statusWord codeReject 2 c.chipId 7
      (c.record (clusterOf w.core) (some w.grow) 0 0 st 2 v, BitVec.ofNat 64 st.toNat)
    | some k =>
      let pa := fld req.toNat 3 45 * 8
      let q14 := BitVec.ofNat 64 (c.chipId * 2 ^ 48 + pa)
      (c.setCtx v k { Ctx.free with
        busy := true, ptr := q14, q := [(14, q14)], cohort := ((tfind c.blocks w.blk).map Block.cohort).getD 0
        grow := w.grow, cluster := clusterOf w.core, wid := wid, asid := c.asidOf w.grow }, BitVec.ofNat 64 (k * 2 ^ 32))

/-! ## The register aperture (R310, R414, R462) -/

/-- What an aperture address names. -/
inductive ApAddr
  | control (vault off : Nat)
  | queue (half q off : Nat)
  | none
  deriving DecidableEq, Repr

/-- The page and offset of an aperture address. -/
def apAddr (pa : Nat) : ApAddr :=
  let a := pa - 0x8000000000
  if pa < 0x8000000000 then .none
  else if a < 128 * 4096 then .control (a / 4096) (a % 4096)
  else if 0x400000 ≤ a && a < 0x800000 then .queue ((a - 0x400000) / 0x200000) ((a - 0x400000) % 0x200000 / 4096) (a % 4096)
  else .none

/-- Whether an access is a counter access by form: one aligned 32-bit word of a counter. -/
def isCounter (off : Nat) : Bool := off < 0x100 && off % 4 == 0

/-- The queue of a number on a half (R414). -/
def Chip.queueAt (c : Chip) (half q : Nat) : Option Queue := tfind c.queues (half * 512 + q)

/-- The 64-bit registers of a queue page (R414). -/
def Queue.page (q : Queue) (off : Nat) : Nat :=
  match off / 8 with
  | 0 => q.notify.toNat
  | 1 => q.fetch.toNat
  | 2 => q.doneCnt.toNat
  | 3 => b2n q.stall
  | _ => 0

/-- The damaged counter that an aperture address names, with its vault. -/
def Chip.badCounter (c : Chip) (pa : Nat) : Option (Nat × Nat) :=
  match apAddr pa with
  | .control v off => if isCounter off && (c.engine v).isBad (off / 4) then some (v, off / 4) else none
  | _ => none

/-- A load from the aperture: `t` is its type, `n` its bytes, `plain` where it is no bypassing load (R310, R414). -/
def Chip.apLoad (c : Chip) (pa : Nat) (t : Ty) (n : Nat) (plain : Bool) : Nat :=
  match apAddr pa with
  | .control v off =>
    if t ≠ .n32 || n ≠ 4 then 0
    else if isCounter off then ((c.engine v).counter (off / 4)).toNat
    else if plain && off = 0x108 then (List.range 8).foldl (fun m k => m + b2n ((c.engine v).context k).busy * 2 ^ k) 0
    else 0
  | .queue h q off => ((c.queueAt h q).map (fun x => x.page off / 256 ^ (off % 8) % 256 ^ n)).getD 0
  | .none => 0

/-- A write to NOTIFY (R414): a value at or below it is ignored. -/
def Chip.notify (c : Chip) (half q : Nat) (v : DWord) : Chip :=
  match c.queueAt half q with
  | none => c
  | some x => if x.notify.toNat < v.toNat then { c with queues := tset c.queues (half * 512 + q) { x with notify := v } } else c

/-- A store to the aperture by a wave (R310, R414). -/
def Chip.apStore (c : Chip) (wid pa : Nat) (t : Ty) (n : Nat) (v : DWord) : Chip :=
  match apAddr pa with
  | .control e off =>
    if isCounter off && (t = .n32 || t = .b32) && n = 4 then c.ctrSet e (off / 4) (lo32 v)
    else if off = 0x100 && t = .b64 && n = 8 then (c.startContext e wid v).1
    else c
  | .queue h q off =>
    if off < 8 then
      let old := ((c.queueAt h q).map (fun x => x.notify.toNat)).getD 0
      let k := 256 ^ (off % 8)
      c.notify h q (BitVec.ofNat 64 (old - old / k % 256 ^ n * k + v.toNat % 256 ^ n * k))
    else c
  | .none => c

end Sys2Proof.Machine
end

