-- ==== Sys2Proof/Machine/Home.lean ====
section
/-! DEFINITION. Accesses as they are performed: at a home slice, a scratchpad, the host port or the aperture (R79 to R84, R100, R225),
the L1 of a core or cluster (R79, R80), the order among pending accesses, and the completion of producers (R68). -/

namespace Sys2Proof.Machine

open Sys2Proof

/-! ## Performing -/

/-- The new value of an atomic from the old one, as bits of the type (R225). -/
def aopNew (aop : Nat) (t : Ty) (o b cmp : Nat) : Nat :=
  let w := t.width
  let x := intVal t o
  let y := intVal t b
  match aop with
  | 0 => modPow (x + y) w
  | 1 => modPow (Min.min x y) w
  | 2 => modPow (Max.max x y) w
  | 3 => Nat.land o b
  | 4 => Nat.lor o b
  | 5 => Nat.xor o b
  | 6 => b
  | 7 => if o = cmp then b else o
  | _ => (roundToF .f32 (FNum.add false (fval .f32 o) (fval .f32 b)) 0 false 0).1

/-- Reads `n` bytes of a target as a load of type `t`, `plain` where it is no bypassing one; none where the line is poisoned or the counter damaged. -/
def State.homeLoad (s : State) (p : Nat) (tg : Target) (t : Ty) (n : Nat) (plain : Bool) : Option (List Byte) :=
  match tg with
  | .aperture pa => if t = .n32 && n = 4 && ((s.chip p).badCounter pa).isSome then none else some (leBytes n ((s.chip p).apLoad pa t n plain))
  | _ => s.readTgt p tg n

/-- A consumer meets what is damaged in a range of local memory, or a damaged counter: what none has met before is logged, with the status word that it
receives (R496, R502, R503). -/
def State.sense (s : State) (p : Nat) (tg : Target) (n : Nat) (st : Word) : State :=
  match tg with
  | .aperture pa => (match (s.chip p).badCounter pa with
    | some (v, k) => s.modChip p (fun c => c.senseCounter v k st)
    | none => s)
  | _ => s.modChip p (fun c => c.senseWord tg n 1 st)

/-- A write `f` of `n` bytes of a target by a writer that owes their fetch lines a release (R85). -/
def State.writeAs {α : Type} (s : State) (p writer : Nat) (tg : Target) (n : Nat) (f : State → State × α) : State × α :=
  match tg with
  | .dram pa =>
    let c := (s.chip p).noteLines writer pa n
    let r := f (s.setChip p c)
    (r.1.modChip p (fun k => { k with lineOld := c.lineOld }), r.2)
  | _ => f s

/-- A write made inside an open region forces it to OFF when it is performed (R302, R350). -/
def State.forceOff (s : State) (p : Nat) (region : Option Nat) : State :=
  match region with
  | none => s
  | some r => s.modChip p (fun c => c.regionOff r)

/-- Performs a store of `n` bytes by wave `wid`; a write to a poisoned line is discarded (R478). -/
def State.homeStore (s : State) (p wid : Nat) (tg : Target) (t : Ty) (n : Nat) (v : DWord) : State :=
  match tg with
  | .aperture pa => s.modChip p (fun c => c.apStore wid pa t n v)
  | _ => (s.writeAs p (2 * wid) tg n (fun s => s.writeTgt p tg (leBytes n v.toNat))).1

/-- Performs one lane of an atomic or `red`: the old value, none where the line is poisoned, or the word or counter damaged, which is then met (R225, R227,
R310, R498). -/
def State.homeAtomic (s : State) (p wid : Nat) (tg : Target) (t : Ty) (aop : Nat) (b cmp : DWord) : State × Option DWord :=
  let n := t.width / 8
  match tg with
  | .aperture pa =>
    match apAddr pa with
    | .control e off =>
      let old := ((s.chip p).engine e).counter (off / 4)
      if isCounter off && (t = .n32 || t = .b32) && ((s.chip p).engine e).isBad (off / 4) then
        (s.modChip p (fun c => c.senseCounter e (off / 4) (c.poisonStatus 0)), none)
      else if isCounter off && t = .n32 && aop = 0 then (s.modChip p (fun c => c.ctrAdd e (off / 4) (lo32 b)), some (dword old 0))
      else if isCounter off && (t = .n32 || t = .b32) then
        let new := BitVec.ofNat 32 (aopNew aop t old.toNat (lo32 b).toNat (lo32 cmp).toNat)
        (s.modChip p (fun c => c.ctrSet e (off / 4) new), some (dword old 0))
      else if off = 0x100 && t = .b64 && aop = 6 then
        let r := (s.chip p).startContext e wid b
        (s.setChip p r.1, some r.2)
      else (s, some 0)
    | _ => (s, some 0)
  | _ =>
    match s.readTgt p tg n with
    | none => (s.sense p tg n ((s.chip p).poisonStatus 0), none)
    | some bs =>
      let old := ofLe bs
      let new := leBytes n (aopNew aop t old (b.toNat % 2 ^ t.width) (cmp.toNat % 2 ^ t.width))
      ((s.writeAs p (2 * wid) tg n (fun s => s.writeTgt p tg new)).1, some (BitVec.ofNat 64 old))

/-! ## L1 (R79, R80) -/

/-- The core whose L1 or fused slice serves a line for a core. -/
def Chip.l1Core (c : Chip) (core ln : Nat) : Nat := if (c.cluster (clusterOf core)).fused then clusterOf core * 32 + ln % 32 else core

/-- The copy of a line in the L1 that a core looks up. -/
def Chip.l1Find (c : Chip) (core ln : Nat) : Option L1Line := (c.core (c.l1Core core ln)).l1.find? (fun l => l.line == ln)

/-- Removes a line from the L1 that a core looks up. -/
def Chip.l1Remove (c : Chip) (core ln : Nat) : Chip :=
  let n := c.l1Core core ln
  let k := c.core n
  c.setCore n { k with l1 := k.l1.filter (fun l => l.line ≠ ln) }

/-- Overwrites bytes of a list from an index on. -/
def overlay (l : List Byte) (i : Nat) : List Byte → List Byte
  | [] => l
  | b :: r => overlay (l.set i b) (i + 1) r

/-- A store updates its line where the L1 holds it, at issue (R79), and gives each word that it writes whole new check bits. -/
def Chip.l1Update (c : Chip) (core pa : Nat) (bs : List Byte) : Chip :=
  let n := c.l1Core core (pa / 128)
  let k := c.core n
  c.setCore n { k with l1 := k.l1.map (fun l => if l.line = pa / 128 then
    { l with data := overlay l.data (pa % 128) bs
             bad := l.bad.filter (fun j => !(pa % 128 ≤ 4 * j && 4 * j + 4 ≤ pa % 128 + bs.length)) } else l) }

/-- A load meets a damaged word of a line in the L1 that its core looks up: it is logged, and the line is dropped, so that the next load of it misses
(R496, R498). DESIGN CHOICE: the spec says no more than that the consumer gets CODE 0x01. -/
def Chip.l1Damaged (c : Chip) (core ln : Nat) : Chip := (c.l1Remove core ln).logSram 1 0 (c.l1Core core ln) (c.poisonStatus 0)

/-- The lines that the L1 of a core, or its slice of a fused one, holds: 128 KiB (R3). -/
def l1Lines : Nat := 1024

/-- A line leaves the L1 of core `n`, and its tag goes to the wave that filled it (R43). -/
def Chip.l1Evict (c : Chip) (n : Nat) (l : L1Line) : Chip :=
  let k := c.core n
  (c.setCore n { k with l1 := k.l1.filter (fun x => x.line ≠ l.line) }).modWave l.filler (fun w =>
    let tags := w.vtags ++ [l.line]
    { w with vtags := tags.drop (tags.length - 8) })

/-- A miss fills L1 (R79): home data with the pending stores of the cores that this L1 serves laid over them. In a full L1 a line of no fixed
choice makes room. -/
def Chip.l1Fill (c : Chip) (tick core wid ln : Nat) (data : List Byte) : Chip :=
  let n := c.l1Core core ln
  let full := c.pend.foldl (fun d a =>
    match a.kind, a.tgt, (tfind c.waves a.wid).map Wave.core with
    | .store, .dram pa, some k =>
      if pa / 128 = ln && c.l1Core k ln = n then overlay d (pa % 128) (leBytes a.size a.data.toNat) else d
    | _, _, _ => d) data
  let c1 := c.l1Remove core ln
  let old := (c1.core n).l1
  let c2 := if old.length < l1Lines then c1 else match old[Config.replace tick % old.length]? with
    | some l => c1.l1Evict n l
    | none => c1
  let k := c2.core n
  c2.setCore n { k with l1 := { line := ln, data := full, filler := wid } :: k.l1 }

/-! ## Order among pending accesses -/

/-- The line of a DRAM target. -/
def Target.line? : Target → Option Nat
  | .dram pa => some (pa / 128)
  | _ => none

/-- Paths that merge, or that come of one path, share what has been ordered before them: the accesses and producers of a wave that are ordered before
a path of the lanes `m` are from here on ordered before whatever path holds one of these lanes (R94). It is done before the lanes of a path
part or exit. -/
def Chip.bindLanes (c : Chip) (wid : Nat) (m : Word) : Chip :=
  { c with
      pend := c.pend.map (fun a => if a.wid = wid && a.pathMask &&& m ≠ 0 then { a with pathMask := a.pathMask ||| m } else a)
      prods := tmap c.prods (fun _ (a : Producer) => if a.wid = wid && a.pathMask &&& m ≠ 0 then { a with pathMask := a.pathMask ||| m } else a) }

/-- Whether two ranges share a byte. -/
def Target.overlaps (a : Target) (n : Nat) (b : Target) (m : Nat) : Bool :=
  match a, b with
  | .dram x, .dram y | .host x, .host y | .aperture x, .aperture y => x < y + m && y < x + n
  | .loc k f x, .loc j g y => k == j && f == g && x < y + m && y < x + n
  | _, _ => false

/-- Whether an access is of a wave and a path that shares lanes with `m`, so that program order binds the two (R94). -/
def PendAcc.own (a : PendAcc) (wid : Nat) (m : Word) : Bool := a.wid == wid && a.pathMask &&& m ≠ 0

/-- Whether two waves look up the same L1. -/
def Chip.sameL1 (c : Chip) (a b : Nat) : Bool :=
  match tfind c.waves a, tfind c.waves b with
  | some u, some v => u.core == v.core || (c.cluster (clusterOf u.core)).fused && clusterOf u.core == clusterOf v.core
  | _, _ => false

/-- Whether a producer is of a wave and a path that shares lanes with `m`. -/
def Producer.own (a : Producer) (wid : Nat) (m : Word) : Bool := a.wid == wid && a.pathMask &&& m ≠ 0

/-- Whether a producer is a load that has still to read a byte of a range. -/
def Producer.reads (pr : Producer) (tg : Target) (n : Nat) : Bool :=
  match pr.kind with
  | .load _ z _ l => l.any (fun r => r.tgts.any (fun t => t.2.overlaps z tg n))
  | _ => false

/-- Whether a group of an earlier `ratom` of the path, for this chip itself, has still to be performed on a byte of a range (R98, R372). -/
def Chip.ratomLeft (c : Chip) (before wid : Nat) (m : Word) (tg : Target) (n : Nat) : Bool :=
  c.requests.any (fun r => r.ptype == 5 && r.dst == c.chipId && r.ctx < before && (tfind c.prods r.ctx).any (fun e => e.own wid m) &&
    (match c.unitPeek r.asid r.addr.toNat with
      | .ok t => t.overlaps (r.ty.width / 8) tg n
      | .error _ => false))

/-- Whether an earlier access must be performed before `a`: one to overlapping bytes of its own path, or through the same L1, which has
shown the stores in that order (R79); a load of its own path, which must not return what `a` writes (R98). -/
def Chip.behind (c : Chip) (a : PendAcc) : Bool :=
  c.pend.any (fun b => b.id < a.id && b.tgt.overlaps b.size a.tgt a.size && (b.own a.wid a.pathMask || a.tgt.line?.isSome && c.sameL1 a.wid b.wid)) ||
  c.prods.any (fun e => e.1 < a.id && e.2.own a.wid a.pathMask && e.2.reads a.tgt a.size) || c.ratomLeft a.id a.wid a.pathMask a.tgt a.size

/-- The bytes of a range of `n` bytes that some bytes at a target give, by place in the range. -/
def placeBytes (tg : Target) (n : Nat) (a : Target) (bs : List Byte) : List (Nat × Byte) :=
  (List.range n).filterMap (fun i =>
    ((List.range bs.length).find? (fun j => (a.shift j) = tg.shift i)).bind (fun j => (bs[j]?).map (fun b => (i, b))))

/-- The bytes of a range that a wave's store buffer holds, by place in it (R364). -/
def Wave.bufBytes (w : Wave) (tg : Target) (n : Nat) : List (Nat × Byte) :=
  w.buf.flatMap (fun b => if b.tgt.overlaps b.data.length tg n then placeBytes tg n b.tgt b.data else [])

/-- The bytes of own earlier stores to a range of local memory, pending or buffered, by place in it; not those that a later atomic, which the read
waits for, takes up (R98, R364). A pending store of the path has still to be performed, so it is the latest there. -/
def Chip.ownBytes (c : Chip) (w : Wave) (wid : Nat) (m : Word) (tg : Target) (n : Nat) : List (Nat × Byte) :=
  (c.pend.foldl (fun (l : List (Nat × Byte)) a =>
    if !(a.own wid m && a.tgt.overlaps a.size tg n) then l
    else match a.kind with
      | .store => l ++ placeBytes tg n a.tgt (leBytes a.size a.data.toNat)
      | .atomic _ _ => l.filter (fun e => !a.tgt.overlaps a.size (tg.shift e.1) 1)) []) ++ w.bufBytes tg n

/-- Lays bytes over others by place; the last of a place stands. -/
def layOver (bs : List Byte) (fwd : List (Nat × Byte)) : List Byte := fwd.foldl (fun l e => l.set e.1 e.2) bs

/-! ## Producers (R68) -/

/-- The words that a loaded value gives its registers (R220). -/
def loadWords (t : Ty) (bs : List Byte) : List Word :=
  if bs.length < 4 then [BitVec.ofInt 32 (intVal t (ofLe bs))] else wordsOf (bs.length / 4) bs

/-- One lane's result in one register of a destination: the value, or the status word and the lane's bit in the error mask. -/
def Wave.landLane (w : Wave) (k : Nat) (res : LaneRes) (j : Nat) : RegRef → Wave
  | .v x =>
    let r := w.lreg x
    match res with
    | .ok ws => { w with v := tset w.v x { r with vals := r.vals.set k (ws.getD j 0) } }
    | .fail st => { w with v := tset w.v x { r with vals := r.vals.set k st, mask := r.mask ||| maskOf (· == k) } }
  | .s n =>
    let r := w.ureg n
    match res with
    | .ok ws => { w with s := tset w.s n { r with val := ws.getD j 0 } }
    | .fail st => { w with s := tset w.s n { r with val := st, mask := r.mask ||| maskOf (· == k) } }

/-- The register becomes full, with its error bit set exactly when its mask is not zero. -/
def Wave.landFull (w : Wave) : RegRef → Wave
  | .v x => { w with v := tset w.v x { w.lreg x with full := true, err := (w.lreg x).mask ≠ 0 } }
  | .s n => { w with s := tset w.s n { w.ureg n with full := true, err := (w.ureg n).mask ≠ 0 } }

/-- The registers of a producer. -/
def Producer.regs (pr : Producer) : List RegRef := (pr.dests.flatMap (·.2)).dedup

/-- A producer completes (R68). -/
def Wave.land (w : Wave) (pr : Producer) : Wave :=
  let w1 := pr.res.foldl (fun w e =>
    match pr.dests.find? (fun d => d.1 = e.1) with
    | none => w
    | some d => (d.2.zip (List.range d.2.length)).foldl (fun w r => w.landLane e.1 e.2 r.2 r.1) w) w
  pr.regs.foldl Wave.landFull w1

/-- Completes producer `id`: into the wave's registers, and into the save slot of a vacated one; discarded where the wave has ended (R68, R184,
R483). -/
def Chip.landProducer (c : Chip) (id : Nat) : Chip :=
  match tfind c.prods id with
  | none => c
  | some pr => { (c.modWave pr.wid (fun w => if w.ended then w else w.land pr)).resave pr.wid with prods := tdel c.prods id }

/-- Notes the result of one lane. -/
def Chip.laneDone (c : Chip) (id k : Nat) (res : LaneRes) : Chip :=
  { c with prods := tmod c.prods id (fun pr => { pr with res := pr.res ++ [(k, res)] }) }

/-- Notes one result for every lane of a producer. -/
def Chip.allDone (c : Chip) (id : Nat) (res : LaneRes) : Chip :=
  { c with prods := tmod c.prods id (fun pr => { pr with res := pr.dests.map (fun d => (d.1, res)) }) }

/-- Whether every lane of a producer has ended. -/
def Producer.allDone (pr : Producer) : Bool := pr.dests.all (fun d => pr.res.any (fun r => r.1 = d.1))

/-- Starts a producer: its registers become empty, with error bit and mask cleared (R68). -/
def Chip.startProducer (c : Chip) (wid : Nat) (pr : Producer) : Chip × Nat :=
  let id := c.next
  ({ c with next := id + 1, prods := tset c.prods id pr }.modWave wid (fun w => pr.regs.foldl Wave.markEmpty w), id)

end Sys2Proof.Machine
end

