-- ==== Sys2Proof/Machine/Access.lean ====
section
/-! DEFINITION. What the memory instructions share: addresses (R73 to R76, R215), the checks in their order (R217), translation at issue
(R469, R472), the throttle (R45), fixed gear's turns and store buffers (R359, R364 to R366), the waits of releases and acquires (R96). -/

namespace Sys2Proof.Machine

open Sys2Proof

/-! ## Addresses and checks -/

/-- The global address of a lane (R215). -/
def Iss.gaddr (x : Iss) (k : Nat) : Nat := modPow ((x.dword .a k).toNat + asSigned 32 x.o.word.toNat) 64

/-- The local address of a lane (R215). -/
def Iss.laddr (x : Iss) (k : Nat) : Nat := modPow ((x.word .a k 0).toNat + asSigned 32 x.o.word.toNat) 32

/-- The mask of a list of lanes. -/
def laneMask (l : List Nat) : Word := maskOf l.contains

/-- The lanes of accesses that satisfy a test, as a mask. -/
def badLanes (l : List (Nat × Nat)) (f : Nat → Bool) : Word := laneMask ((l.filter (fun e => f e.2)).map (·.1))

/-- Whether a global address is not one of this chip (R73, R74). -/
def Chip.offChip (c : Chip) (a : Nat) : Bool := a / 2 ^ 48 ≠ c.chipId

/-- The address and alignment traps of global accesses of `n` bytes, in the order of R217. -/
def Iss.globalTrap (x : Iss) (l : List (Nat × Nat)) (n : Nat) : Option TrapInfo :=
  let bad := badLanes l x.c.offChip
  let mis := badLanes l (fun a => a % n ≠ 0)
  if bad ≠ 0 then some { cause := 0x10, e0 := bad } else if mis ≠ 0 then some { cause := 0x12, e0 := mis } else none

/-- The block that a rank names in the cohort of a block: none that has ended (R75, R76). -/
def Chip.rankBlock (c : Chip) (b : Block) (rank : Nat) : Option (Nat × Block) :=
  c.blocks.find? (fun e => e.2.sameCohort b && e.2.crank = rank && !e.2.ended)

/-- The target of `n` bytes at a local address of a block's wave; none where R76 faults. -/
def Chip.localAt (c : Chip) (blk a n : Nat) : Option Target :=
  match tfind c.blocks blk with
  | none => none
  | some b =>
    let rank := fld a 19 5
    let named := if nbit a 31 then c.rankBlock b rank else if rank = 0 then some (blk, b) else none
    match named with
    | none => none
    | some (k, t) =>
      if fld a 25 6 ≠ 0 || nbit a 24 && !t.tandem || t.lsize < fld a 0 19 + n then none
      else some (.loc k (nbit a 24) (fld a 0 19))

/-- The targets of local accesses of `n` bytes, or the local-range or alignment trap (R76, R78, R217). -/
def Iss.localTargets (x : Iss) (l : List (Nat × Nat)) (n al : Nat) : Except TrapInfo (List (Nat × Target)) :=
  let bad := badLanes l (fun a => (x.c.localAt x.w.blk a n).isNone)
  let mis := badLanes l (fun a => a % al ≠ 0)
  if bad ≠ 0 then .error { cause := 0x11, e0 := bad }
  else if mis ≠ 0 then .error { cause := 0x12, e0 := mis }
  else .ok (l.filterMap (fun e => (x.c.localAt x.w.blk e.2 n).map (fun t => (e.1, t))))

/-- Translation of accesses at issue: their targets, or the state with the missing walks queued, the word not ready (R469, R470, R472). -/
def Iss.translate (x : Iss) (s : State) (k : AccessKind) (l : List (Nat × Nat)) : Except State (List (Nat × Target)) :=
  let asid := x.c.asidOf x.w.grow
  let look := l.map (fun e => (e.1, e.2 % 2 ^ 48, x.c.tlbLookup x.w.core asid (e.2 % 2 ^ 48) k))
  let miss := look.filter (fun e => e.2.2.isNone)
  if miss.isEmpty then .ok (look.filterMap (fun e => e.2.2.map (fun t => (e.1, t.target e.2.1))))
  else
    let pages := mergePages (miss.map (fun e => (e.2.1, maskOf (· == e.1), 0, 0)))
    .error (s.modChip x.p (fun c => pages.foldl (fun c g =>
      c.queueWalk asid g.1 { kind := k, wid := x.wid, slot := x.sl, pc := x.q.pc, core := x.w.core, lanes := g.2.1, addr := g.1, second := x.half = .second }) c))

/-- The accesses of a word that issues have looked up the L1 TLB of its core (R469). -/
def Iss.touchTlb (x : Iss) (s : State) (k : AccessKind) (l : List (Nat × Nat)) : State :=
  s.modChip x.p (fun c => l.foldl (fun c e => c.tlbTouch x.w.core (c.asidOf x.w.grow) (e.2 % 2 ^ 48) k) c)

/-! ## The throttle (R45, R46) -/

/-- Whether the throttle holds a wave's global accesses. DESIGN CHOICE: a block that resumes keeps its place in the order of block admission, that of
its first admission (R45). -/
def Chip.throttled (c : Chip) (w : Wave) (sl : Slot) : Bool :=
  let before := c.waves.filter (fun e => e.2.core = w.core && !e.2.ended && e.2.saved.isNone &&
    (e.2.blk < w.blk || e.2.blk = w.blk && e.2.wno < w.wno))
  !((c.kernOf w).map LaunchRec.nothrot).getD false && !(w.issueOf sl).permit && (c.core w.core).permitN ≤ before.length

/-! ## Fixed gear (R359 to R366) -/

/-- Whether the wave's grid runs in fixed gear. -/
def Iss.fg (x : Iss) : Bool := x.c.fgear x.w.grow

/-- Whether a synchronising operation may go on: outside fixed gear always, in fixed gear at its turn (R296, R359). -/
def Iss.myTurn (x : Iss) : Bool := !x.fg || x.w.turn.any (fun t => t.1 = x.sl)

/-- In fixed gear, whether an earlier load of the path has still to read a byte of a range: a write to it waits, so that the load does not return it (R98). -/
def Iss.loadLeft (x : Iss) (tg : Target) (n : Nat) : Bool := x.fg && x.c.prods.any (fun e => e.2.own x.wid x.q.mask && e.2.reads tg n)

/-- Performs a buffered store: at its home, with the line that its core's L1 holds (R79, R365). -/
def State.commitStore (s : State) (p wid : Nat) (b : BufStore) : State :=
  let v := BitVec.ofNat 64 (ofLe b.data)
  let s1 := (s.homeStore p wid b.tgt b.ty b.data.length v).forceOff p b.region
  match b.tgt, tfind (s1.chip p).waves wid with
  | .dram pa, some w => s1.modChip p (fun c => c.l1Update w.core pa b.data)
  | _, _ => s1

/-- Performs every store in a wave's buffer, in program order (R366). -/
def State.flushBuf (s : State) (p wid : Nat) : State :=
  match tfind (s.chip p).waves wid with
  | none => s
  | some w => (w.buf.foldl (fun s b => s.commitStore p wid b) s).modChip p (fun c => c.modWave wid (fun w => { w with buf := [] }))

/-- Performs the stores in a wave's buffer that were issued before a command, in program order (R366). -/
def State.flushBefore (s : State) (p wid id : Nat) : State :=
  match tfind (s.chip p).waves wid with
  | none => s
  | some w => ((w.buf.filter (fun b => b.seq ≤ id)).foldl (fun s b => s.commitStore p wid b) s).modChip p (fun c =>
      c.modWave wid (fun w => { w with buf := w.buf.filter (fun b => id < b.seq) }))

/-- The stores of a buffer, each with whether it must be performed for the bytes of a range: it writes one of them, or a byte of a later store that
must; a store is performed whole (R78, R364). -/
def bufPick (tg : Target) (n : Nat) : List BufStore → List (BufStore × Bool)
  | [] => []
  | b :: r =>
    let l := bufPick tg n r
    (b, b.tgt.overlaps b.data.length tg n || l.any (fun e => e.2 && b.tgt.overlaps b.data.length e.1.tgt e.1.data.length)) :: l

/-- Performs the buffered stores to the bytes of a range, in program order; they leave the buffer (R364). -/
def State.flushRange (s : State) (p wid : Nat) (tg : Target) (n : Nat) : State :=
  match tfind (s.chip p).waves wid with
  | none => s
  | some w =>
    let l := bufPick tg n w.buf
    ((l.filter (·.2)).foldl (fun s b => s.commitStore p wid b.1) s).modChip p (fun c =>
      c.modWave wid (fun w => { w with buf := (l.filter (fun b => !b.2)).map (·.1) }))

/-! ## Local ranges of array commands (R254) -/

/-- The array commands of a wave that are not yet performed. -/
def Chip.arrayCmds (c : Chip) (wid : Nat) : List ArrCmd :=
  match (tfind c.waves wid).bind (fun w => tfind c.blocks w.blk) with
  | none => []
  | some b => (c.core b.core).aq.filter (fun k => k.wid == wid && !k.done)

/-- Whether a command reads, or writes, a byte of a range. -/
def ArrCmd.readsAt (k : ArrCmd) (tg : Target) (n : Nat) : Bool := k.reads.any (fun r => r.2.1.overlaps r.2.2 tg n)
/-- See `ArrCmd.readsAt`. -/
def ArrCmd.writesAt (k : ArrCmd) (tg : Target) (n : Nat) : Bool := k.writes.any (fun r => r.1.overlaps r.2 tg n)

/-- Whether an access of the wave to a local range must wait for an earlier array command of it. -/
def Chip.arrayHolds (c : Chip) (wid : Nat) (write : Bool) (tg : Target) (n : Nat) : Bool :=
  (c.arrayCmds wid).any (fun k => k.writesAt tg n || write && k.readsAt tg n)

/-- The same for the accesses of an operation. -/
def Iss.arrayHolds (x : Iss) (write : Bool) (ts : List (Nat × Target)) (n : Nat) : Bool :=
  ts.any (fun e => x.c.arrayHolds x.wid write e.2 n)

/-- Whether an uncorrectable error stands in a range of local memory. -/
def Chip.badAt (c : Chip) (tg : Target) (n : Nat) : Bool :=
  match tg with
  | .loc k fol off => (tfind c.blocks k).any (fun b => b.damaged fol off n)
  | _ => false

/-- The operand-error trap of an operation that acts once on a local word in which an uncorrectable error stands: what a poisoned operand
gives (R13, R496, R498). DEDUCED: the spec names no cause for it. -/
def Iss.badWord (x : Iss) (tg : Target) (n : Nat) : TrapInfo :=
  { cause := 0x0A, src := 1, e0 := maskOf (· == x.low), e1 := x.c.poisonStatus 0, word := some (tg, n) }

/-! ## Releases and acquires (R96) -/

/-- Whether a release at a scope waits for a producer: a load or a returning atomic; at pod scope a `put` or `ratom` too. -/
def Chip.relWaits (c : Chip) (scope : Nat) (id : Nat) (a : Producer) : Bool :=
  match a.kind with
  | .load _ _ _ _ | .atomic => true
  | .remote => scope == 4
  | .copy => scope == 4 && c.copies.any (fun k => k.prod == id && k.put)
  | _ => false

/-- Whether everything that a release at a scope waits for has come about (R84, R96, R254). -/
def Chip.relReady (c : Chip) (wid : Nat) (m : Word) (scope : Nat) : Bool :=
  !c.pend.any (fun a => a.own wid m) && (c.arrayCmds wid).all (fun k => k.reads.isEmpty && k.writes.isEmpty) && !c.prods.any (fun e => e.2.own wid m && c.relWaits scope e.1 e.2)

/-- Whether an acquire waits for a producer: a load, or an atomic that returns a value, `ratom` among them (R96, R97). -/
def Producer.returns (a : Producer) : Bool :=
  match a.kind with
  | .load _ _ _ _ | .atomic | .remote => true
  | _ => false

/-- Whether every load and returning atomic before an acquire has returned (R96). -/
def Chip.acqReady (c : Chip) (wid : Nat) (m : Word) : Bool := !c.prods.any (fun e => e.2.own wid m && e.2.returns)

/-- The L1 invalidation of an acquire (R96): cohort scope and wider where L1 is private, chip and pod scope where it is fused. -/
def Chip.acquire (c : Chip) (core scope : Nat) : Chip :=
  let clear := fun (c : Chip) n => c.setCore n { c.core n with l1 := [] }
  if scope ≤ 1 then c
  else if (c.cluster (clusterOf core)).fused then
    if scope ≤ 2 then c else (List.range 32).foldl (fun c k => clear c (clusterOf core * 32 + k)) c
  else clear c core

/-- A release of the wave at chip or pod scope has completed: the fetch lines that it has written are new from here on (R85). -/
def Iss.publish (x : Iss) (s : State) (scope : Nat) : State :=
  if scope < 3 then s else s.modChip x.p (fun c => c.publish (2 * x.wid))

/-! ## Regions and lanes -/

/-- The region that is open where an operation issues. -/
def Iss.openRegion (x : Iss) : Option Nat := x.w.region.map OpenRegion.num

/-- A write inside an open region sets APXS (R302); the region is forced to OFF when the write is performed (R350). -/
def Iss.apxStore (x : Iss) (s : State) : State :=
  if x.w.region.isSome then s.modChip x.p (fun c => c.modWave x.wid (fun w => w.raise flagApxs)) else s

/-- The order in which the lanes of one operation take place: ascending in fixed gear, where it is marked ordered, or where no two of them
touch the same bytes; else by a key that no rule gives (R93, R104, R359). -/
def laneOrder (tick : Nat) (fixed : Bool) (n : Nat) (l : List (Nat × Target)) : List (Nat × Target) :=
  let clash := l.any (fun a => l.any (fun b => a.1 < b.1 && a.2.overlaps n b.2 n))
  if fixed || !clash then l
  else l.foldl (fun acc e => acc.takeWhile (fun a => Config.laneKey tick a.1 ≤ Config.laneKey tick e.1) ++ e ::
    acc.dropWhile (fun a => Config.laneKey tick a.1 ≤ Config.laneKey tick e.1)) []

end Sys2Proof.Machine
end

