-- ==== Sys2Proof/Machine/IntArith.lean ====
section
/-! DEFINITION. Integer arithmetic, major opcode 0x01 (R155 to R164). -/

namespace Sys2Proof.Machine

open Sys2Proof

/-- IntVal of an operand in lane `k` (R155). -/
def Iss.int (x : Iss) (t : Ty) (ps : Pos) (k : Nat) : Int := intVal t (x.valN t ps k)

/-- Writes WriteInt(n) of type `t` (R155). -/
def Iss.putInt (x : Iss) (t : Ty) (n : Nat → Int) : Wave := x.put t.regs (fun k j => intWords t (n k) j) x.w

/-- The shape of variants 0 to 9 (R159): the exact result, wrapped or saturated, written whole. -/
def intArith (f : Ty → Int → Int → Int → Int) : Iss → State → Eff :=
  onWave (fun x => x.putInt x.o.ty (fun k =>
    reduceInt x.o.ty x.o.hs (f x.o.ty (x.int x.o.ty .a k) (x.int x.o.ty .b k) (x.int x.o.ty .c k))))

/-- `add` (R159, R160). -/
def execAdd (o : Ops) (s : State) : Host.Outcome State Fault Refusal := issue (formAddSub o) o s (intArith (fun _ a b _ => a + b))

/-- `sub` (R159, R160). -/
def execSub (o : Ops) (s : State) : Host.Outcome State Fault Refusal := issue (formAddSub o) o s (intArith (fun _ a b _ => a - b))

/-- `mul` (R159). -/
def execMul (o : Ops) (s : State) : Host.Outcome State Fault Refusal :=
  issue (formInt2 tysInt true o) o s (intArith (fun _ a b _ => a * b))

/-- `mul.hi` (R159): the high half of the exact product. -/
def execMulHi (o : Ops) (s : State) : Host.Outcome State Fault Refusal :=
  issue (formInt2 tysInt false o) o s (intArith (fun t a b _ => a * b / 2 ^ t.width))

/-- `mad` (R159). -/
def execMad (o : Ops) (s : State) : Host.Outcome State Fault Refusal :=
  issue (formInt3 tysInt true o) o s (intArith (fun _ a b c => a * b + c))

/-- `mad.hi` (R159). -/
def execMadHi (o : Ops) (s : State) : Host.Outcome State Fault Refusal :=
  issue (formInt3 tysInt false o) o s (intArith (fun t a b c => a * b / 2 ^ t.width + c))

/-- `min` (R159). -/
def execMin (o : Ops) (s : State) : Host.Outcome State Fault Refusal :=
  issue (formInt2 tysInt false o) o s (intArith (fun _ a b _ => Min.min a b))

/-- `max` (R159). -/
def execMax (o : Ops) (s : State) : Host.Outcome State Fault Refusal :=
  issue (formInt2 tysInt false o) o s (intArith (fun _ a b _ => Max.max a b))

/-- `abs` (R159). -/
def execAbs (o : Ops) (s : State) : Host.Outcome State Fault Refusal :=
  issue (formInt1 [.i8, .i16, .i32, .i64] true o) o s (intArith (fun _ a _ _ => a.natAbs))

/-- `neg` (R159). -/
def execNeg (o : Ops) (s : State) : Host.Outcome State Fault Refusal :=
  issue (formInt1 tysInt true o) o s (intArith (fun _ a _ _ => -a))

/-- `add64` (R161): a 32-bit value of type T added to a 64-bit address. -/
def execAdd64 (o : Ops) (s : State) : Host.Outcome State Fault Refusal :=
  issue (formAdd64 o) o s (onWave (fun x => x.putInt .n64 (fun k => x.int .n64 .a k + x.int x.o.ty .b k)))

/-- The 128-bit value of a quad (R163). -/
def Iss.quad (x : Iss) (ps : Pos) (k : Nat) : Nat :=
  (x.word ps k 0).toNat + 2 ^ 32 * (x.word ps k 1).toNat + 2 ^ 64 * (x.word ps k 2).toNat + 2 ^ 96 * (x.word ps k 3).toNat

/-- `kadd` (R163): a 64-bit value added to a 128-bit counter. -/
def execKadd (o : Ops) (s : State) : Host.Outcome State Fault Refusal :=
  issue (formKadd o) o s (onWave (fun x => x.put 4 (fun k j =>
    BitVec.ofNat 32 (modPow (x.quad .a k + x.int x.o.ty .b k) 128 / 2 ^ (32 * j))) x.w))

/-- `lea` (R162): the shift stands in WORD [4:0]. -/
def execLea (o : Ops) (s : State) : Host.Outcome State Fault Refusal :=
  issue (formLea o) o s (onWave (fun x => x.putInt .n64 (fun k =>
    x.int .n64 .a k + x.int x.o.ty .b k * 2 ^ (x.o.modw % 32))))

end Sys2Proof.Machine
end

