-- ==== Sys2Proof/Machine/Kcg.lean ====
section
/-! DEFINITION. The Kerob counter generator, major opcode 0x43 (R211 to R213). -/

namespace Sys2Proof.Machine

open Sys2Proof

/-- Rotl (R211). -/
def rotl (x : Word) (n : Nat) : Word := x.rotateLeft n

/-- One round of KcgBlock (R211). -/
def kcgRound (k0 k1 : Word) (x : Word × Word × Word × Word) (j : Nat) : Word × Word × Word × Word :=
  let rc := BitVec.ofNat 32 (0x11 * (j + 1))
  let x0 := x.1 + ((if j % 2 = 0 then k0 else k1) ^^^ rc)
  let x1 := x.2.1 ^^^ rotl x0 7
  let x2 := x.2.2.1 + x1
  let x3 := x.2.2.2 ^^^ rotl x2 13
  (x1, x2, x3, x0 + x3)

/-- KcgBlock (R211). -/
def kcgBlock (c : Word × Word × Word × Word) (k0 k1 : Word) : Word × Word × Word × Word :=
  let x := (List.range 6).foldl (kcgRound k0 k1) c
  (x.1 + c.1, x.2.1 + c.2.1, x.2.2.1 + c.2.2.1, x.2.2.2 + c.2.2.2)

/-- Word `j` of four. -/
def quadWord (x : Word × Word × Word × Word) : Nat → Word
  | 0 => x.1
  | 1 => x.2.1
  | 2 => x.2.2.1
  | _ => x.2.2.2

/-- The four words of a quad operand. -/
def Iss.words4 (x : Iss) (ps : Pos) (k : Nat) : Word × Word × Word × Word :=
  (x.word ps k 0, x.word ps k 1, x.word ps k 2, x.word ps k 3)

/-- `kcg` (R212). -/
def execKcg (o : Ops) (s : State) : Host.Outcome State Fault Refusal :=
  issue (formKcg o) o s (onWave (fun x => x.put 4 (fun k j =>
    quadWord (kcgBlock (x.words4 .a k) (x.word .b k 0) (x.word .b k 1)) j) x.w))

/-- `dmask` (R213): keep value, counter quad, key pair. -/
def execDmask (o : Ops) (s : State) : Host.Outcome State Fault Refusal :=
  issue (formDmask o) o s (fun x s =>
    let x := { x with immw := BitVec.ofNat 32 (fld o.word.toNat 0 16) }
    onWave (fun x => x.putPred (fun k =>
      (kcgBlock (x.words4 .b k) (x.word .c k 0) (x.word .c k 1)).1.toNat % 65536 ≤ (x.word .a k 0).toNat % 65536) x.w) x s)

end Sys2Proof.Machine
end

