-- ==== Sys2Proof/Machine/Region.lean ====
section
/-! DEFINITION. What an `apx.begin` finds of its region: the copy that the engine of the wave's cluster holds, the surrogate that answers, its target
(R299, R300, R336, R347, R348). -/

namespace Sys2Proof.Machine

open Sys2Proof

/-! ## Copies of a region (R336) -/

/-- The copy of a region that the engine of a cluster holds. -/
def Chip.regionAt (c : Chip) (cluster region : Nat) : Option RegionCopy := tfind (c.cluster cluster).fit.regions region

/-- Replaces it. -/
def Chip.setRegion (c : Chip) (cluster region : Nat) (r : RegionCopy) : Chip :=
  let k := c.cluster cluster
  c.setCluster cluster { k with fit := { k.fit with regions := tset k.fit.regions region r } }

/-- The binding of a region number, none where the driver has not assigned it. -/
def Chip.binding? (c : Chip) (region : Nat) : Option Binding := tfind c.bindings region

/-- A register of a region (R341): THR 0, ALPHA 1, SEXP 2, LR 3, OBSN 4, EPS 5. -/
def Chip.regionReg (c : Chip) (region i : Nat) : Nat := (((c.binding? region).map (fun (b : Binding) => b.regs.getD i 0)).getD (0 : Word)).toNat

/-! ## `apx.begin` -/

/-- REGION of WORD. -/
def apxRegion (o : Ops) : Nat := fld o.modw 0 6

/-- The target of `apx.begin` (R299). -/
def Iss.apxTarget (x : Iss) : DWord :=
  BitVec.ofNat 64 (modPow ((pcLine x.ownPc : Int) + 64 * asSigned 16 (fld x.o.modw 16 16) + fld x.o.modw 13 3) 64)

/-- Whether an invocation is sampled (R347). -/
def Iss.apxSampled (x : Iss) (region sexp : Nat) : Bool :=
  let key := (((x.c.kernOf x.w).map LaunchRec.key).getD 0)
  let w := (kcgBlock (x.w.inv, BitVec.ofNat 32 (x.c.blockNo x.w), BitVec.ofNat 32 x.w.wno, BitVec.ofNat 32 region) (lo32 key) (hi32 key)).1
  w.toNat % 2 ^ sexp = 0

/-- The state that an invocation meets (R300, R348): a region that the engine does not hold, a surrogate of another shape, and a copy not FROZEN in
fixed gear count as OFF. -/
def Iss.apxState (x : Iss) (r : Option RegionCopy) : Nat :=
  match r with
  | none => 0
  | some r =>
    let fits := match r.sur with
      | some s => s.ni == apxI x.o && s.no == apxO x.o
      | none => r.state = 1
    if !fits || x.c.fgear x.w.grow && r.state ≠ 4 then 0 else r.state

/-- The copy that the engine of the wave's cluster holds of the region. -/
def Iss.apxCopy (x : Iss) : Option RegionCopy := x.c.regionAt (clusterOf x.w.core) (apxRegion x.o)

/-- The surrogate that answers the invocation, where it does: the path then transfers (R300). -/
def Iss.apxSurrogate (x : Iss) : Option Surrogate :=
  if !x.go || x.apxState x.apxCopy < 3 || x.apxSampled (apxRegion x.o) (x.c.regionReg (apxRegion x.o) 2) then none
  else x.apxCopy.bind RegionCopy.sur

/-- The fate of the target (R133), which is checked where the path transfers. -/
def Iss.apxFate (x : Iss) : TargetFate :=
  if x.apxSurrogate.isNone then .ok else x.c.checkTarget x.tick x.w.core (x.c.asidOf x.w.grow) x.apxTarget

end Sys2Proof.Machine
end

