-- ==== Sys2Proof/Machine/Issue.lean ====
section
/-! DEFINITION. The issue of one word of a path: candidacy (R30, R39, R280), the pending array-check trap (R283), held words (R475),
the fetch (R128 to R131, R469), pairs (R144 to R146) and the order of fates (R147). -/

namespace Sys2Proof.Machine

open Sys2Proof

/-! ## Pairing (R144) -/

/-- The pipe class of an instruction (R38). -/
def classOf (i : Instr) : Nat := ((codeOf i).map (fun c => c.1 / 64)).getD 0

/-- Lane registers that an operand reads: the direct ones, and whether it is indexed. -/
def laneReads (f : Opd) (op : Operand) : List Nat × Nat :=
  match op with
  | .lane n => ((List.range f.n).map (n.toNat + ·), 0)
  | .indexed _ => ([], 1)
  | _ => ([], 0)

/-- The lane sources of an instruction: direct registers, and how many indexed sources. -/
def sourcesOf (i : Instr) : List Nat × Nat :=
  match formOf i, opsOf i with
  | some f, some o =>
    let r := srcPos.map (fun ps => laneReads (f.opd ps) (opAt o ps))
    (r.flatMap (·.1), (r.map (·.2)).foldl (· + ·) 0)
  | _, _ => ([], 0)

/-- The registers an instruction writes, as fields of the operand space. -/
def writesOf (i : Instr) : List Nat :=
  match formOf i, opsOf i with
  | some f, some o =>
    match o.d with
    | .lane n => (List.range f.d.n).map (n.toNat + ·)
    | .unif n => (List.range f.d.n).map (0x100 + n.toNat + ·)
    | .indexed _ => List.range 256
    | .pred n => [0x200 + n.toNat]
    | .idx n => [0x208 + n.toNat]
    | .handle n => [0x210 + n.toNat]
    | _ => []
  | _, _ => []

/-- The instructions that may not stand first in a pair (R144). -/
def firstOk : Instr → Bool
  | .br _ | .brx _ | .call _ | .ret _ | .exit _ | .apxBegin _ | .apxEnd _ | .trap _ | .trapRes _ | .trapRet _ => false
  | _ => true

/-- Whether two operations may issue as one word (R144). -/
def pairOk (i j : Instr) : Bool :=
  let a := sourcesOf i
  let b := sourcesOf j
  let regs := (a.1 ++ b.1).dedup
  let nix := a.2 + b.2
  classOf i ≠ classOf j && firstOk i &&
  (if nix = 0 then regs.length ≤ 4 && (regs.map (· % 4)).Nodup else nix = 1 && regs.isEmpty) &&
  (writesOf i).all (fun r => !(writesOf j).contains r)

/-- The synchronising operations (R249, R298). -/
def syncOp : Instr → Bool
  | .bar _ | .pbarArr _ | .pbarWait _ | .pbarTest _ | .atom _ | .atomL _ | .red _ | .ratom _ | .ticket _ | .put _ | .get _ | .putRed _
  | .getRed _ | .fgSync _ | .collAllreduce _ | .collRedscat _ | .collAllgath _ | .collBcast _ | .collAlltoall _ | .collWait _
  | .collAbort _ => true
  | _ => false

/-! ## The word at which a path stands -/

/-- The operations of the word at which a path stands: in the line that it has entered, else in the line at its PC as the wave sees it. -/
def Chip.wordAt (c : Chip) (tick : Nat) (w : Wave) (q : Path) : List Instr :=
  let ops := fun (l : BitVec 512) =>
    let k := pcSlot q.pc
    let dec := fun n => match decodeWave (lineSlot l n) with
      | .ok i => [i]
      | .error _ => []
    if k < 4 && nbit (lineWord l) (5 + k) then dec k ++ dec (k + 1) else dec k
  match q.line, c.viewLine tick w.core (c.asidOf w.grow) q.pc with
  | some l, _ | none, .good l => ops l
  | none, _ => []

/-- Of the operations of its word, those that a path has still to perform. -/
def Path.left (q : Path) (ops : List Instr) : List Instr :=
  match q.wait with
  | .none => ops
  | .polling false | .bar _ _ _ _ _ => if q.beside then ops.take 1 else ops
  | .polling true | .second => ops.drop 1
  | .freed _ _ _ | .pbar _ _ _ _ | .coll _ _ _ => []

/-- Whether the path of a slot stands at a synchronising operation that it has still to perform. -/
def Chip.atSync (c : Chip) (tick : Nat) (w : Wave) (sl : Slot) : Bool :=
  ((w.path? sl).map (fun q => (q.left (c.wordAt tick w q)).any syncOp)).getD false

/-! ## Fates -/

/-- The order in which traps apply to one word (R147, R283). -/
def trapRank (cause : Nat) : Nat :=
  match cause with
  | 0x03 => 0 | 0x04 => 1 | 0x01 => 2 | 0x02 => 3 | 0x08 => 4 | 0x09 => 5 | 0x0A => 6 | _ => 7

/-- The state that an operation answers, none where it stops. -/
def nextOf (r : Host.Outcome State Fault Refusal) : Option State :=
  match r with
  | .next s => some s
  | _ => none

/-- The trap that the last operation raised. -/
def State.raised (s : State) : Option TrapInfo :=
  match s.last with
  | .trapped cause src e0 e1 e2 => some { cause := cause, src := src, e0 := e0, e1 := e1, e2 := e2, word := s.lastWord }
  | _ => none

/-- Whether the path at the cursor waits in an issued operation, and in which half. -/
def State.waitAt (s : State) (c : Cursor) : Wait :=
  match (tfind (s.chip c.pkg).waves c.wid).bind (fun w => w.path? c.slot) with
  | some q => q.wait
  | none => .none

/-- Whether a word has not issued: not ready, and not waiting in an issued operation (R29, R39). -/
def State.notIssued (s : State) (c : Cursor) : Bool := s.last = .notReady && s.waitAt c = .none

/-- A pair has issued and its first operation waits: the second has issued with it and counts now (R146, R357). -/
def State.countSecond (s : State) (c : Cursor) : State :=
  s.modChip c.pkg (fun k => k.modWave c.wid (fun w => { w with clock := if k.fgear w.grow then w.clock + 1 else w.clock }))

/-- Keeps the walks that a word has queued and what a hold of R475 wrote, without its effects. -/
def State.keepHold (s t : State) (c : Cursor) : State :=
  let k := t.chip c.pkg
  let held := ((tfind k.waves c.wid).map (fun w => w.held c.slot)).getD []
  { s.modChip c.pkg (fun x => { x with nextToken := k.nextToken, pendFaults := k.pendFaults, walks := k.walks, next := k.next }.modWave c.wid
      (fun w => w.setHeld c.slot held)) with last := .notReady }

/-- A trap taken by the word at the cursor; `k` is 1 for the second operation of a pair. -/
def State.trapWord (s : State) (c : Cursor) (q : Path) (t : TrapInfo) (k n : Nat) : State :=
  let epc := if t.cause = 0x30 || t.cause = 0x31 then pcNext q.pc n else q.pc
  { s.trapAt c.pkg c.wid c.slot t k epc with last := .trapped t.cause t.src t.e0 t.e1 t.e2 }

/-- The lower in rank of two traps of the halves of a pair; the first half's among equals (R147). -/
def pickTrap (a b : Option TrapInfo) : Option (TrapInfo × Nat) :=
  match a, b with
  | none, none => none
  | some t, none => some (t, 0)
  | none, some t => some (t, 1)
  | some t, some u => if trapRank t.cause ≤ trapRank u.cause then some (t, 0) else some (u, 1)

/-! ### Illegal targets, which come before every other encoding trap (R147, R283) -/

/-- The lane or uniform pair that bits [65:56] of an instruction name, as the PC that each lane holds there; none where they name no full pair of the
wave. An indexed pair has its displacement in WORD [7:0] (R140). -/
def targetPair (r : Wave) (wb : Nat) (t : Word) (bits : Nat) : Option (Nat → DWord) :=
  let n := fld bits 56 8
  let lane := fun x k => dword ((r.lreg x).vals.getD k 0) ((r.lreg (x + 1)).vals.getD k 0)
  match fld bits 64 2 with
  | 0 => if n % 2 = 0 && n + 2 ≤ r.L && (r.lreg (wb + n)).full && (r.lreg (wb + n + 1)).full then some (lane (wb + n)) else none
  | 1 => if n % 2 = 0 && n + 2 ≤ r.U && (r.ureg n).full && (r.ureg (n + 1)).full then some (fun _ => dword (r.ureg n).val (r.ureg (n + 1)).val)
         else none
  | 3 =>
    if n < 4 || 8 ≤ n then none
    else
      let x := fun k => r.ixNum (BitVec.ofNat 2 n) (fld bits 0 8) k
      if (lanesOf t).all (fun k => 0 ≤ x k && x k + 2 ≤ (r.L : Int) && x k % 2 = 0 && (r.lreg (wb + (x k).toNat)).full &&
          (r.lreg (wb + (x k).toNat + 1)).full) then some (fun k => lane (wb + (x k).toNat) k)
      else none
  | _ => none

/-- The fields of an operation that may be malformed, as far as `apx.begin` needs them to find its target: guard and WORD (R299). -/
def rawOps (bits : Nat) : Ops :=
  { guard := { neg := nbit bits 83, p := BitVec.ofNat 3 (fld bits 80 3) }, hs := false, em := 0, d := .none, a := .none, b := .none, c := .none,
    ty := .b32, word := BitVec.ofNat 32 bits }

/-- The transfer that the 96 bits of an operation make, whether or not they are well formed: its lanes and the PC of each. `ret` reads its target in
its frame and checks it itself (R182); that of `apx.begin` is `State.apxIllegal`. -/
def rawTransfer (r : Wave) (q : Path) (own : DWord) (bits : Nat) : Option (Word × (Nat → DWord)) :=
  let g : Guard := { neg := nbit bits 83, p := BitVec.ofNat 3 (fld bits 80 3) }
  let t := guardMask r g q.mask
  let imm := asSigned 42 (fld bits 36 10 * 2 ^ 32 + fld bits 0 32)
  let line : DWord := BitVec.ofNat 64 (modPow ((pcLine own : Int) + imm / 8 * 64 + imm % 8) 64)
  match fld bits 88 8, fld bits 84 4 with
  | 0xC0, 1 => some (t, fun _ => line)
  | 0xC0, 2 => (targetPair r q.wbase t bits).map (fun f => (t, f))
  | 0xC0, 3 => if fld bits 56 10 = 0x300 then some (t, fun _ => line) else (targetPair r q.wbase t bits).map (fun f => (t, f))
  | 0xC1, 0 =>
    if fld bits 30 2 = 2 && r.hmode && laneOn t (lowLane q.mask) && fld bits 64 2 = 1 then
      (targetPair r q.wbase q.mask bits).map (fun f => (q.mask, f))
    else none
  | _, _ => none

/-- Whether the 96 bits of an operation are an `apx.begin`, well formed or not, that transfers to an illegal target (R133, R300). -/
def State.apxIllegal (s : State) (c : Cursor) (bits : Nat) : Bool :=
  fld bits 84 12 = 0xC30 &&
  let o := match decodeWave bits with
    | .ok (.apxBegin o) => o
    | _ => rawOps bits
  (issOf (formBare true) o { s with cur := c, pairSrc := none }).any (fun x => x.apxFate = .illegal)

/-- The illegal-target trap of an operation (R133). -/
def State.targetTrap (s : State) (c : Cursor) (q : Path) (own : DWord) (bits : Nat) : Option TrapInfo :=
  let k := s.chip c.pkg
  match tfind k.waves c.wid with
  | none => none
  | some w =>
    if s.apxIllegal c bits then some { cause := 0x04, e0 := q.mask }
    else match rawTransfer w q own bits with
    | none => none
    | some (t, f) =>
      let bad := maskOf (fun n => laneOn t n && k.checkTarget s.tick w.core (k.asidOf w.grow) (f n) = .illegal)
      if bad = 0 then none else some { cause := 0x04, e0 := bad }

/-- An operation or pair has been tried: a word that is not ready has not issued, else an illegal target comes before its other traps (R147). -/
def State.orTarget (s : State) (c : Cursor) (q : Path) (t : Option (TrapInfo × Nat)) (n : Nat) (r : Host.Outcome State Fault Refusal) :
    Host.Outcome State Fault Refusal :=
  match t, r with
  | some (t, k), .next s1 => .next (if s1.notIssued c then s1 else s.trapWord c q t k n)
  | _, r => r

/-- The turn of a pair is over once the synchronising operation that stood first is performed: a second one that is none needs it no longer
(R359). -/
def State.turnOver (s : State) (c : Cursor) (j : Instr) : State :=
  if syncOp j then s else s.modChip c.pkg (fun k => k.modWave c.wid (fun w => w.endTurn c.slot))

/-- The path of the cursor waits in `v`; `b` where the second operation of its pair is performed. -/
def State.setWait (s : State) (c : Cursor) (v : Wait) (b : Bool) : State :=
  s.modChip c.pkg (fun k => k.modWave c.wid (fun w => w.setPath c.slot ((w.path? c.slot).map (fun q => { q with wait := v, beside := b }))))

/-- The first operation of a pair has issued and waits: the second has issued with it, and is performed beside it (R146). One that moves the path, or
has itself to wait, is performed when the first is complete. DESIGN CHOICE: so it is too where it meets something that stops it only here. -/
def State.besideWait (ex : Instr → State → Host.Outcome State Fault Refusal) (s1 : State) (c : Cursor) (j : Instr) (src : Option Wave) : State :=
  let v := s1.waitAt c
  if !firstOk j then s1.countSecond c
  else match ex j { s1.setWait c .none false with cur := { c with half := .first }, pairSrc := src } with
    | .next s2 =>
      if s2.last = .completed && s2.waitAt c = .none then { s2.setWait c v true with last := .notReady, pairSrc := none } else s1.countSecond c
    | _ => s1.countSecond c

/-- A pair that has not issued: both operations are tried on the state before it, and neither has effect when one is not ready or traps;
otherwise the first and then the second are performed, both reading the registers from before (R146). -/
def runPair (ex : Instr → State → Host.Outcome State Fault Refusal) (s : State) (c : Cursor) (q : Path) (i j : Instr) :
    Host.Outcome State Fault Refusal :=
  let src := tfind (s.chip c.pkg).waves c.wid
  match ex i { s with cur := { c with half := .first } }, ex j { s with cur := { c with half := .second } } with
  | .next s1, .next t2 =>
    if s1.notIssued c then .next s1
    else if t2.notIssued c then .next t2
    else match pickTrap s1.raised t2.raised with
      | some (t, k) => .next (s.trapWord c q t k 2)
      | none =>
        if s1.last = .notReady then .next (s1.besideWait ex c j src)
        else match ex j { s1 with cur := { c with half := .second }, pairSrc := src } with
          | .next s2 => .next (if s2.notIssued c then s.keepHold s2 c else { s2.turnOver c j with pairSrc := none })
          | r => r
  | .next _, r => r
  | r, _ => r

/-- The second operation of a pair whose first has waited: it, or the rest of it, alone is still to complete. It reads the registers from before
the pair (R146). -/
def resumeSecond (ex : Instr → State → Host.Outcome State Fault Refusal) (s : State) (c : Cursor) (q : Path) (j : Instr) :
    Host.Outcome State Fault Refusal :=
  match ex j { s with cur := { c with half := .second } } with
  | .next s2 =>
    match s2.raised with
    | some t => .next (s.trapWord c q t 1 2)
    | none => .next { s2.turnOver c j with pairSrc := none }
  | r => r

/-- The rest of a pair whose first operation waits and is tried again. DESIGN CHOICE: one that traps there, after it has issued, traps at its word,
of which the second operation may be performed already. -/
def resumePair (ex : Instr → State → Host.Outcome State Fault Refusal) (s : State) (c : Cursor) (q : Path) (i j : Instr) :
    Host.Outcome State Fault Refusal :=
  match ex i { s with cur := { c with half := .first } } with
  | .next s1 =>
    match s1.raised with
    | some t => .next (s.trapWord c q t 0 2)
    | none => if s1.last = .notReady then .next s1 else if q.beside then .next { s1 with pairSrc := none } else resumeSecond ex s1 c q j
  | r => r

/-- The word at a line slot: a single operation or a pair, with its encoding traps in their order (R138 to R147). -/
def runWord (ex : Instr → State → Host.Outcome State Fault Refusal) (s : State) (c : Cursor) (q : Path) (l : BitVec 512) :
    Host.Outcome State Fault Refusal :=
  let k := pcSlot q.pc
  let first := decodeWave (lineSlot l k)
  let tgt := fun (own : DWord) (bits : Nat) => if q.waiting then none else s.targetTrap c q own bits
  if k < 4 && nbit (lineWord l) (5 + k) then
    let second := decodeWave (lineSlot l (k + 1))
    let bad := pickTrap (tgt q.pc (lineSlot l k)) (tgt (pcNext q.pc 1) (lineSlot l (k + 1)))
    let trap := fun (t : TrapInfo) (n : Nat) => Host.Outcome.next (match bad with
      | some (u, m) => s.trapWord c q u m 2
      | none => s.trapWord c q t n 2)
    match first, second with
    | .ok i, .ok j =>
      match q.wait with
      | .polling true | .second | .bar .second _ _ _ _ | .pbar .second _ _ _ | .coll .second _ _ | .freed .second _ _ => resumeSecond ex s c q j
      | .polling false | .bar _ _ _ _ _ | .pbar _ _ _ _ | .coll _ _ _ | .freed _ _ _ => resumePair ex s c q i j
      | .none => if pairOk i j then s.orTarget c q bad 2 (runPair ex s c q i j) else trap { cause := 0x02 } 0
    | .error _, _ => trap { cause := 0x01 } 0
    | .ok _, .error _ => trap { cause := 0x01 } 1
  else
    let bad := (tgt q.pc (lineSlot l k)).map (fun t => (t, 0))
    match first with
    | .ok i => s.orTarget c q bad 1 (ex i { s with cur := { c with half := .single } })
    | .error _ => .next (s.trapWord c q ((bad.map (·.1)).getD { cause := 0x01 }) 0 1)

/-! ## Candidacy and fetch -/

/-- Whether a wave of a fixed-gear grid may issue at all: every block of the grid is admitted, and its clock lies in the quantum in progress
(R356, R365, R371). -/
def GridRun.open (g : GridRun) (w : Wave) : Bool := !g.kern.fgear || g.live && w.clock.toNat / 4096 ≤ w.quant

/-- The slot that a single step lets issue: the one where lane SLANE stands, slot A where it stands in the heap, none where it has exited
(R295). -/
def Wave.stepSlot (w : Wave) : Option Slot :=
  let k := fld w.dbg.toNat 8 5
  if w.slotA.any (fun q => laneOn q.mask k) then some .A
  else if w.slotB.any (fun q => laneOn q.mask k) then some .B
  else if w.heap.any (fun q => laneOn q.mask k) then some .A
  else none

/-- Whether a slot is a candidate that may issue (R30, R39, R280, R290, R294, R356, R365). A stall, and the end of a quantum, hold off an issue: a path that
waits in a word it has issued goes on all the same. -/
def State.candidate (s : State) (p : Nat) (w : Wave) (sl : Slot) : Bool :=
  let fg := (s.chip p).fgear w.grow
  let open_ := (((s.chip p).grid? w.grow).map (fun g => g.open w)).getD true
  !w.ended && w.saved.isNone && !w.dbg.getLsbD 0 && !(w.hmode && w.hslot ≠ sl) &&
  w.stepping ≠ .issued && !(w.stepping = .armed && w.stepSlot ≠ some sl) && (w.issueOf sl).yieldEnd.isNone &&
  (w.path? sl).any (fun q => q.waiting || open_ && (w.hmode || !Wave.stalled (s.cpOf p w) fg w sl))

/-- What the answers to the records of a held word come to (R475): as soon as one has FAIL set it traps with the lanes whose pages have failed so far
and the status word of the lowest of them; where none has and not all are there it waits; else it issues again. Of a pair whose operations both
fail it is the first's trap (R147). -/
def heldFate (l : List HeldPage) : Check :=
  let bad := l.filter (fun h => h.answer = some true)
  if bad.isEmpty then (if l.any (fun h => h.answer.isNone) then .wait else .ready)
  else
    let own := if bad.any (fun h => !h.second) then bad.filter (fun h => !h.second) else bad
    let lanes := own.foldl (fun m h => m ||| h.lanes) 0
    .trap { cause := 0x13, e0 := lanes,
            e1 := ((own.find? (fun h => laneOn h.lanes (lowLane lanes))).map HeldPage.status).getD 0 }

/-- Which operation of its word the trap of a held word belongs to: 1 for the second of a pair (R146, R284). -/
def heldHalf (l : List HeldPage) : Nat := if l.any (fun h => h.answer = some true && !h.second) then 0 else 1

/-- A path meets a line that stands in its core's instruction cache with an uncorrectable error: it is logged once (R131, R496, R503). -/
def Chip.senseLine (c : Chip) (core pa : Nat) : Chip :=
  let k := c.core core
  if k.icBad.contains pa && !k.icMet.contains pa then
    (c.setCore core { k with icMet := pa :: k.icMet }).logSram 2 0 core (c.poisonStatus 0)
  else c

/-- The path of a slot has entered a line (R131). -/
def Wave.enterLine (w : Wave) (sl : Slot) (l : BitVec 512) : Wave := w.setPath sl ((w.path? sl).map (fun q => { q with line := some l }))

/-- The word at the PC of a path: in the line that it has entered, or, where it enters one, in the line it fetches, whose line word is then checked
(R131, R469, R475). DESIGN CHOICE: a line whose page is one of the register aperture is malformed, with einfo0 and einfo1 zero. DESIGN
CHOICE: bits [63:48] of a PC play no part in the fetch. -/
def fetchWord (ex : Instr → State → Host.Outcome State Fault Refusal) (s : State) (c : Cursor) (w : Wave) (q : Path) :
    Host.Outcome State Fault Refusal :=
  match q.line with
  | some l => runWord ex s c q l
  | none =>
    let k := s.chip c.pkg
    let asid := k.asidOf w.grow
    let off := pcLine q.pc % 2 ^ 48
    match k.tlbLookup w.core asid off .fetch with
    | none =>
      .next { s.setChip c.pkg (k.queueWalk asid off { kind := .fetch, wid := c.wid, slot := c.slot, pc := q.pc, core := w.core, lanes := q.mask, addr := off })
              with last := .notReady }
    | some e =>
      match e.target off with
      | .dram pa =>
        match k.fetchLine s.tick w.core pa with
        | none => .next ((s.modChip c.pkg (fun x => x.senseLine w.core pa)).trapWord c q { cause := 0x03, e1 := k.poisonStatus 0 } 0 1)
        | some l =>
          if lineBad l then .next (s.trapWord c q { cause := 0x03, e0 := BitVec.ofNat 32 (lineWord l) } 0 1)
          else runWord ex (s.setChip c.pkg (((k.tlbTouch w.core asid off .fetch).cacheLine s.tick w.core pa l).setWave c.wid (w.enterLine c.slot l))) c { q with line := some l } l
      | _ => .next (s.trapWord c q { cause := 0x03 } 0 1)

/-- A path whose wait is over goes on once its acquire may complete (R96): the acquire at its scope, what it writes, then behind its word, or on to the
second operation of its pair. A heap area that fails translation holds it where it is (R36, R475). -/
def State.goFreed (s : State) (c : Cursor) (w : Wave) (q : Path) (half : Half) (scope : Nat) (val : FreedVal) : State :=
  let k := s.chip c.pkg
  if !k.acqReady c.wid q.mask then { s with last := .notReady }
  else
    let cp := s.cpOf c.pkg w
    let w1 := val.write q w
    let more := half = .first && !q.beside
    let w2 := if more then w1.setPath c.slot (some { q with wait := .second })
      else w1.stepTo cp c.slot (pcNext q.pc (if half = .single then 1 else 2))
    let k1 := (k.acquire w.core scope).setWave c.wid w2
    let k2 := if more then k1 else k1.dropSrc c.wid c.slot
    match (s.setChip c.pkg k2).settleHeap c.pkg c.wid w.heap w.heapRes with
    | .ok s1 => { s1 with last := .completed }
    | .error f => s.heapStop c.pkg c.wid c.slot w q (half = .second) f

/-- The issue of the word at the cursor. An array-check trap that is pending comes before everything else (R275, R283), also to a path
that waits in an issued instruction. -/
def issueWord (ex : Instr → State → Host.Outcome State Fault Refusal) (s0 : State) (c : Cursor) : Host.Outcome State Fault Refusal :=
  let s := { s0 with cur := c, pairSrc := none }
  match tfind (s.chip c.pkg).waves c.wid with
  | none => .fault .noPath
  | some w =>
    match w.path? c.slot with
    | none => .fault .noPath
    | some q =>
      if !s.candidate c.pkg w c.slot then .next { s with last := .notReady }
      else match w.arrayTrap with
        | some (detail, row) =>
          let s1 := s.modChip c.pkg (fun k => k.modWave c.wid (fun w => { w with arrayTrap := none }))
          .next (s1.trapWord c q { cause := 0x22, e1 := BitVec.ofNat 32 detail, e2 := BitVec.ofNat 32 row } 0 1)
        | none =>
          match heldFate (w.held c.slot) with
          | .wait => .next { s with last := .notReady }
          | .trap t => .next (s.trapWord c q t (heldHalf (w.held c.slot)) 1)
          | .ready =>
            let w1 := w.setHeld c.slot []
            let q1 := { q with held := [] }
            let s1 := s.modChip c.pkg (fun k => k.setWave c.wid w1)
            match q.wait with
            | .freed half scope val => .next (s1.goFreed c w1 q1 half scope val)
            | .none => fetchWord ex s1 c w1 q1
            | _ => fetchWord ex { s1 with pairSrc := tfind (s1.chip c.pkg).srcs (srcKey c.wid c.slot) } c w1 q1

end Sys2Proof.Machine
end

