-- ==== Sys2Proof/Machine/Flits.lean ====
section
/-! DEFINITION. Flits, packets as bytes, and the two directions of a fabric link (R376 to R378). -/

namespace Sys2Proof.Machine

open Sys2Proof

/-! ## CRC (R376) -/

/-- One bit of the CRC-32 of IEEE 802.3, least significant bit first. -/
def crcBit (crc : Word) (b : Bool) : Word := if xor (crc.getLsbD 0) b then crc >>> 1 ^^^ 0xEDB88320 else crc >>> 1

/-- The CRC-32 of the low `n` bits of a number. -/
def crc32 (n x : Nat) : Word := ~~~((List.range n).foldl (fun c i => crcBit c (nbit x i)) 0xFFFFFFFF)

/-! ## Flits (R376) -/

/-- A flit. -/
def flit (lseq lack : Byte) (kind vc : Nat) (sop eop : Bool) (cvc cred : Nat) (body : BitVec 448) : BitVec 512 :=
  let x := lseq.toNat + lack.toNat * 2 ^ 8 + kind * 2 ^ 16 + vc * 2 ^ 19 + b2n sop * 2 ^ 21 + b2n eop * 2 ^ 22 + cvc * 2 ^ 23 + cred * 2 ^ 25 +
    body.toNat * 2 ^ 32
  BitVec.ofNat 512 (x + (crc32 480 x).toNat * 2 ^ 480)

/-- Whether the CRC of a flit is good. -/
def flitGood (f : BitVec 512) : Bool := (crc32 480 f.toNat).toNat = fld f.toNat 480 32

/-- LSEQ, LACK, LKIND, VC, SOP, EOP, CVC, CRED and BODY of a flit. -/
def flitSeq (f : BitVec 512) : Byte := BitVec.ofNat 8 f.toNat
/-- See `flitSeq`. -/
def flitAck (f : BitVec 512) : Byte := BitVec.ofNat 8 (fld f.toNat 8 8)
/-- See `flitSeq`. -/
def flitKind (f : BitVec 512) : Nat := fld f.toNat 16 3
/-- See `flitSeq`. -/
def flitVc (f : BitVec 512) : Nat := fld f.toNat 19 2
/-- See `flitSeq`. -/
def flitSop (f : BitVec 512) : Bool := nbit f.toNat 21
/-- See `flitSeq`. -/
def flitEop (f : BitVec 512) : Bool := nbit f.toNat 22
/-- See `flitSeq`. -/
def flitCvc (f : BitVec 512) : Nat := fld f.toNat 23 2
/-- See `flitSeq`. -/
def flitCred (f : BitVec 512) : Nat := fld f.toNat 25 7
/-- See `flitSeq`. -/
def flitBody (f : BitVec 512) : BitVec 448 := BitVec.ofNat 448 (fld f.toNat 32 448)

/-! ## Packets as bytes (R378) -/

/-- The channel of a packet type. -/
def vcOf (ptype : Nat) : Nat :=
  if ptype = 12 then 3 else if 13 ≤ ptype && ptype ≤ 16 then 2 else if ptype = 18 || ptype < 12 && ptype % 2 = 0 then 1 else 0

/-- The 32-byte header and the data of a packet. -/
def Packet.bytes (k : Packet) : List Byte :=
  leBytes 32 (k.ptype + (k.src % 512 + 512 * b2n k.srcSw) * 2 ^ 16 + (k.dst % 512 + 512 * b2n k.dstSw) * 2 ^ 32 + k.len % 2 ^ 16 * 2 ^ 48 +
    k.tid.toNat * 2 ^ 64 + k.opw.toNat * 2 ^ 96 + k.addr.toNat * 2 ^ 128 + k.asid % 2 ^ 16 * 2 ^ 192) ++ k.data

/-- The bodies of a packet's flits. -/
def Packet.bodies (k : Packet) : List (BitVec 448) :=
  let b := k.bytes
  (pieces 56 ((b.length + 55) / 56) b).map (fun x => BitVec.ofNat 448 (ofLe x))

/-- The mark of a collective message whose grid is not known: no header holds one. -/
def noGrid : Nat := 4096

/-- The packet of some bodies, as it arrives on a plane; none where its PTYPE is not listed. Bits that no header holds are not known. -/
def packetOf (plane : Nat) (bodies : List (BitVec 448)) : Option Packet :=
  let b := bodies.flatMap (fun x => leBytes 56 x.toNat)
  let h := ofLe (b.take 32)
  let ptype := fld h 0 8
  let len := fld h 48 16
  if ptype = 0 || 18 < ptype || 512 < len then none
  else some { ptype := ptype, src := fld h 16 9, srcSw := nbit h 25, dst := fld h 32 9, dstSw := nbit h 41, tid := BitVec.ofNat 32 (fld h 64 32),
              opw := BitVec.ofNat 32 (fld h 96 32), addr := BitVec.ofNat 64 (fld h 128 64), asid := fld h 192 16, len := len,
              data := if ptype = 3 then [] else (b.drop 32).take len, ctx := if ptype = 12 then noGrid else 0, unit := 0,
              ty := if ptype = 5 && nbit h 100 then .n64 else .n32, plane := plane }

/-! ## A link (R377) -/

/-- The link of a port. -/
def Chip.link (c : Chip) (plane : Nat) : Link := tget Link.trained c.links plane
/-- Replaces the link of a port. -/
def Chip.setLink (c : Chip) (plane : Nat) (l : Link) : Chip := { c with links := tset c.links plane l }

/-- Sends the flits that wait, as far as the link is up and credits and the replay buffer allow, in order within each channel. With it come the
packets whose last flit is sent. -/
def Link.pump (l : Link) : Link × List Packet :=
  l.waiting.foldl (fun (a : Link × List Packet) f =>
    let l := a.1
    if !l.up || l.waiting.any (fun g => g.1 = f.1) || l.credits.getD f.1 0 = 0 || 128 ≤ l.replay.length then
      ({ l with waiting := l.waiting ++ [f] }, a.2)
    else
      let n := l.lseq + 1
      let x := flit n l.accepted 1 f.1 f.2.1 f.2.2.1 0 0 f.2.2.2
      let l1 := { l with lseq := n, replay := l.replay ++ [(n, x)], credits := l.credits.set f.1 (l.credits.getD f.1 0 - 1), out := l.out ++ [x] }
      match f.2.2.1, l.parcels.find? (fun k => vcOf k.ptype = f.1) with
      | true, some k => ({ l1 with parcels := l.parcels.erase k }, a.2 ++ [k])
      | _, _ => (l1, a.2)) ({ l with waiting := [], out := [] }, [])

/-- Puts a packet on a link. -/
def Link.send (l : Link) (k : Packet) : Link × List Packet :=
  let bs := k.bodies
  let n := bs.length
  Link.pump { l with
    waiting := l.waiting ++ (bs.zip (List.range n)).map (fun e => (vcOf k.ptype, decide (e.2 = 0), decide (e.2 + 1 = n), e.1))
    parcels := l.parcels ++ [k] }

/-- Drops the kept flits that a LACK covers. -/
def Link.acked (l : Link) (lack : Byte) : Link := { l with replay := l.replay.filter (fun e => 128 ≤ (lack - e.1).toNat) }

/-- A kept flit as it is sent again: every flit carries the current LACK. -/
def restamp (lack : Byte) (f : BitVec 512) : BitVec 512 := flit (flitSeq f) lack 1 (flitVc f) (flitSop f) (flitEop f) 0 0 (flitBody f)

/-- Sends again every kept flit after a LACK. A request that moves nothing on counts as a failed replay of the same flit; one for which nothing is kept asks for no
replay. -/
def Link.resend (l : Link) (lack : Byte) : Link :=
  let k := l.acked lack
  { k with failed := if k.replay.isEmpty then 0 else if k.replay.length < l.replay.length then 1 else l.failed + 1
           out := k.replay.map (fun e => restamp l.accepted e.2) }

/-- A control flit: the LSEQ of the last packet flit, the current LACK, and credits of one channel that are to be returned. -/
def Link.control (l : Link) (kind : Nat) : Link :=
  let v := ((List.range 4).find? (fun i => l.owed.getD i 0 ≠ 0)).getD 0
  let n := Nat.min 127 (l.owed.getD v 0)
  { l with owed := l.owed.set v (l.owed.getD v 0 - n), out := [flit l.lseq l.accepted kind 0 false false v n 0] }

/-- A flit arrives: the packet that it completes, if it does, and the packets whose last flit can now be sent. A packet flit that is not the next is discarded
with all it carries. -/
def Link.receive (l : Link) (plane : Nat) (f : BitVec 512) : Link × Option Packet × List Packet :=
  if !flitGood f || flitKind f = 1 && flitSeq f ≠ l.accepted + 1 then (l.control 2, none, [])
  else
    let a := l.acked (flitAck f)
    let l1 := { a with credits := a.credits.set (flitCvc f) (a.credits.getD (flitCvc f) 0 + flitCred f),
                       failed := if a.replay.length < l.replay.length then 0 else a.failed }
    match flitKind f with
    | 1 =>
      let v := flitVc f
      let got := (if flitSop f then [] else tget [] l1.bodies v) ++ [flitBody f]
      let l2 := { l1 with accepted := flitSeq f, owed := l1.owed.set v (l1.owed.getD v 0 + 1),
                          bodies := tset l1.bodies v (if flitEop f then [] else got) }
      (l2.pump.1, if flitEop f then packetOf plane got else none, l2.pump.2)
    | 2 => (l1.resend (flitAck f), none, [])
    | _ => (l1.pump.1, none, l1.pump.2)

/-- The switch at the other end has taken every flit sent, and returned their credits. DESIGN CHOICE: it does so in a step of its own, which the flits
that a link receives (FLIT_RECEIVE) may also say. -/
def Link.served (l : Link) : Link × List Packet :=
  Link.pump { l.acked l.lseq with credits := Link.trained.credits, failed := 0 }

/-! ## Sending (R378) -/

/-- The plane that a packet takes: the first from `n` on whose link is up. -/
def Chip.planeFor (c : Chip) (n : Nat) : Nat := (((List.range 48).map (fun i => (n + i) % 48)).find? (fun k => (c.link k).up)).getD (n % 48)

/-- A link of package `p` has gone on: the packets that have left it travel. -/
def State.putLink (s : State) (p plane : Nat) (r : Link × List Packet) : State :=
  { s.modChip p (fun c => c.setLink plane r.1) with net := s.net ++ r.2 }

/-- Sends a packet from package `p`: its flits go to its plane's link, and it travels once its last one has left. -/
def State.emit (s : State) (p : Nat) (k : Packet) : State := s.putLink p k.plane (((s.chip p).link k.plane).send k)

end Sys2Proof.Machine
end

