-- ==== Sys2Proof/Machine/Net.lean ====
section
/-! DEFINITION. What remote operations share: the capability table (R380, R381), requests and responses (R378), the 16-byte units of the copy
unit (R238), and the order of units in fixed gear (R359). -/

namespace Sys2Proof.Machine

open Sys2Proof

/-! ## Who can be reached, and what they support -/

/-- The capability word of a chip, as this chip's table holds it (R380). -/
def Chip.capOf (c : Chip) (id : Nat) : Nat := (tget 0 c.pel.rep.caps id).toNat

/-- Whether a capability word lacks a bit; a word with REV 0 is not checked (R381). -/
def capLacks (word bit : Nat) : Bool := fld word 56 8 ≠ 0 && !nbit word bit

/-- Whether the own word of a chip lacks a bit (R382). -/
def Chip.unable (c : Chip) (bit : Nat) : Bool := !nbit c.ownCap.toNat bit

/-- The bit of a reducing copy's type, and of its operation (R380). -/
def capTypeBit : Ty → Nat
  | .f32 => 16 | .bf16 => 17 | _ => 18
/-- See `capTypeBit`. -/
def capRopBit (rop : Nat) : Nat := 13 + rop
/-- The bit of incast counters. -/
def capInc : Nat := 12
/-- The bit of a remote atomic. -/
def capAopBit (aop : Nat) : Nat := 19 + aop

/-- Whether remote operations reach a chip: itself, or one that is ALIVE (R239, R459). -/
def Chip.reaches (c : Chip) (id : Nat) : Bool := id == c.chipId || (tget ChipRow.absent c.pel.rep.chips id).state = .alive

/-- LOST, naming the chip (R71, R239). -/
def lostStatus (id : Nat) : Word := statusWord codeLost 3 id 0

/-- Whether a package takes packets. -/
def Chip.online (c : Chip) : Bool := c.powered && !c.stopped

/-! ## Packets (R378) -/

/-- A packet with nothing set. -/
def Packet.blank : Packet :=
  { ptype := 0, src := 0, srcSw := false, dst := 0, dstSw := false, tid := 0, opw := 0, addr := 0, asid := 0, len := 0, data := [],
    ctx := 0, unit := 0, ty := .b32, plane := 0 }

/-- Whether one more request to a chip may be outstanding. -/
def Chip.mayAsk (c : Chip) (dst : Nat) : Bool := (c.requests.filter (fun r => r.dst = dst)).length < 32768

/-- Sends a request: it takes the next TID of its destination and is kept until its response arrives. -/
def State.sendRequest (s : State) (p : Nat) (pk : Packet) : State :=
  let c := s.chip p
  let tid := tget 0 c.tids pk.dst
  let k := { pk with src := c.chipId, tid := BitVec.ofNat 32 tid, plane := c.planeFor tid }
  (s.setChip p { c with tids := tset c.tids pk.dst ((tid + 1) % 2 ^ 32), requests := c.requests ++ [k] }).emit p k

/-- A request is sent, or waits while 32,768 are outstanding to its destination. -/
def State.ask (s : State) (p : Nat) (pk : Packet) : State :=
  let c := s.chip p
  if c.mayAsk pk.dst && !c.askWait.any (fun r => r.dst = pk.dst) then s.sendRequest p pk
  else s.setChip p { c with askWait := c.askWait ++ [pk] }

/-- The oldest request that waits for a place among those outstanding to a chip is sent. -/
def State.askNext (s : State) (p dst : Nat) : State :=
  let c := s.chip p
  match c.askWait.find? (fun r => r.dst = dst) with
  | none => s
  | some r => if c.mayAsk dst then (s.setChip p { c with askWait := c.askWait.erase r }).sendRequest p r else s

/-- Sends and records the response of a request. -/
def State.answer (s : State) (p : Nat) (rq rsp : Packet) : State :=
  let c := s.chip p
  let k := { rsp with src := c.chipId, dst := rq.src, tid := rq.tid, plane := c.planeFor rq.plane, ctx := 0, unit := 0 }
  (s.setChip p { c with answered := c.answered ++ [(rq.src, rq.tid, k)] }).emit p k

/-- The packet at a place of the fabric, where it is of type `ty` and for package `p`. -/
def State.packetFor (s : State) (p net ty : Nat) : Option Packet :=
  (s.net[net]?).filter (fun k => k.ptype == ty && !k.dstSw && k.dst == (s.chip p).chipId && (s.chip p).online)

/-- Takes a packet from the fabric. -/
def State.dropNet (s : State) (net : Nat) : State := { s with net := s.net.eraseIdx net }

/-- Whether the sender of a request still awaits its response; one that is no package of the state does. -/
def State.awaited (s : State) (k : Packet) : Bool :=
  ((s.pkgOf k.src).map (fun p => (s.chip p).requests.any (fun r => r.dst == k.dst && r.tid == k.tid))).getD true

/-- Whether a chip answers remote requests: it is ALIVE, by its own tables, and does not rejoin (R457, R458, R459). -/
def Chip.answers (c : Chip) : Bool := c.pel.rejoining = .none && (tget ChipRow.absent c.pel.rep.chips c.chipId).state = .alive

/-- A target performs a request once, answers a repeated TID from its record, and drops one whose response has long arrived. `f` performs it
and gives the response, none where the answer comes later. -/
def State.serve (s : State) (p net ty : Nat) (f : State → Packet → State × Option Packet) : State :=
  match s.packetFor p net ty with
  | none => s
  | some k =>
    let s1 := s.dropNet net
    if !(s1.chip p).answers then s1
    else match (s1.chip p).answered.find? (fun a => a.1 = k.src && a.2.1 = k.tid) with
    | some a => s1.emit p { a.2.2 with plane := (s1.chip p).planeFor k.plane }
    | none =>
      if !s1.awaited k then s1
      else
      let r := f s1 k
      match r.2 with
      | some rsp => r.1.answer p k rsp
      | none => r.1

/-- A target drops its records of a source's requests that the source's oldest outstanding one has passed. -/
def State.forget (s : State) (src dst : Nat) : State :=
  match s.pkgOf src, s.pkgOf dst with
  | some p, some q =>
    let mine := (s.chip p).requests.filter (fun r => r.dst = dst)
    let live := fun (from_ : Nat) (tid : Word) => from_ ≠ src || mine.any (fun r => (tid - r.tid).toNat < 2 ^ 31)
    s.modChip q (fun c => { c with answered := c.answered.filter (fun a => live a.1 a.2.1), snSent := c.snSent.filter (fun a => live a.1 a.2.1) })
  | _, _ => s

/-- A response reaches its source: the request it answers, which is kept no longer. A response to no request is dropped. -/
def State.response (s : State) (p net ty : Nat) (f : State → Packet → Packet → State) : State :=
  match s.packetFor p net ty with
  | none => s
  | some k =>
    let s1 := s.dropNet net
    match (s1.chip p).requests.find? (fun r => r.dst = k.src && r.tid = k.tid) with
    | none => s1
    | some rq =>
      let s2 := s1.modChip p (fun c => { c with requests := c.requests.erase rq })
      ((f s2 rq k).askNext p k.src).forget (s2.chip p).chipId k.src

/-! ## Units (R238) -/

/-- One element of a reducing copy, from the source's and the destination's bits. -/
def redElem (rop : Nat) (t : Ty) (a b : Nat) : Nat :=
  if t = .i32 then
    let x := intVal t a
    let y := intVal t b
    modPow (match rop with | 0 => satInt t (x + y) | 1 => Min.min x y | _ => Max.max x y) 32
  else match rop with
    | 0 => (roundToF t (FNum.add false (fval t a) (fval t b)) 0 false 0).1
    | 1 => fminN t a b
    | _ => fmaxN t a b

/-- The reduced bytes of a unit. -/
def redBytes (rop : Nat) (t : Ty) (src dst : List Byte) : List Byte :=
  let n := t.width / 8
  let k := src.length / n
  ((pieces n k src).zip (pieces n k dst)).flatMap (fun e => leBytes n (redElem rop t (ofLe e.1) (ofLe e.2)))

/-- Whether an aperture address lies in a control page (R310). -/
def onControlPage (pa : Nat) : Bool :=
  match apAddr pa with
  | .control _ _ => true
  | _ => false

/-- The bytes that a unit reads at a place of the aperture that is no control page: a queue page gives its registers (R414). -/
def Chip.apBytes (c : Chip) (pa n : Nat) : List Byte := (splitAt 8 pa n).flatMap (fun e => leBytes e.2 (c.apLoad e.1 .n64 e.2 false))

/-- A unit's write to the aperture: NOTIFY of a queue page takes it (R414). -/
def Chip.apWrite (c : Chip) (pa : Nat) (bs : List Byte) : Chip :=
  (splitAt 8 pa bs.length).foldl (fun c e =>
    c.apStore 0 e.1 .n64 e.2 (BitVec.ofNat 64 (ofLe ((bs.drop (e.1 - pa)).take e.2)))) c

/-- A unit's read at a target: the bytes, or its status word (R239, R242). -/
def State.unitRead (s : State) (p unit : Nat) (tg : Target) (n : Nat) : Except Word (List Byte) :=
  let id := (s.chip p).chipId
  match tg with
  | .aperture pa =>
    if onControlPage pa then (if unit = 3 then .error (statusWord codeReject 3 id 8) else .ok (List.replicate n 0)) else .ok ((s.chip p).apBytes pa n)
  | _ =>
    match s.readTgt p tg n with
    | some bs => .ok bs
    | none => .error (statusWord codePoison unit id 0)

/-- The bytes that a unit reads, or its status word; it meets what is damaged there. -/
def State.unitGet (s : State) (p unit : Nat) (tg : Target) (n : Nat) : State × Except Word (List Byte) :=
  match s.unitRead p unit tg n with
  | .ok bs => (s, .ok bs)
  | .error st => (if st = (s.chip p).poisonStatus unit then s.sense p tg n st else s, .error st)

/-- A unit's write at a target, reduced into it where `red` says so: its status word, zero where it is performed. A reduction, like every atomic,
changes nothing on a queue page (R414). -/
def State.unitWrite (s : State) (p unit : Nat) (tg : Target) (red : Option (Nat × Ty)) (bs : List Byte) : State × Word :=
  let id := (s.chip p).chipId
  match tg with
  | .aperture pa =>
    if onControlPage pa then (s, if unit = 3 then statusWord codeReject 3 id 8 else 0)
    else if red.isSome then (s, 0) else (s.modChip p (fun c => c.apWrite pa bs), 0)
  | _ =>
    let new := match red with
      | none => some bs
      | some (rop, t) => (s.readTgt p tg bs.length).map (redBytes rop t bs)
    match new with
    | none => (s.sense p tg bs.length ((s.chip p).poisonStatus unit), statusWord codePoison unit id 0)
    | some b =>
      let r := s.writeTgt p tg b
      (r.1, if r.2 then 0 else statusWord codePoison unit id 0)

/-- What a unit's look at its L2 TLB, or at the walk it has asked for, has left: the walks that it wants or has taken. -/
def State.unitNote (s : State) (a : UnitAsk) (missed : Bool) : State :=
  if missed then { s with asks := s.asks ++ [a] }
  else if ((s.chip a.pkg).unitWalks.any (fun x => x.asid = a.asid && x.page = a.page && x.req = a.req)) then { s with taken := s.taken ++ [a] } else s

/-- Translation of a unit's address by a chip; a failure gives the status word and an asynchronous record (R472, R477), and a miss a walk, for which
the unit's step waits (`State.unitStep`). `w` is the wave that started the command, `home` its chip where that is another. -/
def State.unitXlate (s : State) (p who asid addr : Nat) (k : AccessKind) (unit : Nat) (w : Option Wave) (home : Option Chip := none) :
    State × Except Word Target :=
  let c := s.chip p
  let off := addr % 2 ^ 48
  let a : UnitAsk := { pkg := p, asid := asid, page := off / 4096
                       req := { kind := k, cluster := unitCluster (if home.isSome then none else w) asid off, who := who } }
  match c.unitLook a.req asid off with
  | none => (s.unitNote a true, .error 0)
  | some (.ok t) => (s.unitNote a false, .ok t)
  | some (.error (cause, level)) =>
    ((s.unitNote a false).modChip p (fun c => c.asyncFault addr asid k cause level unit w (home.getD c)), .error (statusWord (causeCode cause) unit c.chipId 0))

/-- Numbers for the units that ask for walks: a copy command, a stream context, a packet of a queue, a wave, the event ring and the queue engine of a cluster, an operation of the
fitting engine or of a collective, a request of another chip, a command processor. -/
def askCopy (id : Nat) : Nat := 8 * id
/-- See `askCopy`. -/
def askCtx (vault ctx : Nat) : Nat := 8 * (8 * vault + ctx) + 1
/-- See `askCopy`. -/
def askPkt (half q n : Nat) : Nat := 8 * ((2 * n + half) * 512 + q) + 2
/-- See `askCopy`. -/
def askWave (wid : Nat) : Nat := 8 * wid + 3
/-- See `askCopy`. -/
def askRing (cluster : Nat) : Nat := 8 * cluster + 4
/-- See `askCopy`. -/
def askOp (prod : Nat) : Nat := 8 * prod + 5
/-- See `askCopy`. -/
def askReq (k : Packet) : Nat := 8 * (k.src * 2 ^ 32 + k.tid.toNat) + 6
/-- See `askCopy`. -/
def askHalf (n : Nat) : Nat := 8 * n + 7

/-- The access kind of a unit's write: a reducing one is an atomic at its target (R238, R470). -/
def writeKind (red : Option (Nat × Ty)) : AccessKind := if red.isSome then .atomic else .unitWrite

/-! ## Copy commands -/

/-- Units of a command. -/
def CopyCmd.units (k : CopyCmd) : Nat := k.len / 16
/-- UNIT of its status word and record (R239). -/
def CopyCmd.unitNo (k : CopyCmd) : Nat := if k.put || k.get then 3 else 1
/-- Source and destination of unit `u`. -/
def CopyCmd.srcAt (k : CopyCmd) (u : Nat) : Nat := k.src.toNat + 16 * u
/-- See `CopyCmd.srcAt`. -/
def CopyCmd.dstAt (k : CopyCmd) (u : Nat) : Nat := k.dst.toNat + 16 * u

/-- The commands of major 0x84 that a core has in flight: copies, and tickets not yet returned (R237). -/
def Chip.inFlight84 (c : Chip) (core : Nat) : Nat :=
  (c.copies.filter (fun k => k.core = core)).length +
    (c.prods.filter (fun e => e.2.kind = .ticket && ((tfind c.waves e.2.wid).map Wave.core) = some core)).length

/-- Replaces a command. -/
def Chip.setCopy (c : Chip) (k : CopyCmd) : Chip := { c with copies := c.copies.map (fun x => if x.id = k.id then k else x) }

/-- A unit of a command has ended with a status word. -/
def CopyCmd.unitDone (k : CopyCmd) (u : Nat) (st : Word) : CopyCmd :=
  { k with finished := k.finished ++ [u], wrote := if st = 0 then k.wrote + 1 else k.wrote,
           failed := if k.failed.isNone && st ≠ 0 then some st else k.failed }

/-- One side of a unit, as package and target; none where it lies nowhere. -/
def State.sideAt (s : State) (p blk asid : Nat) (isLocal : Bool) (addr : Nat) : Option (Nat × Target) :=
  if isLocal then ((s.chip p).localAt blk addr 16).map (fun t => (p, t))
  else match s.pkgOf (addr / 2 ^ 48) with
    | none => none
    | some q => match (s.chip q).unitPeek asid addr with
      | .ok t => some (q, t)
      | .error _ => none

/-- Both sides of a unit. -/
def State.unitSides (s : State) (p : Nat) (k : CopyCmd) (u : Nat) : List (Nat × Target) :=
  (s.sideAt p k.blk k.asid k.dl (k.dstAt u)).toList ++ (s.sideAt p k.blk k.asid k.sl (k.srcAt u)).toList

/-! ## Logical time (R358) -/

/-- A logical time as one number: clock, then block, stage and wave number (R21). -/
def Chip.timeKey (c : Chip) (w : Wave) (clock : DWord) : Nat :=
  clock.toNat * 2 ^ 64 + c.blockNo w * 2 ^ 32 + w.stage * 2 ^ 16 + w.wno

/-- The logical time of a copy command. -/
def Chip.cmdTime (c : Chip) (k : CopyCmd) : Nat := ((tfind c.waves k.wid).map (fun w => c.timeKey w k.clock)).getD 0

/-- In fixed gear, whether an unfinished unit of an earlier command of the grid touches one of some ranges (R359). -/
def State.fgBusy (s : State) (grow before : Nat) (l : List (Nat × Target × Nat)) : Bool :=
  s.chips.any (fun e => e.2.fgear grow && e.2.copies.any (fun k =>
    k.grow = grow && e.2.cmdTime k < before && (List.range k.units).any (fun u =>
      !k.finished.contains u && (s.unitSides e.1 k u).any (fun t =>
        l.any (fun r => r.1 = t.1 && r.2.1.overlaps r.2.2 t.2 16)))))

/-- Whether a synchronising operation of fixed gear meets no unfinished unit of an earlier one (R359), and no load of its path that has still to read a byte
of its targets (R98). -/
def Iss.fgClear (x : Iss) (s : State) (l : List (Target × Nat)) : Bool :=
  !x.fg || !s.fgBusy x.w.grow (x.c.timeKey x.w x.time) (l.map (fun t => (x.p, t.1, t.2))) && !l.any (fun t => x.loadLeft t.1 t.2)

end Sys2Proof.Machine
end

