-- ==== Sys2Proof/Machine/LoadStore.lean ====
section
/-! DEFINITION. Loads and stores, major opcodes 0x80 and 0x81 (R219 to R223), and their completion: LOAD_MISS_COMPLETE, STORE_ACK,
LONG_LATENCY_COMPLETE (R68, R79, R100). -/

namespace Sys2Proof.Machine

open Sys2Proof

/-- Access size in bytes (R220). -/
def memSize (o : Ops) : Nat := if vecOf o = 0 then o.ty.width / 8 else 4 * memRegs o

/-- The single-copy atomic parts of an access: a 16-byte one is two of 8 bytes (R78). -/
def partsOf (n : Nat) (t : Target) : List (Nat × Target) := if n = 16 then [(0, t), (8, t.shift 8)] else [(0, t)]

/-- The registers that each lane of an operation writes. -/
def Iss.destRefs (x : Iss) (n : Nat) : List (Nat × List RegRef) := x.outLanes.map (fun k => (k, x.w.refs x.q.wbase x.o.d 0 n k))

/-- Whether an earlier access of the path to overlapping bytes is outstanding that an L1 copy could miss: an atomic, or a load whose value
is still to come (R98). -/
def Chip.unsettled (c : Chip) (wid : Nat) (m : Word) (tg : Target) (n : Nat) : Bool :=
  c.pend.any (fun a => a.kind ≠ .store && a.own wid m && a.tgt.overlaps a.size tg n) ||
  c.prods.any (fun e => e.2.own wid m && e.2.reads tg n) || c.ratomLeft c.next wid m tg n

/-- Whether a load hits a line of L1 in which a word that it reads there holds an uncorrectable error. -/
def Iss.hitBad (x : Iss) (tg : Target) (n : Nat) : Bool :=
  match tg with
  | .dram pa => !x.c.unsettled x.wid x.q.mask tg n && (x.c.l1Find x.w.core (pa / 128)).any (fun l =>
      (List.range n).any (fun i => l.bad.contains ((pa % 128 + i) / 4) && !(x.w.bufBytes tg n).any (fun b => b.1 = i)))
  | _ => false

/-- The bytes that an L1 hit gives a load, none for a miss or a damaged word: the line's, and in fixed gear those of the wave's store buffer (R79, R364). -/
def Iss.hitBytes (x : Iss) (tg : Target) (n : Nat) : Option (List Byte) :=
  match tg with
  | .dram pa =>
    if x.hitBad tg n || x.c.unsettled x.wid x.q.mask tg n then none
    else (x.c.l1Find x.w.core (pa / 128)).map (fun l =>
      layOver ((List.range n).map (fun i => l.data.getD (pa % 128 + i) 0)) (x.w.bufBytes tg n))
  | _ => none

/-- The lost-locality score of a wave whose load misses (R44). -/
def Wave.missScore (w : Wave) (lines : List Nat) : Wave :=
  lines.foldl (fun w ln => if w.vtags.contains ln then
    { w with vtags := w.vtags.erase ln, score := Nat.min 255 (w.score + 16) } else w) w

/-- A load from global memory (R221): `fill` where it looks up L1. -/
def globalLoad (fill : Bool) (x : Iss) (s : State) : Eff :=
  let n := memSize x.o
  let accs := x.outLanes.map (fun k => (k, x.gaddr k))
  if accs.isEmpty then .done s
  else if x.c.throttled x.r x.sl then .wait s
  else match x.globalTrap accs n with
    | some t => .trap t
    | none =>
      match x.translate s .load accs with
      | .error s1 => .wait s1
      | .ok ts =>
        let look := ts.map (fun e => (e.1, e.2, if fill then x.hitBytes e.2 n else none))
        let fused := (x.c.cluster (clusterOf x.w.core)).fused
        if fill && !fused && look.all (fun e => e.2.2.isSome) then
          let val := fun k => loadWords x.o.ty (((look.find? (fun e => e.1 = k)).bind (fun e => e.2.2)).getD [])
          .done (x.set (x.touchTlb s .load accs) (x.put (memRegs x.o) (fun k j => (val k).getD j 0) x.w))
        else
          let size := if n = 16 then 8 else n
          let hurt := if fill then look.filter (fun e => x.hitBad e.2.1 n) else []
          let miss := look.filter (fun e => e.2.2.isNone && !hurt.contains e)
          let reads := miss.map (fun e => ({ lane := e.1, tgts := partsOf n e.2.1, got := List.replicate n 0,
                                             fwd := x.w.bufBytes e.2.1 n } : LaneLoad))
          let res := look.filterMap (fun e => e.2.2.map (fun bs => (e.1, LaneRes.ok (loadWords x.o.ty bs)))) ++
            hurt.map (fun e => (e.1, LaneRes.fail (x.c.poisonStatus 0)))
          let pr : Producer := { wid := x.wid, pathMask := x.q.mask, kind := .load x.o.ty size fill reads,
                                 dests := x.destRefs (memRegs x.o), res := res }
          let lines := (miss.filterMap (fun e => e.2.1.line?)).dedup
          .done ((x.touchTlb s .load accs).modChip x.p (fun c =>
            let c1 := if fill then (((hurt.filterMap (fun e => e.2.1.line?)).dedup).foldl (fun c ln => c.l1Damaged x.w.core ln) c).modWave x.wid (fun w =>
                w.missScore lines)
              else lines.foldl (fun c ln => c.l1Remove x.w.core ln) c
            (c1.startProducer x.wid pr).1))

/-- `ld` (R219, R221). -/
def execLd (o : Ops) (s : State) : Host.Outcome State Fault Refusal :=
  issue (formLoad [.lane] [.lane, .unif] 2 o) o s (globalLoad true)

/-- `ldu` (R219, R221). -/
def execLdu (o : Ops) (s : State) : Host.Outcome State Fault Refusal := issue (formLoad [.unif] [.unif] 2 o) o s (globalLoad true)

/-- `ld.byp` (R82, R221). -/
def execLdByp (o : Ops) (s : State) : Host.Outcome State Fault Refusal :=
  issue (formLoad [.lane] [.lane, .unif] 2 o) o s (globalLoad false)

/-- `ldu.byp` (R82, R221). -/
def execLduByp (o : Ops) (s : State) : Host.Outcome State Fault Refusal := issue (formLoad [.unif] [.unif] 2 o) o s (globalLoad false)

/-! ## Stores -/

/-- The stored value of a lane, as 64-bit pieces by part. -/
def Iss.storeWord (x : Iss) (k i : Nat) : DWord := Machine.dword (x.word .b k (2 * i)) (if 8 ≤ memSize x.o then x.word .b k (2 * i + 1) else 0)

/-- Queues the stores of one operation as pending accesses, the L1 updated at issue (R79, R222); in fixed gear they go to the store
buffer instead (R364). -/
def Iss.putStores (x : Iss) (s : State) (ts : List (Nat × Target)) : State :=
  let n := memSize x.o
  let size := if n = 16 then 8 else n
  let parts := (laneOrder x.tick x.fg n ts).flatMap (fun e => (partsOf n e.2).map (fun q => (e.1, q.2, x.storeWord e.1 (q.1 / 8))))
  if x.fg then
    s.modChip x.p (fun c => c.modWave x.wid (fun w => { w with buf := w.buf ++ parts.map (fun e =>
      { tgt := e.2.1, ty := if n = 16 then .b32 else x.o.ty, data := leBytes size e.2.2.toNat,
        quantum := x.time.toNat / 4096, region := x.openRegion, seq := c.next }) }))
  else
    s.modChip x.p (fun c => parts.foldl (fun c e =>
      let a : PendAcc := { id := c.next, seq := c.next, wid := x.wid, pathMask := x.q.mask, kind := .store, ty := x.o.ty, tgt := e.2.1,
                           size := size, data := e.2.2, ordered := false, lane := e.1, prod := none, region := x.openRegion }
      let c1 := { c with next := c.next + 1, pend := c.pend ++ [a] }
      match e.2.1 with
      | .dram pa => c1.l1Update x.w.core pa (leBytes size e.2.2.toNat)
      | _ => c1) c)

/-- `st` (R222). -/
def execSt (o : Ops) (s : State) : Host.Outcome State Fault Refusal :=
  issue (formStore 2 o) o s (fun x s =>
    let accs := x.outLanes.map (fun k => (k, x.gaddr k))
    if accs.isEmpty then .done s
    else if x.c.throttled x.r x.sl then .wait s
    else match x.globalTrap accs (memSize o) with
      | some t => .trap t
      | none =>
        match x.translate s .store accs with
        | .error s1 => .wait s1
        | .ok ts =>
          if ts.any (fun e => x.loadLeft e.2 (memSize o)) then .wait s else .done (x.apxStore (x.putStores (x.touchTlb s .store accs) ts)))

/-- The lanes whose local word has an uncorrectable error get the status word POISON and their bit of the error mask, as a poisoned line gives
them (R478, R498). DEDUCED. -/
def Iss.markBad (x : Iss) (n : Nat) (bad : List Nat) (w : Wave) : Wave :=
  let st := x.c.poisonStatus 0
  bad.foldl (fun w k => (x.w.refs x.q.wbase x.o.d (x.o.disp .d) n k).foldl (fun w r => (w.landLane k (.fail st) 0 r).landFull r) w) w

/-- `lds` (R223): at the scratchpad, with the path's own stores on their way to it. -/
def execLds (o : Ops) (s : State) : Host.Outcome State Fault Refusal :=
  issue (formLoad [.lane, .unif] [.lane, .unif] 1 o) o s (fun x s =>
    let n := memSize o
    match x.localTargets (x.outLanes.map (fun k => (k, x.laddr k))) n n with
    | .error t => .trap t
    | .ok ts =>
      if x.arrayHolds false ts n then .wait s else
      let got := ts.map (fun e => (e.1, (s.readTgt x.p e.2 n).map (fun b => layOver b (x.c.ownBytes x.w x.wid x.q.mask e.2 n))))
      let val := fun k => loadWords o.ty (((got.find? (fun e => e.1 = k)).bind (·.2)).getD [])
      let bad := (got.filter (fun e => e.2.isNone)).map (·.1)
      let s1 := (ts.filter (fun e => bad.contains e.1)).foldl (fun s e => s.sense x.p e.2 n (x.c.poisonStatus 0)) s
      .done (x.set s1 (x.markBad (memRegs o) bad (x.put (memRegs o) (fun k j => (val k).getD j 0) x.w))))

/-- `sts` (R223). -/
def execSts (o : Ops) (s : State) : Host.Outcome State Fault Refusal :=
  issue (formStore 1 o) o s (fun x s =>
    match x.localTargets (x.outLanes.map (fun k => (k, x.laddr k))) (memSize o) (memSize o) with
    | .error t => .trap t
    | .ok ts =>
      if ts.isEmpty then .done s
      else if x.arrayHolds true ts (memSize o) || ts.any (fun e => x.loadLeft e.2 (memSize o)) then .wait s
      else .done (x.apxStore (x.putStores s ts)))

/-! ## Completion -/

/-- Whether a read of a load may be performed: no earlier access of the path to those bytes is on its way, nor an earlier store through the same L1,
which may already have been seen there, and no earlier load of them by the path is outstanding (R98). -/
def Chip.readDue (c : Chip) (id : Nat) (pr : Producer) (tg : Target) (size : Nat) : Bool :=
  !c.pend.any (fun a => a.id < id && a.tgt.overlaps a.size tg size && (a.own pr.wid pr.pathMask || tg.line?.isSome && c.sameL1 a.wid pr.wid)) &&
  !c.prods.any (fun e => e.1 < id && e.2.own pr.wid pr.pathMask && e.2.reads tg size) && !c.ratomLeft id pr.wid pr.pathMask tg size

/-- A read of lane `l` at part (i, t) has been performed with result `bs`: the lane goes on, ends with its value, or fails (R68, R221). -/
def Chip.noteRead (c : Chip) (id : Nat) (pr : Producer) (ty : Ty) (size : Nat) (fill : Bool) (reads : List LaneLoad) (l : LaneLoad)
    (i : Nat) (bs : Option (List Byte)) : Chip :=
  let put := fun (c : Chip) (rs : List LaneLoad) =>
    { c with prods := tset c.prods id { (tget pr c.prods id) with kind := .load ty size fill rs } }
  match bs with
  | none => (put c (reads.filter (fun r => r.lane ≠ l.lane))).laneDone id l.lane (.fail (statusWord codePoison 0 c.chipId 0))
  | some b =>
    let got := overlay l.got i b
    let left := l.tgts.filter (fun t => t.1 ≠ i)
    if left.isEmpty then
      (put c (reads.filter (fun r => r.lane ≠ l.lane))).laneDone id l.lane (.ok (loadWords ty (layOver got l.fwd)))
    else put c (reads.map (fun r => if r.lane = l.lane then { l with tgts := left, got := got } else r))

/-- Performs one read of a load, chosen where several may go, and completes the producer after the last (R67, R68, R79, R82); one whose lanes have
all hit a fused L1 has nothing to read (R80). -/
def State.performRead (s : State) (p id : Nat) (want : Bool) : State :=
  let c := s.chip p
  match tfind c.prods id with
  | none => s
  | some pr =>
    match pr.kind with
    | .load ty size fill reads =>
      if fill ≠ want then s
      else if reads.isEmpty && pr.allDone then s.setChip p (c.landProducer id)
      else
        let due := reads.flatMap (fun l => (l.tgts.filter (fun t => c.readDue id pr t.2 size)).map (fun t => (l, t)))
        let pick := match due with
          | [e] => some e
          | l => l[Config.schedule s.tick % l.length]?
        match pick with
        | none => s
        | some (l, (i, tg)) =>
          let bs := s.homeLoad p tg ty size fill
          let core := ((tfind c.waves pr.wid).map Wave.core).getD 0
          let c1 := c.noteRead id pr ty size fill reads l i bs
          let c2 := match tg, bs with
            | .dram pa, some _ => if fill then c1.l1Fill s.tick core pr.wid (pa / 128) (memBytes c.dram (pa / 128 * 128) 128)
                else c1.l1Remove core (pa / 128)
            | _, _ => c1
          let done := ((tfind c2.prods id).map Producer.allDone).getD false
          let s1 := s.setChip p (if done then c2.landProducer id else c2)
          if bs.isNone then s1.sense p tg size (c.poisonStatus 0) else s1
    | _ => s

/-- LOAD_MISS_COMPLETE (R79). -/
def execLoadMissComplete (p prod : Nat) (s : State) : Host.Outcome State Fault Refusal := .next (s.performRead p prod true)

/-- LONG_LATENCY_COMPLETE (R68): a bypassing load or a gather reads at the home slice; a producer all of whose lanes have ended becomes full. -/
def execLongLatencyComplete (p prod : Nat) (s : State) : Host.Outcome State Fault Refusal :=
  let c := s.chip p
  .next (match tfind c.prods prod with
    | none => s
    | some pr =>
      match pr.kind with
      | .load _ _ _ _ => s.performRead p prod false
      | .atomic | .remote | .ticket => if pr.allDone then s.setChip p (c.landProducer prod) else s
      | _ => s)

/-- Performs a pending access and takes it from the list: a store, or one lane of an atomic with its old value noted (R100, R227). An atomic's
line leaves the issuing core's L1 (R79). -/
def State.performAcc (s : State) (p : Nat) (a : PendAcc) : State :=
  let s0 := (s.modChip p (fun c => { c with pend := c.pend.filter (fun b => b.id ≠ a.id) })).forceOff p a.region
  match a.kind with
  | .store => s0.homeStore p a.wid a.tgt a.ty a.size a.data
  | .atomic aop cmp =>
    let r := s0.homeAtomic p a.wid a.tgt a.ty aop a.data cmp
    r.1.modChip p (fun c =>
      let core := ((tfind c.waves a.wid).map Wave.core).getD 0
      let c1 := match a.tgt.line? with
        | some ln => c.l1Remove core ln
        | none => c
      match a.prod with
      | none => c1
      | some id => c1.laneDone id a.lane (match r.2 with
          | some old => .ok [lo32 old, hi32 old]
          | none => .fail (statusWord codePoison 0 c.chipId 0)))

/-- The forms of access that a control page's own steps perform (R310). -/
inductive CtrlKind
  | add | set | request | store
  deriving DecidableEq, Repr

/-- Which of them an access is; none for any other offset, size or form. -/
def PendAcc.ctrl (a : PendAcc) : Option CtrlKind :=
  match a.tgt with
  | .aperture pa => match apAddr pa with
    | .control _ off =>
      match a.kind with
      | .store =>
        if isCounter off && (a.ty = .n32 || a.ty = .b32) && a.size = 4 then some .set
        else if off = 0x100 && a.ty = .b64 && a.size = 8 then some .store else none
      | .atomic aop _ =>
        if isCounter off && a.ty = .n32 && aop = 0 then some .add
        else if isCounter off && (a.ty = .n32 || a.ty = .b32) then some .set
        else if off = 0x100 && a.ty = .b64 && aop = 6 && a.prod.isSome then some .request else none
    | _ => none
  | _ => none

/-- STORE_ACK (R100): a store, `red` or unordered atomic is performed at its home slice, scratchpad or command processor, and acknowledged. -/
def execStoreAck (p acc : Nat) (s : State) : Host.Outcome State Fault Refusal :=
  let c := s.chip p
  .next (match c.pend.find? (fun a => a.id = acc) with
    | none => s
    | some a => if a.ordered || a.ctrl.isSome || c.behind a then s else s.performAcc p a)

end Sys2Proof.Machine
end

