-- ==== Sys2Proof/Machine/Atomic.lean ====
section
/-! DEFINITION. Atomics, near-data reductions and gathers on this chip, major opcode 0x82 (R224 to R229), and
ORDERED_ATOMIC_PERFORM (R105). -/

namespace Sys2Proof.Machine

open Sys2Proof

/-! ## What atomics share -/

/-- Whether an earlier ordered atomic of the wave that has reached translation is still held, at another path of it (R228, R476). -/
def Iss.ordBlocked (x : Iss) : Bool := x.o.hs && ((x.w.path? x.sl.other).toList ++ x.w.heap).any Path.ord

/-- An ordered atomic takes its place when it first reaches translation (R476); its path keeps it wherever it stands. -/
def Iss.takePlace (x : Iss) (s : State) : State :=
  if x.o.hs then s.modChip x.p (fun c => c.modWave x.wid (fun w => w.setPath x.sl ((w.path? x.sl).map (fun q => { q with ord := true })))) else s

/-- The value b of a lane, and the compare value that follows it (R226). -/
def Iss.atomVals (x : Iss) (k : Nat) : DWord × DWord :=
  if x.o.ty.width = 64 then (x.dword .b k, Machine.dword (x.word .b k 2) (x.word .b k 3))
  else (Machine.dword (x.word .b k 0) 0, Machine.dword (x.word .b k 1) 0)

/-- The accesses of one atomic or `red`, numbered in the order in which its lanes take place. -/
def Iss.atomAccs (x : Iss) (first : Nat) (ts : List (Nat × Target)) (prod : Option Nat) : List PendAcc :=
  let n := x.o.ty.width / 8
  let l := laneOrder x.tick (x.fg || x.o.hs) n ts
  (l.zip (List.range l.length)).map (fun e =>
    { id := first + e.2, seq := first, wid := x.wid, pathMask := x.q.mask, kind := .atomic (aopOf x.o) (x.atomVals e.1.1).2,
      ty := x.o.ty, tgt := e.1.2, size := n, data := (x.atomVals e.1.1).1, ordered := x.o.hs, lane := e.1.1, prod := prod,
      region := x.openRegion })

/-- Puts the accesses of an atomic on their way; in fixed gear they are performed here, at the turn, with the wave's buffered stores to
their bytes before them (R359, R364). -/
def Iss.sendAtom (x : Iss) (s : State) (ts : List (Nat × Target)) (prod : Option Nat) : State :=
  let accs := x.atomAccs (s.chip x.p).next ts prod
  let lines := ts.filterMap (fun e => e.2.line?)
  let s1 := s.modChip x.p (fun c => lines.foldl (fun c ln => c.l1Remove x.w.core ln) { c with next := c.next + accs.length })
  if x.fg then accs.foldl (fun s a => (s.flushRange x.p x.wid a.tgt a.size).performAcc x.p a) s1
  else s1.modChip x.p (fun c => { c with pend := c.pend ++ accs })

/-- A returning global atomic: its producer, and its place in the ordered sequence (R105, R227). -/
def Iss.startAtom (x : Iss) (s : State) (ts : List (Nat × Target)) : State :=
  let pr : Producer := { wid := x.wid, pathMask := x.q.mask, kind := .atomic, dests := x.destRefs x.o.ty.regs, res := [] }
  let r := (s.chip x.p).startProducer x.wid pr
  let s1 := s.setChip x.p r.1
  let s2 := if x.o.hs && !x.fg then
      s1.modChip x.p (fun c => c.modWave x.wid (fun w => { w with ordSeq := w.ordSeq ++ [r.2] })) else s1
  x.sendAtom s2 ts (some r.2)

/-- `atom` (R224, R227). -/
def execAtom (o : Ops) (s : State) : Host.Outcome State Fault Refusal :=
  issueSync (formAtom 2 o) o s (fun x s =>
    let accs := x.outLanes.map (fun k => (k, x.gaddr k))
    if accs.isEmpty then .done s
    else if x.c.throttled x.r x.sl then .wait s
    else match x.globalTrap accs (o.ty.width / 8) with
      | some t => .trap t
      | none =>
        if x.ordBlocked || !x.myTurn then .wait s
        else match x.translate s .atomic accs with
          | .error s1 => .wait (x.takePlace s1)
          | .ok ts =>
            if x.fgClear s (ts.map (fun e => (e.2, o.ty.width / 8))) then .done (x.apxStore (x.startAtom (x.touchTlb s .atomic accs) ts)) else .wait s)

/-- `atom.l` (R224): at the scratchpad bank, after the path's own accesses to those bytes; in the ordered sequence it comes last. -/
def execAtomL (o : Ops) (s : State) : Host.Outcome State Fault Refusal :=
  issueSync (formAtom 1 o) o s (fun x s =>
    let n := o.ty.width / 8
    match x.localTargets (x.outLanes.map (fun k => (k, x.laddr k))) n n with
    | .error t => .trap t
    | .ok ts =>
      if ts.isEmpty then .done s
      else if x.ordBlocked || x.arrayHolds true ts n || o.hs && !x.w.ordSeq.isEmpty || !x.myTurn || !x.fgClear s (ts.map (fun e => (e.2, n))) ||
          x.c.pend.any (fun a => a.own x.wid x.q.mask && ts.any (fun e => a.tgt.overlaps a.size e.2 n)) then .wait s
      else
        let step := fun (acc : State × List (Nat × Option DWord)) (e : Nat × Target) =>
          let r := (acc.1.flushRange x.p x.wid e.2 n).homeAtomic x.p x.wid e.2 o.ty (aopOf o) (x.atomVals e.1).1 (x.atomVals e.1).2
          (r.1, acc.2 ++ [(e.1, r.2)])
        let r := (laneOrder x.tick (x.fg || o.hs) n ts).foldl step (s.forceOff x.p x.openRegion, [])
        let old := fun k => ((r.2.find? (fun e => e.1 = k)).bind (·.2)).getD 0
        let bad := (r.2.filter (fun e => e.2.isNone)).map (·.1)
        .done (x.apxStore (r.1.modChip x.p (fun c => c.modWave x.wid (fun w =>
          x.markBad o.ty.regs bad (x.put o.ty.regs (fun k j => if j = 0 then lo32 (old k) else hi32 (old k)) w))))))

/-- `red` (R83, R224): no value returns. -/
def execRed (o : Ops) (s : State) : Host.Outcome State Fault Refusal :=
  issueSync (formRed o) o s (fun x s =>
    let accs := x.outLanes.map (fun k => (k, x.gaddr k))
    if accs.isEmpty then .done s
    else if x.c.throttled x.r x.sl then .wait s
    else match x.globalTrap accs (o.ty.width / 8) with
      | some t => .trap t
      | none =>
        if !x.myTurn then .wait s
        else match x.translate s .atomic accs with
          | .error s1 => .wait s1
          | .ok ts =>
            if x.fgClear s (ts.map (fun e => (e.2, o.ty.width / 8))) then .done (x.apxStore (x.sendAtom (x.touchTlb s .atomic accs) ts none)) else .wait s)

/-! ## `gath` -/

/-- The word addresses of a lane of `gath` (R229). -/
def Iss.gathAddrs (x : Iss) (k : Nat) : List Nat :=
  (List.range (gathN x.o)).map (fun j => x.gaddr k + 4 * fld (x.dword .b k).toNat (8 * j) 8)

/-- `gath` (R229): each word is one bypassing load at the home slice. -/
def execGath (o : Ops) (s : State) : Host.Outcome State Fault Refusal :=
  issue (formGath o) o s (fun x s =>
    let n := gathN o
    let lanes := x.outLanes
    if lanes.isEmpty then .done s
    else if x.c.throttled x.r x.sl then .wait s
    else
      let words := lanes.flatMap (fun k => (x.gathAddrs k).map (fun a => (k, a)))
      let off := badLanes (lanes.map (fun k => (k, x.gaddr k)) ++ words) x.c.offChip
      let mis := badLanes (lanes.map (fun k => (k, x.gaddr k))) (fun a => a % 4 ≠ 0)
      if off ≠ 0 then .trap { cause := 0x10, e0 := off }
      else if mis ≠ 0 then .trap { cause := 0x12, e0 := mis }
      else match x.translate s .load words with
        | .error s1 => .wait s1
        | .ok ts =>
          let reads := lanes.map (fun k =>
            let mine := (ts.filter (fun e => e.1 = k)).map (·.2)
            let parts := (List.range mine.length).zip mine
            ({ lane := k, tgts := parts.map (fun e => (4 * e.1, e.2)), got := List.replicate (4 * n) 0,
               fwd := parts.flatMap (fun e => (x.w.bufBytes e.2 4).map (fun b => (4 * e.1 + b.1, b.2))) }
             : LaneLoad))
          let pr : Producer := { wid := x.wid, pathMask := x.q.mask, kind := .load .b32 4 false reads, dests := x.destRefs n, res := [] }
          let lines := (ts.filterMap (fun e => e.2.line?)).dedup
          .done ((x.touchTlb s .load words).modChip x.p (fun c => ((lines.foldl (fun c ln => c.l1Remove x.w.core ln) c).startProducer x.wid pr).1)))

/-! ## Ordered atomics (R105) -/

/-- Whether an access may be performed as far as the ordered sequence goes: it is not marked, or its instruction is the first of the sequence
and no lower lane of it is left (R105). -/
def Chip.ordDue (c : Chip) (a : PendAcc) : Bool :=
  !a.ordered ||
  ((tfind c.waves a.wid).map (fun w => w.ordSeq.head?)).getD none == a.prod &&
  !c.pend.any (fun b => b.prod == a.prod && b.lane < a.lane)

/-- After an access of an ordered atomic is performed, its instruction leaves the sequence with its last lane. -/
def Chip.ordPop (c : Chip) (a : PendAcc) : Chip :=
  if a.ordered && !c.pend.any (fun b => b.prod == a.prod) then
    c.modWave a.wid (fun w => { w with ordSeq := w.ordSeq.filter (fun i => some i ≠ a.prod) })
  else c

/-- ORDERED_ATOMIC_PERFORM (R105). -/
def execOrderedAtomicPerform (p acc : Nat) (s : State) : Host.Outcome State Fault Refusal :=
  let c := s.chip p
  .next (match c.pend.find? (fun a => a.id = acc) with
    | none => s
    | some a =>
      if !a.ordered || a.ctrl.isSome || c.behind a || !c.ordDue a then s
      else (s.performAcc p a).modChip p (fun c => c.ordPop a))

end Sys2Proof.Machine
end

