-- ==== Sys2Proof/Machine/Sync.lean ====
section
/-! DEFINITION. Fences, barriers and phase-bit barrier objects, major opcode 0x83 (R230 to R234), and the waits that park a wave in
fixed gear (R361). -/

namespace Sys2Proof.Machine

open Sys2Proof

/-! ## Waiting paths -/

/-- The path waits in `wt`; it has issued, so it is no longer fresh (R28). -/
def Iss.hold (x : Iss) (s : State) (wt : Wait) : State :=
  s.modChip x.p (fun c => c.modWave x.wid (fun w => w.setPath x.sl (some { x.q with wait := wt, fresh := false, ord := false })))

/-- The path waits in the operation and polls (R29). -/
def Iss.polled (x : Iss) (s : State) : State := x.hold s (.polling (x.half = .second))

/-- A waiting path is released: its acquire, what it writes and going on are left to it (R231, R280, R361). -/
def Chip.freePath (c : Chip) (wid : Nat) (sl : Slot) (half : Half) (scope : Nat) (val : FreedVal) : Chip :=
  c.modWave wid (fun w => w.setPath sl ((w.path? sl).map (fun q => { q with wait := .freed half scope val })))

/-- The clock of a parked wave that a release at clock `t` frees (R361). -/
def Wave.freeClock (w : Wave) (t : DWord) : Wave := { w with clock := (if w.clock.toNat < t.toNat then t else w.clock) + 1 }

/-- The paths in the slots of a package's waves. -/
def Chip.slotPaths (c : Chip) : List (Nat × Slot × Path) :=
  c.waves.flatMap (fun e => (e.2.slotA.toList.map (fun q => (e.1, Slot.A, q))) ++ (e.2.slotB.toList.map (fun q => (e.1, Slot.B, q))))

/-! ## `fence`, `acq`, `rel` (R96, R230) -/

/-- The buffered stores of a wave are performed by its release in fixed gear (R366). -/
def Iss.drain (x : Iss) (s : State) : State := if x.fg then s.flushBuf x.p x.wid else s

/-- Whether a release at a scope may complete. -/
def Iss.released (x : Iss) (s : State) (scope : Nat) : Bool := (s.chip x.p).relReady x.wid x.q.mask scope

/-- Whether an acquire may complete. -/
def Iss.acquired (x : Iss) (s : State) : Bool := (s.chip x.p).acqReady x.wid x.q.mask

/-- The invalidation of an acquire. -/
def Iss.acquire (x : Iss) (s : State) (scope : Nat) : State := s.modChip x.p (fun c => c.acquire x.w.core scope)

/-- `rel.S` (R96). -/
def execRel (o : Ops) (s : State) : Host.Outcome State Fault Refusal :=
  issue (formFence o) o s (once (fun x s =>
    let s1 := x.drain s
    if x.released s1 o.scope then .done (x.publish s1 o.scope) else .wait (x.polled s1)))

/-- `acq.S` (R96). -/
def execAcq (o : Ops) (s : State) : Host.Outcome State Fault Refusal :=
  issue (formFence o) o s (once (fun x s => if x.acquired s then .done (x.acquire s o.scope) else .wait (x.polled s)))

/-- `fence.S` (R96): a release followed by an acquire. -/
def execFence (o : Ops) (s : State) : Host.Outcome State Fault Refusal :=
  issue (formFence o) o s (once (fun x s =>
    let s1 := x.drain s
    if x.released s1 o.scope && x.acquired s1 then .done (x.acquire (x.publish s1 o.scope) o.scope) else .wait (x.polled s1)))

/-! ## `bar` (R231, R363) -/

/-- Whether a path waits at a `bar` with number `id`. -/
def Path.atBar (q : Path) (id : Nat) : Bool :=
  match q.wait with
  | .bar _ i _ _ _ => i == id
  | _ => false

/-- Whether a wave arrives with the path in slot `sl`: it has no other, or each other waits at a `bar` with that number. -/
def Wave.barWhole (w : Wave) (sl : Slot) (id : Nat) : Bool := w.heap.isEmpty && (w.path? sl.other).all (fun q => q.atBar id)

/-- The last arriver among waves: the one whose arrival completed the phase, in fixed gear the greatest identifier. -/
def Chip.lastArriver (c : Chip) (fg : Bool) (wid : Nat) (arrived : List Nat) : Nat :=
  if fg then
    let no := fun k => ((tfind c.waves k).map Wave.wno).getD 0
    arrived.foldl (fun m k => if no m < no k then k else m) wid
  else wid

/-- What a path that waits at a `bar` writes when the phase completes: its destination predicate. -/
def barVal (pd : Option (BitVec 3)) (v : Bool) : FreedVal :=
  match pd with
  | some n => .pred n v
  | none => .none

/-- A phase completes: the waiting paths of the arrived waves are released, the arrived waves of fixed gear with a new clock. -/
def Chip.barComplete (c : Chip) (fg : Bool) (t : DWord) (wid id : Nat) (arrived : List Nat) : Chip :=
  let last := c.lastArriver fg wid arrived
  let c1 := if fg then arrived.foldl (fun c k => if k = wid then c else c.modWave k (fun w => w.freeClock t)) c else c
  c1.slotPaths.foldl (fun c e =>
    match e.2.2.wait with
    | .bar half i _ scope pd =>
      if i = id && arrived.contains e.1 then c.freePath e.1 e.2.1 half scope (barVal pd (e.1 = last)) else c
    | _ => c) c1

/-- The turn of the wave's slot is over: its operation is performed (R359). -/
def Iss.turnDone (x : Iss) (s : State) : State := s.modChip x.p (fun c => c.modWave x.wid (fun w => w.endTurn x.sl))

/-- The arrival of the wave at barrier `id` with count `cnt` (R231). A path whose wave has not yet arrived as a whole waits (R363). -/
def Iss.barArrive (x : Iss) (s : State) (id cnt scope : Nat) (pd : Option (BitVec 3)) (again : Bool) : Eff :=
  let wt : Wait := .bar x.half id cnt scope pd
  match tfind (s.chip x.p).blocks x.w.blk with
  | none => .wait (x.turnDone (x.hold s wt))
  | some b =>
    let bar := tget Bar.zero b.bars id
    let arrived := bar.arrived ++ [x.wid]
    let count := if bar.fixed then bar.count else cnt
    let put := fun (s : State) (v : Bar) => s.modChip x.p (fun c => c.setBlock x.w.blk { b with bars := tset b.bars id v })
    if bar.arrived.contains x.wid then .wait (x.turnDone (x.hold s wt))
    else if !x.w.barWhole x.sl id then
      if again then .wait s else .wait (x.turnDone (x.hold s wt))
    else if !x.myTurn then .wait s
    else if arrived.length < count then
      .wait (x.turnDone (x.hold (put s { arrived := arrived, count := count, fixed := true, phase := bar.phase }) wt))
    else
      let s1 := put s { arrived := [], count := 0, fixed := false, phase := !bar.phase }
      let s2 := s1.modChip x.p (fun c => c.barComplete x.fg x.time x.wid id arrived)
      if again then .wait (x.turnDone s2)
      else
        let last := (s1.chip x.p).lastArriver x.fg x.wid arrived
        let val := barVal pd (x.wid = last)
        if (s2.chip x.p).acqReady x.wid x.q.mask then
          .done (x.acquire (s2.modChip x.p (fun c => c.modWave x.wid (val.write x.q))) scope)
        else .wait (x.turnDone (x.hold s2 (.freed x.half scope val)))

/-- `bar.S` (R231). In fixed gear it is performed at its turn, its release as much as its arrival (R359, R360). -/
def execBar (o : Ops) (s : State) : Host.Outcome State Fault Refusal :=
  issueSync (formBar o) o s (once (fun x s =>
    let id := fld o.mmod 5 2
    let cnt := o.mmod % 32 + 1
    let pd := match o.d with
      | .pred n => some n
      | _ => none
    match x.q.wait with
    | .bar _ _ _ _ _ => x.barArrive s id cnt o.scope pd true
    | _ =>
      if !x.myTurn then .wait s
      else
        let s1 := x.drain s
        if x.released s1 o.scope then x.barArrive (x.publish s1 o.scope) id cnt o.scope pd false else .wait (x.polled s1)))

/-! ## Phase-bit barrier objects (R232) -/

/-- An arrival on the 64 bits of a barrier object. -/
def pbarNext (v : Nat) : Nat :=
  let pend := (fld v 0 16 + 65535) % 65536
  if pend ≠ 0 then v - fld v 0 16 + pend
  else (if nbit v 63 then v - 2 ^ 63 else v + 2 ^ 63) - fld v 0 16 + fld v 32 16

/-- An arrival on a barrier object: one atomic at the scratchpad bank. In fixed gear it frees the paths parked on the object whose q the new phase
differs from, and sets the clock of each of their waves once; `t` is the clock of the arrival (R232, R361). DEDUCED: one on a damaged object changes nothing;
the paths that wait on it trap (R13, R498). -/
def State.pbarArrive (s : State) (p : Nat) (tg : Target) (t : DWord) : State :=
  match s.readTgt p tg 8 with
  | none => s.sense p tg 8 ((s.chip p).poisonStatus 0)
  | some bs =>
  let old := ofLe bs
  let new := pbarNext old
  let s1 := (s.writeTgt p tg (leBytes 8 new)).1
  if nbit old 63 = nbit new 63 then s1
  else s1.modChip p (fun c =>
    let hit := c.slotPaths.filter (fun e => match e.2.2.wait with
      | .pbar _ obj q _ => obj = tg && nbit new 63 ≠ q
      | _ => false)
    let c1 := ((hit.map (·.1)).dedup).foldl (fun c i => c.modWave i (fun w => w.freeClock t)) c
    hit.foldl (fun c e => match e.2.2.wait with
      | .pbar half _ _ scope => c.freePath e.1 e.2.1 half scope .none
      | _ => c) c1)

/-- The address of a barrier object or word of local memory: the local-range or alignment trap, the trap of a damaged word, or the target (R217,
R496). -/
def Iss.object (x : Iss) (n : Nat) : Except TrapInfo Target :=
  match x.localTargets [(x.low, x.laddr x.low)] n n with
  | .error t => .error t
  | .ok ts =>
    let tg := (ts.map (·.2)).headD (.loc x.w.blk false 0)
    if x.c.badAt tg n then .error (x.badWord tg n) else .ok tg

/-- The bytes of a local object as the path sees them: its own stores on their way laid over the bank's (R98). -/
def Iss.objectBytes (x : Iss) (s : State) (tg : Target) (n : Nat) : List Byte :=
  layOver ((s.readTgt x.p tg n).getD []) ((s.chip x.p).ownBytes (((tfind (s.chip x.p).waves x.wid)).getD x.w) x.wid x.q.mask tg n)

/-- `pbar.init` (R232): a write of the path. -/
def execPbarInit (o : Ops) (s : State) : Host.Outcome State Fault Refusal :=
  issue (formPbar 0 o) o s (once (fun x s =>
    match x.object 8 with
    | .error t => .trap t
    | .ok tg =>
      if x.arrayHolds true [(0, tg)] 8 || !x.fgClear s [(tg, 8)] then .wait s else
      let v := BitVec.ofNat 64 (fld (x.word .b x.low 0).toNat 0 16 * (2 ^ 32 + 1))
      if x.fg then .done ((s.flushRange x.p x.wid tg 8).homeStore x.p x.wid tg .b64 8 v)
      else .done (s.modChip x.p (fun c =>
        let a : PendAcc := { id := c.next, seq := c.next, wid := x.wid, pathMask := x.q.mask, kind := .store, ty := .b64, tgt := tg,
                             size := 8, data := v, ordered := false, lane := x.low, prod := none }
        { c with next := c.next + 1, pend := c.pend ++ [a] }))))

/-- `pbar.arr.S` (R232). -/
def execPbarArr (o : Ops) (s : State) : Host.Outcome State Fault Refusal :=
  issueSync (formPbar 1 o) o s (once (fun x s =>
    match x.object 8 with
    | .error t => .trap t
    | .ok tg =>
      if !x.myTurn || x.arrayHolds true [(0, tg)] 8 || !x.fgClear s [(tg, 8)] then .wait s
      else
        let s1 := x.drain s
        if x.released s1 o.scope then .done ((x.publish s1 o.scope).pbarArrive x.p tg x.time) else .wait s1))

/-- q of `pbar.wait` and `pbar.test`. -/
def pbarQ (o : Ops) : Bool := nbit o.mmod 2

/-- `pbar.wait.S` (R232); in fixed gear a test at its turn that fails parks the path (R361). -/
def execPbarWait (o : Ops) (s : State) : Host.Outcome State Fault Refusal :=
  issueSync (formPbar 2 o) o s (once (fun x s =>
    match x.q.wait with
    | .pbar _ obj _ _ => if x.c.badAt obj 8 then .trap (x.badWord obj 8) else .wait s
    | _ =>
      match x.object 8 with
      | .error t => .trap t
      | .ok tg =>
        if !x.myTurn || x.arrayHolds false [(0, tg)] 8 || !x.fgClear s [(tg, 8)] then .wait s
        else
          let s1 := if x.fg then s.flushRange x.p x.wid tg 8 else s
          if nbit (ofLe (x.objectBytes s1 tg 8)) 63 ≠ pbarQ o then
            if x.acquired s1 then .done (x.acquire s1 o.scope) else .wait (x.turnDone (x.hold s1 (.freed x.half o.scope .none)))
          else if x.fg then .wait (x.turnDone (x.hold s1 (.pbar x.half tg (pbarQ o) o.scope)))
          else .wait (x.polled s1)))

/-- `pbar.test.S` (R232). -/
def execPbarTest (o : Ops) (s : State) : Host.Outcome State Fault Refusal :=
  issueSync (formPbar 3 o) o s (once (fun x s =>
    match x.object 8 with
    | .error t => .trap t
    | .ok tg =>
      if !x.myTurn || x.arrayHolds false [(0, tg)] 8 || !x.fgClear s [(tg, 8)] then .wait s
      else
        let s1 := if x.fg then s.flushRange x.p x.wid tg 8 else s
        let hit := nbit (ofLe (x.objectBytes s1 tg 8)) 63 ≠ pbarQ o
        if hit && !x.acquired s1 then .wait s1
        else
          let s2 := s1.modChip x.p (fun c => c.modWave x.wid (fun w => x.putPred (fun _ => hit) w))
          .done (if hit then x.acquire s2 o.scope else s2)))

end Sys2Proof.Machine
end

