-- ==== Sys2Proof/Machine/Window.lean ====
section
/-! DEFINITION. Windows and tile words as waves use them, major opcode 0x85 (R243 to R246), over the layout of R316, and the
residency table, major opcode 0x86 variant 0 (R86, R87, R247). -/

namespace Sys2Proof.Machine

open Sys2Proof

/-! ## Window handles (R243, R316) -/

/-- The slot count of a handle, NSLOT + 1. -/
def winSlots (h : Nat) : Nat := fld h 32 6 + 1
/-- The slot size of a handle in bytes. -/
def winSize (h : Nat) : Nat := 128 * (fld h 38 9 + 1)
/-- H of R316: the bytes of header word and state words. -/
def winHead (h : Nat) : Nat := 128 * ((16 + 8 * winSlots h + 127) / 128)
/-- The bytes of a window. -/
def winBytes (h : Nat) : Nat := winHead h + winSlots h * winSize h
/-- Whether the fields of a handle are those of a window: no reserved bit, NSLOT not 0. -/
def winOk (h : Nat) : Bool := fld h 47 17 == 0 && fld h 32 6 ≠ 0

/-- The state word of slot `j`, and the first byte of its data, from the start of the window. -/
def winStateAt (j : Nat) : Nat := 16 + 8 * j
/-- See `winStateAt`. -/
def winDataAt (h j : Nat) : Nat := winHead h + j * winSize h

/-- The window that a handle operand names; none where R244 raises a local-range trap. -/
def Iss.window (x : Iss) : Option Target :=
  let h := (x.dword .a x.low).toNat
  if !winOk h then none else x.c.localAt x.w.blk (fld h 0 32) (winBytes h)

/-- The local-range trap of an operation that acts once. -/
def Iss.rangeLow (x : Iss) : TrapInfo := { cause := 0x11, e0 := maskOf (· == x.low) }

/-- The window and slot that `wwait` and `wfree` name. -/
def Iss.winSlot (x : Iss) : Except TrapInfo (Target × Nat) :=
  let j := fld (x.word .b x.low 0).toNat 0 6
  match x.window with
  | none => .error x.rangeLow
  | some t =>
    if winSlots (x.dword .a x.low).toNat ≤ j then .error x.rangeLow
    else if x.c.badAt (t.shift (winStateAt j)) 8 then .error (x.badWord (t.shift (winStateAt j)) 8)
    else .ok (t, j)

/-- Writes 8 bytes of local memory indivisibly, as the operations on windows and tile words do. -/
def State.putLocal8 (s : State) (p : Nat) (tg : Target) (v : Nat) : State := (s.writeTgt p tg (leBytes 8 v)).1

/-- The 8 bytes of a local word as the path sees them. -/
def Iss.localWord (x : Iss) (s : State) (tg : Target) : Nat := ofLe (x.objectBytes s tg 8)

/-- Whether every earlier local store of the wave is acknowledged, and every local read and write of its earlier array commands performed
(R244, R246, R254). -/
def Chip.localDone (c : Chip) (wid : Nat) : Bool :=
  (c.arrayCmds wid).all (fun k => k.reads.isEmpty && k.writes.isEmpty) && !c.pend.any (fun a => a.wid == wid && (match a.tgt with
    | .loc _ _ _ => true
    | _ => false))

/-- OWNER = 1 and PHASE = q of a state word. -/
def slotReady (st : Nat) (q : Bool) : Bool := nbit st 0 && nbit st 1 == q

/-- The engine-error trap of a slot or tile (R282). -/
def engineError (status what : Nat) : TrapInfo := { cause := 0x19, e1 := BitVec.ofNat 32 status, e2 := BitVec.ofNat 32 what }

/-- q of the slot word of b. -/
def Iss.slotQ (x : Iss) : Bool := nbit (x.word .b x.low 0).toNat 8

/-- `wwait h, b` (R244). -/
def execWwait (o : Ops) (s : State) : Host.Outcome State Fault Refusal :=
  issue (formWin false o) o s (once (fun x s =>
    match x.winSlot with
    | .error t => .trap t
    | .ok (t, j) =>
      let st := x.localWord s (t.shift (winStateAt j))
      if x.arrayHolds false [(0, t.shift (winStateAt j))] 8 || !slotReady st x.slotQ then .wait (x.polled s)
      else if nbit st 2 then .trap (engineError (fld st 32 32) j)
      else .done s))

/-- `wwait pd, h, b` (R244). DESIGN CHOICE: it writes pd in the guard-true active lanes, where R231 has a test write every active lane, R232 every guard-true one,
and R244 says nothing. -/
def execWwaitTest (o : Ops) (s : State) : Host.Outcome State Fault Refusal :=
  issue (formWin true o) o s (once (fun x s =>
    match x.winSlot with
    | .error t => .trap t
    | .ok (t, j) =>
      let st := x.localWord s (t.shift (winStateAt j))
      if x.arrayHolds false [(0, t.shift (winStateAt j))] 8 then .wait s else
      let hit := slotReady st x.slotQ
      if hit && nbit st 2 then .trap (engineError (fld st 32 32) j)
      else .done (s.modChip x.p (fun c => c.modWave x.wid (x.putPred (fun _ => hit))))))

/-- `wfree h, b` (R244, R366). -/
def execWfree (o : Ops) (s : State) : Host.Outcome State Fault Refusal :=
  issue (formWin false o) o s (once (fun x s =>
    match x.winSlot with
    | .error t => .trap t
    | .ok (t, j) =>
      let h := (x.dword .a x.low).toNat
      let s1 := if x.fg then s.flushRange x.p x.wid (t.shift (winDataAt h j)) (winSize h) else s
      if !(s1.chip x.p).localDone x.wid then .wait (x.polled s1)
      else
        let st := x.localWord s1 (t.shift (winStateAt j))
        .done (if nbit st 0 then s1.putLocal8 x.p (t.shift (winStateAt j)) (st - 1) else s1)))

/-- `wpost h, b` (R244): one indivisible step against deliveries. -/
def execWpost (o : Ops) (s : State) : Host.Outcome State Fault Refusal :=
  issue (formWin false o) o s (once (fun x s =>
    match x.window with
    | none => .trap x.rangeLow
    | some t =>
      let s1 := if x.fg then s.flushRange x.p x.wid t 8 else s
      if x.c.badAt t 8 then .trap (x.badWord t 8) else
      if x.arrayHolds true [(0, t)] 8 || (s1.chip x.p).pend.any (fun a => a.own x.wid x.q.mask && a.tgt.overlaps a.size t 8) then .wait s
      else
        let hd := x.localWord s1 t
        let k := (x.word .b x.low 0).toNat
        if 65535 - fld hd 0 16 < k then .trap { cause := 0x18, e1 := BitVec.ofNat 32 (fld hd 0 16), e2 := BitVec.ofNat 32 k }
        else .done (s1.putLocal8 x.p t (hd + k))))

/-! ## Tile words (R245, R246) -/

/-- The tile word that `obit` names. -/
def Iss.tileWord (x : Iss) : Except TrapInfo Target :=
  match x.localTargets [(x.low, (x.word .a x.low 0).toNat)] 8 8 with
  | .error t => .error t
  | .ok ts =>
    let tg := (ts.map (·.2)).headD (.loc x.w.blk false 0)
    if x.c.badAt tg 8 then .error (x.badWord tg 8) else .ok tg

/-- `obit.give` (R246, R366). -/
def execObitGive (o : Ops) (s : State) : Host.Outcome State Fault Refusal :=
  issue (formObit 0 o) o s (once (fun x s =>
    match x.tileWord with
    | .error t => .trap t
    | .ok t =>
      let s1 := x.drain s
      if !(s1.chip x.p).localDone x.wid then .wait (x.polled s1)
      else
        let v := x.localWord s1 t
        .done (if nbit v 0 then s1 else s1.putLocal8 x.p t (v + 1 - b2n (nbit v 1) * 2))))

/-- `obit.wait` (R246). -/
def execObitWait (o : Ops) (s : State) : Host.Outcome State Fault Refusal :=
  issue (formObit 1 o) o s (once (fun x s =>
    match x.tileWord with
    | .error t => .trap t
    | .ok t =>
      let v := x.localWord s t
      if x.arrayHolds false [(0, t)] 8 || nbit v 0 then .wait (x.polled s)
      else if nbit v 1 then .trap (engineError (fld v 32 32) (x.word .a x.low 0).toNat)
      else .done s))

/-- `obit.test` (R246). DESIGN CHOICE: it writes pd in the guard-true active lanes; R246 does not say in which. -/
def execObitTest (o : Ops) (s : State) : Host.Outcome State Fault Refusal :=
  issue (formObit 2 o) o s (once (fun x s =>
    match x.tileWord with
    | .error t => .trap t
    | .ok t =>
      let v := x.localWord s t
      if x.arrayHolds false [(0, t)] 8 then .wait s
      else if !nbit v 0 && nbit v 1 then .trap (engineError (fld v 32 32) (x.word .a x.low 0).toNat)
      else .done (s.modChip x.p (fun c => c.modWave x.wid (x.putPred (fun _ => !nbit v 0))))))

/-! ## The residency table (R86, R87, R247) -/

/-- Entry `n`. -/
def Chip.resAt (c : Chip) (n : Nat) : ResEntry := tget ResEntry.free c.res n
/-- Replaces entry `n`. -/
def Chip.setRes (c : Chip) (n : Nat) (e : ResEntry) : Chip := { c with res := tset c.res n e }

/-- Pinned lines of one slice at most: 768 KiB (R87). -/
def pinLimit : Nat := 6144

/-- The lines of a tensor whose home is slice `v`; a page that does not translate has none. -/
def Chip.sliceLines (c : Chip) (e : ResEntry) (v : Nat) : Nat :=
  let lo := e.base.toNat % 2 ^ 48
  let hi := lo + 128 * e.lines
  (List.range ((hi - 1) / 4096 + 1 - lo / 4096)).foldl (fun n i =>
    let pg := (lo / 4096 + i) * 4096
    match c.xlate e.asid pg .unitRead with
    | .ok (.dram pa) => if pa / 4096 % 128 = v then n + (Nat.min hi (pg + 4096) - Nat.max lo pg) / 128 else n
    | _ => n) 0

/-- Whether tensors may be pinned together. -/
def Chip.pinsFit (c : Chip) (l : List ResEntry) : Bool :=
  (List.range 128).all (fun v => (l.map (fun e => c.sliceLines e v)).foldl (· + ·) 0 ≤ pinLimit)

/-- The pinned tensors that a pin of priority `p` may demote, in the order of R87. -/
def Chip.pinVictims (c : Chip) (n p : Nat) : List Nat :=
  (List.range 8).flatMap (fun q => if q < p then
    (c.res.filter (fun e => e.1 ≠ n && e.2.state = .pinned && e.2.prio = q)).map (·.1) else [])

/-- Demotes victims until the pin of entry `n` fits (R87). -/
def Chip.pinLoop (c : Chip) (n : Nat) : List Nat → Chip
  | [] => c
  | v :: r =>
    if c.pinsFit ((c.res.filter (fun e => e.1 ≠ n && e.2.state = .pinned)).map (·.2) ++ [c.resAt n]) then c
    else (c.setRes v { c.resAt v with state := .demoted }).pinLoop n r

/-- A pin (R87): pinned, or demoted and refused. -/
def Chip.pin (c : Chip) (n : Nat) : Chip × Bool :=
  let c1 := c.pinLoop n (c.pinVictims n (c.resAt n).prio)
  let ok := c1.pinsFit ((c1.res.filter (fun e => e.1 ≠ n && e.2.state = .pinned)).map (·.2) ++ [c1.resAt n])
  (c1.setRes n { c1.resAt n with state := if ok then .pinned else .demoted }, ok)

/-- REJECT from the wave's own unit (R247). -/
def Iss.reject (x : Iss) (detail : Nat) : Word := statusWord codeReject 0 x.c.chipId detail

/-- The entry that a handle names: its GEN stands, and the entry is not FREE. DESIGN CHOICE: an operation on a FREE entry whose GEN matches is
rejected as one on a stale handle is; the spec speaks of the GEN alone. -/
def Iss.resIndex (x : Iss) : Option Nat :=
  let h := (x.dword .a x.low).toNat
  let e := x.c.resAt (fld h 0 10)
  if e.gen.toNat = fld h 32 32 && e.state ≠ .free then some (fld h 0 10) else none

/-- A `res` operation on a handle: status 0 and its effect, or REJECT with DETAIL 1. -/
def Iss.onEntry (x : Iss) (s : State) (f : Chip → Nat → Chip × Word) : Eff :=
  match x.resIndex with
  | none => .done (s.modChip x.p (fun c => c.modWave x.wid (x.put 1 (fun _ _ => x.reject 1))))
  | some n =>
    let r := f (s.chip x.p) n
    .done ((s.setChip x.p r.1).modChip x.p (fun c => c.modWave x.wid (x.put 1 (fun _ _ => r.2))))

/-- `res.alloc` (R247): the lowest free entry. -/
def execResAlloc (o : Ops) (s : State) : Host.Outcome State Fault Refusal :=
  issue (formRes 0 o) o s (once (fun x s =>
    let base := x.dword .b x.low
    let put := fun (c : Chip) (st : Word) (h : DWord) => c.modWave x.wid (x.put 4 (fun _ j =>
      if j = 0 then st else if j = 2 then lo32 h else if j = 3 then hi32 h else 0))
    if base.toNat % 128 ≠ 0 then .trap { cause := 0x12, e0 := maskOf (· == x.low) }
    else match (List.range 1024).find? (fun n => (x.c.resAt n).state = .free) with
      | none => .done (s.modChip x.p (fun c => put c (x.reject 3) 0))
      | some n =>
        let lines := (x.word .b x.low 2).toNat
        let e := x.c.resAt n
        .done (s.modChip x.p (fun c => put (c.setRes n { e with
          base := base, lines := if lines = 0 then 2 ^ 32 else lines, prio := fld (x.word .b x.low 3).toNat 0 3, state := .demoted,
          asid := x.c.asidOf x.w.grow }) 0 (BitVec.ofNat 64 (e.gen.toNat * 2 ^ 32 + n))))))

/-- `res.pin` (R87). -/
def execResPin (o : Ops) (s : State) : Host.Outcome State Fault Refusal :=
  issue (formRes 1 o) o s (once (fun x s => x.onEntry s (fun c n =>
    let r := c.pin n
    (r.1, if r.2 then 0 else x.reject 2))))

/-- `res.demote` (R247). -/
def execResDemote (o : Ops) (s : State) : Host.Outcome State Fault Refusal :=
  issue (formRes 2 o) o s (once (fun x s => x.onEntry s (fun c n => (c.setRes n { c.resAt n with state := .demoted }, 0))))

/-- `res.evict` (R87). -/
def execResEvict (o : Ops) (s : State) : Host.Outcome State Fault Refusal :=
  issue (formRes 3 o) o s (once (fun x s => x.onEntry s (fun c n => (c.setRes n { c.resAt n with state := .demoted }, 0))))

/-- `res.free` (R86). -/
def execResFree (o : Ops) (s : State) : Host.Outcome State Fault Refusal :=
  issue (formRes 4 o) o s (once (fun x s => x.onEntry s (fun c n =>
    (c.setRes n { c.resAt n with state := .free, gen := (c.resAt n).gen + 1 }, 0))))

/-- `res.prio` (R247). -/
def execResPrio (o : Ops) (s : State) : Host.Outcome State Fault Refusal :=
  issue (formRes 5 o) o s (once (fun x s => x.onEntry s (fun c n =>
    (c.setRes n { c.resAt n with prio := fld (x.word .b x.low 0).toNat 0 3 }, 0))))

end Sys2Proof.Machine
end

