-- ==== Sys2Proof/Machine/Matrix.lean ====
section
/-! DEFINITION. The issue of matrix instructions, major opcodes 0x87 and 0x88 (R253 to R274): the checks of R259, the records read at
issue, the array queue. -/

namespace Sys2Proof.Machine

open Sys2Proof

/-! ## Geometry (R250, R251) -/

/-- Columns of a tile of format EFMT. -/
def tileCols (efmt : Nat) : Nat := if efmt ≤ 2 then 1024 else if efmt = 6 then 256 else 512
/-- Bytes of a row of A. -/
def rowBytes (efmt : Nat) : Nat := if efmt ≤ 2 then 64 else if efmt = 6 then 256 else 128

/-- A bank of a core. -/
def Core.bank (k : Core) (b : Nat) : Bank := tget Bank.empty k.banks b
/-- Replaces a bank. -/
def Core.setBank (k : Core) (b : Nat) (v : Bank) : Core := { k with banks := tset k.banks b v }

/-! ## Format blocks (R260) -/

/-- EFMT, BL, SF and SCP of a descriptor. -/
def descFmt (d : Nat) : Nat := fld d 0 4
/-- The block length of a descriptor. -/
def descLen (d : Nat) : Nat := if nbit d 7 then 8 else 32
/-- SF: UE3M5 scales. -/
def descSf (d : Nat) : Bool := nbit d 8
/-- SCP: block scales are present. -/
def descScp (d : Nat) : Bool := nbit d 9
/-- Bytes of one scale. -/
def scaleBytes (d : Nat) : Nat := if descSf d then 1 else 2

/-- Whether a descriptor and its scale address break R260 or R261. -/
def descBad (d addr : Nat) (isA : Bool) : Bool :=
  fld d 10 6 ≠ 0 || fld d 4 3 ≠ 0 || 7 ≤ descFmt d || isA && descFmt d = 2 ||
  (if descScp d then addr % scaleBytes d ≠ 0 else descSf d || nbit d 7 || addr ≠ 0)

/-- ADESC, BDESC, SA, SB and BAND of a format block. -/
def fbA (fb : Nat) : Nat := fld fb 0 16
/-- See `fbA`. -/
def fbB (fb : Nat) : Nat := fld fb 16 16
/-- See `fbA`. -/
def fbSA (fb : Nat) : Nat := fld fb 32 32
/-- See `fbA`. -/
def fbSB (fb : Nat) : Nat := fld fb 64 32
/-- See `fbA`. -/
def fbBand (fb : Nat) : Nat := fld fb 96 32
/-- ACCM: INT32 accumulators. -/
def fbAccm (fb : Nat) : Bool := nbit fb 128
/-- BANDP: band scales are present. -/
def fbBandp (fb : Nat) : Bool := nbit fb 129

/-! ## Checks of R259 -/

/-- The accumulator-range trap of a check step. -/
def accTrap (step : Nat) : TrapInfo := { cause := 0x20, e1 := BitVec.ofNat 32 step }
/-- The matrix-format trap of a check step. -/
def fmtTrap (step : Nat) : TrapInfo := { cause := 0x21, e1 := BitVec.ofNat 32 step }

/-- The cores of a command: leader, follower, or both. -/
def ArrCmd.onFollower (k : ArrCmd) : List Bool := if k.op = .mmaT then [false, true] else [k.fol]

/-- The core of a block's array, or of its follower's. -/
def Block.arrayCore (b : Block) (fol : Bool) : Nat := b.core + b2n fol

/-- Retirement (R500), then steps 1 and 2 of R259. -/
def Iss.arrayGate (x : Iss) (both fol : Bool) : Except Eff Block :=
  match tfind x.c.blocks x.w.blk with
  | none => .error (.trap (accTrap 1))
  | some b =>
    if (x.c.core b.core).retired || b.tandem && (x.c.core (b.core + 1)).retired then .error (.trap { cause := 0x22, e1 := 1 })
    else if b.acc = 0 then .error (.trap (accTrap 1))
    else if (fol || both) && !b.tandem then .error (.trap (fmtTrap 2))
    else .ok b

/-- A local range of a command, checked whole (R76, R78): its target. -/
def Iss.localRange (x : Iss) (a n al : Nat) : Except TrapInfo Target :=
  match x.localTargets [(x.low, a)] n al with
  | .error t => .error t
  | .ok ts => .ok ((ts.map (·.2)).headD (.loc x.w.blk false 0))

/-- The targets of a list of ranges (role, address, bytes, alignment), in order. DESIGN CHOICE: of the traps of one step of R259 the first range's is
raised, and of a range the local-range trap before the alignment trap; the spec orders neither. -/
def Iss.localRanges (x : Iss) : List (Nat × Nat × Nat × Nat) → Except TrapInfo (List (Nat × Target × Nat))
  | [] => .ok []
  | (role, a, n, al) :: r =>
    match x.localRange a n al with
    | .error t => .error t
    | .ok t => match x.localRanges r with
      | .error e => .error e
      | .ok l => .ok ((role, t, n) :: l)

/-- Roles of ranges: the operand or output itself, the scales of A or B, the band scales, zero points, column scales, residual. -/
def roleMain : Nat := 0
/-- See `roleMain`. -/
def roleScale : Nat := 1
/-- See `roleMain`. -/
def roleBand : Nat := 2
/-- See `roleMain`. -/
def roleZp : Nat := 3
/-- See `roleMain`. -/
def roleCol : Nat := 4
/-- See `roleMain`. -/
def roleRes : Nat := 5

/-- A record of `n` bytes read at issue: the trap of step 3, or its target. -/
def Iss.recordAt (x : Iss) (ps : Pos) (n : Nat) : Except TrapInfo Target := x.localRange (x.word ps x.low 0).toNat n n

/-- The barrier object of a command, none where the field holds 0x300 (R255). -/
def Iss.arrayBo (x : Iss) (ps : Pos) : Except TrapInfo (Option Target) :=
  match opAt x.o ps with
  | .unif _ =>
    match x.localRange (x.word ps x.low 0).toNat 8 8 with
    | .error t => .error t
    | .ok t => .ok (some t)
  | _ => .ok none

/-- A command with no operands. -/
def Iss.arrBlank (x : Iss) (op : ArrOp) : ArrCmd :=
  { id := 0, op := op, wid := x.wid, blk := x.w.blk, mask := x.q.mask, fol := false, bank := 0, fb := 0, desc := 0, image := [], r0 := 0,
    n := 0, q := 1, st := 0, sum := false, ty := .b32, reads := [], writes := [], bo := none, clock := x.time, row := 0, flags := 0,
    done := false, region := x.openRegion }

/-- r0 and n of WORD. -/
def wordR0 (o : Ops) : Nat := fld o.modw 0 8
/-- See `wordR0`. -/
def wordN (o : Ops) : Nat := fld o.modw 8 8 + 1

/-- A command enters the queue of its block's core (R253). `view` notes on the banks what a later check at issue needs (R261). -/
def Iss.enqueue (x : Iss) (s : State) (b : Block) (k : ArrCmd) (view : Bank → Bank) : Eff :=
  let s1 := s.modChip x.p (fun c =>
    let c1 := { c with next := c.next + 1 }.setCore b.core { c.core b.core with aq := (c.core b.core).aq ++ [{ k with id := c.next }] }
    k.onFollower.foldl (fun c f =>
      let n := b.arrayCore f
      c.setCore n ((c.core n).setBank k.bank (view ((c.core n).bank k.bank)))) c1)
  .done (if k.writes.isEmpty then s1 else x.apxStore s1)

/-! ## Failures (R275, R276) -/

/-- Accumulator rows that a command names, from r0 on. -/
def ArrCmd.rowCount (k : ArrCmd) : Nat :=
  match k.op with
  | .mld | .mst | .mzero => k.n
  | .mma | .mmaT | .mdrain => k.n * k.q
  | _ => 0

/-- Replaces a row's cells, and its sum cell. -/
def Core.setRow (u : Core) (row : Nat) (f : Nat → Word) : Core :=
  { u with acc := (List.range 256).foldl (fun t c => tset t (256 * row + c) (f c)) u.acc }
/-- See `Core.setRow`. -/
def Core.setSum (u : Core) (row : Nat) (v : Word) : Core := { u with sums := tset u.sums row v }

/-- An array failure (R275): the block's commands are discarded, the rows they name become undefined, and an array-check trap waits for every
wave of the block. -/
def Chip.arrayFail (tick : Nat) (c : Chip) (core : Nat) (k : ArrCmd) (detail row : Nat) : Chip :=
  let mine := (c.core core).aq.filter (fun e => e.blk = k.blk)
  let wreck := fun (c : Chip) (e : ArrCmd) => e.onFollower.foldl (fun c fo =>
    let n := core + b2n fo
    c.setCore n ((List.range e.rowCount).foldl (fun u j =>
      let r := e.r0 + j
      let free := fun i => Config.freeWord (tick * 2 ^ 20 + b2n fo * 2 ^ 18 + r * 257 + i)
      (u.setRow r free).setSum r (free 256)) (c.core n))) c
  let c1 := mine.foldl wreck c
  let clean := fun (c : Chip) n =>
    let u := c.core n
    c.setCore n { u with aq := u.aq.filter (fun e => e.blk ≠ k.blk), banks := tmap u.banks (fun _ b =>
      { b with issLoaded := b.loaded, issFmt := b.efmt, issScp := b.scp, issX0 := b.cbX = 0 }) }
  let c2 := if ((tfind c.blocks k.blk).map Block.tandem).getD false then clean (clean c1 core) (core + 1) else clean c1 core
  ({ c2 with waves := tmap c2.waves (fun _ w => if w.blk = k.blk && !w.ended then { w with arrayTrap := some (detail, row) } else w) } : Chip).blockEnd k.blk

/-- An uncorrectable error met by a command in row `i` of those it names, in the local bytes `at_`: as a failed check, with DETAIL 2; the core is not
retired (R276). One record tells of it (R503). -/
def Chip.arrayBroken (tick : Nat) (c : Chip) (core lead : Nat) (k : ArrCmd) (i : Nat) (at_ : List (Target × Nat)) : Chip :=
  ((at_.foldl (fun c e => (c.meetWord e.1 e.2).1) c).logSram 2 0 core 0).arrayFail tick lead k 2 (k.r0 + i * k.q)

/-- Reads a record of a command at issue. It cannot be read while an earlier array command of the wave is to write it; an uncorrectable error in
it fails the array (R276), and the word then traps as it issues next. -/
def Iss.readRecord (x : Iss) (s : State) (tg : Target) (n : Nat) : Except State Nat :=
  if x.arrayHolds false [(0, tg)] n then .error s
  else if x.c.badAt tg n then
    let core := ((tfind x.c.blocks x.w.blk).map Block.core).getD 0
    .error (s.modChip x.p (fun c => c.arrayBroken s.tick core core (x.arrBlank .mcb) 0 [(tg, n)]))
  else .ok (ofLe (x.objectBytes s tg n))

/-! ## Instructions -/

/-- `mwld` (R262). -/
def execMwld (o : Ops) (s : State) : Host.Outcome State Fault Refusal :=
  issueArray (formArr (Opd.u 1) (Opd.u 1) Opd.none 4) o s (once (fun x s =>
    let bank := fld o.modw 0 1
    let fol := nbit o.modw 1
    match x.arrayGate false fol with
    | .error e => e
    | .ok b =>
      match x.recordAt .b 32 with
      | .error t => .trap t
      | .ok tg =>
        match x.readRecord s tg 32 with
        | .error s1 => .wait s1
        | .ok fb =>
          let d := fbB fb
          if fld fb 130 126 ≠ 0 || descBad d (fbSB fb) false then .trap (fmtTrap 4)
          else
            let e := descFmt d
            let scales := if descScp d then [(roleScale, fbSB fb, 128 / descLen d * tileCols e * scaleBytes d, scaleBytes d)] else []
            match x.localRanges ((roleMain, (x.word .a x.low 0).toNat, 65536, 64) :: scales) with
            | .error t => .trap t
            | .ok rs =>
              x.enqueue s b { x.arrBlank .mwld with fol := fol, bank := bank, fb := BitVec.ofNat 256 fb, reads := rs } (fun k =>
                { k with issLoaded := true, issFmt := e, issScp := descScp d,
                         issX0 := if e = 0 then true else if e = 1 then false else k.issX0 })))

/-- Whether a codebook image has a reserved bit set (R119). -/
def imageBad (l : List Word) : Bool := (l.getD 4 0).toNat / 32 ≠ 0 || (l.drop 5).any (· ≠ 0)

/-- `mcb` (R263). -/
def execMcb (o : Ops) (s : State) : Host.Outcome State Fault Refusal :=
  issueArray (formArr (Opd.u 8) Opd.none Opd.none 4) o s (once (fun x s =>
    let bank := fld o.modw 0 1
    let fol := nbit o.modw 1
    match x.arrayGate false fol with
    | .error e => e
    | .ok b =>
      let img := (List.range 8).map (fun j => x.word .a x.low j)
      if imageBad img then .trap (fmtTrap 4)
      else x.enqueue s b { x.arrBlank .mcb with fol := fol, bank := bank, image := img } (fun k =>
        { k with issX0 := img.getD 4 0 = 0, issFmt := if k.issLoaded && k.issFmt ≤ 1 then 2 else k.issFmt })))

/-- `mld` and `mst` (R270): the rows, then the local range. -/
def Iss.moveRows (x : Iss) (s : State) (op : ArrOp) : Eff :=
  let o := x.o
  let fol := nbit o.modw 16
  let sum := nbit o.modw 17
  let r0 := wordR0 o
  let n := wordN o
  match x.arrayGate false fol with
  | .error e => e
  | .ok b =>
    if b.acc < r0 + n then .trap (accTrap 5)
    else
      let len := if sum then 4 * n else 1024 * n
      match x.localRange (x.word .a x.low 0).toNat len 16 with
      | .error t => .trap t
      | .ok tg =>
        let k := { x.arrBlank op with fol := fol, r0 := r0, n := n, sum := sum }
        x.enqueue s b (if op = .mst then { k with writes := [(tg, len)] } else { k with reads := [(roleMain, tg, len)] }) id

/-- `mld` (R270). -/
def execMld (o : Ops) (s : State) : Host.Outcome State Fault Refusal :=
  issueArray (formArr (Opd.u 1) Opd.none Opd.none (2 ^ 18)) o s (once (fun x s => x.moveRows s .mld))

/-- `mst` (R270). -/
def execMst (o : Ops) (s : State) : Host.Outcome State Fault Refusal :=
  issueArray (formArr (Opd.u 1) Opd.none Opd.none (2 ^ 18)) o s (once (fun x s => x.moveRows s .mst))

/-- `mzero` (R269). -/
def execMzero (o : Ops) (s : State) : Host.Outcome State Fault Refusal :=
  issueArray (formArr Opd.none Opd.none Opd.none (2 ^ 17)) o s (once (fun x s =>
    let fol := nbit o.modw 16
    match x.arrayGate false fol with
    | .error e => e
    | .ok b =>
      if b.acc < wordR0 o + wordN o then .trap (accTrap 5)
      else x.enqueue s b { x.arrBlank .mzero with fol := fol, r0 := wordR0 o, n := wordN o } id))

/-- Whether the format block of an `mma` over some banks breaks R261, R264 or R268. -/
def mmaBad (fb : Nat) (banks : List Bank) : Bool :=
  let d := fbA fb
  fld fb 130 126 ≠ 0 || descBad d (fbSA fb) true || (if fbBandp fb then fbBand fb % 2 ≠ 0 else fbBand fb ≠ 0) ||
  banks.any (fun k => !k.issLoaded || k.issFmt ≠ (banks.headD Bank.empty).issFmt) ||
  fbAccm fb && (descFmt d ≠ 0 && descFmt d ≠ 3 || descScp d || fbBandp fb ||
    banks.any (fun k => k.issScp || !(k.issFmt = 0 || k.issFmt = 3 || k.issFmt = 2 && k.issX0)))

/-- The local ranges of an `mma` of m rows (R264). DESIGN CHOICE: the rows of A, and those of OUT and RES of a drain, are one range each from the first
byte to the last, gaps between rows included, for the checks of R259; the spec does not say whether the gaps count. -/
def mmaRanges (fb a st m : Nat) : List (Nat × Nat × Nat × Nat) :=
  let d := fbA fb
  [(roleMain, a, (m - 1) * st + rowBytes (descFmt d), 16)] ++
  (if descScp d then [(roleScale, fbSA fb, m * (128 / descLen d) * scaleBytes d, scaleBytes d)] else []) ++
  (if fbBandp fb then [(roleBand, fbBand fb, 2 * ((m - 1) / 64 + 1), 2)] else [])

/-- `mma` and `mma.t` (R264, R268). -/
def Iss.startMma (x : Iss) (s : State) (both : Bool) : Eff :=
  let o := x.o
  let bank := fld o.modw 16 1
  let r0 := wordR0 o
  let m := wordN o
  let st := 16 * fld o.modw 17 15
  match x.arrayGate both false with
  | .error e => e
  | .ok b =>
    match x.recordAt .b 32 with
    | .error t => .trap t
    | .ok tg =>
      match x.readRecord s tg 32 with
      | .error s1 => .wait s1
      | .ok fb =>
        let k0 := { x.arrBlank (if both then .mmaT else .mma) with bank := bank, fb := BitVec.ofNat 256 fb, r0 := r0, n := m, st := st }
        let banks := k0.onFollower.map (fun f => (x.c.core (b.arrayCore f)).bank bank)
        let q := tileCols (banks.headD Bank.empty).issFmt / 256
        if mmaBad fb banks then .trap (fmtTrap 4)
        else if b.acc < r0 + m * q then .trap (accTrap 5)
        else match x.localRanges (mmaRanges fb (x.word .a x.low 0).toNat st m) with
          | .error t => .trap t
          | .ok rs =>
            match x.arrayBo .c with
            | .error t => .trap t
            | .ok bo => x.enqueue s b { k0 with q := q, reads := rs, bo := bo } id

/-- `mma` (R264). -/
def execMma (o : Ops) (s : State) : Host.Outcome State Fault Refusal :=
  issueArray (formArr (Opd.u 1) (Opd.u 1) Opd.bo (2 ^ 32)) o s (once (fun x s => x.startMma s false))

/-- `mma.t` (R268). -/
def execMmaT (o : Ops) (s : State) : Host.Outcome State Fault Refusal :=
  issueArray (formArr (Opd.u 1) (Opd.u 1) Opd.bo (2 ^ 32)) o s (once (fun x s => x.startMma s true))

/-! ## The drain descriptor (R271) -/

/-- Word `k` of a drain descriptor: OUT, OSTRIDE, SCALE, ZP, RES, RSTRIDE. -/
def dword32 (d k : Nat) : Nat := fld d (32 * k) 32
/-- SCLP, ZPP, RESP, DROP and ACCM. -/
def drSclp (d : Nat) : Bool := nbit d 192
/-- See `drSclp`. -/
def drZpp (d : Nat) : Bool := nbit d 193
/-- See `drSclp`. -/
def drResp (d : Nat) : Bool := nbit d 194
/-- See `drSclp`. -/
def drDrop (d : Nat) : Bool := nbit d 195
/-- See `drSclp`. -/
def drAccm (d : Nat) : Bool := nbit d 198
/-- RESF and its type. -/
def drResf (d : Nat) : Nat := fld d 196 2
/-- See `drResf`. -/
def resType (d : Nat) : Ty := match drResf d with | 0 => .f32 | 1 => .bf16 | _ => .f16
/-- KEEP. -/
def drKeep (d : Nat) : Nat := fld d 224 16

/-- Whether a descriptor breaks R271. -/
def drainBad (d : Nat) : Bool :=
  fld d 448 64 ≠ 0 || fld d 240 16 ≠ 0 || fld d 199 25 ≠ 0 || drResf d = 3 ||
  !drResp d && (dword32 d 4 ≠ 0 || dword32 d 5 ≠ 0 || drResf d ≠ 0) ||
  !drZpp d && dword32 d 3 ≠ 0 || !drSclp d && dword32 d 2 ≠ 0 ||
  !drDrop d && (drKeep d ≠ 0 || fld d 256 192 ≠ 0) ||
  dword32 d 0 % 16 ≠ 0 || dword32 d 1 % 16 ≠ 0 || dword32 d 2 % 4 ≠ 0 || dword32 d 3 % 4 ≠ 0 || dword32 d 4 % 16 ≠ 0 || dword32 d 5 % 16 ≠ 0

/-- The local ranges that a drain reads. -/
def drainReads (d m cols : Nat) : List (Nat × Nat × Nat × Nat) :=
  (if drSclp d then [(roleCol, dword32 d 2, 4 * cols, 4)] else []) ++
  (if drZpp d then [(roleZp, dword32 d 3, 4 * cols, 4)] else []) ++
  (if drResp d then [(roleRes, dword32 d 4, (m - 1) * dword32 d 5 + cols * ((resType d).width / 8), 16)] else [])

/-- `mdrain` (R271, R272). -/
def execMdrain (o : Ops) (s : State) : Host.Outcome State Fault Refusal :=
  issueArray (formMdrain o) o s (once (fun x s =>
    let fol := nbit o.modw 18
    let r0 := wordR0 o
    let m := wordN o
    let q := fld o.modw 16 2 + 1
    match x.arrayGate false fol with
    | .error e => e
    | .ok b =>
      match x.recordAt .a 64 with
      | .error t => .trap t
      | .ok tg =>
        match x.readRecord s tg 64 with
        | .error s1 => .wait s1
        | .ok d =>
          if drainBad d then .trap (fmtTrap 4)
          else if b.acc < r0 + m * q then .trap (accTrap 5)
          else
            let len := (m - 1) * dword32 d 1 + 256 * q * (o.ty.width / 8)
            match x.localRange (dword32 d 0) len 16 with
            | .error t => .trap t
            | .ok out =>
              match x.localRanges (drainReads d m (256 * q)) with
              | .error t => .trap t
              | .ok rs =>
                match x.arrayBo .b with
                | .error t => .trap t
                | .ok bo => x.enqueue s b { x.arrBlank .mdrain with
                    fol := fol, desc := BitVec.ofNat 512 d, r0 := r0, n := m, q := q, ty := o.ty, reads := rs, writes := [(out, len)]
                    bo := bo } id))

/-! ## Status and synchronisation (R273, R274) -/

/-- The 64 bits of `mstat`: RETRY, QLEN, the banks' formats, ACC. DESIGN CHOICE: in a block with ACC 0, which owns no array, RETRY and QLEN are 0 and both
banks read as EMPTY, whatever block of its core owns the array; the spec does not say. -/
def arrayStatus (c : Chip) (b : Block) (fol : Bool) : Nat :=
  let own := 0 < b.acc
  let k := c.core (b.arrayCore fol)
  let fmt := fun n => if own && (k.bank n).loaded then (k.bank n).efmt else 0xF
  (if own then Nat.min k.retry 65535 * 2 ^ 48 + (c.core b.core).aq.length * 2 ^ 44 else 0) + fmt 1 * 2 ^ 36 + fmt 0 * 2 ^ 32 + b.acc % 512

/-- `mstat` (R273). -/
def execMstat (o : Ops) (s : State) : Host.Outcome State Fault Refusal :=
  issue (formMstat o) o s (once (fun x s =>
    match tfind x.c.blocks x.w.blk with
    | none => .done s
    | some b =>
      let fol := nbit o.modw 16
      if fol && !b.tandem then .trap (fmtTrap 2)
      else
        let v := BitVec.ofNat 64 (arrayStatus x.c b fol)
        .done (x.set s (x.put 2 (fun _ j => if j = 0 then lo32 v else hi32 v) x.w))))

/-- `msync` (R274): waits until every array command of the wave has completed. -/
def execMsync (o : Ops) (s : State) : Host.Outcome State Fault Refusal :=
  issue (formBare true) o s (once (fun x s =>
    match tfind x.c.blocks x.w.blk with
    | none => .done s
    | some b => if (x.c.core b.core).aq.any (fun k => k.wid = x.wid) then .wait (x.polled s) else .done s))

end Sys2Proof.Machine
end

