-- ==== Sys2Proof/Machine/MatrixPerf.lean ====
section
/-! DEFINITION. The array commands as the matrix array performs them, and the array's failures (R253 to R257, R262 to R276). -/

namespace Sys2Proof.Machine

open Sys2Proof

/-! ## Order (R253, R254) -/

/-- Whether a command names a bank. -/
def ArrCmd.hasBank (k : ArrCmd) : Bool := k.op = .mwld || k.op = .mcb || k.op = .mma || k.op = .mmaT

/-- Whether two commands share a bank or an accumulator row, or overlap in local memory where one of them writes. -/
def ArrCmd.orderedWith (a b : ArrCmd) : Bool :=
  a.onFollower.any (fun f => b.onFollower.contains f) &&
    (a.hasBank && b.hasBank && a.bank == b.bank || a.r0 < b.r0 + b.rowCount && b.r0 < a.r0 + a.rowCount) ||
  a.writes.any (fun w => b.writesAt w.1 w.2 || b.readsAt w.1 w.2) || b.writes.any (fun w => a.readsAt w.1 w.2)

/-- The core whose queue serves a core's array: the leader of a tandem block that owns it (R253). -/
def Chip.arrayLead (c : Chip) (core : Nat) : Nat :=
  if c.blocks.any (fun e => e.2.tandem && !e.2.ended && 0 < e.2.acc && e.2.core + 1 = core) then core - 1 else core

/-- A command that may take effect now: no earlier unperformed command of its queue is ordered with it, no earlier access of its wave to its
ranges is on its way, and its block has not been vacated. -/
def Chip.arrayDue (c : Chip) (core idx : Nat) (op : ArrOp → Bool) : Option ArrCmd :=
  let q := (c.core core).aq
  (q[idx]?).filter (fun k =>
    op k.op && !k.done && !(q.take idx).any (fun e => !e.done && e.orderedWith k) &&
    ((tfind c.blocks k.blk).map (fun b => b.saved.isNone)).getD false &&
    !c.pend.any (fun a => a.id < k.id && a.wid == k.wid && (k.readsAt a.tgt a.size || k.writesAt a.tgt a.size)))

/-- Replaces a command of a queue. -/
def Chip.setArr (c : Chip) (core : Nat) (k : ArrCmd) : Chip :=
  c.setCore core { c.core core with aq := (c.core core).aq.map (fun e => if e.id = k.id then k else e) }

/-- The bytes of a range as the command reads them: the local words as they stand, with the wave's buffered stores over them (R364). Whether a word that is
read is damaged is tested row by row (`Chip.badRow`). -/
def State.arrayBytes (s : State) (p : Nat) (k : ArrCmd) (tg : Target) (n : Nat) : List Byte :=
  let bs := match tg with
    | .loc b fol off => ((tfind (s.chip p).blocks b).map (fun x => memBytes (x.part fol) off n)).getD (List.replicate n 0)
    | _ => List.replicate n 0
  match tfind (s.chip p).waves k.wid with
  | none => bs
  | some w => layOver bs ((s.chip p).ownBytes w k.wid 0 tg n)

/-- The bytes of a command's range by role. DESIGN CHOICE: a row's operands are read in one step, so a racing write of another agent is seen whole or not
at all, where R254 lets each byte be old or new. -/
def State.roleBytes (s : State) (p : Nat) (k : ArrCmd) (role : Nat) : List Byte :=
  match k.reads.find? (fun r => r.1 = role) with
  | none => []
  | some r => s.arrayBytes p k r.2.1 r.2.2

/-- Writes local bytes for a command, the wave's buffered stores to them first (R364); a region that it was issued in is forced to OFF (R302). -/
def State.arrayPut (s : State) (p : Nat) (k : ArrCmd) (tg : Target) (bs : List Byte) : State :=
  ((s.flushRange p k.wid tg bs.length).writeTgt p tg bs).1.forceOff p k.region

/-- The command has been performed. -/
def State.arrayDone (s : State) (p core : Nat) (k : ArrCmd) : State := s.modChip p (fun c => c.setArr core { k with done := true })

/-- Applies `f` to each core that a command acts on. -/
def Chip.onArrays (c : Chip) (core : Nat) (k : ArrCmd) (f : Core → Core) : Chip :=
  k.onFollower.foldl (fun c fo => c.setCore (core + b2n fo) (f (c.core (core + b2n fo)))) c

/-- The local bytes that a command reads for row `i` of those it names: role, offset in the range of that role, length (R262, R264, R270, R272). -/
def ArrCmd.rowReads (k : ArrCmd) (i : Nat) : List (Nat × Nat × Nat) :=
  let d := k.desc.toNat
  match k.op with
  | .mma | .mmaT =>
    let a := fbA k.fb.toNat
    let sc := 128 / descLen a * scaleBytes a
    [(roleMain, i * k.st, rowBytes (descFmt a)), (roleScale, i * sc, sc), (roleBand, 2 * (i / 64), 2)]
  | .mdrain =>
    let cols := 256 * k.q
    [(roleCol, 0, 4 * cols), (roleZp, 0, 4 * cols), (roleRes, i * dword32 d 5, cols * ((resType d).width / 8))]
  | .mld => if k.sum then [(roleMain, 4 * i, 4)] else [(roleMain, 1024 * i, 1024)]
  | .mwld => k.reads.map (fun r => (r.1, 0, r.2.2))
  | _ => []

/-- The same as targets, for the ranges that the command has. -/
def ArrCmd.rowTargets (k : ArrCmd) (i : Nat) : List (Target × Nat) :=
  (k.rowReads i).filterMap (fun e => (k.reads.find? (fun r => r.1 = e.1)).map (fun r => (r.2.1.shift e.2.1, e.2.2)))

/-- The first of the rows given for which a command meets an uncorrectable error in a local operand (R276). -/
def Chip.badRow (c : Chip) (k : ArrCmd) (rows : List Nat) : Option Nat :=
  rows.find? (fun i => (k.rowTargets i).any (fun e => c.badAt e.1 e.2))

/-- The rows that a command performed as a whole reads. -/
def ArrCmd.allRows (k : ArrCmd) : List Nat := if k.op = .mwld then [0] else List.range k.n

/-- Performs the command at `idx` of a queue by `f` where it is due; one that meets an uncorrectable error in a local operand fails (R276). -/
def State.performArr (s : State) (p core idx : Nat) (op : ArrOp) (f : State → ArrCmd → State) : State :=
  match (s.chip p).arrayDue core idx (fun o => o = op) with
  | none => s
  | some k => match (s.chip p).badRow k k.allRows with
    | some i => s.modChip p (fun c => c.arrayBroken s.tick core core k i (k.rowTargets i))
    | none => (f s k).arrayDone p core k

/-! ## Tiles (R262) -/

/-- A little-endian element of a byte list: 4-bit ones two to a byte, the lower first (R111). -/
def elemAt (bits : Nat) (bs : Nat → Byte) (i : Nat) : Nat :=
  if bits = 4 then fld (bs (i / 2)).toNat (4 * (i % 2)) 4
  else if bits = 8 then (bs i).toNat
  else (bs (2 * i)).toNat + 256 * (bs (2 * i + 1)).toNat

/-- Element (k, n) of the tile of a bank. -/
def Bank.elem (b : Bank) (k n : Nat) : Nat := elemAt (efmtBits b.efmt) (fun i => memRead b.tile (512 * k + i)) n

/-- The codebook of a bank in the form that Align takes. -/
def Bank.codebook (b : Bank) : Codebook := { t := b.cbT.map (fun v => v.toInt), x := b.cbX.toInt }

/-- The aligned groups of column `n` (R123, R262). -/
def Bank.column (b : Bank) (n : Nat) : List (List Int × Int × Bool) :=
  (List.range 4).map (fun g => alignGroup b.efmt b.codebook ((List.range 32).map (fun i => b.elem (32 * g + i) n)))

/-- A scale of B, 1 where none is named. -/
def Bank.scale (b : Bank) (n j : Nat) : Ex :=
  if b.scp then scaleValue b.sf (tget 0 b.scales (j / (if b.bl then 8 else 32) * tileCols b.efmt + n)).toNat else Ex.one

/-- A tile in canonical form: its bytes from index `i` on, zero bytes unlisted. -/
def tileOf (i : Nat) : List Byte → Memory
  | [] => []
  | b :: r => if b = 0 then tileOf (i + 1) r else (i, b) :: tileOf (i + 1) r

/-- The scale codes of an array, by index. -/
def scaleCodes (n : Nat) (bs : List Byte) : Tbl (BitVec 16) :=
  let k := bs.length / n
  (List.range k).zip ((pieces n k bs).map (fun q => BitVec.ofNat 16 (ofLe q)))

/-- The signed codebook entries of an image (R119). -/
def imageEntries (img : List Word) : List (BitVec 8) := (List.range 16).map (fun c => BitVec.ofNat 8 (fld (img.getD (c / 4) 0).toNat (8 * (c % 4)) 8))

/-- The entries of the fixed codebook of INT4 or E2M1 (R118). -/
def fixedEntries (efmt : Nat) : List (BitVec 8) :=
  (List.range 16).map (fun c => BitVec.ofInt 8 (if efmt = 0 then asSigned 4 c else e2m1Entry c))

/-- Element k of column n after Align. -/
def Bank.mag (b : Bank) (k n : Nat) : Int := (((b.column n).getD (k / 32) ([], 0, false)).1).getD (k % 32) 0

/-- The check data of a row (R262): how many of its columns hold each code, or the sum of its aligned magnitudes, modulo 7. -/
def Bank.rowCheck (b : Bank) (k : Nat) : List Nat :=
  let cols := List.range (tileCols b.efmt)
  if efmtBits b.efmt = 4 then (List.range 16).map (fun c => (cols.filter (fun n => b.elem k n = c)).length % 7)
  else [((cols.foldl (fun a n => a + b.mag k n) 0) % 7).toNat]

/-- RB of a row (R267): of a 4-bit tile by the codebook in force. -/
def Bank.rowResidue (b : Bank) (k : Nat) : Int :=
  let l := b.check.getD k []
  if efmtBits b.efmt = 4 then ((l.zip b.cbT).foldl (fun a e => a + (e.1 : Int) * (e.2.toInt % 7)) 0) % 7 else l.headD 0

/-- A bank with the check data of its tile. -/
def Bank.checked (b : Bank) : Bank := { b with check := (List.range 128).map b.rowCheck }

/-- A bank after `mwld` (R262). -/
def Bank.load (b : Bank) (d : Nat) (tile scales : List Byte) : Bank :=
  let e := descFmt d
  { b with loaded := true, efmt := e, tile := tileOf 0 tile, scp := descScp d, sf := descSf d, bl := nbit d 7,
           scales := if descScp d then scaleCodes (scaleBytes d) scales else [],
           cbT := if e ≤ 1 then fixedEntries e else b.cbT, cbX := if e = 0 then 0 else if e = 1 then -1 else b.cbX : Bank }.checked

/-- MWLD_PERFORM (R262). -/
def execMwldPerform (p core idx : Nat) (s : State) : Host.Outcome State Fault Refusal :=
  .next (s.performArr p core idx .mwld (fun s k =>
    let tile := s.roleBytes p k roleMain
    let scales := s.roleBytes p k roleScale
    s.modChip p (fun c => c.onArrays core k (fun u => u.setBank k.bank ((u.bank k.bank).load (fbB k.fb.toNat) tile scales)))))

/-- MCB_PERFORM (R263). -/
def execMcbPerform (p core idx : Nat) (s : State) : Host.Outcome State Fault Refusal :=
  .next (s.performArr p core idx .mcb (fun s k =>
    s.modChip p (fun c => c.onArrays core k (fun u =>
      let b := u.bank k.bank
      u.setBank k.bank { b with cbT := imageEntries k.image, cbX := BitVec.ofNat 5 (k.image.getD 4 0).toNat,
                                efmt := if b.loaded && b.efmt ≤ 1 then 2 else b.efmt }))))

/-! ## Rows (R269, R270) -/

/-- Cell `col` of an accumulator row, and its sum cell. -/
def Core.cell (u : Core) (row col : Nat) : Word := tget 0 u.acc (256 * row + col)
/-- See `Core.cell`. -/
def Core.sumCell (u : Core) (row : Nat) : Word := tget 0 u.sums row

/-- MZERO_PERFORM (R269). -/
def execMzeroPerform (p core idx : Nat) (s : State) : Host.Outcome State Fault Refusal :=
  .next (s.performArr p core idx .mzero (fun s k =>
    s.modChip p (fun c => c.onArrays core k (fun u =>
      (List.range k.n).foldl (fun u j => (u.setRow (k.r0 + j) (fun _ => 0)).setSum (k.r0 + j) 0) u))))

/-- MLD_PERFORM (R270). -/
def execMldPerform (p core idx : Nat) (s : State) : Host.Outcome State Fault Refusal :=
  .next (s.performArr p core idx .mld (fun s k =>
    let bs := s.roleBytes p k roleMain
    let ws := wordsOf (bs.length / 4) bs
    s.modChip p (fun c => c.onArrays core k (fun u =>
      (List.range k.n).foldl (fun u j =>
        if k.sum then u.setSum (k.r0 + j) (ws.getD j 0) else u.setRow (k.r0 + j) (fun i => ws.getD (256 * j + i) 0)) u))))

/-- MST_PERFORM (R270). -/
def execMstPerform (p core idx : Nat) (s : State) : Host.Outcome State Fault Refusal :=
  .next (s.performArr p core idx .mst (fun s k =>
    let u := (s.chip p).core (core + b2n k.fol)
    let ws := (List.range k.n).flatMap (fun j =>
      if k.sum then [u.sumCell (k.r0 + j)] else (List.range 256).map (fun i => u.cell (k.r0 + j) i))
    match k.writes with
    | [] => s
    | w :: _ => s.arrayPut p k w.1 (ws.flatMap (fun v => leBytes 4 v.toNat))))

/-! ## Passes (R264 to R268) -/

/-- Row `i` of A, its block scales and its band scale. -/
structure ARow where
  groups : List (List Int × Int × Bool)
  scale : Nat → Ex
  band : FNum

/-- Reads and aligns row `i` of A (R264). -/
def State.aRow (s : State) (p : Nat) (k : ArrCmd) (i : Nat) : ARow :=
  let fb := k.fb.toNat
  let d := fbA fb
  let e := descFmt d
  let a := s.roleBytes p k roleMain
  let elem := elemAt (efmtBits e) (fun j => a.getD (i * k.st + j) 0)
  let scales := if descScp d then scaleCodes (scaleBytes d) (s.roleBytes p k roleScale) else []
  let bands := s.roleBytes p k roleBand
  { groups := (List.range 4).map (fun g => alignGroup e { t := [], x := 0 } ((List.range 32).map (fun j => elem (32 * g + j))))
    scale := fun j => if descScp d then scaleValue (descSf d) (tget 0 scales (i * (128 / descLen d) + j / descLen d)).toNat else Ex.one
    band := if fbBandp fb then fval .bf16 (elemAt 16 (fun j => bands.getD j 0) (i / 64)) else .fin Ex.one }

/-- One pass with a column: the groups with the scales of their elements. -/
def ARow.pass (r : ARow) (b : Bank) (n : Nat) : List ((List Int × Int × Bool) × (List Int × Int × Bool) × List (Ex × Ex)) :=
  (r.groups.zip ((b.column n).zip (List.range 4))).map (fun g =>
    (g.1, g.2.1, (List.range 32).map (fun j => (r.scale (32 * g.2.2 + j), b.scale n (32 * g.2.2 + j)))))

/-- The exact integer pass of INT32 mode (R126). -/
def ARow.intPass (r : ARow) (b : Bank) (n : Nat) : Int :=
  ((r.groups.zip (b.column n)).map (fun g => ((g.1.1.zip g.2.1).map (fun m => m.1 * m.2)).foldl (· + ·) 0)).foldl (· + ·) 0

/-- A new cell with the flag it raises: FP32 or INT32 accumulation (R125, R126). -/
def accumulate (accm : Bool) (cell : Word) (f : Nat) (n : Int) : Word × Word :=
  let r := if accm then accumulateI cell.toNat n else accumulateF cell.toNat f
  (BitVec.ofNat 32 r.1, if r.2 then (if accm then flagAsat else flagAovf) else 0)

/-- Row `i` of an `mma` on one core: cells, sum cells, flags (R265). -/
def Core.mmaRow (u : Core) (k : ArrCmd) (r : ARow) (i : Nat) : Core × Word :=
  let accm := fbAccm k.fb.toNat
  let b := u.bank k.bank
  let base := k.r0 + i * k.q
  let cells := (List.range (256 * k.q)).map (fun n =>
    accumulate accm (u.cell (base + n / 256) (n % 256)) (if accm then 0 else kPass (r.pass b n) r.band) (if accm then r.intPass b n else 0))
  let rs : Nat := if accm then 0 else rowSumF ((r.groups.zip (List.range 4)).map (fun g =>
    (g.1, (List.range 32).map (fun j => r.scale (32 * g.2 + j))))) r.band
  let ri := (r.groups.map (fun g => g.1.foldl (· + ·) 0)).foldl (· + ·) 0
  let sums := (List.range k.q).map (fun q => accumulate accm (u.sumCell (base + q)) rs ri)
  let u1 := (List.range k.q).foldl (fun u q =>
    (u.setRow (base + q) (fun c => (cells.getD (256 * q + c) (0, 0)).1)).setSum (base + q) ((sums.getD q (0, 0)).1)) u
  (u1, (cells ++ sums).foldl (fun f e => f ||| e.2) 0)

/-- P_n of group g of a row of A (R267). -/
def ARow.partialSum (r : ARow) (b : Bank) (g n : Nat) : Int :=
  let none : List Int × Int × Bool := ([], 0, false)
  (((r.groups.getD g none).1.zip ((b.column n).getD g none).1).map (fun m => m.1 * m.2)).foldl (· + ·) 0

/-- C_g of the separate checker (R267). -/
def ARow.checkSum (r : ARow) (b : Bank) (g : Nat) : Int :=
  (((r.groups.getD g ([], 0, false)).1.zip (List.range 32)).foldl (fun a m => a + (m.1 % 7) * b.rowResidue (32 * g + m.2)) 0) % 7

/-- The check of a row, group by group (R267): S_g mod 7 against C_g. `err` is what the array adds in error to a column sum of group 0. -/
def ARow.passes (r : ARow) (b : Bank) (err : Int) : Bool :=
  (List.range 4).all (fun g =>
    ((List.range (tileCols b.efmt)).foldl (fun a n => a + r.partialSum b g n) (if g = 0 then err else 0)) % 7 = r.checkSum b g)

/-- The cores of a command whose check of a row fails, where the array of `core` is in error by `err`. -/
def Chip.rowFails (c : Chip) (lead core : Nat) (k : ArrCmd) (r : ARow) (err : Int) : List Nat :=
  (k.onFollower.map (fun fo => lead + b2n fo)).filter (fun n => !r.passes ((c.core n).bank k.bank) (if n = core then err else 0))

/-- MMA_ROW (R265, R267): the row is formed and checked, repeated once where its check fails, and accumulated once it passes; a second mismatch is
an array-check failure (R275) and retires the core (R500). `wrong` is how many of the first attempts the array of `core` forms with a column
sum that is one too high. -/
def execMmaRow (p core idx wrong : Nat) (s : State) : Host.Outcome State Fault Refusal :=
  let lead := (s.chip p).arrayLead core
  .next (match (s.chip p).arrayDue lead idx (fun o => o = .mma || o = .mmaT) with
    | none => s
    | some k =>
      if ((s.chip p).badRow k [k.row]).isSome then s.modChip p (fun c => c.arrayBroken s.tick core lead k k.row (k.rowTargets k.row))
      else
        let r := s.aRow p k k.row
        let one := (s.chip p).rowFails lead core k r (if wrong = 0 then 0 else 1)
        let two := if one.isEmpty then [] else (s.chip p).rowFails lead core k r (if wrong ≤ 1 then 0 else 1)
        let retry := fun (c : Chip) (n : Nat) =>
          (c.setCore n { c.core n with retry := Nat.min 65535 ((c.core n).retry + 1) }).logEvent 5 0 n 0 0
        s.modChip p (fun c0 =>
          let c := one.foldl retry c0
          if !two.isEmpty then
            two.foldl Chip.retireCore ((two.foldl (fun c n => c.logEvent 6 3 n 0 0) c).arrayFail s.tick lead k 1 (k.r0 + k.row * k.q))
          else
            let step := fun (acc : Chip × Word) (fo : Bool) =>
              let n := lead + b2n fo
              let v := (acc.1.core n).mmaRow k r k.row
              (acc.1.setCore n v.1, acc.2 ||| v.2)
            let v := k.onFollower.foldl step (c, k.flags)
            v.1.setArr lead { k with row := k.row + 1, flags := v.2, done := k.row + 1 = k.n }))

/-- ARRAY_UNCORRECTABLE (R276). -/
def execArrayUncorrectable (p core idx : Nat) (s : State) : Host.Outcome State Fault Refusal :=
  let lead := (s.chip p).arrayLead core
  .next (match (s.chip p).arrayDue lead idx (fun _ => true) with
    | none => s
    | some k => s.modChip p (fun c => c.arrayBroken s.tick core lead k k.row []))

/-! ## The drain (R272) -/

/-- A cell or sum cell as a value. -/
def drainVal (accm : Bool) (w : Word) : FNum := if accm then FNum.ofInt w.toInt else fval .f32 w.toNat

/-- One element of a drain: the number written and QSAT. -/
def drainElem (d i n : Nat) (t : Ty) (c z : FNum) (scale zp res : FNum) : Int × Bool :=
  let u1 := if drZpp d then FNum.add false c (FNum.neg (FNum.mul zp z)) else c
  let u2 := if drSclp d then FNum.mul scale u1 else u1
  let v1 := rne32 u2
  let v2 := if drResp d then rne32 (FNum.add false (fval .f32 v1) res) else v1
  let w := (kcgBlock (BitVec.ofNat 32 (dword32 d 11 + n), BitVec.ofNat 32 (dword32 d 10 + i), BitVec.ofNat 32 (dword32 d 12),
    BitVec.ofNat 32 (dword32 d 13)) (BitVec.ofNat 32 (dword32 d 8)) (BitVec.ofNat 32 (dword32 d 9))).1
  let v3 := if drDrop d && drKeep d < w.toNat % 65536 then 0 else v2
  roundTo t (fval .f32 v3) 0 true 0

/-- MDRAIN_PERFORM (R272). DESIGN CHOICE: every operand is read before any element is written, also where OUT overlaps RES, SCALE or ZP; the spec's steps
go element by element, and it does not say what an overlap gives. -/
def execMdrainPerform (p core idx : Nat) (s : State) : Host.Outcome State Fault Refusal :=
  .next (match (s.chip p).arrayDue core idx (fun o => o = .mdrain) with
    | none => s
    | some k =>
      match (s.chip p).badRow k k.allRows with
      | some i => s.modChip p (fun c => c.arrayBroken s.tick core core k i (k.rowTargets i))
      | none =>
      let d := k.desc.toNat
      let u := (s.chip p).core (core + b2n k.fol)
      let f32 := fun (bs : List Byte) n => fval .f32 (ofLe ((bs.drop (4 * n)).take 4))
      let sc := s.roleBytes p k roleCol
      let zp := s.roleBytes p k roleZp
      let rs := s.roleBytes p k roleRes
      let rb := (resType d).width / 8
      let row := fun i => (List.range (256 * k.q)).map (fun n =>
        let r := k.r0 + i * k.q + n / 256
        drainElem d i n k.ty (drainVal (drAccm d) (u.cell r (n % 256))) (drainVal (drAccm d) (u.sumCell r)) (f32 sc n) (f32 zp n)
          (fval (resType d) (ofLe ((rs.drop (i * dword32 d 5 + n * rb)).take rb))))
      let rows := (List.range k.n).map row
      let size := k.ty.width / 8
      let s1 := (rows.zip (List.range k.n)).foldl (fun s e =>
        match k.writes with
        | [] => s
        | w :: _ => s.arrayPut p k (w.1.shift (e.2 * dword32 d 1)) (e.1.flatMap (fun v => leBytes size (modPow v.1 (8 * size))))) s
      s1.arrayDone p core { k with flags := if rows.any (fun r => r.any (fun v => v.2)) then flagQsat else 0 })

/-! ## Completion (R255, R257) -/

/-- Whether the arrival of a command may take place: as that of a `pbar.arr.cohort` of its wave it follows every access that the wave made before
the command (R96, R255). -/
def Chip.arrivalReady (c : Chip) (k : ArrCmd) : Bool :=
  k.bo.isNone ||
  !c.pend.any (fun a => a.id < k.id && a.own k.wid k.mask) && !c.prods.any (fun e => e.1 < k.id && e.2.own k.wid k.mask && c.relWaits 2 e.1 e.2) &&
  (c.arrayCmds k.wid).all (fun a => k.id < a.id || a.reads.isEmpty && a.writes.isEmpty)

/-- A performed command completes: its flags, then the arrival on its barrier object, in fixed gear behind the stores of the wave before it. -/
def State.arrayComplete (s : State) (p core : Nat) (k : ArrCmd) : State :=
  let s1 := s.modChip p (fun c =>
    (c.setCore core { c.core core with aq := (c.core core).aq.filter (fun e => e.id ≠ k.id) }).modWave k.wid (fun w => w.raise k.flags))
  let s2 := match k.bo with
    | none => s1
    | some tg => (s1.flushBefore p k.wid k.id).pbarArrive p tg k.clock
  s2.modChip p (fun c => c.blockEnd k.blk)

end Sys2Proof.Machine
end

