-- ==== Sys2Proof/Machine/Turns.lean ====
section
/-! DEFINITION. Turns in fixed gear: the counted parties of a grid and their logical times (R358 to R362), FG_TURN, the commit of a
quantum (R365), and ARRAY_COMMAND_COMPLETE, whose arrival on a barrier object is held to its turn. -/

namespace Sys2Proof.Machine

open Sys2Proof

/-! ## Parked waves (R361) -/

/-- The producer that keeps a register empty. -/
def Chip.producerOf (c : Chip) (wid : Nat) (r : RegRef) : Option (Nat × Producer) :=
  c.prods.find? (fun e => e.2.wid = wid && e.2.regs.contains r)

/-- The blocking sources of an operation that are empty. -/
def Iss.emptySources (x : Iss) : List RegRef :=
  srcPos.flatMap (fun ps => if x.emode ps || x.badAt ps ≠ 0 then [] else (x.refsAt ps).filter (fun r => !x.r.isFull r))

/-- Whether the path of a slot reads, in blocking mode, a register whose producer is a collective, one that satisfies a test. -/
def State.readsColl (s : State) (p wid : Nat) (w : Wave) (sl : Slot) (test : Nat → Bool) : Bool :=
  match w.path? sl with
  | none => false
  | some q => !q.waiting && ((s.chip p).wordAt s.tick w q).any (fun i =>
      match formOf i, opsOf i with
      | some f, some o =>
        match issOf f o { s with cur := { pkg := p, wid := wid, slot := sl, half := .single }, pairSrc := none } with
        | some x => x.emptySources.any (fun r => ((s.chip p).producerOf wid r).any (fun e => e.2.kind = .coll && test e.1))
        | none => false
      | _, _ => false)

/-- Whether the path of a slot stands in a parked wait; one that has been released does not (R361). -/
def State.pathParked (s : State) (p wid : Nat) (w : Wave) (sl : Slot) : Bool :=
  match w.path? sl with
  | none => false
  | some q =>
    match q.wait with
    | .pbar _ _ _ _ | .coll _ _ _ => true
    | .bar _ id _ _ _ => (((tfind (s.chip p).blocks w.blk).map (fun b => (tget Bar.zero b.bars id).arrived.contains wid)).getD false)
    | .polling _ | .second | .freed _ _ _ => false
    | .none => s.readsColl p wid w sl (fun _ => true)

/-- Whether a wave is parked: a path of it stands in a parked wait, and no path of it can go on. -/
def State.parked (s : State) (p wid : Nat) (w : Wave) : Bool :=
  let held := fun sl => s.pathParked p wid w sl
  let stuck := fun sl => (w.path? sl).isNone || held sl || !w.hmode && Wave.stalled (s.cpOf p w) true w sl || w.hmode && w.hslot ≠ sl
  (held .A || held .B) && stuck .A && stuck .B

/-! ## Parties and turns (R358, R359, R362) -/

/-- What is counted: a wave, a held array command, a held collective of the grid. -/
inductive PartyId
  | wave (p wid : Nat)
  | array (p core id : Nat)
  | coll (cid : Nat) (rec0 : List Nat)
  deriving DecidableEq, Repr

/-- The logical time of a command of wave `wid` held since clock `t`. -/
def Chip.heldTime (c : Chip) (wid : Nat) (t : DWord) : Nat := ((tfind c.waves wid).map (fun w => c.timeKey w t)).getD 0

/-- The clock before the word at which a slot stands (R358): where the path waits in it and has a synchronising operation of it left, the clock
before it issued. DESIGN CHOICE: a `bar` whose wave arrives because another path of it ends has the clock of that moment. -/
def Chip.slotClock (c : Chip) (tick wid : Nat) (w : Wave) (sl : Slot) : DWord :=
  match w.path? sl with
  | none => w.clock
  | some q =>
    match q.wait with
    | .polling _ | .second => if c.atSync tick w sl then ((tfind c.srcs (srcKey wid sl)).map Wave.clock).getD w.clock else w.clock
    | _ => w.clock

/-- The clock at which a wave is counted: that of the operation whose turn it has, else its own, or an earlier one of a synchronising operation
that it has still to perform (R359). -/
def Chip.countedClock (c : Chip) (tick wid : Nat) (w : Wave) : DWord :=
  match w.turn with
  | some t => t.2
  | none =>
    let low := fun (a b : DWord) => if a.toNat ≤ b.toNat then a else b
    low w.clock (low (c.slotClock tick wid w .A) (c.slotClock tick wid w .B))

/-- Whether what a chip runs of a grid counts no longer: the chip has stopped, and every other one that runs the grid has it FENCED in its own tables (R371,
R450, R451). -/
def State.gone (s : State) (grow : Nat) (c : Chip) : Bool :=
  !c.online && s.chips.all (fun e => !e.2.online || (e.2.grid? grow).isNone || (tget ChipRow.absent e.2.pel.rep.chips c.chipId).state = .fenced)

/-- The fields in which every rank of a collective agrees with rank 0: N, NR, BASEBLK, BSTEP, ROOT of its record (R385, R386). -/
def crShared (r : Nat) : List Nat := [fld r 96 32, fld r 192 12 + 1, fld r 128 24, fld r 160 24, fld r 204 12]

/-- The counted parties of a grid on every chip, with their logical times. A collective is held from the arrival that starts its last rank until
its outcome is applied at every rank of the chip (R362). -/
def State.parties (s : State) (grow : Nat) : List (PartyId × Nat) :=
  s.chips.flatMap (fun e =>
    let p := e.1
    let c := e.2
    if !c.fgear grow || s.gone grow c then []
    else
      (c.waves.filter (fun w => w.2.grow = grow && !w.2.ended && !s.parked p w.1 w.2)).map (fun w =>
        (PartyId.wave p w.1, c.timeKey w.2 (c.countedClock s.tick w.1 w.2))) ++
      (c.cores.flatMap (fun k => (k.2.aq.filter (fun a => a.bo.isSome && ((tfind c.waves a.wid).map Wave.grow) = some grow)).map (fun a =>
        (PartyId.array p k.1 a.id, c.heldTime a.wid a.clock)))) ++
      (c.colls.filterMap (fun k => if k.2.grow = grow && k.2.outcome.isNone then k.2.heldAt.map (fun t => (PartyId.coll k.2.cid (crShared k.2.crec.toNat), t)) else none)))

/-- Whether every block of a grid is admitted as far as the chips that run it know (R356, R371). -/
def State.gridLive (s : State) (grow : Nat) : Bool := s.chips.all (fun e => s.gone grow e.2 || (e.2.grid? grow).all (fun g => g.live))

/-- Whether a logical time is lower than that of every counted party but one. -/
def State.isTurn (s : State) (grow : Nat) (own : PartyId) (key : Nat) : Bool :=
  s.gridLive grow && (s.parties grow).all (fun e => e.1 = own || key < e.2)

/-- Whether a path waits in an operation that it has issued and that no turn of its own will move: parked, or at a `bar` that its wave has not
yet reached as a whole (R361, R363). -/
def Path.laidBy (q : Path) : Bool :=
  match q.wait with
  | .bar _ _ _ _ _ | .pbar _ _ _ _ | .coll _ _ _ => true
  | _ => false

/-- Whether a path's `bar` still waits for other paths of the wave, or has its arrival behind it (R363). -/
def State.barIdle (s : State) (p wid : Nat) (w : Wave) (sl : Slot) (q : Path) : Bool :=
  match q.wait with
  | .bar _ id _ _ _ => s.pathParked p wid w sl || !w.barWhole sl id
  | _ => q.laidBy

/-- Whether the other slot lets a synchronising operation be performed (R360): empty, stalled, or at a synchronising operation of its own, of which
slot A's comes first. -/
def State.otherReady (s : State) (p : Nat) (w : Wave) (sl : Slot) : Bool :=
  w.hmode || (match w.path? sl.other with
    | none => true
    | some y => Wave.stalled (s.cpOf p w) true w sl.other || y.laidBy || sl = .A && (s.chip p).atSync s.tick w sl.other)

/-- FG_TURN (R359): the operation at which a slot stands gets its turn. -/
def execFgTurn (p wid : Nat) (sl : Slot) (s : State) : Host.Outcome State Fault Refusal :=
  let c := s.chip p
  .next (match tfind c.waves wid with
    | none => s
    | some w =>
      if c.fgear w.grow && !w.ended && w.turn.isNone && !(w.hmode && w.hslot ≠ sl) && c.atSync s.tick w sl && !s.pathParked p wid w sl &&
          !((w.path? sl).any (s.barIdle p wid w sl)) && s.otherReady p w sl &&
          s.isTurn w.grow (.wave p wid) (c.timeKey w (c.slotClock s.tick wid w sl))
      then s.setChip p (c.setWave wid { w with turn := some (sl, c.slotClock s.tick wid w sl) }) else s)

/-! ## Quanta (R365) -/

/-- The waves of a grid on every chip that counts: package, number, wave, in ascending identifier (R21). -/
def State.gridWaves (s : State) (grow : Nat) : List (Nat × Nat × Wave) :=
  let l := (s.chips.filter (fun e => !s.gone grow e.2)).flatMap (fun e => (e.2.waves.filter (fun w => w.2.grow = grow)).map (fun w => (e.1, w.1, w.2)))
  let key := fun (e : Nat × Nat × Wave) => (s.chip e.1).timeKey e.2.2 0
  l.foldl (fun acc e => acc.takeWhile (fun a => key a ≤ key e) ++ e :: acc.dropWhile (fun a => key a ≤ key e)) []

/-- The quantum in progress of a grid: the least that a wave of it has not committed. Waves that have been placed anew run the quanta which the others have
behind them (R371). -/
def State.quantumOf (s : State) (grow : Nat) : Nat :=
  let l := ((s.gridWaves grow).filter (fun e => !e.2.2.ended || !e.2.2.buf.isEmpty)).map (fun e => e.2.2.quant)
  l.foldl Nat.min (l.headD 0)

/-- Whether a load or gather of a wave has still to read (R221, R229). -/
def Chip.loading (c : Chip) (wid : Nat) : Bool :=
  c.prods.any (fun e => e.2.wid = wid && (match e.2.kind with
    | .load _ _ _ reads => !reads.isEmpty
    | _ => false))

/-- Whether the quantum of a grid may commit: every block is admitted; every wave has ended, is parked or stands at its end with nothing left of a
synchronising operation before it, and has no load that would return what is now performed (R367); no write of a synchronising operation of the
quantum is left; some wave has reached the end, or has stores to commit. -/
def State.quantumDue (s : State) (grow : Nat) : Bool :=
  let n := s.quantumOf grow
  let ws := (s.gridWaves grow).filter (fun e => e.2.2.quant = n)
  let atEnd := fun (e : Nat × Nat × Wave) => n < ((s.chip e.1).countedClock s.tick e.2.1 e.2.2).toNat / 4096
  s.gridLive grow && ws.all (fun e => (e.2.2.ended || atEnd e || s.parked e.1 e.2.1 e.2.2) && !(s.chip e.1).loading e.2.1) &&
  ws.any (fun e => !e.2.2.ended && atEnd e || !e.2.2.buf.isEmpty) &&
  (s.parties grow).all (fun e => match e.1 with
    | .wave _ _ => true
    | _ => n < e.2 / 2 ^ 64 / 4096) &&
  s.chips.all (fun e => !e.2.fgear grow || s.gone grow e.2 || !e.2.copies.any (fun k => k.grow = grow && k.clock.toNat / 4096 ≤ n))

/-- QUANTUM_COMMIT (R365). The lines of the L1s of the cores that run the grid go, so that no load of a later quantum returns what a byte held before the
commit (R367). -/
def execQuantumCommit (grow : Nat) (s : State) : Host.Outcome State Fault Refusal :=
  .next (if !s.chips.any (fun e => e.2.fgear grow) || !s.quantumDue grow then s
    else
      let n := s.quantumOf grow
      let s1 := ((s.gridWaves grow).filter (fun e => e.2.2.quant = n)).foldl (fun s e =>
        (s.flushBuf e.1 e.2.1).modChip e.1 (fun c => c.modWave e.2.1 (fun w => { w with quant := n + 1 }))) s
      ((s.gridWaves grow).filter (fun e => !e.2.2.ended)).foldl (fun s e => s.modChip e.1 (fun c => c.acquire e.2.2.core 4)) s1)

/-! ## Completion of array commands -/

/-- ARRAY_COMMAND_COMPLETE (R255, R257): a performed command completes; in fixed
gear one that names a barrier object at its turn (R362). -/
def execArrayCommandComplete (p core idx : Nat) (s : State) : Host.Outcome State Fault Refusal :=
  let c := s.chip p
  .next (match (c.core core).aq[idx]? with
    | none => s
    | some k =>
      let grow := ((tfind c.waves k.wid).map Wave.grow).getD 0
      let held := c.fgear grow && k.bo.isSome
      let busy := held && s.fgBusy grow (c.heldTime k.wid k.clock) (k.bo.toList.map (fun t => (p, t, 8)))
      if !k.done || !c.arrivalReady k || held && !s.isTurn grow (.array p core k.id) (c.heldTime k.wid k.clock) || busy then s
      else s.arrayComplete p core k)

end Sys2Proof.Machine
end

