-- ==== Sys2Proof/Machine/Coll.lean ====
section
/-! DEFINITION. Collectives, major opcode 0x89 (R305 to R308, R384 to R394): arrival and start at a rank, the coordinator, the messages
between them (R378), the outcome. -/

namespace Sys2Proof.Machine

open Sys2Proof

/-! ## Collective records (R385, R387) -/

/-- IN, OUT, WORK, N, BASEBLK, BSTEP, NR, ROOT and TAG of a record. -/
def crIn (r : Nat) : Nat := fld r 0 32
/-- See `crIn`. -/
def crOut (r : Nat) : Nat := fld r 32 32
/-- See `crIn`. -/
def crWork (r : Nat) : Nat := fld r 64 32
/-- See `crIn`. -/
def crN (r : Nat) : Nat := fld r 96 32
/-- See `crIn`. -/
def crBase (r : Nat) : Nat := fld r 128 24
/-- See `crIn`. -/
def crStep (r : Nat) : Nat := fld r 160 24
/-- See `crIn`. -/
def crRanks (r : Nat) : Nat := fld r 192 12 + 1
/-- See `crIn`. -/
def crRoot (r : Nat) : Nat := fld r 204 12
/-- See `crIn`. -/
def crTag (r : Nat) : Nat := fld r 224 32

/-- KIND and ROP of WORD. -/
def collKind (w : Nat) : Nat := fld w 0 4
/-- See `collKind`. -/
def collRop (w : Nat) : Nat := fld w 4 2

/-- Elements of the input and of the output tile (R387). -/
def collIn (kind r : Nat) : Nat := if kind = 1 || kind = 4 then crRanks r * crN r else crN r
/-- See `collIn`. -/
def collOut (kind r : Nat) : Nat := if kind = 2 || kind = 4 then crRanks r * crN r else crN r

/-- The bits of a collective's kind and type in a capability word (R380). -/
def capKindBit (kind : Nat) : Nat := 28 + kind
/-- See `capKindBit`. -/
def capCollBit : Ty → Nat
  | .f32 => 33 | .f16 => 34 | .bf16 => 35 | .e4m3 => 36 | .e5m2 => 37 | .i32 => 38 | _ => 39

/-- The collective trap of a detail (R282, R307). -/
def collTrap (detail : Nat) : TrapInfo := { cause := 0x29, e1 := BitVec.ofNat 32 detail }

/-- The chip that runs a block of a grid, by the placement table (R448). -/
def Chip.chipOfBlock (c : Chip) (grow block : Nat) : Nat :=
  ((c.pel.rep.places.find? (fun e => e.1 / 512 = grow && e.2.state ≠ .empty && e.2.first ≤ block && block < e.2.first + e.2.count)).map
    (fun e => e.2.exec)).getD c.chipId

/-- The chips that hold the ranks of a collective. -/
def Chip.rankChips (c : Chip) (grow r : Nat) : List Nat :=
  ((List.range (crRanks r)).map (fun k => c.chipOfBlock grow (crBase r + k * crStep r))).dedup

/-- The key of a collective at a block. -/
def collKey (blk cid : Nat) : Nat := blk * 65536 + cid

/-! ## Issue (R305 to R307, R386) -/

/-- A core-relative range of the block's own allocation; the local-range trap otherwise (R385). -/
def Iss.ownRange (x : Iss) (a n : Nat) : Bool := !nbit a 31 && (x.c.localAt x.w.blk a n).isSome

/-- Whether two byte ranges overlap. -/
def crossing (a n b m : Nat) : Bool := a < b + m && b < a + n

/-- The checks of R386 on a record: a trap, or the rank. -/
def Iss.recordCheck (x : Iss) (r : Nat) (grow : Nat) : Except TrapInfo Nat :=
  let e := x.o.ty.width / 8
  let kind := collKind x.o.modw
  let n := collIn kind r * e
  let m := collOut kind r * e
  let blk := x.c.blockNo x.w
  let total := ((x.c.grid? grow).map (fun g => g.kern.nblocks)).getD 0
  if !x.ownRange (crIn r) n || !x.ownRange (crOut r) m || !x.ownRange (crWork r) m then .error x.rangeLow
  else if fld r 256 256 ≠ 0 || fld r 216 8 ≠ 0 || fld r 184 8 ≠ 0 || fld r 152 8 ≠ 0 || crN r = 0 || 2 ^ 24 < crN r ||
      crStep r = 0 || crRanks r ≤ crRoot r || crIn r % 16 ≠ 0 || crOut r % 16 ≠ 0 || crWork r % 16 ≠ 0 ||
      crossing (crIn r) n (crOut r) m || crossing (crIn r) n (crWork r) m || crossing (crOut r) m (crWork r) m ||
      crN r * e % 16 ≠ 0 then .error (collTrap 3)
  else if blk < crBase r || (blk - crBase r) % crStep r ≠ 0 || crRanks r ≤ (blk - crBase r) / crStep r ||
      total ≤ crBase r + (crRanks r - 1) * crStep r then .error (collTrap 4)
  else .ok ((blk - crBase r) / crStep r)

/-- Whether a block is a rank of a record (R384). -/
def isRank (r blk : Nat) : Bool := crBase r ≤ blk && (blk - crBase r) % crStep r = 0 && (blk - crBase r) / crStep r < crRanks r

/-- Whether a CID is in flight on this chip in a way that a new arrival of this wave cannot join (R307): in another grid, in a collective of which
this block is no rank, at this block where it has started or the wave has arrived, or in one that has ended at this block and not yet at another. -/
def Iss.cidBusy (x : Iss) (cid : Nat) : Bool :=
  x.c.colls.any (fun e => e.2.cid == cid && e.2.outcome.isNone &&
    (e.2.grow ≠ x.w.grow || !isRank e.2.crec.toNat (x.c.blockNo x.w) ||
      e.2.blk == x.w.blk && (e.2.started || e.2.arrived.any (fun a => a.1 = x.wid)) ||
      (tfind x.c.colls (collKey x.w.blk cid)).any (fun k => k.outcome.isSome && k.gen = e.2.gen)))

/-- The number of the use of a CID that an arrival joins: that of the ranks in flight on the chip, else a new one. -/
def Chip.cidGen (c : Chip) (cid : Nat) : Nat := ((c.colls.find? (fun e => e.2.cid == cid && e.2.outcome.isNone)).map (fun e => e.2.gen)).getD (c.next + 1)

/-- The collectives at which waves of the block have arrived and this one has not. -/
def Iss.gathering (x : Iss) : List Coll :=
  (x.c.colls.map (·.2)).filter (fun k => k.blk = x.w.blk && k.outcome.isNone && !k.started && !k.arrived.any (fun a => a.1 = x.wid))

/-- Whether an arrival differs from the first one of the collective that its block gathers for (R307). -/
def Iss.collDiffers (x : Iss) (h : DWord) : Bool :=
  !x.gathering.isEmpty && !x.gathering.any (fun k => k.handle = h && k.ty = x.o.ty && k.word.toNat = x.o.modw)

/-- The uniform register of the destination. -/
def Iss.uniDest (x : Iss) : Nat := match x.o.d with | .unif n => n.toNat | _ => 0

/-- Sends a message of the collective units (R378); a rank's grid, type and WORD go with it. -/
def State.sendCl (s : State) (p dst msg cid rank : Nat) (pk : Packet) : State :=
  s.emit p { pk with ptype := 12, src := (s.chip p).chipId, dst := dst, opw := BitVec.ofNat 32 (msg + 16 * cid + 2 ^ 20 * rank),
                     len := pk.data.length, plane := (s.chip p).planeFor 0 }

/-- In fixed gear a collective is held from the arrival that starts its last rank on (R362). DEDUCED: an outcome that is decided before all have
started is applied without a turn, for a held command never waits for a wave. -/
def State.collHold (s : State) (grow cid : Nat) (r : Nat) (key : Nat) : State :=
  let mine := fun (k : Coll) => k.grow = grow && k.cid = cid && crShared k.crec.toNat = crShared r && k.started && k.outcome.isNone
  let ranks := s.chips.flatMap (fun e => (e.2.colls.filter (fun k => mine k.2)).map (fun k => k.2.rank))
  if (List.range (crRanks r)).all ranks.contains then
    { s with chips := tmap s.chips (fun _ c => { c with colls := tmap c.colls (fun _ k => if mine k then { k with heldAt := some key } else k) }) }
  else s

/-- A collective starts at a block (R306): its producers, each with the lowest active lane of its path (R68); its parameters go to the
coordinator; a rank on a chip that cannot be reached loses it at once (R239, R391). -/
def State.collStart (s : State) (p key : Nat) (k : Coll) : State :=
  let step := fun (acc : Chip × List Nat) (a : Nat × Nat × Word) =>
    let pr : Producer := { wid := a.1, pathMask := a.2.2, kind := .coll, dests := [(lowLane a.2.2, [.s a.2.1])], res := [] }
    let r := acc.1.startProducer a.1 pr
    (r.1, acc.2 ++ [r.2])
  let r := k.arrived.foldl step (s.chip p, [])
  let c := r.1
  let rec0 := k.crec.toNat
  let chips := c.rankChips k.grow rec0
  let gone := chips.find? (fun id => !c.reaches id)
  let s0 := s.setChip p { c with colls := tset c.colls key { k with started := true, prods := r.2, lost := gone, chips := chips } }
  let s1 := if c.fgear k.grow then s0.collHold k.grow k.cid rec0 (((tfind c.waves k.startWid).map (fun w => c.timeKey w k.clock)).getD 0) else s0
  if gone.isSome then s1
  else s1.sendCl p (c.chipOfBlock k.grow (crBase rec0)) 0 k.cid k.rank { Packet.blank with
    data := leBytes 64 rec0, ctx := k.grow, unit := k.word.toNat, ty := k.ty }

/-- In fixed gear the buffered stores of the wave to the record, the tiles and the barrier object are performed first (R364). -/
def Iss.flushTiles (x : Iss) (s : State) (r : Nat) (tg : Target) (bo : Option Target) : State :=
  let e := x.o.ty.width / 8
  let kind := collKind x.o.modw
  let one := fun (s : State) (a n : Nat) => match x.c.localAt x.w.blk a n with
    | some t => s.flushRange x.p x.wid t n
    | none => s
  if !x.fg then s
  else
    let s0 := (bo.toList).foldl (fun s t => s.flushRange x.p x.wid t 8) (s.flushRange x.p x.wid tg 64)
    one (one (one s0 (crIn r) (collIn kind r * e)) (crOut r) (collOut kind r * e)) (crWork r) (collOut kind r * e)

/-- The arrival of the wave at a collective. The last one starts it, with the record as that arrival reads it (R385); it waits while a status
register that it is to mark empty has still to be filled (R68). -/
def Iss.collArrive (x : Iss) (s : State) (h : DWord) (rank r : Nat) (tg : Target) (bo : Option Target) : Eff :=
  let cid := fld h.toNat 32 16
  let key := collKey x.w.blk cid
  let old := (tfind x.c.colls key).filter (fun k => k.outcome.isNone)
  let fresh : Coll :=
    { cid := cid, grow := x.w.grow, blk := x.w.blk, rank := rank, handle := h, ty := x.o.ty, word := BitVec.ofNat 32 x.o.modw,
      crec := BitVec.ofNat 512 r, arrived := [], prods := [], chips := [], heldAt := none, bo := bo, started := false, clock := 0, startWid := x.wid,
      got := 0, ready := false, sat := 0, decision := none, outcome := none, lost := none, gen := x.c.cidGen cid }
  let k0 := old.getD fresh
  let k := { k0 with arrived := k0.arrived ++ [(x.wid, x.uniDest, x.q.mask)], crec := BitVec.ofNat 512 r, rank := rank,
                     bo := if bo.isSome then bo else k0.bo, clock := x.time, startWid := x.wid }
  let all := x.c.waves.all (fun e => e.2.blk ≠ x.w.blk || e.2.ended || k.arrived.any (fun a => a.1 = e.1))
  let full := k0.arrived.all (fun a => (tfind x.c.waves a.1).all (fun w => (w.ureg a.2.1).full))
  if all && !full then .wait s
  else
    let s1 := x.flushTiles s r tg bo
    .done (if all then s1.collStart x.p key k else s1.modChip x.p (fun c => { c with colls := tset c.colls key k }))

/-- The record that a handle names (R305): 64 bytes of the block's own allocation, aligned to 64. -/
def Iss.handleRecord (x : Iss) (h : Nat) : Except TrapInfo Target :=
  if fld h 48 16 ≠ 0 || !x.ownRange (fld h 0 32) 64 then .error x.rangeLow else x.localRange (fld h 0 32) 64 64

/-- The shape of the five kinds of `coll` (R305 to R307, R381, R386). -/
def collRun : Iss → State → Eff :=
  once (fun x s =>
    let h := x.dword .a x.low
    let cid := fld h.toNat 32 16
    match x.handleRecord h.toNat with
    | .error t => .trap t
    | .ok tg =>
      match x.arrayBo .b with
      | .error t => .trap t
      | .ok bo =>
        if x.collDiffers h then .trap (collTrap 1)
        else if x.cidBusy cid then .trap (collTrap 2)
        else if !(s.chip x.p).localDone x.wid || x.arrayHolds false [(0, tg)] 64 then .wait s
        else if x.c.badAt tg 64 then .trap (x.badWord tg 64)
        else
          let r := ofLe (x.objectBytes s tg 64)
          match x.recordCheck r x.w.grow with
          | .error t => .trap t
          | .ok rank =>
            let lacking := (x.c.rankChips x.w.grow r).filter (fun id =>
              capLacks (x.c.capOf id) (capKindBit (collKind x.o.modw)) || capLacks (x.c.capOf id) (capCollBit x.o.ty))
            if !lacking.isEmpty then .trap { cause := 0x14, e1 := BitVec.ofNat 32 (lacking.foldl Nat.min 511) }
            else if !x.myTurn then .wait s
            else x.collArrive s h rank r tg bo)

/-- `coll.allreduce` (R305, R387). -/
def execCollAllreduce (o : Ops) (s : State) : Host.Outcome State Fault Refusal := issueSync (formColl 0 o) o s collRun
/-- `coll.redscat`. -/
def execCollRedscat (o : Ops) (s : State) : Host.Outcome State Fault Refusal := issueSync (formColl 1 o) o s collRun
/-- `coll.allgath`. -/
def execCollAllgath (o : Ops) (s : State) : Host.Outcome State Fault Refusal := issueSync (formColl 2 o) o s collRun
/-- `coll.bcast`. -/
def execCollBcast (o : Ops) (s : State) : Host.Outcome State Fault Refusal := issueSync (formColl 3 o) o s collRun
/-- `coll.alltoall`. -/
def execCollAlltoall (o : Ops) (s : State) : Host.Outcome State Fault Refusal := issueSync (formColl 4 o) o s collRun

/-- The trap of a handle whose record lies nowhere, for `coll.wait` and `coll.abort` too (R305). -/
def Iss.handleTrap (x : Iss) : Option TrapInfo :=
  match x.handleRecord (x.dword .a x.low).toNat with
  | .error t => some t
  | .ok _ => none

/-- `coll.wait` (R308, R361). -/
def execCollWait (o : Ops) (s : State) : Host.Outcome State Fault Refusal :=
  issueSync (formCollWait o) o s (once (fun x s =>
    match x.q.wait with
    | .coll _ _ _ => .wait s
    | _ =>
      match x.handleTrap with
      | some t => .trap t
      | none =>
        let cid := fld (x.dword .a x.low).toNat 32 16
        if !x.myTurn then .wait s
        else match (tfind x.c.colls (collKey x.w.blk cid)).bind Coll.outcome with
          | some st => .done (s.modChip x.p (fun c => c.modWave x.wid (fun w => w.putS x.uniDest st)))
          | none => .wait (x.hold s (.coll x.half cid (BitVec.ofNat 6 x.uniDest)))))

/-- `coll.abort` (R308): an abort request to the coordinator of a collective in flight here, of whatever grid. -/
def execCollAbort (o : Ops) (s : State) : Host.Outcome State Fault Refusal :=
  issueSync (formCollAbort o) o s (once (fun x s =>
    match x.handleTrap with
    | some t => .trap t
    | none =>
      let cid := fld (x.dword .a x.low).toNat 32 16
      if !x.myTurn then .wait s
      else match x.c.colls.find? (fun e => e.2.cid == cid && e.2.started && e.2.outcome.isNone) with
        | none => .done s
        | some e => .done (s.sendCl x.p (x.c.chipOfBlock e.2.grow (crBase e.2.crec.toNat)) 4 cid e.2.rank
            { Packet.blank with ctx := e.2.grow })))

/-! ## Messages -/

/-- The grid of a message: its own, or where it is not known that of a collective of its CID which this chip takes part in. -/
def Chip.clGrid (c : Chip) (k : Packet) : Nat :=
  if k.ctx ≠ noGrid then k.ctx
  else (((c.colls.find? (fun e => e.2.cid = fld k.opw.toNat 4 16 && e.2.started && e.2.outcome.isNone)).map (fun e => e.2.grow)).or
    ((c.coords.find? (fun e => e.cid = fld k.opw.toNat 4 16)).map Coord.grow)).getD noGrid

/-- Whether an earlier message of the same collective between two chips has still to arrive: they travel in order. DESIGN CHOICE: on whatever
plane they go. -/
def State.clBehind (s : State) (net : Nat) (k : Packet) : Bool :=
  (s.net.take net).any (fun e => e.ptype = 12 && e.src = k.src && e.dst = k.dst && e.ctx = k.ctx && fld e.opw.toNat 4 16 = fld k.opw.toNat 4 16)

/-- The message of kind `msg` at a place of the fabric, for package `p`: packet, CID, rank, grid. -/
def State.clPacket (s : State) (p net msg : Nat) : Option (Packet × Nat × Nat × Nat) :=
  ((s.packetFor p net 12).filter (fun k => fld k.opw.toNat 0 4 = msg && !s.clBehind net k)).map (fun k =>
    (k, fld k.opw.toNat 4 16, fld k.opw.toNat 20 12, (s.chip p).clGrid k))

/-- The collective of a CID, grid and rank on a package, not yet ended: its key and entry; of two blocks that claim one rank, one that has no decision yet. -/
def Chip.collAt (c : Chip) (cid grow rank : Nat) : Option (Nat × Coll) :=
  let l := c.colls.filter (fun e => e.2.cid = cid && e.2.grow = grow && e.2.rank = rank && e.2.started && e.2.outcome.isNone)
  (l.find? (fun e => e.2.decision.isNone && e.2.lost.isNone)).or l.head?

/-- The ranks of a collective as its coordinator knows them: those of rank 0's record. -/
def Coord.ranks (k : Coord) : Nat := ((k.params.find? (fun e => e.1 = 0)).map (fun e => crRanks e.2.2.1.toNat)).getD 0

/-- The ranks that may still start: those of the longest record heard. -/
def Coord.span (k : Coord) : Nat := (k.params.map (fun e => crRanks e.2.2.1.toNat)).foldl Nat.max 0

/-- The entry of the coordinator that the parameters of a rank belong to: the oldest of the CID that has not heard that rank of it; else the one that has no
decision, in which two blocks then claim one rank; else a new one (R386, R389). -/
def Chip.coordAt (c : Chip) (cid grow rank : Nat) : Coord :=
  let mine := c.coords.filter (fun k => k.cid = cid && k.grow = grow)
  ((mine.find? (fun k => !k.params.any (fun e => e.1 = rank) && (k.decided.isNone || rank < k.span))).or (mine.find? (fun k => k.decided.isNone))).getD
    { cid := cid, grow := grow, params := [], chips := [], ready := [], decided := none, want := none }

/-- The entry that a later message of a rank belongs to: the latest that has heard it. -/
def Chip.coordOf (c : Chip) (cid grow rank : Nat) : Option Coord :=
  (c.coords.filter (fun k => k.cid = cid && k.grow = grow && k.params.any (fun e => e.1 = rank))).getLast?

/-- Replaces an entry, or adds it; one of which every rank has its decision is kept no longer. -/
def Chip.setCoord (c : Chip) (old k : Coord) : Chip :=
  if k.decided.isSome && 0 < k.ranks && (List.range k.span).all (fun r => k.params.any (fun e => e.1 = r)) then { c with coords := c.coords.erase old }
  else if c.coords.contains old then { c with coords := c.coords.map (fun e => if e = old then k else e) }
  else { c with coords := c.coords ++ [k] }

/-- Sends a decision to a rank: commit, the ranks that complete, DETAIL (R378, R389). -/
def State.sendDecision (s : State) (p : Nat) (k : Coord) (dec : List Nat × Nat) (rank chip : Nat) : State :=
  let v := b2n (dec.1.contains rank) + 2 * dec.1.length + 2 ^ 14 * dec.2
  s.sendCl p chip 3 k.cid rank { Packet.blank with data := leBytes 8 v, ctx := k.grow }

/-- Whether a rank's parameters agree with rank 0's. -/
def paramsAgree (a b : Nat × Nat × BitVec 512 × Ty × Word) : Bool :=
  crShared a.2.2.1.toNat = crShared b.2.2.1.toNat && a.2.2.2 = b.2.2.2

/-- Element `i` of a tile of bytes. -/
def tileElem (e : Nat) (bs : List Byte) (i : Nat) : Nat := ofLe ((bs.drop (i * e)).take e)

/-- The canonical NaN of a type, which min and max leave for operands that are all NaN (R109, R191). -/
def canonNan (t : Ty) : Nat := ((ffmt t).nan).getD 0

/-- The reduction of one element over all ranks, and whether it saturates (R388). -/
def collReduce (rop : Nat) (t : Ty) (xs : List Nat) : Nat × Bool :=
  if t = .i32 || t = .i8 then
    let vs := xs.map (intVal t)
    match rop with
    | 0 => let sum := vs.foldl (· + ·) 0
           (modPow (satInt t sum) t.width, satInt t sum ≠ sum)
    | 1 => (modPow (vs.foldl Min.min (vs.headD 0)) t.width, false)
    | _ => (modPow (vs.foldl Max.max (vs.headD 0)) t.width, false)
  else match rop with
    | 0 => roundToF t (fsum (xs.map (fval t))) 0 true 0
    | 1 => (xs.foldl (fminN t) (canonNan t), false)
    | _ => (xs.foldl (fmaxN t) (canonNan t), false)

/-- Element `i` of the output of rank `r` (R387). -/
def collElem (kind rop n root : Nat) (t : Ty) (ins : List (List Byte)) (r i : Nat) : Nat × Bool :=
  let e := t.width / 8
  let at_ := fun q j => tileElem e (ins.getD q []) j
  match kind with
  | 0 => collReduce rop t (ins.map (fun b => tileElem e b i))
  | 1 => collReduce rop t (ins.map (fun b => tileElem e b (r * n + i)))
  | 2 => (at_ (i / n) (i % n), false)
  | 3 => (at_ root i, false)
  | _ => (at_ (i / n) (r * n + i % n), false)

/-- The input tile of a rank, none where an uncorrectable error stands in an element of it (R389). -/
def State.collInput (s : State) (chip cid grow rank n : Nat) : Option (List Byte) :=
  match s.pkgOf chip with
  | none => some []
  | some q =>
    match (s.chip q).collAt cid grow rank with
    | none => some []
    | some (_, k) =>
      match (s.chip q).localAt k.blk (crIn k.crec.toNat) n with
      | none => some []
      | some t => s.readTgt q t n

/-- The input tiles of every rank of a coordinator's collective, in rank order. -/
def State.collInputs (s : State) (k : Coord) : List (Option (List Byte)) :=
  match k.params.find? (fun e => e.1 = 0) with
  | none => []
  | some p0 =>
    let r0 := p0.2.2.1.toNat
    let n := collIn (collKind p0.2.2.2.2.toNat) r0 * (p0.2.2.2.1.width / 8)
    (List.range (crRanks r0)).map (fun r =>
      s.collInput (((k.params.find? (fun q => q.1 = r)).map (fun q => q.2.1)).getD 0) k.cid k.grow r n)

/-- The result of every rank as messages of at most 512 bytes, each with the number of its saturated elements. -/
def State.sendResults (s : State) (p : Nat) (k : Coord) : State :=
  match k.params.find? (fun e => e.1 = 0) with
  | none => s
  | some p0 =>
    let r0 := p0.2.2.1.toNat
    let t := p0.2.2.2.1
    let w := p0.2.2.2.2.toNat
    let e := t.width / 8
    let kind := collKind w
    let ranks := List.range (crRanks r0)
    let chipOf := fun r => ((k.params.find? (fun q => q.1 = r)).map (fun q => q.2.1)).getD 0
    let ins := (s.collInputs k).map (fun b => b.getD [])
    let per := 512 / e
    let count := collOut kind r0
    ranks.foldl (fun s r =>
      (List.range ((count + per - 1) / per)).foldl (fun s j =>
        let els := (List.range (Nat.min per (count - j * per))).map (fun i => collElem kind (collRop w) (crN r0) (crRoot r0) t ins r (j * per + i))
        s.sendCl p (chipOf r) 1 k.cid r { Packet.blank with
          addr := BitVec.ofNat 64 (512 * j), data := els.flatMap (fun v => leBytes e v.1), ctx := k.grow,
          unit := (els.filter (fun v => v.2)).length }) s) s

/-- What parameters say of TYPE and WORD, which no header holds: as the sender decodes them, or where they are not known those of the rank that the
coordinator's chip runs. -/
def Chip.clWord (c : Chip) (k : Packet) (cid grow : Nat) : Option (Ty × Word) :=
  if k.ctx ≠ noGrid then some (k.ty, BitVec.ofNat 32 k.unit)
  else (c.colls.find? (fun e => e.2.cid = cid && e.2.grow = grow && e.2.started && e.2.outcome.isNone)).map (fun e => (e.2.ty, e.2.word))

/-- Whether the chip of a rank cannot perform a collective (R382). -/
def State.rankRefuses (s : State) (chip : Nat) (t : Ty) (w : Word) : Bool :=
  (s.pkgOf chip).any (fun q => (s.chip q).unable (capKindBit (collKind w.toNat)) || (s.chip q).unable (capCollBit t))

/-- Whether the parameters of a rank were sent under other tables than the coordinator's chip has (R391): its chip has yet to apply a loss that this one has
applied, and which will decide the rank (`some true`), or the other way round (`some false`). DEDUCED. -/
def State.clTables (s : State) (c : Chip) (k : Packet) (cid rank grow : Nat) (chips : List Nat) : Option Bool :=
  (s.pkgOf k.src).bind (fun q =>
    match (s.chip q).collAt cid grow rank with
    | none => none
    | some (_, e) => if e.chips = chips then none else some (decide ((s.chip q).pel.rep.seq < c.pel.rep.seq)))

/-- The uncorrectable errors in the inputs of a collective are met by its unit (R389, R496). -/
def State.collSense (s : State) (k : Coord) : State :=
  k.params.foldl (fun s e =>
    match s.pkgOf e.2.1 with
    | none => s
    | some q =>
      match (s.chip q).collAt k.cid k.grow e.1 with
      | none => s
      | some (_, x) =>
        let r := x.crec.toNat
        let n := collIn (collKind x.word.toNat) r * (x.ty.width / 8)
        match (s.chip q).localAt x.blk (crIn r) n with
        | none => s
        | some t => s.sense q t n ((s.chip q).poisonStatus 5)) s

/-- CL_PARAMETERS (R386, R389): the coordinator hears a rank; once it has heard all, all agree and no element is damaged, the results go out. A
collective with a rank on a chip that is lost is none any more, nor one whose tables are older (R391). -/
def execClParameters (p net : Nat) (s : State) : Host.Outcome State Fault Refusal :=
  .next (match s.clPacket p net 0 with
    | none => s
    | some (pk, cid, rank, grow) =>
      let c := s.chip p
      match c.clWord pk cid grow with
      | none => s
      | some (t, w) =>
        let s1 := s.dropNet net
        let chips := c.rankChips grow (ofLe pk.data)
        let tables := s.clTables c pk cid rank grow chips
        if tables = some false then s
        else if !chips.all c.reaches || tables = some true then s1
        else
          let k0 := c.coordAt cid grow rank
          let mine := (rank, pk.src, BitVec.ofNat 512 (ofLe pk.data), t, w)
          let ps := k0.params ++ [mine]
          let clash := k0.params.any (fun e => e.1 = rank) || (ps.find? (fun e => e.1 = 0)).any (fun z => ps.any (fun e => !paramsAgree z e))
          let k1 := { k0 with params := ps, chips := (k0.chips ++ chips).dedup }
          let all := 0 < k1.ranks && (List.range k1.ranks).all (fun r => ps.any (fun e => e.1 = r))
          let want := if k0.decided.isSome || k0.want.isSome then k0.want
            else if s.rankRefuses pk.src t w then some 5 else if clash then some 2
            else if all && (s1.collInputs k1).any Option.isNone then some 4 else none
          let k := { k1 with want := want }
          let s2 := (if want = some 4 && k0.want.isNone then s1.collSense k1 else s1).modChip p (fun c => c.setCoord k0 k)
          match k.decided with
          | some d => s2.sendDecision p k d rank pk.src
          | none => if want.isNone && all then s2.sendResults p k else s2)

/-- CL_DATA (R389): result bytes reach WORK. They wait while the block is vacated. -/
def execClData (p net : Nat) (s : State) : Host.Outcome State Fault Refusal :=
  .next (match s.clPacket p net 1 with
    | none => s
    | some (pk, cid, rank, grow) =>
      match (s.chip p).collAt cid grow rank with
      | none => s.dropNet net
      | some (key, k) =>
        if ((tfind (s.chip p).blocks k.blk).bind Block.saved).isSome then s
        else
          let s1 := s.dropNet net
          let s2 := match (s1.chip p).localAt k.blk (crWork k.crec.toNat + pk.addr.toNat) pk.data.length with
            | none => s1
            | some t => (s1.writeTgt p t pk.data).1
          s2.modChip p (fun c => { c with colls := tset c.colls key { k with got := k.got + pk.data.length, sat := k.sat + pk.unit } }))

/-- COLL_RANK_READY (R389): WORK holds the rank's whole result. -/
def execCollRankReady (p blk cid : Nat) (s : State) : Host.Outcome State Fault Refusal :=
  let key := collKey blk cid
  .next (match tfind (s.chip p).colls key with
    | none => s
    | some k =>
      let r := k.crec.toNat
      let size := collOut (collKind k.word.toNat) r * (k.ty.width / 8)
      if !k.started || k.ready || k.outcome.isSome || k.got < size then s
      else
        (s.modChip p (fun c => { c with colls := tset c.colls key { k with ready := true } })).sendCl p
          ((s.chip p).chipOfBlock k.grow (crBase r)) 2 cid k.rank { Packet.blank with ctx := k.grow })

/-- Whether every rank of a collective is ready. -/
def Coord.allReady (k : Coord) : Bool := 0 < k.ranks && (List.range k.ranks).all k.ready.contains

/-- The bytes of WORK that a rank is to copy, where they can be read. -/
def State.collWork (s : State) (q : Nat) (k : Coll) : Option (List Byte) :=
  let n := collOut (collKind k.word.toNat) k.crec.toNat * (k.ty.width / 8)
  match (s.chip q).localAt k.blk (crWork k.crec.toNat) n with
  | none => some []
  | some t => s.readTgt q t n

/-- The uncorrectable errors in the WORK of a rank are met by its unit (R389, R496). -/
def State.senseWork (s : State) (q : Nat) (k : Coll) : State :=
  let n := collOut (collKind k.word.toNat) k.crec.toNat * (k.ty.width / 8)
  match (s.chip q).localAt k.blk (crWork k.crec.toNat) n with
  | none => s
  | some t => s.sense q t n ((s.chip q).poisonStatus 5)

/-- CL_READY (R389): it counts until an outcome is decided, or an abort wanted (R390). A rank whose WORK is damaged has no whole result: the collective
is then aborted with DETAIL 4. -/
def execClReady (p net : Nat) (s : State) : Host.Outcome State Fault Refusal :=
  .next (match s.clPacket p net 2 with
    | none => s
    | some (pk, cid, rank, grow) =>
      let hurt := (s.pkgOf pk.src).bind (fun q =>
        ((s.chip q).collAt cid grow rank).bind (fun e => if (s.collWork q e.2).isNone then some (q, e.2) else none))
      let s1 := s.dropNet net
      match (s.chip p).coordOf cid grow rank, hurt with
      | none, _ => s1
      | some k, h =>
        if k.decided.isSome || k.want.isSome || k.ready.contains rank then s1
        else match h with
          | some e => (s1.senseWork e.1 e.2).modChip p (fun c => c.setCoord k { k with want := some 4 })
          | none => s1.modChip p (fun c => c.setCoord k { k with ready := k.ready ++ [rank] }))

/-- CL_ABORT_REQUEST (R389): no effect once every rank is ready, or after the decision. -/
def execClAbortRequest (p net : Nat) (s : State) : Host.Outcome State Fault Refusal :=
  .next (match s.clPacket p net 4 with
    | none => s
    | some (_, cid, rank, grow) =>
      (s.dropNet net).modChip p (fun c =>
        match c.coordOf cid grow rank with
        | none => c
        | some k => if k.decided.isSome || k.want.isSome || k.allReady then c else c.setCoord k { k with want := some 1 }))

/-- An uncorrectable error in an element at some rank: the collective is to be aborted with DETAIL 4 (R389, R390). -/
def Coord.damaged (k : Coord) : Coord := if k.decided.isSome || k.want.isSome || k.allReady then k else { k with want := some 4 }

/-- COLL_DECIDE (R389): every rank is ready, or an abort is wanted. -/
def execCollDecide (p grow cid : Nat) (s : State) : Host.Outcome State Fault Refusal :=
  .next (match (s.chip p).coords.find? (fun e => e.cid = cid && e.grow = grow && e.decided.isNone && (e.want.isSome || e.allReady)) with
    | none => s
    | some k =>
      let d : List Nat × Nat := match k.want with
        | some d => (if d = 1 then k.ready else [], d)
        | none => (k.ready, 0)
      let s1 := s.modChip p (fun c => c.setCoord k { k with decided := some d })
      k.params.foldl (fun s e => s.sendDecision p k d e.1 e.2.1) s1)

/-- CL_DECISION (R389, R391): a rank hears its decision, unless a loss has decided it. -/
def execClDecision (p net : Nat) (s : State) : Host.Outcome State Fault Refusal :=
  .next (match s.clPacket p net 3 with
    | none => s
    | some (pk, cid, rank, grow) =>
      let s1 := s.dropNet net
      match (s1.chip p).collAt cid grow rank with
      | none => s1
      | some (key, k) =>
        let v := ofLe pk.data
        if k.lost.isSome || k.decision.isSome then s1
        else
          let k1 := { k with decision := some (nbit v 0, fld v 1 13, fld v 14 5, pk.src) }
          s1.modChip p (fun c => { c with colls := tset c.colls key k1 }))

/-- CL_LOSS_NOTICE (R378, R391): a rank that has no decision is lost. -/
def execClLossNotice (p net : Nat) (s : State) : Host.Outcome State Fault Refusal :=
  .next (match s.clPacket p net 5 with
    | none => s
    | some (pk, cid, rank, grow) =>
      let s1 := s.dropNet net
      match (s1.chip p).collAt cid grow rank with
      | none => s1
      | some (key, k) =>
        if k.lost.isSome || k.decision.isSome then s1
        else s1.modChip p (fun c => { c with colls := tset c.colls key { k with lost := some (pk.addr.toNat % 512) } }))

/-- A fence or loss of a chip decides every rank that has no decision and whose collective has a rank there; the coordinator gives such a collective
up, and no message of it arrives any more (R391): those that still wait for their link are marked for no chip. -/
def State.collLoss (s : State) (p id : Nat) : State :=
  let c := s.chip p
  let hit := fun (k : Coll) => k.started && k.outcome.isNone && k.decision.isNone && k.lost.isNone && k.chips.contains id
  let over_ := ((c.colls.filter (fun e => hit e.2)).map (fun e => (e.2.grow, e.2.cid))) ++
    ((c.coords.filter (fun k => k.chips.contains id)).map (fun k => (k.grow, k.cid)))
  { s.setChip p { c with colls := tmap c.colls (fun _ k => if hit k then { k with lost := some id } else k),
                         coords := c.coords.filter (fun k => !k.chips.contains id) } with
    net := s.net.filter (fun k => !(k.ptype = 12 && (k.src = c.chipId || k.dst = c.chipId) && over_.contains (k.ctx, fld k.opw.toNat 4 16))) }.modChip p
      (fun c => { c with links := tmap c.links (fun _ (l : Link) => { l with parcels := l.parcels.map (fun (k : Packet) =>
        if k.ptype = 12 && over_.contains (k.ctx, fld k.opw.toNat 4 16) then { k with dstSw := true } else k) }) })

/-! ## The outcome (R306, R389, R392) -/

/-- The status word of a collective's end, and COUNT of its record. -/
def Coll.result (k : Coll) : Option (Bool × Word × Nat) :=
  match k.decision, k.lost with
  | some (true, n, _, _), _ => some (true, 0, n * 2 ^ 19 + Nat.min k.sat 524287)
  | some (false, n, d, chip), _ => some (false, statusWord codeAborted 5 chip d, n * 2 ^ 19)
  | none, some id => some (false, statusWord codeLost 5 id 3, 8191 * 2 ^ 19)
  | none, none => none

/-- The tiles at the end: WORK copied to OUT on commit; WORK is undefined after any outcome. -/
def State.collTiles (s : State) (p : Nat) (k : Coll) (commit : Bool) : State :=
  let r := k.crec.toNat
  let n := collOut (collKind k.word.toNat) r * (k.ty.width / 8)
  match (s.chip p).localAt k.blk (crWork r) n, (s.chip p).localAt k.blk (crOut r) n with
  | some w, some o =>
    let s1 := if commit then (s.writeTgt p o ((s.readTgt p w n).getD [])).1 else s
    (s1.writeTgt p w ((List.range n).map (fun i => Config.freeByte (s.tick * 2 ^ 36 + i)))).1
  | _, _ => s

/-- The paths of a block that wait in `coll.wait` for a CID go on with its status as a plain value (R308). -/
def Chip.freeCollWaits (c : Chip) (blk cid : Nat) (st : Word) : Chip :=
  c.slotPaths.foldl (fun c e =>
    match e.2.2.wait with
    | .coll half i d =>
      if i = cid && ((tfind c.waves e.1).map Wave.blk) = some blk then c.freePath e.1 e.2.1 half 0 (.unif d st) else c
    | _ => c) c

/-- The waves of a block that an outcome releases from a parked wait (R361): a path of them waits in `coll.wait` for the CID, or they are parked where
they read a register that the collective fills. -/
def State.collFrees (s : State) (p blk cid : Nat) (prods : List Nat) : List Nat :=
  let waits := fun (w : Wave) => [w.slotA, w.slotB].any (fun o => o.any (fun q => match q.wait with
    | .coll _ i _ => i = cid
    | _ => false))
  let reads := fun (i : Nat) (w : Wave) sl => s.readsColl p i w sl prods.contains
  (((s.chip p).waves.filter (fun e => e.2.blk = blk && !e.2.ended &&
    (waits e.2 || s.parked p e.1 e.2 && (reads e.1 e.2 .A || reads e.1 e.2 .B)))).map (·.1))

/-- The ranges that a rank's outcome writes: OUT, WORK and the barrier object. -/
def Coll.touched (k : Coll) (c : Chip) (p : Nat) : List (Nat × Target × Nat) :=
  let r := k.crec.toNat
  let n := collOut (collKind k.word.toNat) r * (k.ty.width / 8)
  ([crOut r, crWork r].filterMap (fun a => (c.localAt k.blk a n).map (fun t => (p, t, n)))) ++ (k.bo.toList).map (fun t => (p, t, 8))

/-- COLL_RANK_OUTCOME (R306): the tiles, the record, the status registers, the arrival on the barrier object; in fixed gear at its turn, with the
clocks of the waves it frees (R361, R362). DESIGN CHOICE: a rank that is to commit and whose WORK has been damaged since it was READY can end neither COMPLETE nor
ABORTED (R390); its grid faults, with CAUSE 0. -/
def execCollRankOutcome (p blk cid : Nat) (s : State) : Host.Outcome State Fault Refusal :=
  let key := collKey blk cid
  let c := s.chip p
  .next (match tfind c.colls key with
    | none => s
    | some k =>
      match k.result with
      | none => s
      | some (commit, st, count) =>
        let fg := c.fgear k.grow
        let core := ((tfind c.blocks blk).map Block.core).getD 0
        let clock : DWord := match k.heldAt with
          | some t => BitVec.ofNat 64 (t / 2 ^ 64)
          | none => k.clock
        if !k.started || k.outcome.isSome || ((tfind c.blocks blk).bind Block.saved).isSome ||
            fg && k.heldAt.any (fun t => !s.isTurn k.grow (.coll cid (crShared k.crec.toNat)) t || s.fgBusy k.grow t (k.touched c p)) then s
        else if commit && (s.collWork p k).isNone then
          ((s.senseWork p k).collTiles p k false).modChip p (fun c => { c with colls := tset c.colls key { k with outcome := some st } }.gridFault k.grow 0)
        else
          let freed := s.collFrees p blk cid k.prods
          let s1 := s.collTiles p k commit
          let res : LaneRes := if commit then .ok [0] else .fail st
          let s2 := s1.modChip p (fun c =>
            let c1 := c.record (clusterOf core) (some k.grow) (BitVec.ofNat 32 (crTag k.crec.toNat)) (BitVec.ofNat 32 count) st 5 0
            let c2 := k.prods.foldl (fun c id => (c.allDone id res).landProducer id) c1
            let c3 := if fg then freed.foldl (fun c w => c.modWave w (fun u => u.freeClock clock)) c2 else c2
            let c4 : Chip := { c3 with colls := tset c3.colls key { k with outcome := some st } }
            c4.freeCollWaits blk cid st)
          match k.bo with
          | none => s2
          | some t => s2.pbarArrive p t clock)

end Sys2Proof.Machine
end

