-- ==== Sys2Proof/Machine/Launch.lean ====
section
/-! DEFINITION. Launch records (R421 to R426) and what a block of one needs of a core (R17, R251, R445). -/

namespace Sys2Proof.Machine

open Sys2Proof

/-! ## Decoding (R421 to R425) -/

/-- A field of a record: `n` bits from bit `lo` of the word at byte `off`. -/
def recFld (r off lo n : Nat) : Nat := fld r (8 * off + lo) n

/-- The heap depth of a code (R424). -/
def heapDepthOf (k : Nat) : Nat :=
  match k with
  | 0 => 4 | 1 => 8 | 2 => 16 | _ => 64

/-- The settings of stage `s` (R424). -/
def stageOf (r s : Nat) : StageSet :=
  let f := fun lo n => recFld r (0x40 + 8 * s) lo n
  { waves := f 32 6, L := 8 * (f 38 5 + 1), D := 8 * f 43 9, U := f 52 6 + 1, prio := f 58 3, heap := heapDepthOf (f 61 2),
    entry := (recFld r 0 0 64 + f 0 32) % 2 ^ 64 }

/-- Window entry `w` (R425). -/
def winOf (r w : Nat) : WinEntry :=
  let f := fun lo n => recFld r (0x60 + 4 * w) lo n
  { nslot := f 25 6 + 1, fol := nbit (f 0 32) 24, off := f 0 19 }

/-- A record read from its 256 bytes. -/
def decodeRec (r : Nat) : LaunchRec :=
  let grid := recFld r 0x18 0 64
  { code := BitVec.ofNat 64 (recFld r 0 0 64), trapPc := BitVec.ofNat 64 (recFld r 8 0 64), hspill := BitVec.ofNat 64 (recFld r 0x10 0 64),
    nblocks := fld grid 0 24 + 1, csize := fld grid 24 5 + 1, tandem := nbit grid 32, fgear := nbit grid 33, fuseL1 := nbit grid 34,
    nothrot := nbit grid 35, pcoll := nbit grid 36, latency := nbit grid 37, gang := nbit grid 38 || nbit grid 33, restart := nbit grid 39,
    lsize := recFld r 0x20 0 32, acc := recFld r 0x20 32 9, narg := recFld r 0x28 0 6, nwin := recFld r 0x28 12 4, nbin := recFld r 0x28 16 9,
    rmir := recFld r 0x28 29 35, key := BitVec.ofNat 64 (recFld r 0x30 0 64), bintab := BitVec.ofNat 64 (recFld r 0x38 0 64),
    stages := (List.range 4).map (stageOf r), wins := (List.range (Nat.min 8 (recFld r 0x28 12 4))).map (winOf r),
    args := (List.range (Nat.min 32 (recFld r 0x28 0 6))).map (fun a => BitVec.ofNat 32 (recFld r (0x80 + 4 * a) 0 32)) }

/-! ## What a block needs (R17) -/

/-- The scratchpad bytes of a core that blocks share (R426). -/
def scratchBytes : Nat := 393216
/-- Waves of a block. -/
def LaunchRec.waves (k : LaunchRec) : Nat := (k.stages.map StageSet.waves).sum
/-- Lane registers of a block. -/
def LaunchRec.laneRegs (k : LaunchRec) : Nat := (k.stages.map (fun s => s.waves * s.L)).sum
/-- Scratchpad bytes of a block: allocation, resident heaps, register spill areas. -/
def LaunchRec.scratch (k : LaunchRec) : Nat := k.lsize + (k.stages.map (fun s => s.waves * (16 * s.heap + 136 * s.D))).sum

/-- The greatest number of blocks that fit an empty core (R445). -/
def LaunchRec.perCore (k : LaunchRec) : Nat :=
  if k.acc ≠ 0 then 1
  else Nat.min (Nat.min 8 (64 / k.waves)) (Nat.min (if k.laneRegs = 0 then 8 else 4096 / k.laneRegs)
    (if k.scratch = 0 then 8 else scratchBytes / k.scratch))

/-- KC (R445). -/
def LaunchRec.kc (k : LaunchRec) : Nat := if k.tandem then 2 * k.csize else (k.csize + k.perCore - 1) / Nat.max 1 k.perCore

/-- CLASS of R445: 0 bulk, 1 latency, 2 persistent collective. -/
def LaunchRec.cls (k : LaunchRec) : Nat := if k.pcoll then 2 else b2n k.latency

/-- The number of cohorts. -/
def LaunchRec.cohorts (k : LaunchRec) : Nat := (k.nblocks + k.csize - 1) / k.csize

/-! ## The checks (R426) -/

/-- DETAIL 1: a reserved bit or field is set, among them those that the record leaves unused. -/
def recReserved (r : Nat) : Bool :=
  let nwin := recFld r 0x28 12 4
  let narg := recFld r 0x28 0 6
  recFld r 0x18 40 24 ≠ 0 || recFld r 0x18 29 3 ≠ 0 || recFld r 0x20 41 23 ≠ 0 || recFld r 0x28 25 4 ≠ 0 || recFld r 0x28 6 6 ≠ 0 ||
  (List.range 4).any (fun s =>
    recFld r (0x40 + 8 * s) 63 1 ≠ 0 || recFld r (0x40 + 8 * s) 32 6 = 0 && recFld r (0x40 + 8 * s) 0 64 ≠ 0) ||
  (List.range 8).any (fun w =>
    recFld r (0x60 + 4 * w) 31 1 ≠ 0 || recFld r (0x60 + 4 * w) 19 5 ≠ 0 || nwin ≤ w && recFld r (0x60 + 4 * w) 0 32 ≠ 0) ||
  (List.range 32).any (fun a => narg ≤ a && recFld r (0x80 + 4 * a) 0 32 ≠ 0) ||
  recFld r 0x28 16 9 = 0 && recFld r 0x38 0 64 ≠ 0

/-- DETAIL 2: a value out of range or misaligned, or a forbidden combination. -/
def recRange (r : Nat) : Bool :=
  let k := decodeRec r
  256 < k.acc || 32 < k.narg || 8 < k.nwin || 256 < k.nbin || k.waves = 0 || 32 < k.waves ||
  k.stages.any (fun s => s.waves ≠ 0 && 4096 < s.D + s.L) || k.lsize % 128 ≠ 0 || k.code.toNat % 64 ≠ 0 || k.hspill.toNat % 512 ≠ 0 ||
  k.bintab.toNat % 32 ≠ 0 || k.wins.any (fun w => w.off % 128 ≠ 0 || w.nslot = 1) ||
  k.tandem && 16 < k.csize || k.pcoll && k.latency || k.fgear && k.nbin ≠ 0

/-- DETAIL 3: the entry of a stage with waves. A line that cannot be read is not checked here; the wave meets it at its fetch. -/
def Chip.recEntry (c : Chip) (asid : Nat) (r : Nat) : Bool :=
  (decodeRec r).stages.any (fun s => s.waves ≠ 0 && (fld s.entry 3 3 ≠ 0 || 4 < s.entry % 8 ||
    (match c.unitPeek asid (s.entry / 64 * 64) with
      | .ok (.dram pa) => (match c.lineMem pa with
        | some l => lineBad l || !nbit (lineWord l) (s.entry % 8)
        | none => false)
      | _ => false)))

/-- CAP of a class of a chip row (R446). -/
def ChipRow.cap (x : ChipRow) (k : Nat) : Nat :=
  match k with
  | 0 => x.capb | 1 => x.capl | _ => x.capp

/-- DETAIL 6: the pod could not hold the grid at once, or its collective partition is empty. -/
def Chip.recPod (c : Chip) (r : Nat) : Bool :=
  let k := decodeRec r
  let caps := (c.pel.rep.chips.filter (fun e => e.2.state = .alive)).map (fun e => e.2.cap k.cls)
  k.gang && (caps.map (fun n => n / k.kc)).sum < k.cohorts || k.pcoll && caps.all (· = 0)

/-- The lowest DETAIL that applies to a record; none where it passes (R426). -/
def Chip.checkRec (c : Chip) (asid : Nat) (r : Nat) : Option Nat :=
  let k := decodeRec r
  if recReserved r then some 1
  else if recRange r then some 2
  else if c.recEntry asid r then some 3
  else if 4096 < k.laneRegs || scratchBytes < k.scratch || 32 < k.kc then some 4
  else if k.wins.any (fun w => k.lsize < w.off + 16 + 8 * w.nslot || w.fol && !k.tandem) then some 5
  else if c.recPod r then some 6
  else none

end Sys2Proof.Machine
end

