-- ==== Sys2Proof/Machine/QueueEngine.lean ====
section
/-! DEFINITION. Queue engines (R428 to R437): where cohorts fit, admission of blocks, vacating, stealing, work-graph bins, the end of a grid
on a chip (R427). -/

namespace Sys2Proof.Machine

open Sys2Proof

/-! ## What cores hold (R17, R18, R251) -/

/-- Whether the resources of an ended block are free: its producers have completed and its array commands are performed (R184). -/
def Chip.blockOver (c : Chip) (k : Nat) (b : Block) : Bool :=
  b.ended && !c.prods.any (fun e => b.waves.contains e.2.wid) && !b.cores.any (fun n => (c.core n).aq.any (fun a => a.blk == k))

/-- The blocks that a core holds, as leader or follower. -/
def Chip.coreBlocks (c : Chip) (core : Nat) : List Block :=
  (c.blocks.filter (fun e => e.2.saved.isNone && e.2.cores.contains core && !c.blockOver e.1 e.2)).map (·.2)

/-- The launch record of a block: NODE's for a node block (R437). -/
def Chip.kernOfBlock (c : Chip) (b : Block) : Option LaunchRec :=
  match b.node with
  | some n => some n.kern
  | none => (c.grid? b.grow).map GridRun.kern

/-- A count over the blocks of a core. -/
def Chip.sumBlocks (c : Chip) (core : Nat) (f : LaunchRec → Nat) : Nat :=
  ((c.coreBlocks core).map (fun b => ((c.kernOfBlock b).map f).getD 0)).sum

/-- Whether a core has room for one block more, beside the cohort's blocks already given to it. -/
def Chip.coreRoom (c : Chip) (k : LaunchRec) (given : List Nat) (core : Nat) : Bool :=
  let here := c.coreBlocks core
  let n := given.count core + 1
  here.length + n ≤ 8 && c.sumBlocks core LaunchRec.waves + n * k.waves ≤ 64 &&
  c.sumBlocks core LaunchRec.laneRegs + n * k.laneRegs ≤ 4096 && c.sumBlocks core LaunchRec.scratch + n * k.scratch ≤ scratchBytes &&
  !here.any Block.tandem && (k.acc = 0 || n = 1 && here.all (fun b => b.acc = 0))

/-- Whether a core may hold blocks of a record: not retired; the collective partition for PCOLL grids alone; a reserved core for latency
blocks, and for bulk blocks not of fixed gear while no latency cohort is pending in the cluster (R383, R429, R479). -/
def Chip.permitted (c : Chip) (k : LaunchRec) (core : Nat) : Bool :=
  !(c.core core).retired && c.inPartition core == k.pcoll &&
  (k.pcoll || k.latency || !c.inReserve core || !k.fgear && (c.cluster (clusterOf core)).lat.isEmpty)

/-- The cores of a cluster. -/
def clusterCores (cl : Nat) : List Nat := (List.range 32).map (fun n => cl * 32 + n)

/-- The lowest permitted core of a cluster with room; for a tandem block the leader of the lowest pair that is wholly free (R430). -/
def Chip.pickCore (c : Chip) (cl : Nat) (k : LaunchRec) (given : List Nat) : Option Nat :=
  (clusterCores cl).find? (fun n =>
    if k.tandem then n % 2 = 0 && [n, n + 1].all (fun x => c.permitted k x && (c.coreBlocks x).isEmpty && !given.contains x)
    else c.permitted k n && c.coreRoom k given n)

/-- Cores for `n` blocks of a cohort at once, in rank order; none where one does not fit. -/
def Chip.assign (c : Chip) (cl : Nat) (k : LaunchRec) : Nat → List Nat → List Nat → Option (List Nat)
  | 0, _, out => some out
  | n + 1, given, out =>
    match c.pickCore cl k given with
    | none => none
    | some x => c.assign cl k n (given ++ (if k.tandem then [x, x + 1] else [x])) (out ++ [x])

/-- Whether a cluster holds no blocks (R80). -/
def Chip.clusterEmpty (c : Chip) (cl : Nat) : Bool := (clusterCores cl).all (fun n => (c.coreBlocks n).isEmpty)

/-! ## Work-graph bins (R434, R435) -/

/-- Bins of a cluster. -/
def binsPerCluster : Nat := 256

/-- Whether a cluster has the grid's bins, or room for them. -/
def Chip.binsFit (c : Chip) (cl : Nat) (g : GridRun) : Bool :=
  let u := c.cluster cl
  g.kern.nbin = 0 || u.bins.any (fun b => b.grow = g.grow) || u.bins.length + g.kern.nbin ≤ binsPerCluster

/-- The record of an access of a command processor or queue engine to an address of no page of its chip (R420). DESIGN CHOICE: CAUSE is 1 and LEVEL 0; the spec
names no cause for an address with another tag than the chip's. -/
def Chip.farFault (c : Chip) (addr asid : Nat) (k : AccessKind) (unit : Nat) : Chip :=
  if c.fqRoom then c.fqPut (faultRecord c (addr % 2 ^ 64) asid k 1 0 (statusWord (causeCode 1) unit c.chipId 0) 0 unit none c)
  else { c with fqovf := c.fqovf + 1 }

/-- Bytes of global memory as a unit of the chip reads them, page by page; none where one fails, with a record for a failed walk. `who` is the unit. -/
def State.unitBytes (s : State) (p who asid addr n unit : Nat) : State × Option (List Byte) :=
  if (s.chip p).offChip addr then (s.modChip p (fun c => c.farFault addr asid .unitRead unit), none)
  else (splitAt 4096 addr n).foldl (fun (acc : State × Option (List Byte)) e =>
    match acc.2 with
    | none => acc
    | some bs =>
      let t := acc.1.unitXlate p who asid e.1 .unitRead unit none
      match t.2 with
      | .error _ => (t.1, none)
      | .ok tg => (splitAt 128 e.1 e.2).foldl (fun (a : State × Option (List Byte)) l =>
          let r := a.1.unitGet p unit (tg.shift (l.1 - e.1)) l.2
          (r.1, a.2.bind (fun x => (r.2.toOption).map (fun y => x ++ y)))) (t.1, some bs)) (s, some [])

/-- The bin of a descriptor (R434), as a cluster's queue engine reads it; none where a reserved bit is set or its NODE record fails. -/
def State.loadBin (s : State) (p cl : Nat) (g : GridRun) (b : Nat) : State × Option Bin :=
  let r := s.unitBytes p (askRing cl) g.asid (g.kern.bintab.toNat + 32 * b) 32 0
  match r.2 with
  | none => (r.1, none)
  | some bs =>
    let d := ofLe bs
    let n := r.1.unitBytes p (askRing cl) g.asid (fld d 0 64) 256 0
    match n.2 with
    | none => (n.1, none)
    | some nb =>
      let w := ofLe nb
      let k := decodeRec w
      if fld d 138 22 ≠ 0 || fld d 192 64 ≠ 0 || fld d 64 64 % 64 ≠ 0 || fld d 0 64 % 256 ≠ 0 || k.nblocks ≠ 1 ||
        ((n.1.chip p).checkRec g.asid w).isSome then (n.1, none)
      else (n.1, some { grow := g.grow, num := b, timer := fld d 160 32, cnt := fld d 128 10 + 1, buf := BitVec.ofNat 64 (fld d 64 64),
                        node := k, tail := 0, pending := 0, held := 0, running := false })

/-- The bins of a grid at its first admission in a cluster; none where a descriptor fails. -/
def State.loadBins (s : State) (p cl : Nat) (g : GridRun) : State × Option (List Bin) :=
  (List.range g.kern.nbin).foldl (fun (acc : State × Option (List Bin)) b =>
    match acc.2 with
    | none => acc
    | some l =>
      let r := acc.1.loadBin p cl g b
      (r.1, r.2.map (fun x => l ++ [x]))) (s, some [])

/-- A batch of the `n` oldest pending records of a bin: a cohort of one node block in the cluster's list of the grid's class (R435, R437). -/
def Chip.launchBatch (c : Chip) (cl : Nat) (b : Bin) (n : Nat) : Chip :=
  let first := (b.tail + 1024 - b.pending) % 1024
  let left := b.pending - n
  let new := { b with pending := left, held := b.held + n, running := b.timer ≠ 0 && left ≠ 0 }
  let u := c.cluster cl
  let latency := ((c.grid? b.grow).map (fun g => g.kern.latency)).getD false
  let id := c.next
  let k : Cohort := { grow := b.grow, num := b.num * 1024 + first, rc := 512, first := b.num * 1024 + first, count := 1, cluster := cl,
                      status := .pending, blocks := [], order := 0,
                      node := some { bin := b.num, first := first, count := n, kern := b.node } }
  { c with next := id + 1, cohorts := tset c.cohorts id k }.setCluster cl
    { u with bins := u.bins.map (fun (x : Bin) => if x.grow = b.grow && x.num = b.num then new else x)
             lat := if latency then u.lat ++ [id] else u.lat
             bulk := if latency then u.bulk else u.bulk ++ [id] }

/-! ## Admission (R428, R430) -/

/-- NODE's record as a batch of a grid takes it: the class is the grid's (R383, R435, R436). -/
def LaunchRec.inClass (n g : LaunchRec) : LaunchRec := { n with latency := g.latency, pcoll := g.pcoll, fgear := g.fgear }

/-- The launch record and block count of a cohort: a vacated one has only its saved blocks to place. -/
def Chip.cohortNeed (c : Chip) (k : Cohort) : Option (LaunchRec × Nat) :=
  let rec_ := (c.grid? k.grow).map (fun g => match k.node with
    | some n => n.kern.inClass g.kern
    | none => g.kern)
  let n := match k.status with
    | .vacated => (k.blocks.filter (fun i => (tfind c.blocks i).any (fun b => b.saved.isSome))).length
    | _ => k.count
  rec_.map (fun r => (r, n))

/-- Where a cohort fits in a cluster (R430): its cores, none where it does not. -/
def Chip.fits (c : Chip) (cl : Nat) (k : Cohort) : Option (List Nat) :=
  match c.cohortNeed k, c.grid? k.grow with
  | some (r, n), some g =>
    if !(c.clusterEmpty cl || (c.cluster cl).fused == g.kern.fuseL1) || k.node.isNone && !c.binsFit cl g then none else c.assign cl r n [] []
  | _, _ => none

/-- The uniform registers of a new wave: the arguments, and for a node block its batch (R55, R425, R435). -/
def startArgs (k : LaunchRec) (node : Option (NodeInfo × DWord)) : List Word :=
  k.args ++ (match node with
    | none => []
    | some (n, buf) => [lo32 buf, hi32 buf, BitVec.ofNat 32 n.first, BitVec.ofNat 32 n.count])

/-- A new wave (R24, R55, R284, R357). -/
def newWave (grow blk core stage sw wno : Nat) (st : StageSet) (args : List Word) (dbg : Word) : Wave :=
  { grow := grow, blk := blk, core := core, stage := stage, swave := sw, wno := wno, L := st.L, D := st.D, U := st.U, prio := st.prio,
    vbase := 0, heapDepth := st.heap, slotA := some { pc := BitVec.ofNat 64 st.entry, mask := 0xFFFFFFFF, wbase := st.D, fresh := false, wait := .none },
    slotB := none, heap := [], heapRes := 0, issueA := SlotIssue.zero, issueB := SlotIssue.zero, v := [],
    s := ((args.take st.U).zip (List.range st.U)).foldl (fun t e => tset t e.2 { UReg.zero with val := e.1 }) [],
    p := [], i := [], h := [], flags := 0, cause := 0, epc := 0, emask := 0, einfo0 := 0, einfo1 := 0, einfo2 := 0, dbg := dbg, hslot := .A,
    clock := 0, turn := none, buf := [], inv := 0, region := none, ordSeq := [], score := 0, vtags := [],
    stepping := .none, arrayTrap := none, saved := none, ended := false }

/-- The stage, number within it, and settings of every wave of a block, in wave order (R19). -/
def wavePlan (k : LaunchRec) : List (Nat × Nat × StageSet) :=
  (k.stages.zip (List.range k.stages.length)).flatMap (fun e => (List.range e.1.waves).map (fun i => (e.2, i, e.1)))

/-- The allotments of a core's lane-register file (R58), one wave after another. DESIGN CHOICE: they are laid out anew as a block comes to the core, so
that a block for which the core has room by R17 always finds them. -/
def Chip.packRegs (c : Chip) (core : Nat) : Chip :=
  let ids := ((c.coreBlocks core).filter (fun b => b.core = core)).flatMap Block.waves
  { c with waves := (ids.foldl (fun (acc : Tbl Wave × Nat) i =>
      match tfind acc.1 i with
      | none => acc
      | some w => (tset acc.1 i { w with vbase := acc.2 }, acc.2 + w.L)) (c.waves, 0)).1 }

/-- The wave that holds a physical register of a core, and the logical register of its resident range that stands there (R58). -/
def Chip.laneReg (c : Chip) (core n : Nat) : Option (Nat × Nat) :=
  ((c.waves.filter (fun e => e.2.core = core && !e.2.ended && e.2.saved.isNone)).find? (fun e =>
    e.2.vbase ≤ n && n < e.2.vbase + e.2.L)).bind (fun e =>
      ((List.range e.2.L).find? (fun i => e.2.vbase + (e.2.low + i) % e.2.L = n)).map (fun i => (e.1, e.2.low + i)))

/-- A new allocation, or its follower part (R428): the headers and state words of the windows in it are zero; the rest is undefined, and free
values stand there. -/
def newPart (tick id : Nat) (fol : Bool) (r : LaunchRec) : Memory :=
  let key := (tick * 2 ^ 20 + id) * 2 ^ 21 + b2n fol * 2 ^ 20
  let open_ := memPut [] 0 ((List.range r.lsize).map (fun i => Config.freeByte (key + i)))
  (r.wins.filter (fun w => w.fol == fol)).foldl (fun m w => memPut m w.off (List.replicate (16 + 8 * w.nslot) 0)) open_

/-- A core takes a block in: stale lines leave the L1 that it looks up, as at an acquire of chip scope (R97, R435), and the registers are allotted. -/
def Chip.takeIn (c : Chip) (b : Block) : Chip := (b.cores.foldl (fun c n => c.acquire n 3) c).packRegs b.core

/-- Admits one block (R428): its waves, its allocation with its window words, and with ACC rows an array in its first state (R251). -/
def Chip.admitBlock (c : Chip) (tick : Nat) (k : Cohort) (r : LaunchRec) (block crank core : Nat) : Chip × Nat :=
  let id := c.next
  let plan := wavePlan r
  let ids := (List.range plan.length).map (fun i => id + 1 + i)
  let buf := match k.node with
    | none => none
    | some n => ((c.cluster (clusterOf core)).bins.find? (fun b => b.grow = k.grow && b.num = n.bin)).map (fun b => (n, b.buf))
  let args := startArgs r buf
  let dbg := (((c.dbgAll.filter (fun e => e.1 = k.grow)).getLast?).map (·.2)).getD 0
  let waves := ((plan.zip ids).zip (List.range plan.length)).foldl (fun t e =>
    tset t e.1.2 (newWave k.grow id core e.1.1.1 e.1.1.2.1 e.2 e.1.1.2.2 args dbg)) c.waves
  let b : Block := { grow := k.grow, block := block, cohort := k.num, crank := crank, core := core, tandem := r.tandem, lsize := r.lsize,
                     acc := r.acc, mem := newPart tick id false r, folMem := if r.tandem then newPart tick id true r else [], bars := [],
                     waves := ids, node := k.node, saved := none, ended := false }
  let c1 : Chip := { c with next := id + 1 + plan.length, waves := waves, blocks := tset c.blocks id b }
  ((if r.acc = 0 then c1 else b.cores.foldl (fun c n =>
    let x := c.core n
    c.setCore n { x with acc := [], sums := [], banks := [], aq := [], retry := 0 }) c1).takeIn b, id)

/-- A vacated block comes back on a core. DESIGN CHOICE: where a line of a slot is poisoned its grid faults, with CAUSE 0, so that what cannot be read is
not taken as good (R13, R478). -/
def Chip.resumeBlock (c : Chip) (k core : Nat) : Chip :=
  let lost := ((tfind c.blocks k).bind Block.saved).any (fun e => c.slotLost e.1 || c.slotLost e.2)
  let c1 := c.restoreBlock k core
  match tfind c1.blocks k with
  | none => c1
  | some b => if lost then (c1.takeIn b).gridFault b.grow 0 else c1.takeIn b

/-- The L1 mode of a cluster as it admits a cohort (R80): it changes only while the cluster holds no blocks, and the lines of the other mode go. -/
def Chip.setFused (c : Chip) (cl : Nat) (fused : Bool) : Chip :=
  let u := c.cluster cl
  if !c.clusterEmpty cl || u.fused = fused then c
  else (clusterCores cl).foldl (fun c n => c.setCore n { c.core n with l1 := [] }) (c.setCluster cl { u with fused := fused })

/-- Takes a cohort off the pending lists of a cluster. -/
def Chip.unlist (c : Chip) (cl id : Nat) : Chip :=
  let u := c.cluster cl
  c.setCluster cl { u with lat := u.lat.filter (· ≠ id), bulk := u.bulk.filter (· ≠ id) }

/-- Puts a cohort, or resumes a vacated one, on the cores that were found for it (R428, R483). -/
def Chip.admitCohort (c : Chip) (tick cl id : Nat) (k : Cohort) (cores : List Nat) : Chip :=
  match c.cohortNeed k, c.grid? k.grow with
  | some (r, _), some g =>
    let c0 := (c.setFused cl g.kern.fuseL1).unlist cl id
    let done := fun (c : Chip) (ids : List Nat) =>
      { c with next := c.next + 1, cohorts := tset c.cohorts id { k with status := .resident, cluster := cl, blocks := ids, order := c.next } }
    match k.status with
    | .vacated =>
      let saved := k.blocks.filter (fun i => (tfind c.blocks i).any (fun b => b.saved.isSome))
      done ((saved.zip cores).foldl (fun c e => c.resumeBlock e.1 e.2) c0) k.blocks
    | _ =>
      let out := (cores.zip (List.range cores.length)).foldl (fun (acc : Chip × List Nat) e =>
        let x := acc.1.admitBlock tick k r (k.first + e.2) e.2 e.1
        (x.1, acc.2 ++ [x.2])) (c0, [])
      done out.1 out.2
  | _, _ => c

/-- In fixed gear, whether every block of the grid is admitted on every chip that runs a part of it (R356). A chip that has yet to apply the loss of another
still sees that one's range, which runs nowhere (R371). -/
def State.gridAdmitted (s : State) (grow : Nat) : Bool :=
  s.chips.all (fun e => !e.2.online ||
    !e.2.cohorts.any (fun k => k.2.grow = grow && k.2.status = .pending) &&
    ((e.2.grid? grow).isNone || e.2.pel.rep.places.all (fun r => r.1 / 512 ≠ grow || r.2.state ≠ .running || (s.pkgOf r.2.exec).any (fun q =>
      (s.chip q).online && (s.chip q).cohorts.any (fun k => k.2.grow = grow && k.2.rc = r.1 % 512)))))

/-- A grid whose every block is admitted may issue. -/
def State.goLive (s : State) (grow : Nat) : State :=
  if s.gridAdmitted grow then
    { s with chips := tmap s.chips (fun _ c => { c with grids := tmod c.grids grow (fun g => { g with live := true }) }) }
  else s

/-- Admits a cohort where it fits; the first of a grid in a cluster brings its bins, and a bad descriptor faults the grid. -/
def State.tryAdmit (s : State) (p cl id : Nat) : State :=
  let c := s.chip p
  match tfind c.cohorts id with
  | none => s
  | some k =>
    match c.fits cl k, c.grid? k.grow with
    | some cores, some g =>
      let u := c.cluster cl
      if k.node.isSome || g.kern.nbin = 0 || u.bins.any (fun b => b.grow = k.grow) then
        (s.setChip p (c.admitCohort s.tick cl id k cores)).goLive k.grow
      else
        let r := s.loadBins p cl g
        match r.2 with
        | none =>
          r.1.modChip p (fun c =>
            (({ c with cohorts := tset c.cohorts id { k with status := .finished } } : Chip).unlist cl id).gridFault k.grow 1)
        | some bins =>
          (r.1.modChip p (fun c =>
            (c.setCluster cl { c.cluster cl with bins := (c.cluster cl).bins ++ bins }).admitCohort s.tick cl id k cores)).goLive k.grow
    | _, _ => s

/-- The cluster with the fewest pending cohorts among those that `ok` admits, the lowest number among equals. -/
def Chip.fewest (c : Chip) (ok : Nat → Bool) : Option Nat :=
  let load := fun (n : Nat) => (c.cluster n).lat.length + (c.cluster n).bulk.length
  ((List.range 16).filter ok).foldl (fun m n =>
    match m with
    | none => some n
    | some j => if load n < load j then some n else m) none

/-- The cohorts of a row that wait for their first admission, in the order of their numbers. -/
def Chip.rowPending (c : Chip) (g rc : Nat) : List Nat :=
  (c.cohorts.filter (fun e => e.2.grow = g && e.2.rc = rc && e.2.status = .pending)).map (·.1)

/-- Whether nothing but cohorts of `ids` stands in front of a new admission in a cluster (R430). -/
def Chip.gangOpen (c : Chip) (ids : List Nat) (latency : Bool) (cl : Nat) : Bool :=
  let u := c.cluster cl
  let first := fun (l : List Nat) => l.head?.all ids.contains
  first u.lat && (latency || u.lat.isEmpty && first u.bulk)

/-- The cluster that admits a cohort of a gang: the one in whose list it stands (R427), where it fits. -/
def Chip.gangCluster (c : Chip) (ids : List Nat) (k : Cohort) (latency : Bool) : Option Nat :=
  if c.gangOpen ids latency k.cluster && (c.fits k.cluster k).isSome then some k.cluster else none

/-- Admits one cohort of a gang; none where it does not fit. -/
def State.admitMember (p : Nat) (ids : List Nat) (latency : Bool) (acc : Option State) (id : Nat) : Option State :=
  acc.bind (fun s =>
    let c := s.chip p
    match tfind c.cohorts id with
    | none => some s
    | some k => (c.gangCluster ids k latency).map (fun cl => (s.setChip p (c.unlist k.cluster id)).tryAdmit p cl id))

/-- Admits the cohorts of a gang on a chip, all at once or none (R433, R356), each in the cluster that R427 has given it. -/
def State.admitGang (s : State) (p g rc : Nat) : State :=
  let c := s.chip p
  let ids := c.rowPending g rc
  let latency := (c.grid? g).any (fun x => x.kern.latency)
  (ids.foldl (State.admitMember p ids latency) (some s)).getD s

/-- Admits the head of a list: with a gang that waits for its first admission, the whole of it. -/
def State.admitHead (s : State) (p cl id : Nat) : State :=
  let c := s.chip p
  match tfind c.cohorts id with
  | none => s
  | some k =>
    if k.status = .pending && k.node.isNone && (c.grid? k.grow).any (fun g => g.kern.gang) then s.admitGang p k.grow k.rc
    else s.tryAdmit p cl id

/-- COHORT_ADMIT (R430): the head of the latency list, and only where that is empty the head of the bulk list. -/
def execCohortAdmit (p cluster : Nat) (s : State) : Host.Outcome State Fault Refusal :=
  let u := (s.chip p).cluster cluster
  .next (s.unitStep (match u.lat, u.bulk with
    | id :: _, _ => s.admitHead p cluster id
    | [], id :: _ => s.admitHead p cluster id
    | [], [] => s))

/-! ## Vacating (R431, R432, R479) -/

/-- Whether a cohort is bulk work that holds a reserved core of a cluster as a borrower. One with a block on a core of the collective partition, which is
never vacated for class, is none (R429). -/
def Chip.borrows (c : Chip) (cl : Nat) (k : Cohort) : Bool :=
  k.status = .resident && k.cluster = cl &&
  ((c.grid? k.grow).any (fun g => !g.kern.latency && !g.kern.pcoll && !g.kern.fgear)) &&
  let holds := fun (f : Nat → Bool) => k.blocks.any (fun i => (tfind c.blocks i).any (fun b => !c.blockOver i b && b.cores.any f))
  holds c.inReserve && !holds c.inPartition

/-- The borrower to vacate: the one admitted last. -/
def Chip.borrower (c : Chip) (cl : Nat) : Option (Nat × Cohort) :=
  (c.cohorts.filter (fun e => c.borrows cl e.2)).foldl (fun m e =>
    match m with
    | none => some e
    | some x => if x.2.order < e.2.order then some e else some x) none

/-- COHORT_VACATE (R431): one borrower gives up its cores to the latency cohort that does not fit, once its accepted invocations are
delivered, its waves' stores and every store to its blocks' local memory are performed (R100), and if the save pool has a slot for every part. -/
def execCohortVacate (p cluster : Nat) (s : State) : Host.Outcome State Fault Refusal :=
  let c := s.chip p
  let u := c.cluster cluster
  .next (match u.lat.head?.bind (tfind c.cohorts), c.borrower cluster with
    | some head, some (id, k) =>
      let live := k.blocks.filter (fun i => (tfind c.blocks i).any (fun b => !c.blockOver i b))
      let parts := (live.map (fun i => ((tfind c.blocks i).map (fun b => b.cores.length)).getD 0)).sum
      let waves := live.flatMap (fun i => ((tfind c.blocks i).map Block.waves).getD [])
      let busy := c.clusters.any (fun e => e.2.fit.queue.any (fun q => waves.contains q.wid)) || c.pend.any (fun a => waves.contains a.wid || (match a.tgt with
        | .loc k _ _ => live.contains k
        | _ => false))
      if (c.fits cluster head).isSome || c.freeSlots.length < parts || busy then s
      else
        let stalled := fun (w : Wave) (sl : Slot) => Wave.stalled (s.cpOf p w) false w sl
        let c1 := live.foldl (fun c i => c.saveBlock stalled i) c
        let v := c1.cluster cluster
        s.setChip p ({ c1 with cohorts := tset c1.cohorts id { k with status := .vacated } }.setCluster cluster { v with bulk := id :: v.bulk })
    | _, _ => s)

/-! ## Stealing (R433) -/

/-- STEAL_REQUEST (R433): a core that holds no block, in a cluster with nothing pending. -/
def execStealRequest (p core : Nat) (s : State) : Host.Outcome State Fault Refusal :=
  .next (s.modChip p (fun c =>
    let u := c.cluster (clusterOf core)
    if 512 ≤ core || (c.core core).retired || !(c.coreBlocks core).isEmpty || !u.lat.isEmpty || !u.bulk.isEmpty || c.steals.any (fun r => r.core = core)
    then c
    else
      let k := c.core core
      let x := if k.lfsr.getLsbD 0 then k.lfsr >>> 1 ^^^ 0xB400 else k.lfsr >>> 1
      ({ c with steals := c.steals ++ [{ core := core, victim := (clusterOf core + 1 + x.toNat % 15) % 16 }] } : Chip).setCore core
        { k with lfsr := x }))

/-- The cohort that a victim gives a thief's cluster: its bulk list's tail, else its latency list's, where it fits there. A cohort of a
gang, and a batch of a bin, stays. -/
def Chip.stealable (c : Chip) (victim thief : Nat) : Option (Nat × Cohort × List Nat) :=
  let v := c.cluster victim
  let take := fun (l : List Nat) =>
    match l.getLast? with
    | none => none
    | some id => (tfind c.cohorts id).bind (fun k =>
        if k.node.isSome || (c.grid? k.grow).any (fun g => g.kern.gang) then none else (c.fits thief k).map (fun x => (id, k, x)))
  match take v.bulk with
  | some x => some x
  | none => take v.lat

/-- STEAL_ANSWER (R433). -/
def execStealAnswer (p idx : Nat) (s : State) : Host.Outcome State Fault Refusal :=
  let c := s.chip p
  .next (match c.steals[idx]? with
    | none => s
    | some r =>
      let thief := clusterOf r.core
      let c1 := { c with steals := c.steals.eraseIdx idx }
      match c1.stealable r.victim thief with
      | none => s.setChip p c1
      | some (id, _, _) => s.unitStep ((s.setChip p (c1.unlist r.victim id)).tryAdmit p thief id))

/-! ## `qemit` and the timers (R248, R435) -/

/-- `qemit d, a, b` (R248): the record goes into BUF before it counts as pending; a batch that is complete launches at once. A record in which an uncorrectable
error stands is trapped on, and none is pending (R13, R498). DESIGN CHOICE: where the slot of BUF does not translate, lies on another chip or in a poisoned line, d
receives XLATE, PROT or POISON with UNIT 0, and the record is not pending; the spec does not say. -/
def execQemit (o : Ops) (s : State) : Host.Outcome State Fault Refusal :=
  issue (formQemit o) o s (once (fun x s =>
    let num := (x.word .a x.low 0).toNat % 256
    match x.localTargets [(x.low, (x.word .b x.low 0).toNat)] 64 64 with
    | .error t => .trap t
    | .ok ts =>
      let cl := clusterOf x.w.core
      let g := x.c.grid? x.w.grow
      let reply := fun (s : State) (v : Word) => Eff.done (s.modChip x.p (fun c => c.modWave x.wid (x.put 1 (fun _ _ => v))))
      match (x.c.cluster cl).bins.find? (fun b => b.grow = x.w.grow && b.num = num) with
      | none => reply s (statusWord codeReject 0 x.c.chipId 2)
      | some b =>
        if 1024 ≤ b.pending + b.held then reply s (statusWord codeReject 0 x.c.chipId 1)
        else if ts.any (fun t => x.c.badAt t.2 64) then .trap (x.badWord ((ts.map (·.2)).headD (.loc x.w.blk false 0)) 64)
        else if x.arrayHolds false ts 64 || x.c.pend.any (fun a => a.own x.wid x.q.mask && ts.any (fun t => a.tgt.overlaps a.size t.2 64)) then .wait s
        else
          let bytes := ((ts.head?.map (·.2)).bind (fun t => s.readTgt x.p t 64)).getD []
          let asid := (g.map GridRun.asid).getD 0
          let at_ := b.buf.toNat + 64 * b.tail
          if x.c.offChip at_ then reply (s.modChip x.p (fun c => c.farFault at_ asid .unitWrite 0)) (statusWord codeXlate 0 x.c.chipId 0)
          else
            let r := s.unitXlate x.p (askWave x.wid) asid at_ .unitWrite 0 (some x.w)
            let s1 := s.unitStep r.1
            if !r.1.asks.isEmpty then .wait s1 else
            match r.2 with
            | .error st => reply s1 st
            | .ok t =>
              let w := s1.writeTgt x.p t bytes
              if !w.2 then reply w.1 (statusWord codePoison 0 x.c.chipId 0)
              else
                let b1 := { b with tail := (b.tail + 1) % 1024, pending := b.pending + 1, running := b.running || b.pending = 0 && b.timer ≠ 0 }
                reply (w.1.modChip x.p (fun c =>
                  let u := c.cluster cl
                  let c1 := c.setCluster cl { u with bins := u.bins.map (fun y => if y.grow = b.grow && y.num = b.num then b1 else y) }
                  if b1.pending = b1.cnt then c1.launchBatch cl b1 b1.cnt else c1)) 0))

/-- BIN_TIMER_EXPIRY (R435): every pending record launches as one batch. `bin` is a place in the cluster's list. -/
def execBinTimerExpiry (p cluster bin : Nat) (s : State) : Host.Outcome State Fault Refusal :=
  .next (s.modChip p (fun c =>
    match (c.cluster cluster).bins[bin]? with
    | none => c
    | some b => if b.running && b.pending ≠ 0 then c.launchBatch cluster b b.pending else c))

/-! ## The end of a row's blocks (R427, R436) -/

/-- Whether a proposal of the chip is on its way (R440). -/
def Chip.proposing (c : Chip) (ty payload : Nat) : Bool :=
  (c.pel.props ++ c.pel.outstanding).any (fun r => fld r.toNat 128 4 = ty && fld r.toNat 160 352 = payload)

/-- Whether everything a wave has stored or sent is performed, as a pod-scope release waits for it. -/
def Chip.waveDrained (c : Chip) (wid : Nat) : Bool :=
  !c.pend.any (fun a => a.wid == wid) && !c.prods.any (fun e => e.2.wid == wid) && !c.copies.any (fun k => k.wid == wid) &&
  (c.arrayCmds wid).isEmpty && ((tfind c.waves wid).map (fun w => w.buf.isEmpty)).getD true

/-- GRID_CHIP_FINISH (R427, R450): a row that this chip executes has ended and the grid's bins are empty: FINISH is proposed, once. -/
def execGridChipFinish (p grow rc : Nat) (s : State) : Host.Outcome State Fault Refusal :=
  .next (s.modChip p (fun c =>
    match c.grid? grow with
    | none => c
    | some g =>
      let row := tget PlaceRow.empty c.pel.rep.places (grow * 512 + rc)
      let mine := c.cohorts.filter (fun e => e.2.grow = grow && e.2.rc = rc)
      let payload := rc * 2 ^ 44 + g.ggen.toNat * 2 ^ 12 + grow
      let over_ := mine.all (fun e => !e.2.blocks.isEmpty && e.2.blocks.all (fun i => (tfind c.blocks i).all (fun b =>
        b.ended && b.waves.all c.waveDrained)))
      let nodes := (c.cohorts.filter (fun e => e.2.grow = grow && e.2.node.isSome)).all (fun e => e.2.blocks.all (fun i =>
        (tfind c.blocks i).all (fun b => b.ended && b.waves.all c.waveDrained)))
      let bins := c.clusters.all (fun e => e.2.bins.all (fun b => b.grow ≠ grow || b.pending = 0 && b.held = 0))
      if row.state = .running && row.exec = c.chipId && !mine.isEmpty && over_ && nodes && bins && !mine.all (fun e => e.2.status = .finished) &&
          !c.proposing 1 payload
      then { c with cohorts := tmap c.cohorts (fun _ k => if k.grow = grow && k.rc = rc then { k with status := .finished } else k) }.propose 1
        payload
      else c))

end Sys2Proof.Machine
end

