-- ==== Sys2Proof/Machine/Stream.lean ====
section
/-! DEFINITION. Stream contexts: what a command reads and writes (R321 to R332), the 24 stream commands, and the events of stream
engines (R310 to R312, R317 to R320, R326, R329). A command acts on the context that `State.scur` names. -/

namespace Sys2Proof.Machine

open Sys2Proof

/-! ## A context -/

/-- A stream register. -/
def Ctx.reg (x : Ctx) (n : BitVec 4) : DWord := tget 0 x.q n.toNat
/-- Writes a stream register. -/
def Ctx.setReg (x : Ctx) (n : BitVec 4) (v : DWord) : Ctx := { x with q := tset x.q n.toNat v }
/-- On to the next command. -/
def Ctx.next (x : Ctx) : Ctx := { x with ptr := x.ptr + 8 }
/-- TAG of the records of a context (R329). -/
def Ctx.tag (x : Ctx) : Word := lo32 (x.reg 15)
/-- Commands in flight (R324). -/
def Ctx.flying (x : Ctx) : Nat := x.cmds.length

/-- The block of a rank in a context's cohort. -/
def Chip.ctxBlock (c : Chip) (x : Ctx) (rank : Nat) : Option (Nat × Block) := (c.ctxOwner x).bind (fun b => c.rankBlock b rank)

/-- The cluster that holds a context's cohort (R329). -/
def Chip.ctxCluster (c : Chip) (x : Ctx) : Nat :=
  match (c.ctxOwner x).bind (fun b => if b.node.isSome then some (clusterOf b.core)
      else (c.cohorts.find? (fun e => e.2.grow = b.grow && e.2.num = b.cohort && e.2.node.isNone)).map (fun e => e.2.cluster)) with
  | some k => k
  | none => x.cluster

/-- A completion record of a context (R329). -/
def Chip.ctxRecord (c : Chip) (v : Nat) (x : Ctx) (tag count status : Word) : Chip :=
  c.record (c.ctxCluster x) (some x.grow) tag count status 2 v

/-- REJECT of a stream engine (R330). -/
def Chip.ctxReject (c : Chip) (detail : Nat) : Word := statusWord codeReject 2 c.chipId detail

/-! ## Global memory as an engine reaches it -/

/-- What a range of global memory gives an engine: the bytes, zero where they failed, the first status word met, and whether a byte lies
off the chip, which a page of host memory does (R322, R331). -/
structure StreamRead where
  s : State
  bytes : List Byte
  status : Word
  off : Bool

/-- The first of two statuses that is not zero. -/
def firstStatus (a b : Word) : Word := if a = 0 then b else a

/-- Whether a range of global addresses is not one of the chip. -/
def Chip.rangeOff (c : Chip) (a n : Nat) : Bool := c.offChip a || 2 ^ 48 < a % 2 ^ 48 + n

/-- Reads a range, page by page for translation and line by line for poison; `who` is the context. -/
def State.streamRead (s : State) (p who : Nat) (x : Ctx) (addr n : Nat) : StreamRead :=
  if (s.chip p).rangeOff addr n then { s := s, bytes := List.replicate n 0, status := 0, off := true }
  else (splitAt 4096 addr n).foldl (fun (r : StreamRead) e =>
    let t := r.s.unitXlate p who x.asid e.1 .unitRead 2 (tfind (r.s.chip p).waves x.wid)
    match t.2 with
    | .error st => { r with s := t.1, bytes := r.bytes ++ List.replicate e.2 0, status := firstStatus r.status st }
    | .ok (.host _) => { r with s := t.1, bytes := r.bytes ++ List.replicate e.2 0, off := true }
    | .ok tg => (splitAt 128 e.1 e.2).foldl (fun (r : StreamRead) l =>
        match r.s.unitRead p 2 (tg.shift (l.1 - e.1)) l.2 with
        | .ok bs => { r with bytes := r.bytes ++ bs }
        | .error st => { r with bytes := r.bytes ++ List.replicate l.2 0, status := firstStatus r.status st }) { r with s := t.1 })
    { s := s, bytes := [], status := 0, off := false }

/-- Writes a range; `host` where the address may lie in host memory (R322). -/
def State.streamWrite (s : State) (p who : Nat) (x : Ctx) (host : Bool) (addr : Nat) (bs : List Byte) : StreamRead :=
  if (s.chip p).rangeOff addr bs.length then { s := s, bytes := [], status := 0, off := true }
  else (splitAt 4096 addr bs.length).foldl (fun (r : StreamRead) e =>
    let t := r.s.unitXlate p who x.asid e.1 .unitWrite 2 (tfind (r.s.chip p).waves x.wid)
    match t.2 with
    | .error st => { r with s := t.1, status := firstStatus r.status st }
    | .ok tg =>
      if !host && (tg matches .host _) then { r with s := t.1, off := true }
      else (splitAt 128 e.1 e.2).foldl (fun (r : StreamRead) l =>
        let u := r.s.unitWrite p 2 (tg.shift (l.1 - e.1)) none ((bs.drop (l.1 - addr)).take l.2)
        { r with s := u.1, status := firstStatus r.status u.2 }) { r with s := t.1 })
    { s := s, bytes := [], status := 0, off := false }

/-! ## Running a command -/

/-- What a command does: it has run, and the context stands as given; it waits; it fails, which ends the context. -/
inductive CmdEff
  | ran (s : State) (x : Ctx)
  | held
  | fail (s : State) (status : Word)

/-- The failure that a read or write gives a context, if any: DETAIL 4 off the chip, else the status met (R322, R332). -/
def StreamRead.failed (r : StreamRead) (p : Nat) : Option CmdEff :=
  if r.off then some (.fail r.s ((r.s.chip p).ctxReject 4)) else if r.status ≠ 0 then some (.fail r.s r.status) else none

/-- The engine's view of the command at the head of a context: package, vault, context number, state of the context. -/
structure At where
  p : Nat
  v : Nat
  k : Nat
  x : Ctx

/-- The context as the walkers know it. -/
def At.who (a : At) : Nat := askCtx a.v a.k

/-- Ends the context with REJECT. -/
def At.reject (a : At) (s : State) (detail : Nat) : CmdEff := .fail s ((s.chip a.p).ctxReject detail)

/-- A command at the head of the context of `State.scur`: none runs in a context that is ending, an armed one waits until it is released
(R319), one that needs a translation which is not ready waits for it (R470), and one that runs is counted (R329). `arming` is set for `arm` alone. -/
def onCtx (s : State) (arming : Bool) (f : At → State → CmdEff) : Host.Outcome State Fault Refusal :=
  let p := s.scur.1
  let v := s.scur.2.1
  let k := s.scur.2.2
  let e := (s.chip p).engine v
  let x := e.context k
  if !x.busy then .fault .noContext
  else if x.ending.isSome || x.halted || !(s.chip p).ctxAlive x then .next s
  else
    let y := if arming || x.arms.isEmpty then x else { x with arms := [], armed := e.stillArmed (x.arms.map (fun a => (a.1, a.2, false))) }
    if !y.armed.isEmpty then .next (s.modChip p (fun c => (c.setCtx v k y).lookArmed v k))
    else match f { p := p, v := v, k := k, x := y } s with
      | .ran t z => .next (s.unitStep (t.modChip p (fun c => c.setCtx v k { z with count := z.count + 1 })))
      | .held => .next (s.modChip p (fun c => c.setCtx v k y))
      | .fail t st => .next (s.unitStep (t.modChip p (fun c => c.setCtx v k (y.fail st))))

/-- A command that changes nothing but its context. -/
def plainCmd (s : State) (f : Ctx → Ctx) : Host.Outcome State Fault Refusal := onCtx s false (fun a s => .ran s (f a.x))

/-- `snop`. -/
def execSnop (s : State) : Host.Outcome State Fault Refusal := plainCmd s Ctx.next

/-- `setq`. -/
def execSetq (qd : BitVec 4) (imm : BitVec 48) (s : State) : Host.Outcome State Fault Refusal :=
  plainCmd s (fun x => (x.setReg qd (imm.setWidth 64)).next)

/-- `setqh`. -/
def execSetqh (qd : BitVec 4) (imm : BitVec 16) (s : State) : Host.Outcome State Fault Refusal :=
  plainCmd s (fun x => (x.setReg qd (BitVec.ofNat 64 (imm.toNat * 2 ^ 48 + (x.reg qd).toNat % 2 ^ 48))).next)

/-- `addq`. -/
def execAddq (qd qs : BitVec 4) (imm : BitVec 48) (s : State) : Host.Outcome State Fault Refusal :=
  plainCmd s (fun x => (x.setReg qd (x.reg qs + imm.signExtend 64)).next)

/-- The address q_A + OFF. -/
def Ctx.addr (x : Ctx) (qa : BitVec 4) (off : Word) : Nat := (x.reg qa + off.signExtend 64).toNat

/-- `ldq`. -/
def execLdq (qd qa : BitVec 4) (off : Word) (s : State) : Host.Outcome State Fault Refusal :=
  onCtx s false (fun a s =>
    let ad := a.x.addr qa off
    if ad % 8 ≠ 0 then a.reject s 5
    else if 16 ≤ a.x.flying then .held
    else
      let r := s.streamRead a.p a.who a.x ad 8
      match r.failed a.p with
      | some e => e
      | none => .ran r.s (a.x.setReg qd (BitVec.ofNat 64 (ofLe r.bytes))).next)

/-- `stq`. -/
def execStq (qs qa : BitVec 4) (off : Word) (s : State) : Host.Outcome State Fault Refusal :=
  onCtx s false (fun a s =>
    let ad := a.x.addr qa off
    if ad % 8 ≠ 0 then a.reject s 5
    else if 16 ≤ a.x.flying then .held
    else
      let r := s.streamWrite a.p a.who a.x false ad (leBytes 8 (a.x.reg qs).toNat)
      match r.failed a.p with
      | some e => e
      | none => .ran r.s a.x.next)

/-! ## Tensor layouts (R313 to R315) -/

/-- RANK of a layout record. -/
def layRank (l : Nat) : Nat := fld l 68 2
/-- Bits of an element. -/
def layBits (l : Nat) : Nat := 4 * 2 ^ fld l 64 4
/-- EXT, TILE and STRIDE of dimension `d`; above RANK it counts as extent 1 and tile 1. -/
def layExt (l d : Nat) : Nat := if layRank l < d then 1 else fld l (128 + 96 * d) 32
/-- See `layExt`. -/
def layTile (l d : Nat) : Nat := if layRank l < d then 1 else fld l (128 + 96 * d + 64) 16
/-- See `layExt`. -/
def layStride (l d : Nat) : Int := if layRank l < d then 0 else asSigned 32 (fld l (128 + 96 * d + 32) 32)

/-- Whether a record is malformed (R313). -/
def Chip.layBad (c : Chip) (l : Nat) : Bool :=
  fld l 70 58 ≠ 0 || 4 < fld l 64 4 || fld l 0 64 % 16 ≠ 0 || c.offChip (fld l 0 64) ||
  (List.range 4).any (fun d =>
    if layRank l < d then fld l (128 + 96 * d) 96 ≠ 0
    else fld l (128 + 96 * d + 80) 16 ≠ 0 || layExt l d = 0 || layTile l d = 0 || fld l (128 + 96 * d + 32) 32 % 16 ≠ 0 ||
      d = 0 && fld l (128 + 32) 32 ≠ 0) ||
  layTile l 0 * layBits l % 128 ≠ 0

/-- P, R and B of a tile image (R315). -/
def tilePitch (l : Nat) : Nat := layTile l 0 * layBits l / 8
/-- See `tilePitch`. -/
def tileRowCount (l : Nat) : Nat := layTile l 1 * layTile l 2 * layTile l 3
/-- See `tilePitch`. -/
def tileSize (l : Nat) : Nat := tilePitch l * tileRowCount l

/-- The rows of a tile from `lo` to below `hi` that hold elements of the tensor (R314): row, address of its first element, bits of it
that lie inside. -/
def tileRowsIn (l : Nat) (j : List (BitVec 16)) (lo hi : Nat) : List (Nat × Nat × Nat) :=
  let jx := fun d => (j.getD d 0).toNat * layTile l d
  let inside := Nat.min (layTile l 0) (layExt l 0 - jx 0)
  (List.range (hi - lo)).filterMap (fun i =>
    let row := lo + i
    let c1 := jx 1 + row % layTile l 1
    let c2 := jx 2 + row / layTile l 1 % layTile l 2
    let c3 := jx 3 + row / layTile l 1 / layTile l 2
    if inside = 0 || layExt l 1 ≤ c1 || layExt l 2 ≤ c2 || layExt l 3 ≤ c3 then none
    else some (row, modPow ((fld l 0 64 : Int) + ((jx 0 * layBits l / 8 : Nat) : Int) + c1 * layStride l 1 + c2 * layStride l 2 +
      c3 * layStride l 3) 64, inside * layBits l))

/-- Clears the bits of the last byte that lie beyond `bits`. -/
def trimBits (bits : Nat) (bs : List Byte) : List Byte :=
  if bits % 8 = 0 then bs else bs.set (bits / 8) (BitVec.ofNat 8 ((bs.getD (bits / 8) 0).toNat % 16))

/-- `layout` (R313). -/
def execLayout (sl : BitVec 2) (qa : BitVec 4) (s : State) : Host.Outcome State Fault Refusal :=
  onCtx s false (fun a s =>
    let ad := (a.x.reg qa).toNat
    if ad % 64 ≠ 0 then a.reject s 2
    else
      let r := s.streamRead a.p a.who a.x ad 64
      match r.failed a.p with
      | some e => e
      | none =>
        let l := ofLe r.bytes
        if (r.s.chip a.p).layBad l then a.reject r.s 2
        else .ran r.s { a.x with lay := tset a.x.lay sl.toNat { lay := BitVec.ofNat 512 l, j := [0, 0, 0, 0] } }.next)

/-- `setix`. An index may be set before a record is loaded; `layout` clears it. -/
def execSetix (sl : BitVec 2) (qa : BitVec 4) (s : State) : Host.Outcome State Fault Refusal :=
  plainCmd s (fun x =>
    let j := (List.range 4).map (fun d => BitVec.ofNat 16 ((x.reg qa).toNat / 2 ^ (16 * d)))
    { x with lay := tmod x.lay sl.toNat (fun l => { l with j := j }) }.next)

/-- The carry of `stepix` from dimension `d` up (R323): at most one round for each dimension. -/
def stepFrom (l : Nat) : Nat → Nat → List (BitVec 16) → List (BitVec 16)
  | 0, _, j => j
  | n + 1, d, j =>
    let j1 := j.set d (j.getD d 0 + 1)
    if (j1.getD d 0).toNat * layTile l d < layExt l d then j1
    else if d = layRank l then j1.set d 0
    else stepFrom l n (d + 1) (j1.set d 0)

/-- `stepix` (R323). -/
def execStepix (sl dim : BitVec 2) (s : State) : Host.Outcome State Fault Refusal :=
  onCtx s false (fun a s =>
    match tfind a.x.lay sl.toNat with
    | none => a.reject s 2
    | some l =>
      if layRank l.lay.toNat < dim.toNat then a.reject s 2
      else .ran s { a.x with lay := tset a.x.lay sl.toNat { l with j := stepFrom l.lay.toNat 4 dim.toNat l.j } }.next)

/-! ## Targets and deliveries (R316, R317, R324, R325) -/

/-- The window of a handle in the block of a rank: block number and target; none without room for it. -/
def Chip.ctxWindow (c : Chip) (x : Ctx) (rank h : Nat) : Option Target :=
  match c.ctxBlock x rank with
  | none => none
  | some (k, b) =>
    if nbit h 24 && !b.tandem || b.lsize < fld h 0 19 + winBytes h then none else some (.loc k (nbit h 24) (fld h 0 19))

/-- `target` (R324). -/
def execTarget (tgt : BitVec 2) (qh qm : BitVec 4) (s : State) : Host.Outcome State Fault Refusal :=
  onCtx s false (fun a s =>
    let h := a.x.reg qh
    let m := lo32 (a.x.reg qm)
    if !winOk h.toNat || fld h.toNat 19 5 ≠ 0 || fld h.toNat 25 7 ≠ 0 then a.reject s 3
    else if m = 0 || (lanesOf m).any (fun r => ((s.chip a.p).ctxWindow a.x r h.toNat).isNone) then a.reject s 6
    else .ran s { a.x with tgt := tset a.x.tgt tgt.toNat { handle := h, mask := m, next := 0 } }.next)

/-- The shape of `fetch` and `fetchs`: rows of slice `sl` of `n`, delivered as one of `n` slices. -/
def fetchRun (rc : Bool) (lay tgt : BitVec 2) (sl n : Nat) (a : At) (s : State) : CmdEff :=
  match tfind a.x.lay lay.toNat, tfind a.x.tgt tgt.toNat with
  | none, _ => a.reject s 2
  | some _, none => a.reject s 3
  | some l, some t =>
    let lr := l.lay.toNat
    let lo := sl * tileRowCount lr / n
    let hi := (sl + 1) * tileRowCount lr / n
    let rows := tileRowsIn lr l.j lo hi
    if winSize t.handle.toNat < tileSize lr then a.reject s 11
    else if 16 ≤ a.x.flying then .held
    else if rows.any (fun r => (s.chip a.p).rangeOff r.2.1 ((r.2.2 + 7) / 8)) then a.reject s 4
    else
      let z : StreamRead := { s := s, bytes := List.replicate ((hi - lo) * tilePitch lr) 0, status := 0, off := false }
      let r := rows.foldl (fun (acc : StreamRead) row =>
        let u := acc.s.streamRead a.p a.who a.x row.2.1 ((row.2.2 + 7) / 8)
        { s := u.s, bytes := overlay acc.bytes ((row.1 - lo) * tilePitch lr) (trimBits row.2.2 u.bytes),
          status := firstStatus acc.status u.status, off := acc.off || u.off }) z
      if r.off then a.reject r.s 4
      else
        let dels := (lanesOf t.mask).map (fun k => ({ rank := k, slot := t.next, state := .waiting } : Delivery))
        let cmd : DataCmd := { op := .fetch t.handle (lo * tilePitch lr) r.bytes n dels, record := rc, tag := a.x.tag, status := r.status,
                               done := false, target := tgt.toNat }
        let x1 : Ctx := { a.x with
          tgt := tset a.x.tgt tgt.toNat { t with next := (t.next + 1) % winSlots t.handle.toNat }, cmds := a.x.cmds ++ [cmd] }
        .ran r.s x1.next

/-- `fetch` (R324). -/
def execFetch (rc : Bool) (sl tgt : BitVec 2) (s : State) : Host.Outcome State Fault Refusal :=
  onCtx s false (fetchRun rc sl tgt 0 1)

/-- `fetchs` (R325). -/
def execFetchs (rc : Bool) (sl tgt : BitVec 2) (n sm1 : BitVec 6) (s : State) : Host.Outcome State Fault Refusal :=
  onCtx s false (fun a s => if sm1 < n then a.reject s 1 else fetchRun rc sl tgt n.toNat (sm1.toNat + 1) a s)

/-- Commands that have completed leave their context, with a record where REC is set (R329). -/
def Chip.settleCtx (c : Chip) (v k : Nat) : Chip :=
  let x := (c.engine v).context k
  let over_ := fun (d : DataCmd) => match d.op with
    | .fetch _ _ _ _ dels => dels.all (fun e => e.state = .flipped || e.state = .dropped)
    | .tilew _ _ _ _ => d.done
  let count := fun (d : DataCmd) => match d.op with
    | .fetch _ _ _ _ dels => (dels.filter (fun e => e.state = .flipped)).length
    | .tilew _ _ _ _ => if d.done then 1 else 0
  let gone := x.cmds.filter over_
  if gone.isEmpty then c
  else (gone.filter DataCmd.record).foldl (fun c d => c.ctxRecord v x d.tag (BitVec.ofNat 32 (count d)) d.status)
    (c.setCtx v k { x with cmds := x.cmds.filter (fun d => !over_ d) })

/-- The same for every context of the chip. -/
def Chip.settleStreams (c : Chip) : Chip :=
  c.engines.foldl (fun c e => e.2.ctx.foldl (fun c y => c.settleCtx e.1 y.1) c) c

/-- Changes the delivery of a command to a rank. -/
def DataCmd.setDel (d : DataCmd) (rank : Nat) (st : DelState) : DataCmd :=
  match d.op with
  | .fetch w o b n dels => { d with op := .fetch w o b n (dels.map (fun e => if e.rank = rank then { e with state := st } else e)) }
  | .tilew _ _ _ _ => d

/-- A slot flips: every delivery that has written it is done (R317). -/
def Chip.flipSlot (c : Chip) (tg : Target) (slot : Nat) : Chip :=
  { c with engines := tmap c.engines (fun _ e => { e with ctx := tmap e.ctx (fun _ x =>
      { x with cmds := x.cmds.map (fun d => match d.op with
        | .fetch w o b n dels => { d with op := .fetch w o b n (dels.map (fun y =>
            if y.state = .written && y.slot = slot && c.ctxWindow x y.rank w.toNat = some tg then { y with state := .flipped } else y)) }
        | .tilew _ _ _ _ => d) }) }) }

/-- Whether an earlier command of the context has a delivery of target `n` to the same window that must come first (R324): one not yet written, or, where
this one flips its slot, not yet flipped. -/
def delBefore (earlier : List DataCmd) (n rank : Nat) (w : DWord) (flips : Bool) : Bool :=
  earlier.any (fun d => match d.op with
    | .fetch w2 _ _ _ dels => d.target = n && w2 = w && dels.any (fun e => e.rank = rank && (e.state = .waiting || flips && e.state = .written))
    | .tilew _ _ _ _ => false)

/-- DELIVER_SLICE (R317). DESIGN CHOICE: where an uncorrectable error stands in the window's header word or the slot's state word, which the engine then cannot
read, the delivery is given up, and the command has the status POISON (R13, R498); the spec does not say what becomes of it. -/
def execDeliverSlice (p vault ctx cmd rank : Nat) (s : State) : Host.Outcome State Fault Refusal :=
  let c := s.chip p
  let x := (c.engine vault).context ctx
  .next (match x.cmds[cmd]? with
    | none => s
    | some d => match d.op with
      | .tilew _ _ _ _ => s
      | .fetch w off bytes n dels =>
        match dels.find? (fun e => e.rank = rank && e.state ≠ .flipped && e.state ≠ .dropped) with
        | none => s
        | some e =>
          let mark := fun (c : Chip) (st : DelState) => c.setCtx vault ctx { x with cmds := x.cmds.set cmd (d.setDel rank st) }
          match c.ctxBlock x rank with
          | none => s.setChip p (mark c .dropped).settleStreams
          | some (blk, b) =>
            let tg : Target := .loc blk (nbit w.toNat 24) (fld w.toNat 0 19)
            let word := tg.shift (winStateAt e.slot)
            let lost := [tg, word].filter (fun a => c.badAt a 8)
            let hd := ofLe ((s.readTgt p tg 8).getD [])
            let st0 := ofLe ((s.readTgt p word 8).getD [])
            let sc := fld st0 3 7
            let flips := n ≤ sc + 1
            if e.state ≠ .written && b.saved.isNone && !lost.isEmpty then
              (lost.foldl (fun s a => s.sense p a 8 (c.poisonStatus 2)) s).modChip p (fun c => (c.setCtx vault ctx
                { x with cmds := x.cmds.set cmd { d.setDel rank .dropped with status := firstStatus d.status (c.poisonStatus 2) } }).settleStreams)
            else if e.state = .written || b.saved.isSome || nbit st0 0 || fld hd 0 16 = 0 || delBefore (x.cmds.take cmd) d.target rank w flips then s
            else
              let st1 := if sc = 0 then st0 % 4 + st0 / 8 % 2 ^ 29 * 8 else st0
              let st2 := if d.status ≠ 0 && !nbit st1 2 then st1 % 2 ^ 32 + 4 + d.status.toNat * 2 ^ 32 else st1
              let st3 := st2 - fld st2 3 7 * 8 + (if flips then 0 else (sc + 1) * 8)
              let st4 := if flips then (if nbit st3 1 then st3 - 2 else st3 + 2) + 1 else st3
              let s1 := (s.writeTgt p (tg.shift (winDataAt w.toNat e.slot + off)) bytes).1.putLocal8 p word st4
              let s2 := if flips then s1.putLocal8 p tg (hd - 1) else s1
              s2.modChip p (fun c =>
                let c1 := mark c .written
                if flips then (c1.flipSlot tg e.slot).settleStreams else c1))

/-! ## Tile writes (R326) -/

/-- The target of `n` bytes at a local address of an engine: CL 1 and a RANK of the context's cohort. -/
def Chip.ctxLocal (c : Chip) (x : Ctx) (a : Word) (n : Nat) : Option (Nat × Block × Target) :=
  let v := a.toNat
  if !nbit v 31 || fld v 25 6 ≠ 0 then none
  else match c.ctxBlock x (fld v 19 5) with
    | none => none
    | some (k, b) => if nbit v 24 && !b.tandem || b.lsize < fld v 0 19 + n then none else some (k, b, .loc k (nbit v 24) (fld v 0 19))

/-- `tilew` (R326). -/
def execTilew (rc : Bool) (sl : BitVec 2) (qa qw : BitVec 4) (s : State) : Host.Outcome State Fault Refusal :=
  onCtx s false (fun a s =>
    match tfind a.x.lay sl.toNat with
    | none => a.reject s 2
    | some l =>
      let lr := l.lay.toNat
      let img := lo32 (a.x.reg qa)
      let tw := lo32 (a.x.reg qw)
      let c := s.chip a.p
      if (c.ctxLocal a.x img (tileSize lr)).isNone || (c.ctxLocal a.x tw 8).isNone then a.reject s 3
      else if img.toNat % 16 ≠ 0 || tw.toNat % 8 ≠ 0 then a.reject s 5
      else if 16 ≤ a.x.flying then .held
      else if (tileRowsIn lr l.j 0 (tileRowCount lr)).any (fun r => c.rangeOff r.2.1 ((r.2.2 + 7) / 8)) then a.reject s 4
      else
        let cmd : DataCmd := { op := .tilew l.lay l.j img tw, record := rc, tag := a.x.tag, status := 0, done := false, target := 0 }
        let x1 : Ctx := { a.x with cmds := a.x.cmds ++ [cmd] }
        .ran s x1.next)

/-- The elements of one row of an image written to the tensor; a single nibble at the end keeps its neighbour. -/
def State.writeRow (s : State) (p who : Nat) (x : Ctx) (addr bits : Nat) (bs : List Byte) : StreamRead :=
  let n := (bits + 7) / 8
  if bits % 8 = 0 then s.streamWrite p who x false addr (bs.take n)
  else
    let old := s.streamRead p who x (addr + n - 1) 1
    if old.status ≠ 0 then { old.s.streamWrite p who x false addr (bs.take (n - 1)) with status := old.status }
    else
      let last := BitVec.ofNat 8 ((old.bytes.getD 0 0).toNat / 16 * 16 + (bs.getD (n - 1) 0).toNat % 16)
      old.s.streamWrite p who x false addr (bs.take (n - 1) ++ [last])

/-- Row `row` of a tile image as an engine reads it; none where an uncorrectable error stands in it. -/
def State.imageRow (s : State) (p : Nat) (ti : Target) (lr row : Nat) : Option (List Byte) := s.readTgt p (ti.shift (row * tilePitch lr)) (tilePitch lr)

/-- Writes the rows of an image that lie inside the tensor; one that cannot be read is not written (R331). -/
def State.writeImage (s : State) (p who : Nat) (x : Ctx) (ti : Target) (lr : Nat) (j : List (BitVec 16)) (st : Word) : StreamRead :=
  (tileRowsIn lr j 0 (tileRowCount lr)).foldl (fun (acc : StreamRead) row =>
    match s.imageRow p ti lr row.1 with
    | none => acc
    | some bs =>
      let u := acc.s.writeRow p who x row.2.1 row.2.2 bs
      { u with status := firstStatus acc.status u.status, off := acc.off || u.off }) { s := s, bytes := [], status := st, off := false }

/-- Whether an earlier command of the context is a `tilew` on the same tile word that has still to flip it. DEDUCED: two of them take the word in the order of
the program, as the values of R406 need. -/
def tileBefore (earlier : List DataCmd) (tw : Word) : Bool :=
  earlier.any (fun d => match d.op with
    | .fetch _ _ _ _ _ => false
    | .tilew _ _ _ t => t = tw && !d.done)

/-- TILEW_WRITE (R326): once the engine owns the tile, its elements inside the tensor are written, and the tile word flips back with the
status of the first failure (R331). A page of host memory is off the chip, and ends the context (R322), with the TAG of the command (R329). A tile in a block
that has ended is not written. DESIGN CHOICE: an image with an uncorrectable error gives the status POISON, and its rows that can be read are written; a tile
word with one, which the engine cannot read, completes the command with that status and stays as it is (R13, R498). -/
def execTilewWrite (p vault ctx cmd : Nat) (s : State) : Host.Outcome State Fault Refusal :=
  let c := s.chip p
  let x := (c.engine vault).context ctx
  let bad := c.poisonStatus 2
  .next (match x.cmds[cmd]? with
    | none => s
    | some d => match d.op with
      | .fetch _ _ _ _ _ => s
      | .tilew l j img tw =>
        let lr := l.toNat
        let over_ := fun (c : Chip) (st : Word) =>
          let y := (c.engine vault).context ctx
          (c.setCtx vault ctx { y with cmds := y.cmds.set cmd { d with done := true, status := st } }).settleStreams
        match c.ctxLocal x img (tileSize lr), c.ctxLocal x tw 8 with
        | some (_, bi, ti), some (_, bw, tt) =>
          let v := ofLe ((s.readTgt p tt 8).getD [])
          if d.done || bi.saved.isSome || bw.saved.isSome || tileBefore (x.cmds.take cmd) tw then s
          else if c.badAt tt 8 then (s.sense p tt 8 bad).modChip p (fun c => over_ c bad)
          else if !nbit v 0 then s
          else
            let hurt := c.badAt ti (tileSize lr)
            let s0 := if hurt then s.sense p ti (tileSize lr) bad else s
            let r := s0.writeImage p (askCtx vault ctx) x ti lr j (if hurt then bad else 0)
            let word := fld v 2 30 * 4 + (if r.status = 0 then 0 else 2 + r.status.toNat * 2 ^ 32)
            let t := if r.off then r.s else r.s.putLocal8 p tt word
            s.unitStep (t.modChip p (fun c =>
              let y := (c.engine vault).context ctx
              let st := c.ctxReject 4
              if r.off then
                let z := ({ y with cmds := y.cmds.eraseIdx cmd } : Ctx).fail st
                if y.ending.isSome then c.setCtx vault ctx z else (c.ctxRecord vault y d.tag 0 st).setCtx vault ctx { z with reported := true }
              else over_ c r.status))
        | _, _ =>
          let y : Ctx := { x with cmds := x.cmds.eraseIdx cmd }
          s.setChip p ((if d.record then c.ctxRecord vault x d.tag 0 0 else c).setCtx vault ctx y))

/-! ## Copies, counters, transfers -/

/-- The units of a copy in an order that no rule gives (R327): units sorted by a key. -/
def unitOrder (tick n : Nat) : List Nat :=
  (List.range n).foldl (fun acc e => acc.takeWhile (fun a => Config.laneKey tick a ≤ Config.laneKey tick e) ++ e ::
    acc.dropWhile (fun a => Config.laneKey tick a ≤ Config.laneKey tick e)) []

/-- Moves the units of `copy`; each reads the bytes from before the command or those that stand there now. -/
def State.copyUnits (s0 : State) (p who : Nat) (x : Ctx) (d src : Nat) : List Nat → State → StreamRead
  | [], s => { s := s, bytes := [], status := 0, off := false }
  | u :: rest, s =>
    let r := s.streamRead p who x (src + 16 * u) 16
    if r.off || r.status ≠ 0 then r
    else
      let bs := if Config.laneKey s.tick u % 2 = 0 then r.bytes else (s0.streamRead p who x (src + 16 * u) 16).bytes
      let w := r.s.streamWrite p who x false (d + 16 * u) bs
      if w.off || w.status ≠ 0 then w else s0.copyUnits p who x d src rest w.s

/-- `copy` (R327). -/
def execCopy (rc : Bool) (qd qs qn : BitVec 4) (s : State) : Host.Outcome State Fault Refusal :=
  onCtx s false (fun a s =>
    let d := (a.x.reg qd).toNat
    let src := (a.x.reg qs).toNat
    let n := (a.x.reg qn).toNat
    if d % 16 ≠ 0 || src % 16 ≠ 0 || n % 16 ≠ 0 || n < 16 || 2 ^ 32 - 16 < n then a.reject s 5
    else if (s.chip a.p).rangeOff d n || (s.chip a.p).rangeOff src n then a.reject s 4
    else if 16 ≤ a.x.flying then .held
    else
      let r := s.copyUnits a.p a.who a.x d src (unitOrder s.tick (n / 16)) s
      match r.failed a.p with
      | some e => e
      | none => .ran (if rc then r.s.modChip a.p (fun c => c.ctxRecord a.v a.x a.x.tag (BitVec.ofNat 32 (n / 16)) 0) else r.s) a.x.next)

/-- `arm` (R319, R322): the condition waits for the next command that is no `arm`. -/
def execArm (ct : BitVec 6) (thr : Word) (s : State) : Host.Outcome State Fault Refusal :=
  onCtx s true (fun a s => .ran s { a.x with arms := a.x.arms ++ [(ct, thr)] }.next)

/-- `cadd` (R318). -/
def execCadd (ct : BitVec 6) (e : BitVec 7) (v : Word) (s : State) : Host.Outcome State Fault Refusal :=
  onCtx s false (fun a s => .ran (s.modChip a.p (fun c => c.ctrAdd e.toNat ct.toNat v)) a.x.next)

/-- `cset` (R320). -/
def execCset (ct : BitVec 6) (e : BitVec 7) (v : Word) (s : State) : Host.Outcome State Fault Refusal :=
  onCtx s false (fun a s => .ran (s.modChip a.p (fun c => c.ctrSet e.toNat ct.toNat v)) a.x.next)

/-- This command + 8 × DISP. -/
def Ctx.away (x : Ctx) (disp : Word) : Ctx := { x with ptr := x.ptr + 8 * disp.signExtend 64 }

/-- `loop`. -/
def execLoop (qd : BitVec 4) (disp : Word) (s : State) : Host.Outcome State Fault Refusal :=
  plainCmd s (fun x =>
    let y := x.setReg qd (x.reg qd - 1)
    if y.reg qd = 0 then y.next else y.away disp)

/-- `brz`. -/
def execBrz (qd : BitVec 4) (disp : Word) (s : State) : Host.Outcome State Fault Refusal :=
  plainCmd s (fun x => if x.reg qd = 0 then x.away disp else x.next)

/-- `jump`. -/
def execJump (qa : BitVec 4) (s : State) : Host.Outcome State Fault Refusal :=
  onCtx s false (fun a s => if (a.x.reg qa).toNat % 8 ≠ 0 then a.reject s 5 else .ran s { a.x with ptr := a.x.reg qa })

/-- `arrive` (R322, R334): a kind 1 arrival, which has no logical time, so a parked wave goes on with its clock plus 1. DEDUCED: an object in which an
uncorrectable error stands ends the context with POISON, as what a unit cannot read does (R13, R332, R498). -/
def execArriveCmd (qa : BitVec 4) (s : State) : Host.Outcome State Fault Refusal :=
  onCtx s false (fun a s =>
    let ad := lo32 (a.x.reg qa)
    match (s.chip a.p).ctxLocal a.x ad 8 with
    | none => a.reject s 3
    | some (_, b, tg) =>
      if ad.toNat % 8 ≠ 0 then a.reject s 5
      else if !a.x.cmds.isEmpty || b.saved.isSome then .held
      else if (s.chip a.p).badAt tg 8 then .fail (s.sense a.p tg 8 ((s.chip a.p).poisonStatus 2)) ((s.chip a.p).poisonStatus 2)
      else .ran (s.pbarArrive a.p tg 0) a.x.next)

/-- `sfence`: the global writes of a completed command are performed. -/
def execSfence (s : State) : Host.Outcome State Fault Refusal :=
  onCtx s false (fun a s => if a.x.cmds.isEmpty then .ran s a.x.next else .held)

/-- `signal`. -/
def execSignal (rc : Bool) (qv qa : BitVec 4) (off : Word) (s : State) : Host.Outcome State Fault Refusal :=
  onCtx s false (fun a s =>
    let ad := a.x.addr qa off
    if ad % 8 ≠ 0 then a.reject s 5
    else if !a.x.cmds.isEmpty then .held
    else
      let r := s.streamWrite a.p a.who a.x true ad (leBytes 8 (a.x.reg qv).toNat)
      match r.failed a.p with
      | some e => e
      | none => .ran (if rc then r.s.modChip a.p (fun c => c.ctxRecord a.v a.x a.x.tag 1 0) else r.s) a.x.next)

/-- `halt` (R312, R329): COUNT is the commands executed, this one included. -/
def execHalt (rc : Bool) (s : State) : Host.Outcome State Fault Refusal :=
  onCtx s false (fun a s =>
    if !a.x.cmds.isEmpty then .held
    else
      let n := BitVec.ofNat 32 (a.x.count + 1)
      .ran (if rc then s.modChip a.p (fun c => c.ctxRecord a.v a.x a.x.tag n 0) else s) { a.x with halted := true })

/-- Fetches and runs the next command of a context (R321, R322, R332): a word whose translation is not ready waits for it; one that cannot be read, or that is
no command, ends the context. -/
def streamWord (ex : Instr → State → Host.Outcome State Fault Refusal) (s : State) (p v k : Nat) : Host.Outcome State Fault Refusal :=
  let x := ((s.chip p).engine v).context k
  if !x.busy || x.ending.isSome || x.halted || !(s.chip p).ctxAlive x then .next s
  else
    let r := s.streamRead p (askCtx v k) x x.ptr.toNat 8
    let t := s.unitStep r.s
    let end_ := fun (st : Word) => Host.Outcome.next (t.modChip p (fun c => c.setCtx v k (x.fail st)))
    if !r.s.asks.isEmpty then .next t
    else if r.off then end_ ((s.chip p).ctxReject 4)
    else if r.status ≠ 0 then end_ r.status
    else match decodeCmd (ofLe r.bytes) with
      | .error _ => end_ ((s.chip p).ctxReject 1)
      | .ok i => ex i { t with scur := (p, v, k) }

/-! ## Events -/

/-- ARMED_RELEASE (R319): the conditions of the context's armed command that hold are met for good. -/
def execArmedRelease (p vault ctx : Nat) (s : State) : Host.Outcome State Fault Refusal :=
  .next (s.modChip p (fun c =>
    let e := c.engine vault
    let x := e.context ctx
    if x.busy && !x.armed.isEmpty then (c.setCtx vault ctx { x with armed := e.stillArmed x.armed }).lookArmed vault ctx else c))

/-- CONTEXT_END (R312, R335): the record of an end that is no `halt`, and, once the commands already started are over, a free context. -/
def execContextEnd (p vault ctx : Nat) (s : State) : Host.Outcome State Fault Refusal :=
  .next (s.modChip p (fun c =>
    let x := (c.engine vault).context ctx
    let why := match x.ending with
      | some st => some st
      | none => if c.ctxAlive x then none else some (statusWord codeCancelled 2 c.chipId 10)
    if !x.busy then c
    else if x.halted then c.setCtx vault ctx Ctx.free
    else match why with
      | none => c
      | some st =>
        let c1 := if x.reported then c else c.ctxRecord vault x x.tag 0 st
        if x.cmds.isEmpty then c1.setCtx vault ctx Ctx.free else c1.setCtx vault ctx { x with ending := some st, reported := true }))

/-! ## The control page (R310) -/

/-- Performs a pending access of a wave that is a control page's of one kind. -/
def State.ctrlAcc (s : State) (p acc : Nat) (kind : CtrlKind) : State :=
  let c := s.chip p
  match c.pend.find? (fun a => a.id = acc && a.ctrl = some kind) with
  | none => s
  | some a => if c.behind a || !c.ordDue a then s else (s.performAcc p a).modChip p (fun c => c.ordPop a)

/-- CTRL_COUNTER_ADD (R310): an add of a wave, or a FetchAdd AtomicOp of a host port. -/
def execCtrlCounterAdd (p : Nat) (src : CtrlSrc) (s : State) : Host.Outcome State Fault Refusal :=
  .next (match src with
    | .wave acc => s.ctrlAcc p acc .add
    | .host v n x => s.modChip p (fun c => c.ctrAdd (v % 128) (n % 64) x))

/-- CTRL_COUNTER_SET (R310, R320). -/
def execCtrlCounterSet (p : Nat) (src : CtrlSrc) (s : State) : Host.Outcome State Fault Refusal :=
  .next (match src with
    | .wave acc => s.ctrlAcc p acc .set
    | .host v n x => s.modChip p (fun c => c.ctrSet (v % 128) (n % 64) x))

/-- CTRL_START_REQUEST (R311). -/
def execCtrlStartRequest (p acc : Nat) (s : State) : Host.Outcome State Fault Refusal := .next (s.ctrlAcc p acc .request)

/-- CTRL_START_STORE (R310). -/
def execCtrlStartStore (p acc : Nat) (s : State) : Host.Outcome State Fault Refusal := .next (s.ctrlAcc p acc .store)

/-- What an AtomicOp of a host port on a start request returns: REJECT, UNIT 2, DETAIL 12 (R310, R330). -/
def Chip.hostRefusal (c : Chip) : Word := statusWord codeReject 2 c.chipId 12

/-- HOST_START_REFUSED (R310): it starts no context and writes no record; an AtomicOp returns its status word to the port. `vault` is that of the
control page, and 128 more where port 1 makes the request. -/
def execHostStartRefused (p vault : Nat) (atomicOp : Bool) (s : State) : Host.Outcome State Fault Refusal :=
  .next (if atomicOp then s.modChip p (fun c => { c with portRead := c.portRead.set (vault / 128 % 2) (c.hostRefusal.setWidth 64) }) else s)

end Sys2Proof.Machine
end

