-- ==== Sys2Proof/Machine/Apx.lean ====
section
/-! DEFINITION. Approximable regions as waves use them, major opcode 0xC3 (R299 to R304, R347 to R349). -/

namespace Sys2Proof.Machine

open Sys2Proof

/-- The region trap of a detail (R282, R303). -/
def regionTrap (detail region : Nat) : TrapInfo :=
  { cause := 0x28, e1 := BitVec.ofNat 32 detail, e2 := BitVec.ofNat 32 region }

/-! ## `apx.begin` -/

/-- Whether the word at a target is an `apx.end` of a region. -/
def isApxEnd (l : BitVec 512) (slot region : Nat) : Bool :=
  match decodeWave (lineSlot l slot) with
  | .ok (.apxEnd o) => apxRegion o == region
  | _ => false

/-- The recorded inputs: I lane registers. -/
def Iss.apxInputs (x : Iss) : List Lanes := (List.range (apxI x.o)).map (fun j => laneList.map (fun k => x.word .a k j))

/-- The output registers of every active lane; an indexed operand has its displacement in WORD (R140). -/
def Iss.apxOuts (x : Iss) : List (Nat × List RegRef) :=
  (lanesOf x.q.mask).map (fun k => (k, x.w.refs x.q.wbase x.o.d (x.o.disp .d) (apxO x.o) k))

/-- Whether the target is seen to be no `apx.end` of the region. A line that is malformed or poisoned is met at the target by a path that transfers
(R133). DESIGN CHOICE: where the path falls through, a target line that cannot be read raises no trap. -/
def Iss.apxEndMissing (x : Iss) : Bool :=
  fld x.apxTarget.toNat 3 3 ≠ 0 || 5 ≤ pcSlot x.apxTarget ||
  match x.c.viewLine x.tick x.w.core (x.c.asidOf x.w.grow) x.apxTarget with
  | .good l => !isApxEnd l (pcSlot x.apxTarget) (apxRegion x.o)
  | _ => false

/-- The checks of `apx.begin` (R303): its path is every lane that has not exited and the wave has no open region; a target line that fails
translation holds a word that transfers; the target is an `apx.end` of the region. -/
def Iss.apxBeginCheck (x : Iss) (s : State) : Option Eff :=
  let region := apxRegion x.o
  if x.w.region.isSome || x.q.mask ≠ x.w.lanes then some (.trap (regionTrap 1 region))
  else match x.apxFate with
    | .hold cause level => some (.wait (x.holdPages s .fetch [(pcLine x.apxTarget % 2 ^ 48, x.q.mask, cause, level)]))
    | _ => if x.apxEndMissing then some (.trap (regionTrap 3 region)) else none

/-- The effect of `apx.begin` where it raises no illegal-target trap (R300). Every issue of it counts as an invocation of the wave (R347). -/
def apxEnter (x : Iss) (s : State) : Eff :=
  let o := x.o
  let count := fun (w : Wave) => { w with inv := w.inv + 1 }
  if !x.go then .done (x.set s (count x.w))
  else match x.apxBeginCheck s with
    | some e => e
    | none =>
      let region := apxRegion o
      let cl := clusterOf x.w.core
      let st := x.apxState x.apxCopy
      let openAs := fun (m : RegionMode) =>
        let g : OpenRegion := { num := region, state := st, outs := apxO o, mode := m, lanes := x.q.mask, inputs := x.apxInputs }
        let w0 := count x.w
        { w0 with region := some g }
      match x.apxSurrogate with
      | none => .done (x.set s (openAs (if st = 0 then .trueCode else if st ≤ 2 then .recorded else if x.apxCopy.any (fun r => r.sur.isSome) then .sampled
          else .trueCode)))
      | some sur =>
        if 64 ≤ (x.c.cluster cl).fit.queue.length then .wait s
        else
          let pr : Producer := { wid := x.wid, pathMask := x.q.mask, kind := .apxOut, dests := x.apxOuts, res := [] }
          let w1 := (openAs .surrogate).stepTo (s.cpOf x.p x.w) x.sl x.apxTarget
          let r := ((s.chip x.p).setWave x.wid w1).startProducer x.wid pr
          let k := r.1.cluster cl
          let inv : Invocation := { wid := x.wid, grow := x.w.grow, region := region, lanes := x.q.mask, inputs := x.apxInputs,
                                    sur := sur, prod := r.2 }
          .moved (s.setChip x.p (r.1.setCluster cl { k with fit := { k.fit with queue := k.fit.queue ++ [inv] } }))

/-- `apx.begin` (R300). Of a word that may issue, an illegal target comes before its other traps (R147). -/
def execApxBegin (o : Ops) (s : State) : Host.Outcome State Fault Refusal :=
  match issOf (formApxBegin o) o s with
  | none => .fault .noPath
  | some x =>
    match x.check, x.apxFate with
    | .wait, _ => issue (formApxBegin o) o s apxEnter
    | _, .illegal => .next (x.finish s (.trap { cause := 0x04, e0 := x.q.mask }))
    | _, _ => issue (formApxBegin o) o s apxEnter

/-! ## `apx.end` -/

/-- Whether the path holds every lane that entered the open region and has not exited (R301). -/
def Wave.regionWhole (w : Wave) (q : Path) : Bool :=
  match w.region with
  | none => true
  | some r => r.lanes &&& w.lanes &&& ~~~q.mask = 0

/-- The outputs of a true run go to the engine of the wave's cluster; with its input buffer full they are dropped (R345, R349). -/
def Iss.apxSend (x : Iss) (r : OpenRegion) (c : Chip) : Chip :=
  let cl := clusterOf x.w.core
  let k := c.cluster cl
  let outs := (List.range r.outs).map (fun j => laneList.map (fun l => x.word .a l j))
  let e : FitInput := { sampled := r.mode = .sampled, region := r.num, state := r.state, lanes := r.lanes &&& x.w.lanes, inputs := r.inputs,
                        outputs := outs, grow := x.w.grow }
  if (r.mode = .recorded || r.mode = .sampled) && k.fit.input.length < 64 then
    c.setCluster cl { k with fit := { k.fit with input := k.fit.input ++ [e] } }
  else c

/-- `apx.end` (R301): where the outputs are not read, because lanes are missing or the surrogate ran, no check applies to them. It goes on by
fall-through and is no transfer (R133). -/
def execApxEnd (o : Ops) (s : State) : Host.Outcome State Fault Refusal :=
  let bare : Bool := match issOf (formApxEnd o) o s with
    | none => false
    | some x => x.go && !x.w.regionWhole x.q || x.w.region.any (fun r => decide (r.mode = .surrogate))
  let f := if bare then { formApxEnd o with a := { cls := [.lane], n := 0 } } else formApxEnd o
  issue f o s (once (fun x s =>
    match x.w.region with
    | none => .trap (regionTrap 2 (apxRegion o))
    | some r =>
      if !x.w.regionWhole x.q then .wait s
      else if r.num ≠ apxRegion o || r.outs ≠ apxO o then .trap (regionTrap 2 (apxRegion o))
      else .done (s.modChip x.p (fun c => (x.apxSend r c).setWave x.wid { x.w with region := none }))))

/-! ## `apx.ctl`, `apx.inval`, `apx.stat` (R304) -/

/-- The region that a names. -/
def Iss.regionArg (x : Iss) : Nat := fld (x.word .a x.low 0).toNat 0 6

/-- `apx.ctl` (R304): a long-latency producer; the home engine performs the op. -/
def ctlRun (op : Nat) : Iss → State → Eff :=
  once (fun x s =>
    let region := x.regionArg
    if (x.c.binding? region).isNone then .trap (regionTrap 4 region)
    else
      let pr : Producer := { wid := x.wid, pathMask := x.q.mask, kind := .apxCtl, dests := [(x.low, x.w.refs x.q.wbase x.o.d 0 1 0)], res := [] }
      let r := (s.chip x.p).startProducer x.wid pr
      let k : ApxOp := { wid := x.wid, grow := x.w.grow, cluster := clusterOf x.w.core, asid := x.c.asidOf x.w.grow, op := op,
                         idx := fld x.o.modw 3 5, region := region, b := x.dword .b x.low, fgear := x.c.fgear x.w.grow, prod := r.2 }
      .done (s.setChip x.p { r.1 with apxOps := r.1.apxOps ++ [k] }))

/-- `apx.ctl.state` (R343). -/
def execApxCtlState (o : Ops) (s : State) : Host.Outcome State Fault Refusal := issue (formApxCtl 0 o) o s (ctlRun 0)
/-- `apx.ctl.register` (R341). -/
def execApxCtlRegister (o : Ops) (s : State) : Host.Outcome State Fault Refusal := issue (formApxCtl 1 o) o s (ctlRun 1)
/-- `apx.ctl.load` (R344). -/
def execApxCtlLoad (o : Ops) (s : State) : Host.Outcome State Fault Refusal := issue (formApxCtl 2 o) o s (ctlRun 2)
/-- `apx.ctl.save` (R344). -/
def execApxCtlSave (o : Ops) (s : State) : Host.Outcome State Fault Refusal := issue (formApxCtl 3 o) o s (ctlRun 3)

/-- `apx.inval` (R304, R350). -/
def execApxInval (o : Ops) (s : State) : Host.Outcome State Fault Refusal :=
  issue { a := { cls := [.unif, .imm] }, once := true } o s (once (fun x s =>
    let a := (x.word .a x.low 0).toNat
    if nbit a 6 then .done (s.modChip x.p (fun c => c.bindings.foldl (fun c e => c.regionOff e.1) c))
    else if (x.c.binding? x.regionArg).isNone then .trap (regionTrap 4 x.regionArg)
    else .done (s.modChip x.p (fun c => c.regionOff x.regionArg))))

/-- The pair of `apx.stat`, which reports the home copy (R304, R337). -/
def Chip.regionStatus (c : Chip) (region : Nat) (b : Binding) : Nat :=
  match c.regionAt b.home region with
  | none => b.home * 2 ^ 12
  | some r => r.ewma.toNat * 2 ^ 32 + Nat.min r.samples 65535 * 2 ^ 16 + b.home * 2 ^ 12 + 8 + r.state % 8

/-- `apx.stat` (R304). -/
def execApxStat (o : Ops) (s : State) : Host.Outcome State Fault Refusal :=
  issue { d := Opd.u 2, a := Opd.u 1, once := true } o s (once (fun x s =>
    match x.c.binding? x.regionArg with
    | none => .trap (regionTrap 4 x.regionArg)
    | some b =>
      let v := BitVec.ofNat 64 (x.c.regionStatus x.regionArg b)
      .done (x.set s (x.put 2 (fun _ j => if j = 0 then lo32 v else hi32 v) x.w))))

end Sys2Proof.Machine
end

