-- ==== Sys2Proof/Machine/UnitEvents.lean ====
section
/-! DEFINITION. Events of the issue rules and the throttle (R39, R43 to R46, R290), of L1 (R79), of the event queues and of the cluster control
cores (R89 to R92). -/

namespace Sys2Proof.Machine

open Sys2Proof

/-! ## Issue -/

/-- E of a candidate (R39). -/
def Chip.effPrio (c : Chip) (w : Wave) (sl : Slot) : Nat :=
  Nat.min 7 ((((c.kernOf w).bind (fun k => k.stages[w.stage]?)).map StageSet.prio).getD 0 + (w.issueOf sl).promo + b2n (sl = .A))

/-- Whether an operation is an array command (R253). -/
def arrayCommand (i : Instr) : Bool :=
  match i with
  | .mwld _ | .mcb _ | .mld _ | .mst _ | .mzero _ | .mma _ | .mmaT _ | .mdrain _ => true
  | _ => false

/-- Whether an operation is `apx.begin`. -/
def apxBegins (i : Instr) : Bool :=
  match i with
  | .apxBegin _ => true
  | _ => false

/-- Whether the operands of an operation let it issue where a slot stands: no source is empty and in blocking mode, and no register of its
destination awaits a producer (R39, R68, R69); an array command also needs room in its queue (R253), and an `apx.begin` that sends an invocation
room in its engine's (R349). -/
def State.opReady (s : State) (p wid : Nat) (w : Wave) (sl : Slot) (i : Instr) : Bool :=
  !(arrayCommand i && 8 ≤ ((s.chip p).core (((tfind (s.chip p).blocks w.blk).map Block.core).getD w.core)).aq.length) &&
  match formOf i, opsOf i with
  | some f, some o =>
    match issOf f o { s with cur := { pkg := p, wid := wid, slot := sl, half := .single }, pairSrc := none } with
    | some x => x.check ≠ .wait &&
        !(apxBegins i && x.apxSurrogate.isSome && 64 ≤ (x.c.cluster (clusterOf w.core)).fit.queue.length)
    | none => true
  | _, _ => true

/-- Whether the candidate of a slot is ready (R39): it stands in no wait, and every operation of its next word may issue. -/
def State.readyAt (s : State) (p wid : Nat) (w : Wave) (sl : Slot) : Bool :=
  s.candidate p w sl && (w.held sl).isEmpty &&
  (w.path? sl).any (fun q => !q.waiting && ((s.chip p).wordAt s.tick w q).all (s.opReady p wid w sl))

/-- The operations that the throttle holds off (R45). -/
def throttledOp (i : Instr) : Bool :=
  match i with
  | .ld _ | .ldByp _ | .ldu _ | .lduByp _ | .st _ | .atom _ | .red _ | .gath _ => true
  | _ => false

/-- Whether the throttle holds the candidate of a slot: its wave is not permitted, and its next word holds a throttled operation. -/
def State.heldBack (s : State) (p : Nat) (w : Wave) (sl : Slot) : Bool :=
  (s.chip p).throttled w sl && (w.path? sl).any (fun q => ((s.chip p).wordAt s.tick w q).any throttledOp)

/-- What the issue rules keep for a slot, in the cycle `now`: a candidate that becomes ready takes its age; one that ceases to be loses it with its
promotions; cycles in which the throttle holds it count for the throttle alone (R39, R46). -/
def SlotIssue.settle (i : SlotIssue) (now : DWord) (ready held : Bool) : SlotIssue :=
  if !ready then { i with promo := 0, age := none, throttledAt := none }
  else
    let fresh := i.age.isNone
    { i with age := some (i.age.getD now), since := if fresh || held then now else i.since,
             throttledAt := if held then some (i.throttledAt.getD now) else none }

/-- The issue rules' record of every slot of a package is brought up to date. -/
def State.settleIssue (s : State) (p : Nat) : State :=
  let now := (s.chip p).cycle
  s.modChip p (fun c => { c with waves := tmap c.waves (fun i w =>
    let one := fun (w : Wave) sl => w.setIssue sl ((w.issueOf sl).settle now (s.readyAt p i w sl) (s.heldBack p w sl))
    one (one w .A) .B) })

/-- Changes what the issue rules keep for a slot. -/
def State.modIssue (s : State) (p wid : Nat) (sl : Slot) (f : SlotIssue → SlotIssue) : State :=
  s.modChip p (fun c => c.modWave wid (fun w => w.setIssue sl (f (w.issueOf sl))))

/-- PROMOTION (R39): the candidate has been ready, not throttled and not issued for 64 cycles. -/
def execPromotion (p wid : Nat) (sl : Slot) (s : State) : Host.Outcome State Fault Refusal :=
  .next (match tfind (s.chip p).waves wid with
    | none => s
    | some w =>
      if s.readyAt p wid w sl && !s.heldBack p w sl && (w.issueOf sl).age.isSome && 64 ≤ ((s.chip p).cycle - (w.issueOf sl).since).toNat then
        s.modIssue p wid sl (fun i => { i with promo := i.promo + 1, since := i.since + 64 })
      else s)

/-- YIELD_EXPIRY (R290): the cycles of a `yield` have passed. -/
def execYieldExpiry (p wid : Nat) (sl : Slot) (s : State) : Host.Outcome State Fault Refusal :=
  let now := (s.chip p).cycle.toNat
  .next (s.modIssue p wid sl (fun i => if i.yieldEnd.any (fun t => t.toNat ≤ now) then { i with yieldEnd := none } else i))

/-! ## The throttle -/

/-- N of a sum of scores (R45). -/
def permitCount (sum : Nat) : Nat := if sum < 256 then 64 else Nat.max 4 (16384 / sum)

/-- LOCALITY_SCORE_SHIFT (R44, R45): once in every 256 cycles of a core. -/
def execLocalityScoreShift (p core : Nat) (s : State) : Host.Outcome State Fault Refusal :=
  .next (s.modChip p (fun c =>
    if (c.cycle - (c.core core).shiftAt).toNat < 256 then c
    else
    let here := fun (w : Wave) => w.core == core && !w.ended && w.saved.isNone
    let c1 := { c with waves := tmap c.waves (fun _ w => if here w then { w with score := w.score / 2 } else w) }
    let sum := (c1.waves.filter (fun e => here e.2)).foldl (fun n e => n + e.2.score) 0
    c1.setCore core { c1.core core with permitN := permitCount sum, shiftAt := (c.core core).shiftAt + 256 }))

/-- THROTTLE_PERMIT_EXPIRY (R46): the throttle has held the candidate for 4,096 cycles. -/
def execThrottlePermitExpiry (p wid : Nat) (sl : Slot) (s : State) : Host.Outcome State Fault Refusal :=
  .next (match tfind (s.chip p).waves wid with
    | none => s
    | some w =>
      if s.heldBack p w sl && (w.issueOf sl).throttledAt.any (fun t => 4096 ≤ ((s.chip p).cycle - t).toNat) then
        s.modIssue p wid sl (fun i => { i with permit := true })
      else s)

/-- L1_REPLACEMENT (R43, R79): the line leaves the L1 of a core, or its slice of a fused one, and its tag goes to the wave that filled it. -/
def execL1Replacement (p core line : Nat) (s : State) : Host.Outcome State Fault Refusal :=
  .next (s.modChip p (fun c =>
    match (c.core core).l1.find? (fun l => l.line == line) with
    | none => c
    | some l => c.l1Evict core l))

/-! ## Event queues (R89, R90) -/

/-- Whether two records come of one unit: the UNIT codes of a core's copy unit are two, 1 for `cpy` and 3 for `put` and `get` (R71, R236). DESIGN
CHOICE: the copy units of a cluster count as one here, so the records of different cores go in the order in which their commands complete,
where the spec gives them none. -/
def RecordOut.sameUnit (a b : RecordOut) : Bool :=
  let copy := fun (u : Nat) => u = 1 || u = 3
  a.cluster = b.cluster && a.source = b.source && (a.unit = b.unit || copy a.unit && copy b.unit)

/-- EVENT_QUEUE_RECORD (R90): the records of one unit go in the order in which its commands complete. -/
def execEventQueueRecord (p idx : Nat) (s : State) : Host.Outcome State Fault Refusal :=
  .next (s.modChip p (fun c =>
    match c.recOut[idx]? with
    | none => c
    | some r =>
      let k := c.cluster r.cluster
      if (c.recOut.take idx).any (fun x => x.sameUnit r) || 4096 ≤ k.evq.length then c
      else ({ c with recOut := c.recOut.eraseIdx idx } : Chip).setCluster r.cluster { k with evq := k.evq ++ [r], evqHead := k.evqHead + 1 }))

/-- The 16 bytes of a completion record whose sequence number is `n` (R89). -/
def recordBits (r : RecordOut) (chip n : Nat) : Nat :=
  r.tag.toNat * 2 ^ 96 + r.count.toNat * 2 ^ 64 + r.status.toNat * 2 ^ 32 + r.unit % 16 * 2 ^ 28 + chip % 512 * 2 ^ 19 + r.source % 128 * 2 ^ 12 +
    b2n (nbit n 12)

/-- Adds to a 64-bit word in memory as one atomic; false where its line is poisoned. -/
def State.addWord (s : State) (p : Nat) (tg : Target) (v : DWord) : State × Bool :=
  match s.readTgt p tg 8 with
  | none => (s, false)
  | some bs => s.writeTgt p tg (leBytes 8 (BitVec.ofNat 64 (ofLe bs) + v).toNat)

/-- The mirror of a record's grid, where it names one (R91). -/
def Chip.mirrorOf (c : Chip) (r : RecordOut) : Option GridRun :=
  (r.grow.bind (fun g => if g < 4096 then c.grid? g else none)).filter (fun g => g.kern.rmir ≠ 0)

/-- CCC_RECORD_PROCESS (R91, R92): the head record goes to its grid's mirror, which may be full, and counts down the signal word that its TAG
names. DESIGN CHOICE: where the line of HEAD or of TAIL is poisoned the record is discarded, and no fault entry is written. -/
def execCccRecordProcess (p cluster : Nat) (s : State) : Host.Outcome State Fault Refusal :=
  let c := s.chip p
  let k := c.cluster cluster
  .next (s.unitStep (match k.evq with
    | [] => s
    | r :: rest =>
      let n := k.evqHead - k.evq.length
      let freed := fun (s : State) => s.modChip p (fun c => c.setCluster cluster { c.cluster cluster with evq := rest })
      match c.mirrorOf r with
      | none => freed s
      | some g =>
        let off := g.kern.rmir * 8192
        let lo := s.unitXlate p (askRing cluster) g.asid off .unitWrite r.unit none
        match lo.2 with
        | .error _ => freed lo.1
        | .ok t0 =>
          let hi := lo.1.unitXlate p (askRing cluster) g.asid (off + 4096) .unitWrite r.unit none
          match hi.2 with
          | .error _ => freed hi.1
          | .ok t1 =>
            match hi.1.readTgt p t0 8, hi.1.readTgt p (t0.shift 8) 8 with
            | some h, some t =>
              let head := ofLe h
              if 256 ≤ (BitVec.ofNat 64 head - BitVec.ofNat 64 (ofLe t) : DWord).toNat then s
              else
                let s1 := (hi.1.writeTgt p (t1.shift (16 * (head % 256))) (leBytes 16 (recordBits r c.chipId n))).1
                let s2 := (s1.writeTgt p t0 (leBytes 8 (head + 1))).1
                let s3 := if nbit r.tag.toNat 31 then (s2.addWord p (t0.shift (2048 + 8 * (r.tag.toNat % 256))) 0xFFFFFFFFFFFFFFFF).1 else s2
                freed s3
            | _, _ => freed hi.1))

end Sys2Proof.Machine
end

