-- ==== Sys2Proof/Machine/Queues.lean ====
section
/-! DEFINITION. Queues and the command processors of the two halves (R414 to R420, R426, R427): NOTIFY, the reading and starting of packets,
the four packet types, retirement. -/

namespace Sys2Proof.Machine

open Sys2Proof

/-! ## Packets (R415, R416) -/

/-- TYPE of a packet. -/
def StartedPkt.type (k : StartedPkt) : Nat := fld k.hdr.toNat 1 3
/-- Payload word `i` of a packet. -/
def StartedPkt.arg (k : StartedPkt) (i : Nat) : Nat := (k.payload.getD i 0).toNat
/-- Whether a packet starts only behind every earlier one's retirement: FENCE is set, or it is a BARRIER. -/
def StartedPkt.fenced (k : StartedPkt) : Bool := nbit k.hdr.toNat 4 || k.type = 1

/-- Whether a reserved bit of the header or of the payload is set. -/
def StartedPkt.reserved (k : StartedPkt) : Bool :=
  let unused := match k.type with
    | 0 => [1, 2, 3, 4] | 1 => [4, 5] | 2 => [2, 3, 4, 5] | _ => [3, 4, 5]
  fld k.hdr.toNat 6 34 ≠ 0 || unused.any (fun i => k.arg i ≠ 0)

/-- The result that a packet retires with. -/
def StartedPkt.result (k : StartedPkt) (code detail : Nat) : StartedPkt :=
  { k with stage := .resolved, code := code, detail := detail, cause := 0, faultId := 0 }

/-- The results of R420. -/
def pktDone : Nat := 0
/-- See `pktDone`. -/
def pktReject : Nat := 1
/-- See `pktDone`. -/
def pktFault : Nat := 2
/-- See `pktDone`. -/
def pktLost : Nat := 3
/-- See `pktDone`. -/
def pktXlate : Nat := 4

/-- Whether a packet may start (R418): read, behind earlier ones that have started, with at most 63 others started and not retired. -/
def Queue.mayStart (x : Queue) (k : StartedPkt) : Bool :=
  k.stage = .fetched && x.started.all (fun j => k.n ≤ j.n || j.stage ≠ .fetched && !k.fenced) &&
  (x.started.filter (fun j => j.stage ≠ .fetched)).length < 64

/-- Replaces a queue. -/
def Chip.setQueue (c : Chip) (half q : Nat) (x : Queue) : Chip := { c with queues := tset c.queues (half * 512 + q) x }
/-- Packet `n` of a queue, not retired. -/
def Queue.pkt (x : Queue) (n : Nat) : Option StartedPkt := x.started.find? (fun k => k.n = n)
/-- Replaces a packet of a queue. -/
def Queue.setPkt (x : Queue) (k : StartedPkt) : Queue := { x with started := x.started.map (fun j => if j.n = k.n then k else j) }
/-- Replaces a packet. -/
def Chip.setPkt (c : Chip) (half q : Nat) (k : StartedPkt) : Chip :=
  match c.queueAt half q with
  | none => c
  | some x => c.setQueue half q (x.setPkt k)

/-- The address of a packet's slot. -/
def Queue.slotOf (x : Queue) (n : Nat) : Nat := (x.ring.toNat + 64 * (n % 2 ^ x.log2)) % 2 ^ 64

/-- A translation of a command processor's own (R472), for packet `who`; a fault is entered in the fault queue (R420), one of an address off the chip among
them. None where it fails. -/
def State.cpXlate (s : State) (p who asid addr : Nat) (kind : AccessKind) : State × Option Target :=
  if (s.chip p).offChip addr then (s.modChip p (fun c => c.farFault addr asid kind 0), none)
  else
    let r := s.unitXlate p who asid addr kind 0 none
    (r.1, match r.2 with
      | .error _ => none
      | .ok t => some t)

/-- The place of a completion signal; none where there is no signal, or none that can be reached. -/
def State.csigAt (s : State) (p who asid : Nat) (csig : DWord) : State × Option Target :=
  if csig = 0 then (s, none) else s.cpXlate p who asid csig.toNat .unitWrite

/-- Whether a target lies in host memory. -/
def Target.onHost : Target → Bool
  | .host _ => true
  | _ => false

/-- Whether a packet's completion signal lies in host memory, as the page tables stand. -/
def Chip.csigHost (c : Chip) (asid : Nat) (k : StartedPkt) : Bool :=
  k.csig ≠ 0 && !c.offChip k.csig.toNat && (match c.unitPeek asid k.csig.toNat with
    | .ok t => t.onHost
    | .error _ => false)

/-- The word of the host on its AtomicOps: the first that a command processor has is kept, for it is a property of the host; none where this one differs from
it (R419). -/
def State.hostSays (s : State) (yes : Bool) : Option State :=
  if s.hostAtomics.any (· ≠ yes) then none else some { s with hostAtomics := some yes }

/-! ## NOTIFY and the reading of packets (R414, R417) -/

/-- NOTIFY_WRITE (R414). -/
def execNotifyWrite (p half q : Nat) (v : DWord) (s : State) : Host.Outcome State Fault Refusal :=
  .next (s.modChip p (fun c => c.notify half q v))

/-- The 64 bytes of a slot, none where they cannot be read. A slot lies in one page and one line. -/
def State.slotBytes (s : State) (p who asid addr : Nat) : State × Option (List Byte) :=
  let r := s.cpXlate p who asid addr .unitRead
  match r.2 with
  | none => (r.1, none)
  | some t =>
    let b := r.1.unitGet p 0 t 64
    (b.1, b.2.toOption)

/-- The packet that stands in a slot: its header, CSIG and payload. DEDUCED: a slot that cannot be read is a packet with nothing in it that
carries CODE XLATE, and that retires with it once it may start (R426). -/
def packetIn (n : Nat) (bytes : Option (List Byte)) : StartedPkt :=
  let w := pieces 8 8 (bytes.getD [])
  let word := fun i => BitVec.ofNat 64 (ofLe (w.getD i []))
  { n := n, hdr := word 0, csig := word 1, payload := (List.range 6).map (fun i => word (i + 2)), stage := .fetched, deps := [],
    code := if bytes.isSome then 0 else 4, detail := 0, cause := 0, faultId := 0, kern := none }

/-- PACKET_FETCH (R417): the slot at FETCH. -/
def execPacketFetch (p half q : Nat) (s : State) : Host.Outcome State Fault Refusal :=
  .next (match (s.chip p).queueAt half q with
    | none => s
    | some x =>
      if x.notify.toNat ≤ x.fetch.toNat then s
      else
        let r := s.slotBytes p (askPkt half q x.fetch.toNat) x.asid (x.slotOf x.fetch.toNat)
        let k := packetIn x.fetch.toNat r.2
        s.unitStep (r.1.modChip p (fun c =>
          if r.2.isSome && !k.hdr.getLsbD 0 then c.setQueue half q { x with stall := true }
          else c.setQueue half q { x with stall := false, fetch := x.fetch + 1, started := x.started ++ [k] })))

/-! ## Starting -/

/-- Whether a packet must be rejected because its completion signal lies with a host that completes no AtomicOps (R419). -/
def State.barred (s : State) (p asid : Nat) (k : StartedPkt) : Bool := s.hostAtomics = some false && (s.chip p).csigHost asid k

/-- Starts packet `n` where it is of type `ty` and may start: with a reserved bit set it is rejected, otherwise `f` performs it. DESIGN CHOICE: one whose
completion signal lies in host memory waits until the command processor knows whether the host completes AtomicOps, so that nothing is performed of a packet
that it must reject for it (R419, R420). It waits, too, for a translation that is not ready (R470). -/
def State.startPkt (s : State) (p half q n ty : Nat) (f : State → Queue → StartedPkt → State × StartedPkt) : State :=
  match (s.chip p).queueAt half q with
  | none => s
  | some x => match x.pkt n with
    | none => s
    | some k =>
      if k.type ≠ ty || k.code ≠ 0 || !x.mayStart k || s.hostAtomics.isNone && (s.chip p).csigHost x.asid k then s
      else if k.reserved then s.modChip p (fun c => c.setPkt half q (k.result pktReject 1))
      else
        let r := f s x k
        s.unitStep (r.1.modChip p (fun c => c.setPkt half q r.2))

/-! ## LAUNCH (R426, R427, R445) -/

/-- The offset of LREC, where a command processor has placed the copy of a packet's launch record (R445). DESIGN CHOICE: the copies stand at
addresses of their own, with bit 47 set and one place for each QTAG, which no page table maps; the spec does not say where. -/
def lrecOff (qtag : Nat) : Nat := 2 ^ 47 + 256 * qtag

/-- PAYLOAD of SUBMIT (R445). LREC names the copy, tagged with the chip. -/
def submitPayload (lrec asid : Nat) (k : LaunchRec) (qtag : Nat) : Nat :=
  lrec + asid % 2 ^ 16 * 2 ^ 64 + (k.nblocks - 1) * 2 ^ 80 + (k.csize - 1) * 2 ^ 104 + k.kc * 2 ^ 109 + k.cls * 2 ^ 115 + b2n k.gang * 2 ^ 117 +
    b2n k.restart * 2 ^ 118 + b2n k.fgear * 2 ^ 119 + qtag * 2 ^ 120

/-- QTAG of a packet. -/
def qtagOf (half q n : Nat) : Nat := half % 2 * 2 ^ 25 + q % 512 * 2 ^ 16 + n % 2 ^ 16

/-- Whether the chip's grid table has a FREE row. -/
def Chip.rowFree (c : Chip) : Bool := (c.pel.rep.grids.filter (fun e => e.2.state ≠ .free)).length < 4096

/-- Enters SUBMIT for a packet that waits, once a row is free and no earlier LAUNCH of its queue waits (R418, R427). -/
def Chip.submitPkt (c : Chip) (half q n : Nat) : Chip :=
  match c.queueAt half q with
  | none => c
  | some x => match x.pkt n with
    | none => c
    | some k => match k.kern with
      | none => c
      | some r =>
        if k.stage ≠ .waiting || x.started.any (fun j => j.n < n && j.stage = .waiting) || !c.rowFree then c
        else (c.setPkt half q { k with stage := .submitted }).propose 0
          (submitPayload (c.chipId * 2 ^ 48 + lrecOff (qtagOf half q n)) x.asid r (qtagOf half q n))

/-- A command processor places a copy of a packet's record on its chip (R445). -/
def Chip.keepRecord (c : Chip) (asid qtag : Nat) (bs : List Byte) : Chip := { c with lrecs := tset c.lrecs (lrecOff qtag) (asid, bs) }

/-- The launch record that a copy holds, for an address space. -/
def Chip.recordAt (c : Chip) (asid off : Nat) : Option LaunchRec :=
  ((tfind c.lrecs off).filter (fun e => e.1 = asid)).map (fun e => decodeRec (ofLe e.2))

/-- LAUNCH_PACKET (R426, R427): the record is read once and checked; a record that passes is entered once a grid row is free. -/
def execLaunchPacket (p half q n : Nat) (s : State) : Host.Outcome State Fault Refusal :=
  .next ((s.startPkt p half q n 0 (fun s x k =>
    if k.arg 0 % 256 ≠ 0 then (s, k.result pktReject 2)
    else
      let r := s.unitBytes p (askPkt half q n) x.asid (k.arg 0) 256 0
      match r.2 with
      | none => (r.1, k.result pktXlate 1)
      | some bs =>
        match (r.1.chip p).checkRec x.asid (ofLe bs) with
        | some d => (r.1, k.result pktReject d)
        | none => if r.1.barred p x.asid k then (r.1, k.result pktReject 8) else (r.1.modChip p (fun c => c.keepRecord x.asid (qtagOf half q n) bs), { k with stage := .waiting, kern := some (decodeRec (ofLe bs)) }))).modChip p (fun c => c.submitPkt half q n))

/-! ## BARRIER (R416) -/

/-- Reads the unresolved dependencies of a BARRIER: those at most 0 are resolved; an unreadable one ends the packet. -/
def State.readDeps (s : State) (p who : Nat) (x : Queue) (k : StartedPkt) : State × StartedPkt :=
  let r := k.deps.foldl (fun (acc : State × Option (List DWord)) d =>
    match acc.2 with
    | none => acc
    | some l =>
      let b := acc.1.unitBytes p who x.asid d.toNat 8 0
      (b.1, b.2.map (fun bs => if asSigned 64 (ofLe bs) ≤ 0 then l else l ++ [d]))) (s, some [])
  (r.1, match r.2 with
    | none => k.result pktXlate 2
    | some [] => k.result pktDone 0
    | some l => { k with stage := .started, deps := l })

/-- BARRIER_PACKET (R416). -/
def execBarrierPacket (p half q n : Nat) (s : State) : Host.Outcome State Fault Refusal :=
  .next (s.startPkt p half q n 1 (fun s x k =>
    let deps := (k.payload.take 4).filter (· ≠ 0)
    if deps.any (fun d => d.toNat % 8 ≠ 0) then (s, k.result pktReject 2)
    else if s.barred p x.asid k then (s, k.result pktReject 8)
    else s.readDeps p (askPkt half q n) x { k with deps := deps }))

/-- BARRIER_RECHECK (R416). -/
def execBarrierRecheck (p half q n : Nat) (s : State) : Host.Outcome State Fault Refusal :=
  .next (match (s.chip p).queueAt half q with
    | none => s
    | some x => match x.pkt n with
      | none => s
      | some k =>
        if k.type ≠ 1 || k.stage ≠ .started then s
        else
          let r := s.readDeps p (askPkt half q n) x k
          s.unitStep (r.1.modChip p (fun c => c.setPkt half q r.2)))

/-! ## SIGNAL and COPY (R416) -/

/-- SIGNAL_PACKET (R416, R419): `hostAtomics` is the host's word on its AtomicOps. -/
def execSignalPacket (p half q n : Nat) (hostAtomics : Bool) (s : State) : Host.Outcome State Fault Refusal :=
  .next (((s.hostSays hostAtomics).map (fun s => s.startPkt p half q n 2 (fun s x k =>
    if k.arg 0 % 8 ≠ 0 then (s, k.result pktReject 2)
    else if (s.chip p).offChip (k.arg 0) then (s, k.result pktReject 7)
    else
      let r := s.unitXlate p (askPkt half q n) x.asid (k.arg 0) .unitWrite 0 none
      match r.2 with
      | .error _ => (r.1, k.result pktXlate 2)
      | .ok t =>
        if !hostAtomics && t.onHost || r.1.barred p x.asid k then (r.1, k.result pktReject 8)
        else
          let w := r.1.addWord p t (k.payload.getD 1 0)
          (w.1, if w.2 then k.result pktDone 0 else k.result pktXlate 2)))).getD s)

/-- Copies one 16-byte unit; it reads the bytes from before the packet or those that stand there now. -/
def State.packetUnit (s0 s : State) (p who asid d src u : Nat) : State × Bool :=
  let r := s.unitXlate p who asid (src + 16 * u) .unitRead 0 none
  match r.2 with
  | .error _ => (r.1, false)
  | .ok a =>
    let w := r.1.unitXlate p who asid (d + 16 * u) .unitWrite 0 none
    match w.2 with
    | .error _ => (w.1, false)
    | .ok b =>
      match (if Config.laneKey s.tick u % 2 = 0 then w.1 else s0).unitRead p 0 a 16 with
      | .error _ => (w.1, false)
      | .ok bs =>
        let t := w.1.unitWrite p 0 b none bs
        (t.1, t.2 = 0)

/-- COPY_PACKET (R416). -/
def execCopyPacket (p half q n : Nat) (s : State) : Host.Outcome State Fault Refusal :=
  .next (s.startPkt p half q n 3 (fun s x k =>
    let d := k.arg 0
    let src := k.arg 1
    let len := k.arg 2
    let c := s.chip p
    if d % 16 ≠ 0 || src % 16 ≠ 0 || len % 16 ≠ 0 || len < 16 || 2 ^ 32 < len then (s, k.result pktReject 2)
    else if c.rangeOff d len || c.rangeOff src len then (s, k.result pktReject 7)
    else if s.barred p x.asid k then (s, k.result pktReject 8)
    else
      let r := (unitOrder s.tick (len / 16)).foldl (fun (acc : State × Bool) u =>
        if acc.2 || !acc.1.asks.isEmpty then s.packetUnit acc.1 p (askPkt half q n) x.asid d src u else acc) (s, true)
      (r.1, if r.2 then k.result pktDone 0 else k.result pktXlate 2)))

/-! ## Retirement (R419, R420) -/

/-- The header of a retired packet. -/
def StartedPkt.retired (k : StartedPkt) : Nat :=
  k.code * 2 ^ 56 + k.detail % 256 * 2 ^ 48 + k.cause % 256 * 2 ^ 40 + 2 ^ 5 + fld k.hdr.toNat 1 4 * 2

/-- A write of a command processor to its ring; one that cannot be made is left out. -/
def State.ringWrite (s : State) (p who asid addr v : Nat) : State :=
  let r := s.cpXlate p who asid addr .unitWrite
  match r.2 with
  | none => r.1
  | some t => (r.1.unitWrite p 0 t none (leBytes 8 v)).1

/-- Whether a packet that may start has nothing to perform: TYPE 4 to 7, or a slot that could not be read. -/
def StartedPkt.invalid (k : StartedPkt) : Bool := 4 ≤ k.type || k.stage = .fetched && k.code = pktXlate

/-- PACKET_RETIRE (R419): the result header, FAULTID, then −1 to the completion signal. A packet of TYPE 4 to 7 starts and is rejected
here (R420). A signal that cannot be reached gives XLATE, with DETAIL 2 (R420, R472); DESIGN CHOICE: in place of DONE alone, any other result stands. -/
def execPacketRetire (p half q n : Nat) (hostAtomics : Bool) (s : State) : Host.Outcome State Fault Refusal :=
  .next (((s.hostSays hostAtomics).map (fun s => match (s.chip p).queueAt half q with
    | none => s
    | some x => match x.pkt n with
      | none => s
      | some k0 =>
        let who := askPkt half q n
        let invalid := k0.invalid && x.mayStart k0
        if k0.stage ≠ .resolved && !invalid then s
        else
          let sig := s.csigAt p who x.asid k0.csig
          let k1 := if !invalid then k0 else if k0.code = pktXlate then k0.result pktXlate 1 else k0.result pktReject 1
          let refused := sig.2.any Target.onHost && !hostAtomics
          let k := if refused && k1.code ≠ pktReject then k1.result pktReject 8
            else if k1.code = pktDone && k0.csig ≠ 0 && sig.2.isNone then k1.result pktXlate 2 else k1
          let s1 := sig.1.modChip p (fun c => c.setQueue half q { x with started := x.started.filter (fun j => j.n ≠ n), doneCnt := x.doneCnt + 1 })
          let s2 := s1.ringWrite p who x.asid (x.slotOf n) k.retired
          let s3 := if k.code = pktFault then s2.ringWrite p who x.asid (x.slotOf n + 56) k.faultId.toNat else s2
          s.unitStep (match sig.2 with
            | none => s3
            | some t => if refused then s3 else (s3.addWord p t 0xFFFFFFFFFFFFFFFF).1))).getD s)

end Sys2Proof.Machine
end

