-- ==== Sys2Proof/Machine/Walks.lean ====
section
/-! DEFINITION. Walkers, the fault queue, TLB invalidation and poisoned lines (R463 to R478). -/

namespace Sys2Proof.Machine

open Sys2Proof

/-! ## Walks (R470, R475) -/

/-- The failure of a walk for one of those that asked: its word is held, where it still stands there and the page is not held already. -/
def Chip.holdFor (c : Chip) (x : Walk) (cause level : Nat) (r : WalkReq) : Chip :=
  match tfind c.waves r.wid with
  | none => c
  | some w =>
    let here := (w.path? r.slot).any (fun q => q.pc = r.pc && q.mask &&& r.lanes ≠ 0)
    if w.ended || w.saved.isSome || !here || (w.held r.slot).any (fun h => h.page = BitVec.ofNat 64 (r.addr / 4096 * 4096)) then c
    else c.holdPage r.wid r.slot r.lanes r.addr x.asid r.kind cause level r.second

/-- The four vaults of one half whose queues one walker serves: walker w of a half, of 16, those of vaults 4w to 4w + 3 of it (R1, R470). -/
def walkerVaults (vault : Nat) : List Nat := (List.range 4).map (fun i => vault / 4 * 4 + i)

/-- The walk that the walker of a vault takes next: the oldest in its four queues, with its vault (R470). -/
def Chip.walkerNext (c : Chip) (vault : Nat) : Option (Nat × Walk) :=
  ((walkerVaults vault).filterMap (fun v => (tget [] c.walks v).head?.map (fun x => (v, x)))).foldl (fun m e =>
    match m with
    | none => some e
    | some b => if e.2.age < b.2.age then some e else some b) none

/-- The result of a walk reaches the access of a unit that has joined it: it stands ready for the unit, and a success fills the L2 TLB of the cluster. -/
def Chip.unitWalked (c : Chip) (asid page : Nat) (q : UnitReq) (r : Xlate) : Chip :=
  let put := fun (c : Chip) (e : Option TlbEntry) (cause level : Nat) =>
    let rest := c.unitWalks.filter (fun x => !(x.asid = asid && x.page = page && x.req = q))
    { c with unitWalks := rest ++ [{ asid := asid, page := page, req := q, entry := e, cause := cause, level := level }] }
  match r with
  | .ok e => put (c.l2Fill q.cluster e) (some e) 0 0
  | .fail cause level => put c none cause level

/-- PAGE_WALK (R470): the walker of a vault reads the tables for the walk that it takes next, if that stands in this vault's queue. What the walk
finds is a result for everyone who has joined it, each by its own access: a success fills its TLBs, a failure holds its word; a unit takes either. -/
def execPageWalk (p vault : Nat) (s : State) : Host.Outcome State Fault Refusal :=
  .next (s.modChip p (fun c =>
    match c.walkerNext vault with
    | none => c
    | some (v, x) =>
      if v ≠ vault then c
      else
        let c1 := x.reqs.foldl (fun k r =>
          match walkTable c x.asid (x.page * 4096) r.kind with
          | .ok e => k.tlbFill r.core e
          | .fail cause level => k.holdFor x cause level r) { c with walks := tset c.walks vault ((tget [] c.walks vault).drop 1) }
        x.units.foldl (fun k r => k.unitWalked x.asid x.page r (walkTable c x.asid (x.page * 4096) r.kind)) c1))

/-! ## The fault queue (R473, R475) -/

/-- Applies `f` to the held page of a token. -/
def Chip.modHeld (c : Chip) (token : Word) (f : HeldPage → HeldPage) : Chip :=
  let g := fun (h : HeldPage) => if h.token = token then f h else h
  { c with waves := tmap c.waves (fun _ w => w.mapPaths (fun q => { q with held := q.held.map g })) }

/-- With the queue disabled every record that waits for room counts as answered with FAIL set. -/
def Chip.failWaiting (c : Chip) : Chip :=
  c.pendFaults.foldl (fun c r => c.modHeld r.token (fun h => { h with answer := some true })) { c with pendFaults := [] }

/-- FAULT_RECORD_WRITE (R473). -/
def execFaultRecordWrite (p idx : Nat) (s : State) : Host.Outcome State Fault Refusal :=
  .next (s.modChip p (fun c =>
    match c.pendFaults[idx]? with
    | none => c
    | some r =>
      if !c.fqRoom then c
      else ({ c with pendFaults := c.pendFaults.eraseIdx idx }.fqPut r.record).modHeld r.token (fun h => { h with written := true })))

/-- FQANS_WRITE (R475): the answer to a record that is written, once. -/
def execFqansWrite (p : Nat) (v : DWord) (s : State) : Host.Outcome State Fault Refusal :=
  .next (s.modChip p (fun c => if !c.accepts then c else c.modHeld (lo32 v) (fun h => if h.written && h.answer.isNone then { h with answer := some (v.getLsbD 32) } else h)))

/-! ## Invalidation (R471) -/

/-- Whether an entry matches an invalidation: scope, ASID, offset of PAGE. -/
def TlbEntry.hit (e : TlbEntry) (x : Nat × Nat × Nat) : Bool :=
  match x.1 with
  | 0 => e.covers x.2.1 x.2.2
  | 1 => e.asid = x.2.1
  | _ => true

/-- TLBINV: an invalidation begins; one in progress lets no other begin. -/
def Chip.beginInv (c : Chip) (x : Nat × Nat × Nat) : Chip := if c.tlbBusy || !c.accepts then c else { c with tlbBusy := true, tlbScope := some x }

/-- TLBINV_PAGE (R471). -/
def execTlbinvPage (p : Nat) (asid : BitVec 16) (page : BitVec 36) (s : State) : Host.Outcome State Fault Refusal :=
  .next (s.modChip p (fun c => c.beginInv (0, asid.toNat, page.toNat * 4096)))
/-- TLBINV_ASID (R471). -/
def execTlbinvAsid (p : Nat) (asid : BitVec 16) (s : State) : Host.Outcome State Fault Refusal :=
  .next (s.modChip p (fun c => c.beginInv (1, asid.toNat, 0)))
/-- TLBINV_ALL (R471). -/
def execTlbinvAll (p : Nat) (s : State) : Host.Outcome State Fault Refusal := .next (s.modChip p (fun c => c.beginInv (2, 0, 0)))

/-- Whether every access that an entry has translated is performed: none outside local memory is pending, partly read, or held in a store buffer (R364). -/
def Chip.accessesDone (c : Chip) : Bool :=
  let near := fun (t : Target) => match t with
    | .loc _ _ _ => true
    | _ => false
  c.pend.all (fun a => near a.tgt) && c.waves.all (fun e => e.2.buf.all (fun b => near b.tgt)) &&
  c.prods.all (fun e => match e.2.kind with
    | .load _ _ _ reads => reads.all (fun r => r.tgts.all (fun t => near t.2))
    | _ => true)

/-- The 4 KiB pages of a region's code that lie in its address space, with the frame that each had at binding. -/
def Binding.pages (b : Binding) : List (Nat × Nat) :=
  ((List.range b.frames.length).zip b.frames).map (fun e => (b.first / 4096 * 4096 + 4096 * e.1, e.2))

/-- Whether a code page of a region is affected by the invalidation of one page: it lies in that page, in the leaf that now holds it, in an entry
removed, or it is no longer mapped to its frame. -/
def Chip.pageGone (c : Chip) (b : Binding) (page : Nat) (gone : List TlbEntry) : Bool :=
  let near := fun (base size : Nat) => b.first < base + size && base < b.last
  near page 4096 || gone.any (fun t => near t.base (2 ^ t.log2)) ||
  (match walkTable c b.asid page .load with
    | .ok e => near e.base (2 ^ e.log2)
    | .fail _ _ => false) ||
  b.pages.any (fun e => match walkTable c b.asid e.1 .load with
    | .ok t => decide (t.target e.1 ≠ .dram (e.2 * 4096))
    | .fail _ _ => true)

/-- The bound regions whose code lies in the pages of an invalidation. -/
def Chip.regionsIn (c : Chip) (x : Nat × Nat × Nat) (gone : List TlbEntry) : List Nat :=
  (c.bindings.filter (fun e => match x.1 with
    | 0 => e.2.asid = x.2.1 && c.pageGone e.2 x.2.2 gone
    | 1 => e.2.asid = x.2.1
    | _ => true)).map (·.1)

/-- TLBINV_DONE (R471): every access that a matching entry has translated is performed; the entries go, and regions whose code lay in the
range are forced to OFF (R350). -/
def execTlbinvDone (p : Nat) (s : State) : Host.Outcome State Fault Refusal :=
  .next (s.modChip p (fun c =>
    match c.tlbScope with
    | none => c
    | some x =>
      if !c.tlbBusy || !c.accessesDone then c
      else
        let keep := fun (l : List TlbEntry) => l.filter (fun e => !e.hit x)
        let gone := (c.cores.flatMap (fun e => e.2.tlb) ++ c.clusters.flatMap (fun e => e.2.l2tlb)).filter (fun e => e.hit x)
        let c1 := { c with tlbBusy := false, tlbScope := none
                           cores := tmap c.cores (fun _ k => { k with tlb := keep k.tlb })
                           clusters := tmap c.clusters (fun _ k => { k with l2tlb := keep k.l2tlb })
                           unitWalks := c.unitWalks.filter (fun e => !e.entry.any (fun t => t.hit x)) }
        (c.regionsIn x gone).foldl Chip.regionOff c1))

/-- ASTBASE_WRITE (R464): with EN set, a base at or above 384 GiB is ignored. -/
def execAstbaseWrite (p : Nat) (v : DWord) (s : State) : Host.Outcome State Fault Refusal :=
  let base := fld v.toNat 19 33 * 2 ^ 19
  .next (if !(s.chip p).accepts || v.getLsbD 0 && dramBytes ≤ base then s
    else s.modChip p (fun c => { c with astbase := BitVec.ofNat 64 (base + b2n (v.getLsbD 0)) }))

/-! ## Poison (R478) -/

/-- The vault of a physical line (R461). -/
def lineVault (line : Nat) : Nat := line / 32 % 128

/-- Marks a line of DRAM poisoned. -/
def Chip.poisonLine (c : Chip) (line : Nat) : Chip :=
  if dramBytes / 128 ≤ line || c.poison.contains line then c else { c with poison := line :: c.poison }

/-- LINE_POISON (R478, R496): an uncorrectable error, logged in class 2. DESIGN CHOICE: STATUS is what a load that finds it receives (R502). -/
def execLinePoison (p line : Nat) (s : State) : Host.Outcome State Fault Refusal :=
  .next (s.modChip p (fun c => (c.poisonLine line).logEvent 2 1 (lineVault line) (line * 128) (c.poisonStatus 0)))

end Sys2Proof.Machine
end

