-- ==== Sys2Proof/Machine/Damage.lean ====
section
/-! DEFINITION. Uncorrectable errors in the storage of units other than DRAM (R13, R496, R498). One of a stored word or register arises unseen and is met at its
first use, which logs it in class 4. One in what a unit keeps for itself arises as the unit uses it: what it served ends, and the record is written at once. -/

namespace Sys2Proof.Machine

open Sys2Proof

/-- A word of a register is lost in some lanes: it holds the status word there, with error bit and mask set, as a failed producer leaves it (R68), and no
consumer has met it. A register that awaits its producer holds nothing. -/
def Wave.damage (w : Wave) (r : RegRef) (lanes st : Word) : Wave :=
  let full := match r with
    | .v x => (w.lreg x).full
    | .s n => (w.ureg n).full
  if !full || lanes = 0 then w
  else
    let u := ((lanesOf lanes).foldl (fun w k => w.landLane k (.fail st) 0 r) w).landFull r
    { u with sick := r :: u.sick.filter (· ≠ r) }

/-- A predicate, index or handle register loses some lanes. -/
def Wave.damageSoft (w : Wave) (r : SoftReg) (lanes : Word) : Wave :=
  if lanes = 0 || r = .p 7 then w
  else { w with soft := (r, lanes ||| w.softBad r (~~~0), false) :: w.soft.filter (fun e => e.1 ≠ r) }

/-- A packet whose state is lost; none where it has none. DESIGN CHOICE: it retires with XLATE, DETAIL 1, as one that cannot be read; a grid that it has
submitted faults, with CAUSE 0. -/
def Chip.losePacket (c : Chip) (half q n : Nat) : Option Chip :=
  ((c.queueAt half q).bind (fun x => x.pkt n)).bind (fun k =>
    match k.stage with
    | .resolved => none
    | .submitted => (c.pel.rep.grids.find? (fun e => e.2.state ≠ .free && e.2.origin = c.chipId && e.2.qtag.toNat = qtagOf half q n)).map (fun e =>
        c.propose 3 (e.2.ggen.toNat * 2 ^ 12 + e.1))
    | _ => some (c.setPkt half q (k.result pktXlate 1)))

/-- An uncorrectable error in what a unit keeps, met as the unit uses it: what it served, and the record (R496, R502). DESIGN CHOICE: a grid whose cohort a
queue engine has lost faults, with CAUSE 0, and so does a wave whose paths or heap are lost. -/
def State.unitError (s : State) (p : Nat) (d : Damage) : Option State :=
  let c := s.chip p
  let log := fun (t : State) (unit num : Nat) (st : Word) => t.modChip p (fun c => c.logSram 1 unit num st)
  match d with
  | .path wid => ((tfind c.waves wid).filter (fun w => !w.ended)).map (fun w => log (s.waveFault p wid 0) 0 w.core (c.poisonStatus 0))
  | .slice line unit =>
    if dramBytes / 128 ≤ line || c.poison.contains line then none
    else some (s.setChip p ((c.poisonLine line).logSram 1 1 (lineVault line) (c.poisonStatus unit) (line * 128)))
  | .context vault ctx =>
    let x := (c.engine vault).context ctx
    if !x.busy || x.ending.isSome then none else some (log (s.setChip p (c.setCtx vault ctx (x.fail (c.poisonStatus 2)))) 2 vault (c.poisonStatus 2))
  | .element i => ((c.coords[i]?).filter (fun k => k.damaged ≠ k)).map (fun k => log (s.setChip p (c.setCoord k k.damaged)) 4 0 (c.poisonStatus 5))
  | .packet half q n => (c.losePacket half q n).map (fun d => log (s.setChip p d) 5 half (c.poisonStatus 0))
  | .cohort k => ((tfind c.cohorts k).filter (fun x => x.status ≠ .finished)).map (fun x =>
      log (s.setChip p (c.gridFault x.grow 0)) 6 x.cluster (c.poisonStatus 0))
  | _ => none

/-- An uncorrectable error arises in a stored word or register; nothing tells of it before its first use. -/
def Chip.damage (c : Chip) (d : Damage) : Chip :=
  match d with
  | .word blk fol off =>
    match tfind c.blocks blk with
    | none => c
    | some b =>
      let e := (fol, off / 4)
      if b.lsize ≤ off || fol && !b.tandem then c else c.setBlock blk { b with bad := e :: b.bad.filter (· ≠ e), met := b.met.filter (· ≠ e) }
  | .reg wid r lanes =>
    match tfind c.waves wid with
    | none => c
    | some w => if w.ended then c else (c.setWave wid (w.damage r lanes (c.poisonStatus 0))).resave wid
  | .soft wid r lanes =>
    match tfind c.waves wid with
    | none => c
    | some w => if w.ended then c else c.setWave wid (w.damageSoft r lanes)
  | .icache core pa =>
    let k := c.core core
    if (tfind k.icache pa).isNone then c
    else c.setCore core { k with icBad := pa :: k.icBad.filter (· ≠ pa), icMet := k.icMet.filter (· ≠ pa) }
  | .l1 core line word =>
    let k := c.core core
    c.setCore core { k with l1 := k.l1.map (fun l => if l.line = line && word < 32 then { l with bad := word :: l.bad.filter (· ≠ word) } else l) }
  | .counter vault n =>
    let e := c.engine vault
    if 128 ≤ vault || 64 ≤ n then c else c.setEngine vault { e with bad := (n, false) :: e.bad.filter (fun b => b.1 ≠ n) }
  | _ => c

/-- An uncorrectable error (R13). -/
def State.damage (s : State) (p : Nat) (d : Damage) : State := ((s.unitError p d).getD (s.modChip p (fun c => c.damage d)))

end Sys2Proof.Machine
end

