-- ==== Sys2Proof/Machine/Remote.lean ====
section
/-! DEFINITION. Copies and remote operations, major opcode 0x84 (R235 to R240), `ratom` (R241), the copy unit's events, and the packets
that carry them between chips (R378). -/

namespace Sys2Proof.Machine

open Sys2Proof

/-! ## Issue of copies (R235 to R237) -/

/-- Whether a global range of `n` bytes is one that an address names: bits [63:57] zero, inside its chip's space (R73). -/
def rangeOk (a n : Nat) : Bool := a / 2 ^ 57 == 0 && a % 2 ^ 48 + n ≤ 2 ^ 48

/-- The destination address of a copy (R215, R235). -/
def Iss.copyDst (x : Iss) : Nat := x.gaddr x.low
/-- The source address of a copy. -/
def Iss.copySrc (x : Iss) : Nat := (x.dword .b x.low).toNat
/-- The length of a copy. -/
def Iss.copyLen (x : Iss) : Nat := (x.word .b x.low 2).toNat

/-- DL, SL, REC, INC and ROP (R235). -/
def copyDl (o : Ops) : Bool := nbit o.mmod 6
/-- See `copyDl`. -/
def copySl (o : Ops) : Bool := nbit o.mmod 5
/-- See `copyDl`. -/
def copyRec (o : Ops) : Bool := nbit o.mmod 4
/-- See `copyDl`. -/
def copyInc (o : Ops) : Bool := nbit o.mmod 3
/-- See `copyDl`. -/
def copyRop (o : Ops) : Nat := fld o.mmod 1 2

/-- Whether a local side of a copy is out of range: its high word is not zero, or R76 faults over the whole range. -/
def Iss.copyLocalBad (x : Iss) (a n : Nat) : Bool := a / 2 ^ 32 ≠ 0 || (x.c.localAt x.w.blk a n).isNone

/-- The traps of a copy before it starts (R217, R237, R381). -/
def Iss.copyTrap (x : Iss) (put get : Bool) (red : Option (Nat × Ty)) : Option TrapInfo :=
  let o := x.o
  let d := x.copyDst
  let s := x.copySrc
  let n := x.copyLen
  let low := maskOf (· == x.low)
  let side := fun (a : Nat) (own : Bool) => !rangeOk a n || own && x.c.offChip a
  let peer := if put then d / 2 ^ 48 % 512 else if get then s / 2 ^ 48 % 512 else x.c.chipId
  let word := x.c.capOf peer
  let lacks := (match red with
    | some (rop, t) => capLacks word (capTypeBit t) || capLacks word (capRopBit rop)
    | none => false) || copyInc o && capLacks word capInc
  if !copyDl o && side d (!put) || !copySl o && side s (!get) || n < 16 || 2 ^ 24 < n then some { cause := 0x10, e0 := low }
  else if copyDl o && x.copyLocalBad d n || copySl o && x.copyLocalBad s n then some { cause := 0x11, e0 := low }
  else if d % 16 ≠ 0 || s % 16 ≠ 0 || n % 16 ≠ 0 then some { cause := 0x12, e0 := low }
  else if lacks then some { cause := 0x14, e1 := BitVec.ofNat 32 peer }
  else none

/-- In fixed gear, the wave's buffered stores to the ranges of its own `put` or `get` are performed first (R364). -/
def State.flushSides (s : State) (p : Nat) (k : CopyCmd) : State :=
  (List.range k.units).foldl (fun s u => (s.unitSides p k u).foldl (fun s t => if t.1 = p then s.flushRange p k.wid t.2 16 else s) s) s

/-- Starts a command: its producer, the flip of its local ranges, which no rule lets anyone observe (R101, R103), and for an INC put to
another chip the request for its ticket's turn. DESIGN CHOICE: the producer's one lane is lane 0, so that the error mask of a failed command is
0x0000_0001 (R239), where R68 gives the bit of the path's lowest active lane. -/
def Iss.startCopy (x : Iss) (s : State) (put get : Bool) (red : Option (Nat × Ty)) : State :=
  let o := x.o
  let pr : Producer := { wid := x.wid, pathMask := x.q.mask, kind := .copy, dests := [(0, x.w.refs x.q.wbase o.d 0 1 0)], res := [], region := if put then x.openRegion else none }
  let r := (s.chip x.p).startProducer x.wid pr
  let tag := x.word .b x.low 3
  let k : CopyCmd :=
    { id := r.1.next, wid := x.wid, blk := x.w.blk, core := x.w.core, asid := x.c.asidOf x.w.grow, put := put, get := get, red := red,
      dl := copyDl o, sl := copySl o, dst := BitVec.ofNat 64 x.copyDst, src := BitVec.ofNat 64 x.copySrc, len := x.copyLen, tag := tag,
      record := copyRec o, inc := copyInc o, granted := !copyInc o, prod := r.2, sent := [], finished := [], wrote := 0, failed := none,
      clock := x.time, grow := x.w.grow }
  let s1 := s.setChip x.p { r.1 with next := r.1.next + 1, copies := r.1.copies ++ [k] }
  let s2 := if x.fg && (put || get) then s1.flushSides x.p k else s1
  let peer := x.copyDst / 2 ^ 48
  if !copyInc o || peer = x.c.chipId then s2
  else if x.c.reaches peer then
    s2.ask x.p { Packet.blank with ptype := 9, dst := peer, opw := tag, asid := k.asid, ctx := k.id }
  else s2.modChip x.p (fun c => c.setCopy { k with failed := some (lostStatus peer) })

/-- The shape of `cpy`, `put`, `get` and the reducing forms. `cpy` alone is no synchronising operation (R249). -/
def copyRun (put get : Bool) (red : Option (Nat × Ty)) : Iss → State → Eff :=
  once (fun x s =>
    match x.copyTrap put get red with
    | some t => .trap t
    | none =>
      if (put || get) && !x.myTurn then .wait s
      else if 512 ≤ x.c.inFlight84 x.w.core then .wait s
      else
        let s1 := x.startCopy s put get red
        .done (if put then x.apxStore s1 else s1))

/-- `cpy` (R236). -/
def execCpy (o : Ops) (s : State) : Host.Outcome State Fault Refusal :=
  issue (formCopy true true false false o) o s (copyRun false false none)

/-- `put` (R236). -/
def execPut (o : Ops) (s : State) : Host.Outcome State Fault Refusal :=
  issueSync (formCopy false true true false o) o s (copyRun true false none)

/-- `get` (R236). -/
def execGet (o : Ops) (s : State) : Host.Outcome State Fault Refusal :=
  issueSync (formCopy true false false false o) o s (copyRun false true none)

/-- `put.red` (R236, R238). -/
def execPutRed (o : Ops) (s : State) : Host.Outcome State Fault Refusal :=
  issueSync (formCopy false true true true o) o s (copyRun true false (some (copyRop o, o.ty)))

/-- `get.red` (R236, R238). -/
def execGetRed (o : Ops) (s : State) : Host.Outcome State Fault Refusal :=
  issueSync (formCopy true false false true o) o s (copyRun false true (some (copyRop o, o.ty)))

/-! ## The copy unit at work -/

/-- A unit ends with a status word; one of a `put` from an open region has been performed (R302, R350). -/
def State.endUnit (s : State) (p : Nat) (k : CopyCmd) (u : Nat) (st : Word) : State :=
  let s1 := s.modChip p (fun c => c.setCopy (k.unitDone u st))
  if st = 0 then s1.forceOff p ((tfind (s.chip p).prods k.prod).bind Producer.region) else s1

/-- The side of a unit on the command's own chip: its target, or a status word. -/
def State.ownSide (s : State) (p : Nat) (k : CopyCmd) (isLocal : Bool) (addr : Nat) (kind : AccessKind) : State × Except Word Target :=
  if isLocal then
    match (s.chip p).localAt k.blk addr 16 with
    | some t => (s, .ok t)
    | none => (s, .error (statusWord codeXlate k.unitNo (s.chip p).chipId 0))
  else s.unitXlate p (askCopy k.id) k.asid addr kind k.unitNo (tfind (s.chip p).waves k.wid)

/-- The last part of a unit on the command's own chip: the write of its bytes. -/
def State.landUnit (s : State) (p : Nat) (k : CopyCmd) (u : Nat) (bs : List Byte) : State :=
  let r := s.ownSide p k k.dl (k.dstAt u) (writeKind k.red)
  match r.2 with
  | .error st => r.1.endUnit p k u st
  | .ok t =>
    let w := r.1.writeAs p (2 * k.id + 1) t bs.length (fun s => s.unitWrite p k.unitNo t k.red bs)
    w.1.endUnit p k u w.2

/-- Moves unit `u` (R238): reads it, a local source with what the wave's store buffer holds of it (R364), and writes it here or sends it, or asks the source's chip for it. -/
def State.moveUnit (s : State) (p : Nat) (k0 : CopyCmd) (u : Nat) : State :=
  let k := { k0 with sent := k0.sent ++ [u] }
  let s1 := s.modChip p (fun c => c.setCopy k)
  let c := s1.chip p
  let there := if k.get then k.srcAt u / 2 ^ 48 else k.dstAt u / 2 ^ 48
  let far := (k.get || k.put) && there ≠ c.chipId
  if far && !c.reaches there then s1.endUnit p k u (lostStatus there)
  else if far && k.get then
    s1.ask p { Packet.blank with ptype := 3, dst := there, addr := BitVec.ofNat 64 (k.srcAt u), asid := k.asid, len := 16, ctx := k.id, unit := u }
  else
    let r := s1.ownSide p k k.sl (k.srcAt u) .unitRead
    match r.2 with
    | .error st => r.1.endUnit p k u st
    | .ok t =>
      let g := r.1.unitGet p k.unitNo t 16
      match g.2 with
      | .error st => g.1.endUnit p k u st
      | .ok bs0 =>
        let bs := if k.sl then layOver bs0 (((tfind c.waves k.wid).map (fun w => w.bufBytes t 16)).getD []) else bs0
        if far then
          let opw := match k.red with
            | none => 0
            | some (rop, ty) => 1 + 2 * rop + 8 * ty.code
          r.1.ask p { Packet.blank with ptype := 1, dst := there, opw := BitVec.ofNat 32 opw, addr := BitVec.ofNat 64 (k.dstAt u),
                                        asid := k.asid, len := 16, data := bs, ctx := k.id, unit := u }
        else r.1.landUnit p k u bs

/-- Whether the copy unit may start unit `u`: no unit has failed, an INC put's ticket is served, the wave's own earlier local stores to the
ranges are performed (R101), local ranges are resident, and in fixed gear no earlier command of the grid touches its bytes (R359). -/
def State.unitDue (s : State) (p : Nat) (k : CopyCmd) (u : Nat) : Bool :=
  let c := s.chip p
  let sides := s.unitSides p k u
  k.failed.isNone && u < k.units && !k.sent.contains u && k.granted &&
  !c.pend.any (fun a => a.id < k.id && a.wid == k.wid && sides.any (fun t => t.1 = p && t.2 matches .loc _ _ _ && a.tgt.overlaps a.size t.2 16)) &&
  !(c.arrayCmds k.wid).any (fun a => a.id < k.id && sides.any (fun t => t.1 = p && (a.writesAt t.2 16 || a.readsAt t.2 16))) &&
  (!(k.dl || k.sl) || !((tfind c.blocks k.blk).bind Block.saved).isSome) &&
  (!(k.put || k.get) || c.mayAsk ((if k.get then k.srcAt u else k.dstAt u) / 2 ^ 48)) &&
  !(c.fgear k.grow && s.fgBusy k.grow (c.cmdTime k) (sides.map (fun t => (t.1, t.2, 16))))

/-- The command of a number. -/
def Chip.copy? (c : Chip) (id : Nat) : Option CopyCmd := c.copies.find? (fun k => k.id = id)

/-- COPY_UNIT_TRANSFER (R238). -/
def execCopyUnitTransfer (p cmd unit : Nat) (s : State) : Host.Outcome State Fault Refusal :=
  .next (match (s.chip p).copy? cmd with
    | none => s
    | some k => if s.unitDue p k unit then s.unitStep (s.moveUnit p k unit) else s)

/-! ## Incast counters (R240) -/

/-- NEXT and SERVING of an incast counter. -/
def Chip.incastAt (c : Chip) (n : Nat) : BitVec 24 × BitVec 24 := tget (0, 0) c.incast n

/-- Takes a ticket. -/
def Chip.takeTicket (c : Chip) (n : Nat) : Chip × Nat :=
  let v := c.incastAt n
  ({ c with incast := tset c.incast n (v.1 + 1, v.2) }, v.1.toNat)

/-- The grant of a waiting INC put. -/
def grantFor (k : Packet) : Packet := { Packet.blank with ptype := 10, dst := k.src }

/-- SERVING advances by one, and the INC put that waits for the new number is granted. -/
def State.serveNext (s : State) (p n : Nat) : State :=
  let c := s.chip p
  let v := c.incastAt n
  let hit := fun (k : Packet) => fld k.opw.toNat 24 8 = n && fld k.opw.toNat 0 24 = (v.2 + 1).toNat
  let s1 := s.setChip p { c with incast := tset c.incast n (v.1, v.2 + 1), tkWait := c.tkWait.filter (fun k => !hit k) }
  (c.tkWait.filter hit).foldl (fun s k => s.answer p k (grantFor k)) s1

/-- The incast counter and ticket that an INC put names in b3. -/
def CopyCmd.counter (k : CopyCmd) : Nat := fld k.tag.toNat 24 8
/-- See `CopyCmd.counter`. -/
def CopyCmd.ticketNo (k : CopyCmd) : Nat := fld k.tag.toNat 0 24

/-- INCAST_SERVE (R240): an INC put to its own chip, once SERVING equals its ticket. -/
def execIncastServe (p cmd : Nat) (s : State) : Host.Outcome State Fault Refusal :=
  let c := s.chip p
  .next (match c.copy? cmd with
    | none => s
    | some k =>
      if k.inc && !k.granted && k.failed.isNone && k.dst.toNat / 2 ^ 48 = c.chipId && (c.incastAt k.counter).2.toNat = k.ticketNo
      then s.setChip p (c.setCopy { k with granted := true }) else s)

/-- What the end of an INC put does to its counter: SERVING advances, unless the target is lost or rejected the put (R240, R382). -/
def State.incastEnd (s : State) (p : Nat) (k : CopyCmd) : State :=
  let c := s.chip p
  let dst := k.dst.toNat / 2 ^ 48
  let refused := match k.failed with
    | some st => fld st.toNat 24 8 = codeLost || fld st.toNat 24 8 = codeReject && fld st.toNat 0 11 = 1
    | none => false
  if !k.inc || refused then s
  else if dst = c.chipId then s.serveNext p k.counter
  else s.ask p { Packet.blank with ptype := 11, dst := dst, opw := BitVec.ofNat 32 k.counter }

/-- COPY_COMMAND_COMPLETE (R239): every unit is written, or one has failed and those in flight have ended. -/
def execCopyCommandComplete (p cmd : Nat) (s : State) : Host.Outcome State Fault Refusal :=
  .next (match (s.chip p).copy? cmd with
    | none => s
    | some k =>
      let ended := k.sent.all k.finished.contains && (k.failed.isSome || k.finished.length = k.units)
      if !ended then s
      else
        let res := match k.failed with
          | none => LaneRes.ok [0]
          | some st => .fail st
        let s1 := s.modChip p (fun c =>
          let c1 := ({ ((c.laneDone k.prod 0 res).landProducer k.prod) with copies := c.copies.filter (fun j => j.id ≠ k.id) } : Chip).publish (2 * k.id + 1)
          if k.record then
            c1.record (clusterOf k.core) (some k.grow) k.tag (BitVec.ofNat 32 k.wrote) (k.failed.getD 0) k.unitNo 0
          else c1)
        s1.incastEnd p k)

/-! ## `ticket` (R240) -/

/-- `ticket d, a` (R240). -/
def execTicket (o : Ops) (s : State) : Host.Outcome State Fault Refusal :=
  issueSync (formTicket o) o s (once (fun x s =>
    let a := (x.word .a x.low 0).toNat
    let chip := fld a 8 9
    let n := fld a 0 8
    if capLacks (x.c.capOf chip) capInc then .trap { cause := 0x14, e1 := BitVec.ofNat 32 chip }
    else if !x.myTurn || 512 ≤ x.c.inFlight84 x.w.core then .wait s
    else
      let pr : Producer := { wid := x.wid, pathMask := x.q.mask, kind := .ticket, dests := x.destRefs 1, res := [] }
      let r := (s.chip x.p).startProducer x.wid pr
      let s1 := s.setChip x.p r.1
      let here := if chip = x.c.chipId then some x.p else if x.fg && x.c.reaches chip then s.pkgOf chip else none
      match here with
      | some q =>
        if (s1.chip q).unable capInc then
          .done (s1.modChip x.p (fun c => c.laneDone r.2 x.low (.fail (statusWord codeReject 3 chip 1))))
        else
          let t := (s1.chip q).takeTicket n
          .done ((s1.setChip q t.1).modChip x.p (fun c => c.laneDone r.2 x.low (.ok [BitVec.ofNat 32 t.2])))
      | none =>
        if x.c.reaches chip then
          .done (s1.ask x.p { Packet.blank with ptype := 7, dst := chip, opw := BitVec.ofNat 32 n, ctx := r.2, unit := x.low })
        else .done (s1.modChip x.p (fun c => c.laneDone r.2 x.low (.fail (lostStatus chip))))))

/-! ## `ratom` (R241) -/

/-- The lanes of an operation grouped by address, in the order of their lowest lanes. -/
def groupLanes (l : List (Nat × Nat)) : List (Nat × List Nat) :=
  l.foldl (fun acc e =>
    if acc.any (fun g => g.1 = e.2) then acc.map (fun g => if g.1 = e.2 then (g.1, g.2 ++ [e.1]) else g) else acc ++ [(e.2, [e.1])]) []

/-- The request of one group: operands in ascending lane order, then for `cas` the compare values (R378). -/
def Iss.atPacket (x : Iss) (prod : Nat) (g : Nat × List Nat) (unit : Nat) : Packet :=
  let w := x.o.ty.width / 8
  let b := g.2.flatMap (fun k => leBytes w (x.atomVals k).1.toNat)
  let cmp := if aopOf x.o = 7 then g.2.flatMap (fun k => leBytes w (x.atomVals k).2.toNat) else []
  { Packet.blank with
      ptype := 5, dst := g.1 / 2 ^ 48, addr := BitVec.ofNat 64 g.1, asid := x.c.asidOf x.w.grow, ctx := prod, unit := unit, ty := x.o.ty
      opw := BitVec.ofNat 32 (aopOf x.o + 16 * b2n (w = 8) + 32 * b2n x.o.hs + 256 * g.2.length), data := b ++ cmp,
      len := (b ++ cmp).length }

/-- The wave that started the command of a request, with its package and number (R474). -/
def State.starter (s : State) (k : Packet) : Option (Nat × Nat × Wave) :=
  (s.pkgOf k.src).bind (fun q =>
    let c := s.chip q
    let wid := if k.ptype = 5 then (tfind c.prods k.ctx).map Producer.wid else (c.copy? k.ctx).map CopyCmd.wid
    wid.bind (fun i => (tfind c.waves i).map (fun w => (q, i, w))))

/-- Translation at package `p` for a request, which names the wave that started its command (R472, R474). -/
def State.reqXlate (s : State) (p : Nat) (k : Packet) (kind : AccessKind) : State × Except Word Target :=
  let st := s.starter k
  s.unitXlate p (askReq k) k.asid k.addr.toNat kind 3 (st.map (·.2.2)) (if st.any (fun e => e.1 = p) then none else st.map (fun e => s.chip e.1))

/-- A group performed at its target as one atomic, its operands one after another: the old values, or a status word (R106, R241). On the issuing chip
its line leaves the L1 of the issuing core, and the wave owes it a release (R79, R85). -/
def State.performGroup (s : State) (p : Nat) (k : Packet) : State × Except Word (List Nat) :=
  let id := (s.chip p).chipId
  let own := (s.starter k).filter (fun e => e.1 = p)
  let aop := fld k.opw.toNat 0 4
  let w := if nbit k.opw.toNat 4 then 8 else 4
  let n := fld k.opw.toNat 8 8
  if (s.chip p).unable (capAopBit aop) then (s, .error (statusWord codeReject 3 id 1))
  else
    let r := s.reqXlate p k .atomic
    match r.2 with
    | .error st => (r.1, .error st)
    | .ok t =>
      let ctl := match t with
        | .aperture pa => onControlPage pa
        | _ => false
      if ctl then (r.1, .error (statusWord codeReject 3 id 8))
      else
        let vals := pieces w (2 * n) k.data
        let writer := (own.map (·.2.1)).getD (r.1.chip p).next
        let res := (List.range n).foldl (fun acc i =>
          let b := BitVec.ofNat 64 (ofLe (vals.getD i []))
          let cmp := BitVec.ofNat 64 (ofLe (vals.getD (n + i) []))
          let u := acc.1.homeAtomic p writer t k.ty aop b cmp
          (u.1, acc.2 ++ [u.2])) (r.1, ([] : List (Option DWord)))
        let s1 := res.1.modChip p (fun c => match own, t.line? with
          | some e, some ln => c.l1Remove e.2.2.core ln
          | some _, none => c
          | none, _ => c.publish (2 * writer))
        if res.2.any Option.isNone then (s1, .error (statusWord codePoison 3 id 0))
        else (s1, .ok (res.2.map (fun o => (o.getD 0).toNat)))

/-- The results of a group reach its lanes; a group performed from an open region has forced it to OFF (R302); the ordered sequence goes on behind the last group (R105). -/
def Chip.groupDone (c : Chip) (prod : Nat) (lanes : List Nat) (res : Except Word (List Nat)) : Chip :=
  let c1 := (lanes.zip (List.range lanes.length)).foldl (fun c e =>
    c.laneDone prod e.1 (match res with
      | .error st => .fail st
      | .ok l => .ok [BitVec.ofNat 32 (l.getD e.2 0), BitVec.ofNat 32 (l.getD e.2 0 / 2 ^ 32)])) c
  match tfind c1.prods prod with
  | some pr =>
    let c2 := match pr.region, res with
      | some r, .ok _ => c1.regionOff r
      | _, _ => c1
    if pr.allDone then c2.modWave pr.wid (fun w => { w with ordSeq := w.ordSeq.filter (· ≠ prod) }) else c2
  | none => c1

/-- `ratom` (R241). The lanes of each group are kept in `unit` as a mask. -/
def execRatom (o : Ops) (s : State) : Host.Outcome State Fault Refusal :=
  issueSync (formAtom 2 o) o s (fun x s =>
    let accs := x.outLanes.map (fun k => (k, x.gaddr k))
    let n := o.ty.width / 8
    if accs.isEmpty then .done s
    else
      let bad := badLanes accs (fun a => a / 2 ^ 57 ≠ 0)
      let mis := badLanes accs (fun a => a % n ≠ 0)
      let peers := accs.map (fun e => e.2 / 2 ^ 48)
      let lacking := peers.filter (fun id => capLacks (x.c.capOf id) (capAopBit (aopOf o)))
      if bad ≠ 0 then .trap { cause := 0x10, e0 := bad }
      else if mis ≠ 0 then .trap { cause := 0x12, e0 := mis }
      else if !lacking.isEmpty then .trap { cause := 0x14, e1 := BitVec.ofNat 32 (lacking.foldl Nat.min 511) }
      else if x.ordBlocked || o.hs && !x.w.ordSeq.isEmpty || !x.myTurn then .wait s
      else
        let pr : Producer := { wid := x.wid, pathMask := x.q.mask, kind := .remote, dests := x.destRefs o.ty.regs, res := [], region := x.openRegion }
        let r := (s.chip x.p).startProducer x.wid pr
        let s1 := (s.setChip x.p r.1).modChip x.p (fun c => c.modWave x.wid (fun w =>
          { w with ordSeq := if o.hs && !x.fg then w.ordSeq ++ [r.2] else w.ordSeq }))
        let send := fun (s : State) (g : Nat × List Nat) =>
          let id := g.1 / 2 ^ 48
          let pk := x.atPacket r.2 g (laneMask g.2).toNat
          if !x.c.reaches id then s.modChip x.p (fun c => c.groupDone r.2 g.2 (.error (lostStatus id)))
          else if x.fg then
            match if id = x.c.chipId then some x.p else s.pkgOf id with
            | none => s.modChip x.p (fun c => c.groupDone r.2 g.2 (.error (lostStatus id)))
            | some q =>
              let s0 := match (s.chip q).unitPeek pk.asid g.1 with
                | .ok t => if q = x.p then s.flushRange q x.wid t n else s
                | .error _ => s
              let u := s0.performGroup q { pk with src := x.c.chipId }
              u.1.modChip x.p (fun c => c.groupDone r.2 g.2 u.2)
          else if id = x.c.chipId then s.modChip x.p (fun c => { c with requests := c.requests ++ [{ pk with src := id, tid := 0 }] })
          else s.ask x.p pk
        let touched := accs.filterMap (fun e => (s.sideAt x.p x.w.blk (x.c.asidOf x.w.grow) false e.2).map (fun t => (t.1, t.2, n)))
        if x.fg && (s.fgBusy x.w.grow (x.c.timeKey x.w x.time) touched || touched.any (fun t => t.1 = x.p && x.loadLeft t.2.1 n)) then .wait s
        else
          let t := (groupLanes accs).foldl send s1
          if t.asks.isEmpty then .done (x.apxStore (s1.unitStep t)) else .wait (s.unitStep t))

/-- Whether a group of an ordered `ratom` is the first of its operation that is left (R105). -/
def Chip.groupDue (c : Chip) (k : Packet) : Bool :=
  !nbit k.opw.toNat 5 || !c.requests.any (fun r => r.ptype == 5 && r.ctx == k.ctx && lowLane (BitVec.ofNat 32 r.unit) < lowLane (BitVec.ofNat 32 k.unit))

/-- Whether a group for the executing chip itself may be performed: its path's earlier accesses to those bytes are, and those that the same L1 has shown
(R79, R98). -/
def Chip.groupClear (c : Chip) (k : Packet) : Bool :=
  match tfind c.prods k.ctx, c.unitPeek k.asid k.addr.toNat with
  | some pr, .ok t =>
    let n := k.ty.width / 8
    !c.pend.any (fun a => a.id < k.ctx && a.tgt.overlaps a.size t n && (a.own pr.wid pr.pathMask || t.line?.isSome && c.sameL1 a.wid pr.wid)) &&
    !c.prods.any (fun e => e.1 < k.ctx && e.2.own pr.wid pr.pathMask && e.2.reads t n) && !c.ratomLeft k.ctx pr.wid pr.pathMask t n
  | _, _ => true

/-- RATOM_GROUP_COMPLETE (R241): a response that has arrived fills its lanes; a group whose target is the executing chip is performed without the
fabric (R372). -/
def execRatomGroupComplete (p net : Nat) (s : State) : Host.Outcome State Fault Refusal :=
  let c := s.chip p
  .next (match c.got[net]? with
    | some k =>
      let vals := pieces (if nbit k.opw.toNat 4 then 8 else 4) 32 k.data
      let res := if k.ptype = 2 || k.tid ≠ 0 then Except.error k.tid else .ok (vals.map ofLe)
      s.setChip p ({ c with got := c.got.eraseIdx net }.groupDone k.ctx (lanesOf (BitVec.ofNat 32 k.unit)) res)
    | none =>
      match (c.requests.filter (fun r => r.ptype = 5 && r.dst = c.chipId && c.groupDue r && c.groupClear r))[net - c.got.length]? with
      | none => s
      | some k =>
        let r := (s.setChip p { c with requests := c.requests.erase k }).performGroup p k
        s.unitStep (r.1.modChip p (fun c => c.groupDone k.ctx (lanesOf (BitVec.ofNat 32 k.unit)) r.2)))

/-! ## Packets (R378) -/

/-- WR: a put unit performed at the target. -/
def execWr (p net : Nat) (s : State) : Host.Outcome State Fault Refusal :=
  .next (s.unitStep (s.serve p net 1 (fun s k =>
    let w := k.opw.toNat
    let red := if nbit w 0 then some (fld w 1 2, (Ty.ofCode (fld w 3 5)).getD .i32) else none
    let ack := fun (st : Word) => some { Packet.blank with ptype := 2, opw := st }
    let lacks := match red with
      | none => false
      | some (rop, t) => (s.chip p).unable (capTypeBit t) || (s.chip p).unable (capRopBit rop)
    if lacks then (s, ack (statusWord codeReject 3 (s.chip p).chipId 1))
    else
      let r := s.reqXlate p k (writeKind red)
      match r.2 with
      | .error st => (r.1, ack st)
      | .ok t =>
        let u := r.1.unitWrite p 3 t red k.data
        (u.1, ack u.2))))

/-- ACK: the response to a put unit, to the advance of SERVING, or the rejection of another request. -/
def execAck (p net : Nat) (s : State) : Host.Outcome State Fault Refusal :=
  .next (s.response p net 2 (fun s rq k =>
    let c := s.chip p
    match rq.ptype with
    | 1 => (match c.copy? rq.ctx with
      | some cmd => s.endUnit p cmd rq.unit k.opw
      | none => s)
    | 9 => (match c.copy? rq.ctx with
      | some cmd => s.setChip p (c.setCopy { cmd with failed := some k.opw })
      | none => s)
    | 7 => s.setChip p (c.laneDone rq.ctx rq.unit (.fail k.opw))
    | 5 => s.setChip p { c with got := c.got ++ [{ rq with ptype := 2, tid := k.opw }] }
    | _ => s))

/-- RD: a read request of a get unit. -/
def execRd (p net : Nat) (s : State) : Host.Outcome State Fault Refusal :=
  .next (s.unitStep (s.serve p net 3 (fun s k =>
    let r := s.reqXlate p k .unitRead
    let rdd := fun (st : Word) (bs : List Byte) => some { Packet.blank with ptype := 4, opw := st, data := bs, len := bs.length }
    match r.2 with
    | .error st => (r.1, rdd st [])
    | .ok t =>
      let g := r.1.unitGet p 3 t k.len
      match g.2 with
      | .error st => (g.1, rdd st [])
      | .ok bs => (g.1, rdd 0 bs))))

/-- RDD: read data written, or reduced, at the destination. -/
def execRdd (p net : Nat) (s : State) : Host.Outcome State Fault Refusal :=
  .next (s.unitStep (s.response p net 4 (fun s rq k =>
    match (s.chip p).copy? rq.ctx with
    | none => s
    | some cmd => if k.opw ≠ 0 then s.endUnit p cmd rq.unit k.opw else s.landUnit p cmd rq.unit k.data)))

/-- AT: a remote atomic group. The groups of an ordered one are performed in lane order. -/
def execAtReq (p net : Nat) (s : State) : Host.Outcome State Fault Refusal :=
  let due := match s.packetFor p net 5 with
    | some k => ((s.pkgOf k.src).map (fun q => (s.chip q).groupDue k)).getD true
    | none => false
  .next (if !due then s else s.unitStep (s.serve p net 5 (fun s k =>
    let r := s.performGroup p k
    match r.2 with
    | .error st => (r.1, some { Packet.blank with ptype := 6, opw := st })
    | .ok l =>
      let bs := l.flatMap (leBytes (if nbit k.opw.toNat 4 then 8 else 4))
      (r.1, some { Packet.blank with ptype := 6, data := bs, len := bs.length }))))

/-- ATR: old values reach the source, for RATOM_GROUP_COMPLETE to fill the lanes; `tid` of what is kept is the status word. -/
def execAtr (p net : Nat) (s : State) : Host.Outcome State Fault Refusal :=
  .next (s.response p net 6 (fun s rq k =>
    s.modChip p (fun c => { c with got := c.got ++ [{ rq with ptype := 6, tid := k.opw, data := k.data }] })))

/-- TK: a ticket request. -/
def execTk (p net : Nat) (s : State) : Host.Outcome State Fault Refusal :=
  .next (s.serve p net 7 (fun s k =>
    let c := s.chip p
    if c.unable capInc then (s, some { Packet.blank with ptype := 2, opw := statusWord codeReject 3 c.chipId 1 })
    else
      let r := c.takeTicket (fld k.opw.toNat 0 8)
      (s.setChip p r.1, some { Packet.blank with ptype := 8, opw := BitVec.ofNat 32 r.2 })))

/-- TKR: the ticket taken. -/
def execTkr (p net : Nat) (s : State) : Host.Outcome State Fault Refusal :=
  .next (s.response p net 8 (fun s rq k =>
    s.modChip p (fun c => c.laneDone rq.ctx rq.unit (.ok [BitVec.ofNat 32 (fld k.opw.toNat 0 24)]))))

/-- TKW: an INC put waits for its ticket; it is granted at once when SERVING equals it. -/
def execTkw (p net : Nat) (s : State) : Host.Outcome State Fault Refusal :=
  .next (s.serve p net 9 (fun s k =>
    let c := s.chip p
    if c.unable capInc then (s, some { Packet.blank with ptype := 2, opw := statusWord codeReject 3 c.chipId 1 })
    else if (c.incastAt (fld k.opw.toNat 24 8)).2.toNat = fld k.opw.toNat 0 24 then (s, some (grantFor k))
    else if c.tkWait.any (fun r => r.src = k.src && r.tid = k.tid) then (s, none)
    else (s.setChip p { c with tkWait := c.tkWait ++ [k] }, none)))

/-- TKG: the grant reaches the source, and the INC put starts its units. -/
def execTkg (p net : Nat) (s : State) : Host.Outcome State Fault Refusal :=
  .next (s.response p net 10 (fun s rq _ =>
    match (s.chip p).copy? rq.ctx with
    | none => s
    | some cmd => s.modChip p (fun c => c.setCopy { cmd with granted := true })))

/-- TKA: SERVING advances after an INC command has completed. -/
def execTka (p net : Nat) (s : State) : Host.Outcome State Fault Refusal :=
  .next (s.serve p net 11 (fun s k => (s.serveNext p (fld k.opw.toNat 0 8), some { Packet.blank with ptype := 2 })))

/-- Every request outstanding to a chip that is fenced or lost ends with LOST (R106, R239). -/
def State.loseRequests (s : State) (p id : Nat) : State :=
  let gone := fun (r : Packet) => r.dst = id && r.dst ≠ (s.chip p).chipId
  let lost := (s.chip p).requests.filter gone ++ (s.chip p).askWait.filter gone
  let s1 := s.modChip p (fun c => { c with requests := c.requests.filter (fun r => !gone r), askWait := c.askWait.filter (fun r => !gone r) })
  lost.foldl (fun s r =>
    let c := s.chip p
    match r.ptype with
    | 1 | 3 => (match c.copy? r.ctx with
      | some cmd => s.endUnit p cmd r.unit (lostStatus id)
      | none => s)
    | 9 => (match c.copy? r.ctx with
      | some cmd => s.setChip p (c.setCopy { cmd with failed := some (lostStatus id) })
      | none => s)
    | 5 => s.setChip p (c.groupDone r.ctx (lanesOf (BitVec.ofNat 32 r.unit)) (.error (lostStatus id)))
    | 7 => s.setChip p (c.laneDone r.ctx r.unit (.fail (lostStatus id)))
    | _ => s) s1

end Sys2Proof.Machine
end

