-- ==== Sys2Proof/Machine/Reset.lean ====
section
/-! DEFINITION. Verification of firmware images, boot, and the reset of a chip (R487 to R489). -/

namespace Sys2Proof.Machine

open Sys2Proof

/-- The lowest cause for which an image does not verify (R488, R489). -/
def imageFail (i : FwImage) (least : Nat) : Option Nat :=
  if !i.headerOk then some 1
  else if !i.ecdsaOk then some 2
  else if !i.lmsOk then some 3
  else if i.svn < least then some 4
  else if !i.readable then some 5
  else none

/-- A firmware bank. -/
def Chip.bank (c : Chip) (n : Nat) : FwImage := c.fwBanks.getD n FwImage.factory

/-- The chip runs the image of a bank: the fused minimum rises to its SVN (R488), and the identity key pairs are derived from the fused secret and its digest
(R492). -/
def Chip.bootFrom (c : Chip) (n : Nat) (fail : Nat) : Chip :=
  { c with fwState := 0, fwFail := fail, fwBank := n, fwRun := c.bank n, fwMin := Nat.max c.fwMin (c.bank n).svn, recovery := false, keyImage := c.bank n }

/-- Boot: the bank with the higher SVN first, then the other; with neither, recovery (R487). -/
def Chip.boot (c : Chip) : Chip :=
  let first := if (c.bank 0).svn < (c.bank 1).svn then 1 else 0
  match imageFail (c.bank first) c.fwMin with
  | none => c.bootFrom first 0
  | some f => match imageFail (c.bank (1 - first)) c.fwMin with
    | none => c.bootFrom (1 - first) f
    | some g => { c with fwState := 4, fwFail := g, recovery := true }

/-- The reset of a chip (R487): everything to its value after reset but PCAP, what the package holds in flash and fuses, and the count of its
proposals; after a fence the join state stays, JOINST REJOIN is set, and the chip begins to rejoin (R458). -/
def Chip.resetBy (c : Chip) (cause : ResetCause) : Chip :=
  let keep := cause = .fence
  Chip.boot { Chip.reset with
    pcap := c.pcap, fwBanks := c.fwBanks, fwRun := c.fwRun, fwBank := c.fwBank, fwMin := c.fwMin, attLeft := c.attLeft, ownCap := c.ownCap
    secret := c.secret, certs := c.certs, keyImage := c.keyImage
    pel := { Peloton.reset with pnum := c.pel.pnum, rejoining := if keep && c.joined then .start else .none }
    rejoin := keep, chipId := if keep then c.chipId else 0, joined := keep && c.joined
    planeOrder := if keep then c.planeOrder else [] }

end Sys2Proof.Machine
end

