-- ==== Sys2Proof/Machine/Sched.lean ====
section
/-! DEFINITION. The replicated scheduling tables (R444 to R456): event records, the transitions, placement, digests and verdicts, as functions
of one replica. Every chip and the witness applies them; what an event asks of the chip itself it returns as a list of acts. -/

namespace Sys2Proof.Machine

open Sys2Proof

/-! ## Event records (R444, R445) -/

/-- SEQ, TERM, PNUM, TYPE, ORIGIN and WIT of a record. -/
def evSeq (e : EventRec) : Nat := fld e.toNat 0 64
/-- See `evSeq`. -/
def evTerm (e : EventRec) : Nat := fld e.toNat 64 32
/-- See `evSeq`. -/
def evPnum (e : EventRec) : Nat := fld e.toNat 96 32
/-- See `evSeq`. -/
def evType (e : EventRec) : Nat := fld e.toNat 128 4
/-- See `evSeq`. -/
def evOrigin (e : EventRec) : Nat := fld e.toNat 136 9
/-- See `evSeq`. -/
def evWit (e : EventRec) : Bool := nbit e.toNat 145
/-- `n` bits of PAYLOAD from bit `lo`. -/
def evPay (e : EventRec) (lo n : Nat) : Nat := fld e.toNat (160 + lo) n

/-! ## Acts -/

/-- What an applied event asks beyond the tables: a grid ended with its old row and result; a placement row started on a chip; a SUBMIT was
ignored; a chip was fenced, lost, or joined; a digest point; its set found incomplete; its verdict, with the chips of the winning group, the
other reporters, and the chip that a losing witness is reloaded from. -/
inductive Act
  | ended (g : Nat) (row : GridRow) (code : Option Nat) (cause : Nat) (faultId : DWord)
  | started (g c exec : Nat)
  | ignored (origin : Nat) (qtag : Word)
  | fenced (chip : Nat)
  | lost (chip : Nat)
  | joined (chip : Nat)
  | point (seq : Nat)
  | late (seq : Nat) (missing : List Nat)
  | verdict (seq : Nat) (winners losers : List Nat) (reload : Option Nat)
  deriving DecidableEq, Repr

/-- An application in progress: the tables, the acts in order, the placement, grid and chip rows written. -/
structure Appl where
  rep : Replica
  acts : List Act
  wp : List Nat
  wg : List Nat
  wc : List Nat
  deriving DecidableEq, Repr

/-- A number put into an ascending list, once. -/
def insNat (n : Nat) : List Nat → List Nat
  | [] => [n]
  | m :: l => if n < m then n :: m :: l else if n = m then m :: l else m :: insNat n l

/-! ## Rows -/

/-- A grid row. -/
def Replica.grid (r : Replica) (g : Nat) : GridRow := tget GridRow.free r.grids g
/-- A placement row. -/
def Replica.place (r : Replica) (g c : Nat) : PlaceRow := tget PlaceRow.empty r.places (g * 512 + c)
/-- A chip row. -/
def Replica.chip (r : Replica) (c : Nat) : ChipRow := tget ChipRow.absent r.chips c
/-- The placement rows of a grid that are not EMPTY, by chip. -/
def Replica.rowsOf (r : Replica) (g : Nat) : List (Nat × PlaceRow) :=
  (r.places.filter (fun e => e.1 / 512 = g && e.2.state ≠ .empty)).map (fun e => (e.1 % 512, e.2))

/-- Writes a grid row. -/
def Appl.setGrid (a : Appl) (g : Nat) (x : GridRow) : Appl :=
  { a with rep := { a.rep with grids := tset a.rep.grids g x }, wg := insNat g a.wg }
/-- Writes a placement row. -/
def Appl.setPlace (a : Appl) (g c : Nat) (x : PlaceRow) : Appl :=
  let k := g * 512 + c
  { a with rep := { a.rep with places := if x.state = .empty then tdel a.rep.places k else tset a.rep.places k x }, wp := insNat k a.wp }
/-- Writes a chip row. -/
def Appl.setChip (a : Appl) (c : Nat) (x : ChipRow) : Appl :=
  { a with rep := { a.rep with chips := tset a.rep.chips c x }, wc := insNat c a.wc }
/-- Writes a capability word (R380). -/
def Appl.setCap (a : Appl) (c : Nat) (w : DWord) : Appl := { a with rep := { a.rep with caps := tset a.rep.caps c w } }
/-- Adds an act. -/
def Appl.act (a : Appl) (x : Act) : Appl := { a with acts := a.acts ++ [x] }

/-! ## Placement (R446, R451) -/

/-- FREE[c][k]. -/
def Replica.freeCores (r : Replica) (k c : Nat) : Int :=
  ((r.chip c).cap k : Int) -
    ((r.places.filter (fun e => e.2.state = .running && e.2.exec = c && (r.grid (e.1 / 512)).cls = k)).map (fun e => (e.2.cores : Int))).sum

/-- The chips with Eligible(c, k, n), ascending, each with FREE. -/
def Replica.eligible (r : Replica) (k n : Nat) : List (Nat × Int) :=
  (r.chips.filter (fun e => e.2.state = .alive && n ≤ e.2.cap k)).map (fun e => (e.1, r.freeCores k e.1))

/-- The entry with the greatest FREE, the first among equals. -/
def mostFree : List (Nat × Int × Nat) → Option (Nat × Int × Nat) :=
  List.foldl (fun m e => match m with
    | none => some e
    | some x => if x.2.1 < e.2.1 then some e else some x) none

/-- Counts one cohort to the chip with the greatest f. -/
def countOne (kc : Nat) (l : List (Nat × Int × Nat)) : List (Nat × Int × Nat) :=
  match mostFree l with
  | none => l
  | some b => l.map (fun e => if e.1 = b.1 then (e.1, e.2.1 - kc, e.2.2 + 1) else e)

/-- Place(g) (R451). -/
def Appl.place (a : Appl) (g : Nat) : Appl :=
  let x := a.rep.grid g
  let csize := x.csm1 + 1
  let nb := x.nbm1 + 1
  let l := (a.rep.eligible x.cls x.kc).map (fun e => (e.1, e.2, 0))
  if l.isEmpty then a
  else
    let t := (List.range ((nb + csize - 1) / csize)).foldl (fun l _ => countOne x.kc l) l
    if x.gang && t.any (fun e => e.2.2 ≠ 0 && e.2.1 < 0) then a
    else
      let r := (t.filter (fun e => e.2.2 ≠ 0)).foldl (fun (acc : Appl × Nat) e =>
        ((acc.1.setPlace g e.1 { state := .running, first := acc.2 * csize, count := Nat.min (e.2.2 * csize) (nb - acc.2 * csize),
                                 cores := e.2.2 * x.kc, exec := e.1 }).act (.started g e.1 e.1), acc.2 + e.2.2)) (a, 0)
      r.1.setGrid g { x with state := .running }

/-- A grid put into a list in ascending SSEQ. -/
def insSseq (x : Nat × GridRow) : List (Nat × GridRow) → List (Nat × GridRow)
  | [] => [x]
  | y :: l => if x.2.sseq.toNat < y.2.sseq.toNat then x :: y :: l else y :: insSseq x l

/-- The gang queue (R447). -/
def Replica.gangQueue (r : Replica) : List Nat :=
  ((r.grids.filter (fun e => e.2.state = .waiting)).foldl (fun l e => insSseq e l) []).map (·.1)

/-- RetryGang (R451). -/
def Appl.retryGang (a : Appl) : Appl :=
  (a.rep.gangQueue.foldl (fun (acc : Appl × Bool) g =>
    let gang := (acc.1.rep.grid g).gang
    if gang && acc.2 then acc
    else
      let b := acc.1.place g
      (b, acc.2 || gang && (b.rep.grid g).state = .waiting)) (a, false)).1

/-- End(g, o) (R450): the placement rows that are not EMPTY are cleared, and the row becomes FREE. -/
def Appl.endGrid (a : Appl) (g : Nat) (code : Option Nat) (cause : Nat) (faultId : DWord) : Appl :=
  let x := a.rep.grid g
  (((a.rep.rowsOf g).foldl (fun a e => a.setPlace g e.1 PlaceRow.empty) a).setGrid g { x with state := .free }).act
    (.ended g x code cause faultId)

/-- The results of R420 that End can carry. -/
def endDone : Nat := 0
/-- See `endDone`. -/
def endFault : Nat := 2
/-- See `endDone`. -/
def endLost : Nat := 3

/-- LoseChip(x) for one grid: its rows on the chip are re-placed, or it ends (R451). -/
def Appl.loseGrid (a : Appl) (x g : Nat) : Appl :=
  let row := a.rep.grid g
  if row.state = .free then a
  else if row.origin = x then a.endGrid g none 0 0
  else
    ((a.rep.rowsOf g).foldl (fun (acc : Appl × Bool) e =>
      let p := acc.1.rep.place g e.1
      if acc.2 || p.state ≠ .running || p.exec ≠ x then acc
      else if !row.restart then (acc.1.endGrid g (some endLost) 0 0, true)
      else match mostFree ((acc.1.rep.eligible row.cls row.kc).map (fun e => (e.1, e.2, 0))) with
        | none => (acc.1.endGrid g (some endLost) 0 0, true)
        | some t =>
          if row.gang && t.2.1 < p.cores then (acc.1.endGrid g (some endLost) 0 0, true)
          else ((acc.1.setPlace g e.1 { p with exec := t.1 }).act (.started g e.1 t.1), false)) (a, false)).1

/-- LoseChip(x) (R451). -/
def Appl.loseChip (a : Appl) (x : Nat) : Appl :=
  let b := ((a.setChip x { state := .fenced, capl := 0, capb := 0, capp := 0 }).setCap x 0).act (.lost x)
  ((b.rep.grids.map (·.1)).foldl (fun a g => a.loseGrid x g) b).retryGang

/-! ## Digests (R453 to R455) -/

/-- Fold(D, w). -/
def foldDigest (d : BitVec 128) (w : Nat) : BitVec 128 :=
  let q := fun (j : Nat) => BitVec.ofNat 32 (fld d.toNat (32 * j) 32) ^^^ BitVec.ofNat 32 (fld w (32 * j) 32)
  let r := kcgBlock (q 0, q 1, q 2, q 3) 0 0
  BitVec.ofNat 128 (r.1.toNat + r.2.1.toNat * 2 ^ 32 + r.2.2.1.toNat * 2 ^ 64 + r.2.2.2.toNat * 2 ^ 96)

/-- The codes of the states in row words. -/
def PlaceState.code : PlaceState → Nat
  | .empty => 0 | .running => 1 | .finished => 2
/-- See `PlaceState.code`. -/
def ChipState.code : ChipState → Nat
  | .absent => 0 | .joining => 1 | .alive => 2 | .fenced => 3
/-- See `PlaceState.code`. -/
def GridState.code : GridState → Nat
  | .free => 0 | .waiting => 1 | .running => 2

/-- The word of a placement row; EXEC of an EMPTY one is its own chip (R448). -/
def Replica.placeWord (r : Replica) (g c : Nat) : Nat :=
  let x := r.place g c
  let exec := if x.state = .empty then c else x.exec
  1 * 2 ^ 124 + g * 2 ^ 112 + c * 2 ^ 103 + exec * 2 ^ 94 + x.state.code * 2 ^ 92 + x.first % 2 ^ 24 * 2 ^ 68 + x.count % 2 ^ 24 * 2 ^ 44 +
    x.cores % 2 ^ 26 * 2 ^ 18

/-- The word of a chip row. -/
def Replica.chipWord (r : Replica) (c : Nat) : Nat :=
  let x := r.chip c
  2 * 2 ^ 124 + c * 2 ^ 115 + x.state.code * 2 ^ 113 + x.capl % 1024 * 2 ^ 103 + x.capb % 1024 * 2 ^ 93 + x.capp % 1024 * 2 ^ 83

/-- Word A of a grid row. -/
def Replica.gridWordA (r : Replica) (g : Nat) : Nat :=
  let x := r.grid g
  3 * 2 ^ 124 + g * 2 ^ 112 + x.state.code * 2 ^ 110 + x.ggen.toNat * 2 ^ 78 + x.sseq.toNat * 2 ^ 14

/-- Word B of a grid row. -/
def Replica.gridWordB (r : Replica) (g : Nat) : Nat :=
  let x := r.grid g
  4 * 2 ^ 124 + g * 2 ^ 112 + x.origin * 2 ^ 103 + x.nbm1 * 2 ^ 79 + x.csm1 * 2 ^ 74 + x.kc * 2 ^ 68 + x.cls * 2 ^ 66 + b2n x.gang * 2 ^ 65 +
    b2n x.restart * 2 ^ 64 + b2n x.fgear * 2 ^ 63

/-- The rows written, folded after the record (R454). -/
def Appl.folded (a : Appl) (e : EventRec) : Appl :=
  let r := a.rep
  let d0 := (List.range 4).foldl (fun d j => foldDigest d (fld e.toNat (128 * j) 128)) r.dg
  let d1 := a.wp.foldl (fun d k => foldDigest d (r.placeWord (k / 512) (k % 512))) d0
  let d2 := a.wg.foldl (fun d g => foldDigest (foldDigest d (r.gridWordA g)) (r.gridWordB g)) d1
  { a with rep := { r with dg := a.wc.foldl (fun d c => foldDigest d (r.chipWord c)) d2 } }

/-- The point digest (R455). -/
def Replica.pointDigest (r : Replica) : BitVec 128 :=
  let d := (r.grids.filter (fun e => e.2.state ≠ .free)).foldl (fun d e =>
    (r.rowsOf e.1).foldl (fun d x => foldDigest d (r.placeWord e.1 x.1)) (foldDigest (foldDigest d (r.gridWordA e.1)) (r.gridWordB e.1))) r.dg
  (r.chips.filter (fun e => e.2.state ≠ .absent)).foldl (fun d e => foldDigest d (r.chipWord e.1)) d

/-! ## Verdicts (R456) -/

/-- How many events verdicts, delivered events and sequenced events are kept for. -/
def keepEvents : Nat := 65536

/-- The chips that reported a value, ascending. -/
def DigestPoint.chipsOf (x : DigestPoint) (v : BitVec 128) : List Nat :=
  ((x.reports.filter (fun e => e.2 = v)).filterMap (·.1)).foldl (fun l n => insNat n l) []

/-- The winning value: the greatest vote, and among equals the group with the lowest chip. -/
def DigestPoint.winner (x : DigestPoint) : Option (BitVec 128) :=
  let vote := fun v => (x.reports.filter (fun e => e.2 = v)).length
  let low := fun v => (x.chipsOf v).headD 512
  (x.reports.map (·.2)).foldl (fun m v =>
    match m with
    | none => some v
    | some w => if vote w < vote v || vote w = vote v && low v < low w then some v else some w) none

/-- Replaces a point. -/
def Appl.setPoint (a : Appl) (x : DigestPoint) : Appl :=
  { a with rep := { a.rep with points := a.rep.points.map (fun y => if y.seq = x.seq then x else y) } }

/-- Forms the verdict of a point whose verdict is open. -/
def Appl.judge (a : Appl) (seq : Nat) : Appl :=
  match a.rep.points.find? (fun x => x.seq = seq && x.verdict.isNone) with
  | none => a
  | some x => match x.winner with
    | none => a
    | some v =>
      let win := x.chipsOf v
      let lose := (x.reports.filterMap (·.1)).foldl (fun l n => if win.contains n then l else insNat n l) []
      let witness := (x.reports.find? (fun e => e.1.isNone)).map (·.2)
      let b := win.foldl (fun (a : Appl) c =>
        if (a.rep.chip c).state = .joining then a.setChip c { a.rep.chip c with state := .alive } else a) (a.setPoint { x with verdict := some v })
      b.act (.verdict seq win lose (if witness.any (· ≠ v) then win.head? else none))

/-- The open points at the next point: those of their participants that have not reported are late, and with none of them late the verdict is
formed. -/
def Appl.findLate (a : Appl) : Appl :=
  (a.rep.points.filter (fun x => x.verdict.isNone && x.late.isNone)).foldl (fun a x =>
    let miss := x.parts.filter (fun c => !x.reports.any (fun e => e.1 = some c))
    let b := (a.setPoint { x with late := some miss }).act (.late x.seq miss)
    if miss.isEmpty then b.judge x.seq else b) a

/-- Opens a point (R455). -/
def Appl.openPoint (a : Appl) : Appl :=
  let r := a.rep
  let parts := (r.chips.filter (fun e => e.2.state = .alive || e.2.state = .joining)).map (·.1)
  ({ a with rep := { r with points := r.points ++
      [{ seq := r.seq, parts := parts, reports := [], own := r.pointDigest, verdict := none, late := none }] } } : Appl).act (.point r.seq)

/-- The chips that a point waited for lose one. -/
def Appl.lateLost (a : Appl) (x : Nat) : Appl :=
  (a.rep.points.filter (fun p => p.verdict.isNone && p.late.any (fun l => l.contains x))).foldl (fun a p =>
    let rest := (p.late.getD []).filter (· ≠ x)
    let b := a.setPoint { p with late := some rest }
    if rest.isEmpty then b.judge p.seq else b) a

/-! ## The transitions (R450) -/

/-- SUBMIT. -/
def Appl.submit (a : Appl) (e : EventRec) : Appl :=
  let r := a.rep
  match (List.range 4096).find? (fun g => (r.grid g).state = .free) with
  | none => a.act (.ignored (evOrigin e) (BitVec.ofNat 32 (evPay e 120 32)))
  | some g =>
    (a.setGrid g { state := .waiting, ggen := (r.grid g).ggen + 1, sseq := BitVec.ofNat 64 (evSeq e), origin := evOrigin e,
                   lrec := BitVec.ofNat 64 (evPay e 0 64), asid := evPay e 64 16, nbm1 := evPay e 80 24, csm1 := evPay e 104 5,
                   kc := evPay e 109 6, cls := evPay e 115 2, gang := evPay e 117 1 = 1 || evPay e 119 1 = 1, restart := evPay e 118 1 = 1,
                   fgear := evPay e 119 1 = 1, qtag := BitVec.ofNat 32 (evPay e 120 32) }).retryGang

/-- FINISH. -/
def Appl.finish (a : Appl) (e : EventRec) : Appl :=
  let g := evPay e 0 12
  let rc := evPay e 44 9
  let p := a.rep.place g rc
  if (a.rep.grid g).ggen.toNat ≠ evPay e 12 32 || p.state ≠ .running || p.exec ≠ evOrigin e then a
  else
    let b := a.setPlace g rc { p with state := .finished }
    if (b.rep.rowsOf g).all (fun x => x.2.state = .finished) then (b.endGrid g (some endDone) 0 0).retryGang else b

/-- BLOCKED. -/
def Appl.blocked (a : Appl) (e : EventRec) : Appl :=
  let c := evOrigin e
  let x := a.rep.chip c
  if x.state = .alive || x.state = .joining then
    (a.setChip c { x with capl := evPay e 0 10, capb := evPay e 10 10, capp := evPay e 20 10 }).retryGang
  else a

/-- FAULT. -/
def Appl.fault (a : Appl) (e : EventRec) : Appl :=
  let g := evPay e 0 12
  let x := a.rep.grid g
  if x.ggen.toNat ≠ evPay e 12 32 || x.state ≠ .running then a
  else (a.endGrid g (some endFault) (evPay e 44 8) (BitVec.ofNat 64 (evPay e 64 32))).retryGang

/-- FENCE. -/
def Appl.fence (a : Appl) (e : EventRec) : Appl :=
  let c := evPay e 0 9
  let x := a.rep.chip c
  if x.state = .absent then a else (a.setChip c { x with state := .fenced }).act (.fenced c)

/-- JOIN. -/
def Appl.join (a : Appl) (e : EventRec) : Appl :=
  let c := evOrigin e
  let x := a.rep.chip c
  if x.state = .absent || x.state = .fenced then
    ((a.setChip c { state := .joining, capl := evPay e 128 10, capb := evPay e 138 10, capp := evPay e 148 10 }).setCap c
      (BitVec.ofNat 64 (evPay e 64 64))).act (.joined c)
  else a

/-- DIGEST. -/
def Appl.digest (a : Appl) (e : EventRec) : Appl :=
  let who := if evWit e then none else some (evOrigin e)
  match a.rep.points.find? (fun x => x.seq = evPay e 0 64 && x.verdict.isNone) with
  | none => a
  | some x =>
    if x.reports.any (fun y => y.1 = who) || who.any (fun c => !x.parts.contains c) then a
    else
      let y := { x with reports := x.reports ++ [(who, BitVec.ofNat 128 (evPay e 64 128))] }
      let b := a.setPoint y
      if y.parts.all (fun c => y.reports.any (fun z => z.1 = some c)) && y.reports.any (fun z => z.1.isNone) then b.judge x.seq else b

/-- The transition of an event by its type. -/
def Appl.transition (a : Appl) (e : EventRec) : Appl :=
  match evType e with
  | 0 => a.submit e
  | 1 => a.finish e
  | 2 => a.blocked e
  | 3 => a.fault e
  | 4 => (a.loseChip (evPay e 0 9)).lateLost (evPay e 0 9)
  | 5 => a.fence e
  | 6 => a.join e
  | 7 => a.digest e
  | _ => a

/-- Applies an event (R449, R450, R454, R455). -/
def Replica.applyEvent (r : Replica) (e : EventRec) : Appl :=
  let a := Appl.transition { rep := { r with seq := evSeq e, term := evTerm e }, acts := [], wp := [], wg := [], wc := [] } e
  let counted := if evType e = 7 then r.counted else r.counted + 1
  let point := evType e ≠ 7 && counted % 256 = 0 || a.acts.any (fun x => match x with | .joined _ => true | _ => false)
  let b := { a with rep := { a.rep with counted := counted } }
  let c := (if point then b.findLate else b).folded e
  let d := if point then c.openPoint else c
  { d with rep := { d.rep with points := d.rep.points.filter (fun x => x.verdict.isNone || d.rep.seq < x.seq + keepEvents) } }

end Sys2Proof.Machine
end

