-- ==== Sys2Proof/Machine/Pod.lean ====
section
/-! DEFINITION. Peloton as the chips and the sequencing switches carry it out (R439 to R458): proposals, sequencing, delivery, the acts of an
applied event on its chip, heartbeats, rejoining. -/

namespace Sys2Proof.Machine

open Sys2Proof

/-! ## The end of a grid on a chip (R450) -/

/-- A key for a grid that has ended: its row number under a higher generation. -/
def Chip.endedKey (c : Chip) (g : Nat) : Nat :=
  (((List.range (c.grids.length + 1)).map (fun i => 4096 * (i + 1) + g)).find? (fun k => (tfind c.grids k).isNone)).getD 0

/-- End(g, o) on a chip that runs a part of the grid: waves and contexts end, pending cohorts, bins and collectives go; what is still in flight
is kept under a key that no row has, so that the row can be taken again. -/
def Chip.endRun (c : Chip) (g : Nat) : Chip :=
  match c.grid? g with
  | none => c
  | some run =>
    let key := c.endedKey g
    let f := fun (x : Nat) => if x = g then key else x
    let gone := c.blocks.filter (fun e => e.2.grow = g)
    let slots := gone.flatMap (fun e => match e.2.saved with | some (a, b) => [a, b] | none => [])
    let waves := (c.waves.filter (fun e => e.2.grow = g)).map (·.1)
    let ids := (c.cohorts.filter (fun e => e.2.grow = g)).map (·.1)
    let c1 := (c.endWaves g).endContexts g 10
    { c1 with
        grids := tset (tdel c1.grids g) key run
        waves := tmap c1.waves (fun _ w => { w with grow := f w.grow })
        blocks := tmap c1.blocks (fun _ b => if b.grow = g then { b with grow := key, saved := none } else b)
        savedParts := c1.savedParts.filter (fun e => !slots.contains e.1)
        cohorts := tmap c1.cohorts (fun _ k => if k.grow = g then { k with grow := key, status := .finished } else k)
        clusters := tmap c1.clusters (fun _ u => { u with
          lat := u.lat.filter (fun i => !ids.contains i), bulk := u.bulk.filter (fun i => !ids.contains i)
          bins := u.bins.filter (fun b => b.grow ≠ g)
          evq := u.evq.map (fun (r : RecordOut) => { r with grow := r.grow.map f })
          fit := { u.fit with
            queue := u.fit.queue.map (fun (i : Invocation) => { i with grow := f i.grow })
            input := u.fit.input.map (fun (i : FitInput) => { i with grow := f i.grow })
            regions := tmap u.fit.regions (fun _ (r : RegionCopy) => { r with
              ring := r.ring.map (fun (x : Pair) => { x with grow := f x.grow }), batch := r.batch.map (fun (x : Pair) => { x with grow := f x.grow }) }) } })
        engines := tmap c1.engines (fun _ e => { e with ctx := tmap e.ctx (fun _ x => { x with grow := f x.grow }) })
        recOut := c1.recOut.map (fun (r : RecordOut) => { r with grow := r.grow.map f })
        copies := c1.copies.map (fun (k : CopyCmd) => { k with grow := f k.grow })
        apxOps := c1.apxOps.map (fun (k : ApxOp) => { k with grow := f k.grow })
        prods := c1.prods.filter (fun e => !(e.2.kind = .coll && waves.contains e.2.wid))
        colls := c1.colls.filter (fun e => e.2.grow ≠ g)
        coords := c1.coords.filter (fun e => e.grow ≠ g)
        dbgAll := c1.dbgAll.filter (fun e => e.1 ≠ g) }

/-- Changes the submitted LAUNCH packet of a QTAG. -/
def Chip.modLaunch (c : Chip) (qtag : Word) (f : StartedPkt → StartedPkt) : Chip :=
  { c with queues := tmap c.queues (fun k x => { x with started := x.started.map (fun j =>
      if j.stage = .submitted && qtagOf (k / 512) (k % 512) j.n = qtag.toNat then f j else j) }) }

/-! ## The start of a placement row (R427, R452) -/

/-- Puts a cohort on the pending list of a cluster (R427). -/
def Chip.handCohort (c : Chip) (cl : Nat) (k : Cohort) (latency : Bool) : Chip :=
  let u := c.cluster cl
  let id := c.next
  ({ c with next := id + 1, cohorts := tset c.cohorts id { k with cluster := cl } } : Chip).setCluster cl
    { u with lat := if latency then u.lat ++ [id] else u.lat, bulk := if latency then u.bulk else u.bulk ++ [id] }

/-- The cluster that takes a cohort (R427). -/
def Chip.takesCohort (c : Chip) : Nat := (c.fewest (fun _ => true)).getD 0

/-- Hands out the cohorts of a row to the pending lists of the chip's clusters (R427). -/
def Chip.handRow (c : Chip) (g rc : Nat) (x : GridRow) (row : PlaceRow) (k : LaunchRec) : Chip :=
  let n := x.csm1 + 1
  (List.range ((row.count + n - 1) / n)).foldl (fun c i =>
    let first := row.first + i * n
    let h : Cohort := { grow := g, num := first / n, rc := rc, first := first, count := Nat.min n (row.first + row.count - first), cluster := 0,
                        status := .pending, blocks := [], order := 0, node := none }
    c.handCohort c.takesCohort h k.latency) c

/-- In fixed gear no wave of a grid issues until every block is admitted, those of a range that has just started among them (R356, R371). -/
def Chip.holdGrid (c : Chip) (g : Nat) : Chip := { c with grids := tmod c.grids g (fun r => if r.kern.fgear then { r with live := false } else r) }

/-- The launch record of a grid row, fetched from LREC in the grid's address space (R452): the copy on the submitter's chip. -/
def State.fetchRecord (s : State) (x : GridRow) : Option LaunchRec :=
  (s.pkgOf (x.lrec.toNat / 2 ^ 48)).bind (fun q => (s.chip q).recordAt x.asid (x.lrec.toNat % 2 ^ 48))

/-- The chip has become EXEC of a row: it fetches the launch record and hands out the cohorts of the range, and a gang is admitted whole where it
fits. In fixed gear its waves begin with quantum 0 (R371). DESIGN CHOICE: a record that is no longer there faults the
grid, with CAUSE 0. -/
def State.startRow (s : State) (p g rc : Nat) : State :=
  let c := s.chip p
  let x := c.pel.rep.grid g
  let row := c.pel.rep.place g rc
  match s.fetchRecord x with
  | none => s.setChip p (c.propose 3 (x.ggen.toNat * 2 ^ 12 + g))
  | some k =>
    let run : GridRun := { grow := g, ggen := x.ggen, asid := x.asid, origin := x.origin, kern := k, recAddr := x.lrec, live := !k.fgear }
    let c1 : Chip := if (c.grid? g).isSome then c.holdGrid g else { c with grids := tset c.grids g run }
    let s1 := s.setChip p (c1.handRow g rc x row k)
    if k.gang then s1.unitStep (s1.admitGang p g rc) else s1

/-! ## Acts (R450, R457, R503) -/

/-- A peer is fenced or lost: what was asked of it and collectives with it end, and the event is logged. -/
def State.loseChip (s : State) (p id cls : Nat) : State :=
  ((s.loseRequests p id).collLoss p id).modChip p (fun c =>
    ({ c with answered := c.answered.filter (fun a => a.1 ≠ id), snSent := c.snSent.filter (fun a => a.1 ≠ id), tkWait := c.tkWait.filter (fun k => k.src ≠ id) } : Chip).logEvent
      cls 4 id 0 0)

/-- What an applied event does on its own chip. A chip that its own tables have FENCED resets, and rejoins from there (R457, R458). -/
def State.runAct (p : Nat) (s : State) (a : Act) : State :=
  let c := s.chip p
  let me := c.chipId
  match a with
  | .ended g row code cause faultId =>
    let c1 := c.endRun g
    let result := fun (o : Nat) (k : StartedPkt) => { k.result o 0 with cause := cause, faultId := faultId }
    s.setChip p (match code with
      | some o => if row.origin = me then c1.modLaunch row.qtag (result o) else c1
      | none => c1)
  | .started g rc exec => if exec = me then s.startRow p g rc else s.setChip p (c.holdGrid g)
  | .ignored origin qtag => if origin = me then s.setChip p (c.modLaunch qtag (fun k => { k with stage := .waiting })) else s
  | .fenced x => if x = me then s.setChip p (c.resetBy .fence) else s.loseChip p x 10
  | .lost x => if x = me then s.setChip p (c.resetBy .fence) else s.loseChip p x 11
  | .joined x => if x = me then s.setChip p { c with incast := [] } else s
  | .point n =>
    let part := c.pel.rep.points.any (fun x => x.seq = n && x.parts.contains me)
    s.setChip p { c with pel := { c.pel with due := if part then c.pel.due ++ [n] else c.pel.due, taken := c.pel.taken ++ [(n, c.pel.rep)] } }
  | .late _ _ => s
  | .verdict n win _ _ =>
    let v := (c.pel.rep.points.find? (fun y => y.seq = n)).bind DigestPoint.verdict
    let own := (c.pel.taken.find? (fun e => e.1 = n)).map (fun e =>
      { e.2 with points := e.2.points.map (fun (x : DigestPoint) => if x.seq = n then { x with verdict := v } else x) })
    let snap := if win.contains me then own.or c.pel.snap else c.pel.snap
    s.setChip p { c with pel := { c.pel with taken := c.pel.taken.filter (fun e => n < e.1), snap := snap } }

/-- Starts a rejoin again from its first step, the reset (R458). -/
def Chip.restartJoin (c : Chip) : Chip := c.resetBy .fence

/-- Whether an act says that chip `id` has joined. -/
def Act.joins (a : Act) (id : Nat) : Bool :=
  match a with
  | .joined x => x = id
  | _ => false

/-- The chip applies the delivered event at the head of its list, where it is of type `ty` (R449, R450). While it replays, the tables alone
change, up to its own JOIN (R449); where that JOIN is ignored, it starts to rejoin again (R458). -/
def State.applyHead (s : State) (p ty : Nat) : State :=
  let c := s.chip p
  match c.pel.apply with
  | [] => s
  | e :: rest =>
    if evType e ≠ ty || !c.online || c.pel.stuck then s
    else
      let a := c.pel.rep.applyEvent e
      let own := a.acts.any (fun x => x.joins c.chipId)
      let replay := c.pel.rejoining ≠ .none && !own
      let pel := { c.pel with rep := a.rep, apply := rest, rejoining := if own then .none else c.pel.rejoining }
      let s1 := s.setChip p { c with pel := pel }
      if replay then
        if evType e = 6 && evOrigin e = c.chipId && !evWit e then s.setChip p c.restartJoin else s1
      else a.acts.foldl (State.runAct p) s1

/-- APPLY_SUBMIT (R450). -/
def execApplySubmit (p : Nat) (s : State) : Host.Outcome State Fault Refusal := .next (s.applyHead p 0)
/-- APPLY_FINISH. -/
def execApplyFinish (p : Nat) (s : State) : Host.Outcome State Fault Refusal := .next (s.applyHead p 1)
/-- APPLY_BLOCKED. -/
def execApplyBlocked (p : Nat) (s : State) : Host.Outcome State Fault Refusal := .next (s.applyHead p 2)
/-- APPLY_FAULT. -/
def execApplyFault (p : Nat) (s : State) : Host.Outcome State Fault Refusal := .next (s.applyHead p 3)
/-- APPLY_CHIP_LOSS. -/
def execApplyChipLoss (p : Nat) (s : State) : Host.Outcome State Fault Refusal := .next (s.applyHead p 4)
/-- APPLY_FENCE. -/
def execApplyFence (p : Nat) (s : State) : Host.Outcome State Fault Refusal := .next (s.applyHead p 5)
/-- APPLY_JOIN. -/
def execApplyJoin (p : Nat) (s : State) : Host.Outcome State Fault Refusal := .next (s.applyHead p 6)
/-- APPLY_DIGEST. -/
def execApplyDigest (p : Nat) (s : State) : Host.Outcome State Fault Refusal := .next (s.applyHead p 7)

/-- DIGEST_PROPOSE (R455): a participant reports its point digest. -/
def execDigestPropose (p point : Nat) (s : State) : Host.Outcome State Fault Refusal :=
  .next (s.modChip p (fun c =>
    match c.pel.rep.points.find? (fun x => x.seq = point) with
    | none => c
    | some x =>
      if !c.pel.due.contains point then c
      else ({ c with pel := { c.pel with due := c.pel.due.filter (· ≠ point) } } : Chip).propose 7 (point + x.own.toNat * 2 ^ 64)))

/-! ## Proposals (R440, R379) -/

/-- The plane of the sequencer. -/
def Switch.plane (w : Switch) : Nat := (w.order.getD w.pos 0).toNat

/-- Whether a chip may propose a record: one that is replaying proposes JOIN alone. -/
def Chip.mayPropose (c : Chip) (e : EventRec) : Bool := c.online && c.joined && !c.pel.stuck && (c.pel.rejoining = .none || evType e = 6)

/-- Sends a packet of channel 2 to the sequencer's switch (R379). -/
def State.toSwitch (s : State) (p ptype opw addr : Nat) (data : List Byte) : State :=
  let c := s.chip p
  s.emit p { Packet.blank with ptype := ptype, src := c.chipId, dstSw := true, opw := BitVec.ofNat 32 opw, addr := BitVec.ofNat 64 addr,
                               len := data.length, data := data, plane := c.planeFor s.sw.plane }

/-- The planes of a plane group (R443). -/
def groupPlanes (g : Nat) : List Nat := (List.range 48).filter (fun n => n % 4 = g % 4)

/-- A heartbeat of stream `g`: on every port of the group whose link is up (R379, R443). -/
def State.beat (s : State) (p g : Nat) : State :=
  (groupPlanes g).foldl (fun s n =>
    if (((s.chip p).link n).up) then
      s.emit p { Packet.blank with ptype := 15, src := (s.chip p).chipId, dstSw := true, opw := BitVec.ofNat 32 (g % 4), plane := n }
    else s) s

/-- EVENT_PROPOSE (R440): a proposal goes to the sequencer with the chip's next PNUM. -/
def execEventPropose (p idx : Nat) (s : State) : Host.Outcome State Fault Refusal :=
  let c := s.chip p
  .next (match c.pel.props[idx]? with
    | none => s
    | some e =>
      if !c.mayPropose e then s
      else
        let n := c.pel.pnum + 1
        let x := eventRec false (evOrigin e) (evType e) n 0 0 (evPay e 0 352)
        (s.setChip p { c with pel := { c.pel with pnum := n, props := c.pel.props.eraseIdx idx, outstanding := c.pel.outstanding ++ [x] } }).toSwitch
          p 13 0 0 (leBytes 64 x.toNat))

/-- PROPOSAL_RESEND (R440). -/
def execProposalResend (p idx : Nat) (s : State) : Host.Outcome State Fault Refusal :=
  let c := s.chip p
  .next (match c.pel.outstanding[idx]? with
    | none => s
    | some e => if c.mayPropose e then s.toSwitch p 13 0 0 (leBytes 64 e.toNat) else s)

/-- The packet at a place of the fabric, where it is of a type and for a switch. -/
def State.switchPacket (s : State) (net ty : Nat) : Option Packet := (s.net[net]?).filter (fun k => k.ptype == ty && k.dstSw)

/-- EVP (R379): a proposal reaches the sequencer's switch. -/
def execEvp (net : Nat) (s : State) : Host.Outcome State Fault Refusal :=
  .next (match s.switchPacket net 13 with
    | none => s
    | some k =>
      let e : EventRec := BitVec.ofNat 512 (ofLe k.data)
      let s1 := s.dropNet net
      if s1.sw.inbox.contains e then s1 else { s1 with sw := { s1.sw with inbox := s1.sw.inbox ++ [e] } })

/-! ## Sequencing (R440, R441, R456) -/

/-- An event that the switch itself emits. -/
def switchEvent (ty payload : Nat) : EventRec := eventRec true 0 ty 0 0 0 payload

/-- FENCE and CHIP_LOSS for chips, in ascending identifier (R456). -/
def fenceEvents (point : Nat) (chips : List Nat) : List EventRec :=
  chips.flatMap (fun c => [switchEvent 5 (c + point * 2 ^ 64), switchEvent 4 (c + point * 2 ^ 64)])

/-- The witness of the losing group is reloaded: the replica of a winning chip as it stood after the point, with the events since applied. -/
def State.reloadWitness (s : State) (point chip : Nat) : State :=
  match (s.pkgOf chip).bind (fun p => ((s.chip p).pel.taken.find? (fun e => e.1 = point)).map (·.2)) with
  | none => s
  | some r =>
    let since := s.sw.retrans.filter (fun e => point < evSeq e)
    { s with sw := { s.sw with witness := since.foldl (fun r e => (r.applyEvent e).rep) r } }

/-- What an applied event asks of the sequencer. -/
def State.runWitness (s : State) (a : Act) : State :=
  match a with
  | .point n =>
    match s.sw.witness.points.find? (fun x => x.seq = n) with
    | none => s
    | some x => { s with sw := { s.sw with inbox := s.sw.inbox ++ [switchEvent 7 (n + x.own.toNat * 2 ^ 64)] } }
  | .late n miss => { s with sw := { s.sw with emit := s.sw.emit ++ fenceEvents n miss } }
  | .verdict n _ lose reload =>
    let s1 := { s with sw := { s.sw with emit := s.sw.emit ++ fenceEvents n lose } }
    match reload with
    | none => s1
    | some chip => s1.reloadWitness n chip
  | _ => s

/-- Multicasts a sequenced event: each switch sends an EV packet to every port of its plane (R379, R441). Where the port's chip has no identifier, or
the link is down, none arrives. -/
def State.multicast (s : State) (e : EventRec) : State :=
  { s with net := s.net ++ (List.range 48).flatMap (fun n => (s.chips.filter (fun k => k.2.joined && k.2.online && (k.2.link n).up)).map (fun k =>
      { Packet.blank with ptype := 14, srcSw := true, src := n, dst := k.2.chipId, len := 64, data := leBytes 64 e.toNat, plane := n })) }

/-- Sequences a record: term and number, the witness replicas, the retransmit buffer, the multicast. -/
def State.sequence (s : State) (e : EventRec) : State :=
  let w := s.sw
  let x : EventRec := eventRec (evWit e) (evOrigin e) (evType e) (evPnum e) w.term w.nextSeq (evPay e 0 352)
  let a := w.witness.applyEvent x
  let w1 := { w with nextSeq := w.nextSeq + 1, witness := a.rep, standby := (w.standby.applyEvent x).rep, ticked := true
                     retrans := (w.retrans ++ [x]).drop (w.retrans.length + 1 - keepEvents) }
  a.acts.foldl State.runWitness (({ s with sw := w1 } : State).multicast x)

/-- The fate of a proposal at the sequencer: sequenced in the order of PNUM; dropped where its PNUM is past, or its chip is ABSENT or FENCED in
the witness and it is no JOIN. DESIGN CHOICE: a JOIN of a chip that is ABSENT or FENCED opens the count of its chip anew, also at the last number or one below
it: the package that replaces another counts from 1, and its JOIN is accepted (R440, R506). -/
inductive ProposalFate
  | take | drop | wait
  deriving DecidableEq, Repr

/-- See `ProposalFate`. -/
def Switch.fate (w : Switch) (e : EventRec) : ProposalFate :=
  let last := tget 0 w.lastPnum (evOrigin e)
  let x := (w.witness.chip (evOrigin e)).state
  let out := x = .absent || x = .fenced
  if evWit e then .take
  else if evPnum e ≤ last && evType e = 6 && out then .take
  else if evPnum e ≤ last then .drop
  else if evType e = 6 then .take
  else if out then .drop
  else if evPnum e = last + 1 then .take else .wait

/-- SEQUENCE_EVENT (R440, R441): what the sequencer must emit comes first, then the record at a place of its inbox. -/
def execSequenceEvent (idx : Nat) (s : State) : Host.Outcome State Fault Refusal :=
  let w := s.sw
  .next (match w.emit, w.inbox[idx]? with
    | e :: rest, _ => ({ s with sw := { w with emit := rest } } : State).sequence e
    | [], none => s
    | [], some e =>
      let last := tset w.lastPnum (evOrigin e) (if w.fate e = .take then evPnum e else Nat.max (evPnum e) (tget 0 w.lastPnum (evOrigin e)))
      let w1 := { w with inbox := w.inbox.eraseIdx idx, lastPnum := if evWit e then w.lastPnum else last }
      match w.fate e with
      | .take => ({ s with sw := w1 } : State).sequence e
      | .drop => { s with sw := w1 }
      | .wait => s)

/-! ## Delivery (R441) -/

/-- EV (R379): a sequenced event reaches a chip that has joined. -/
def execEv (p net : Nat) (s : State) : Host.Outcome State Fault Refusal :=
  .next (match s.packetFor p net 14 with
    | none => s
    | some k =>
      let e : EventRec := BitVec.ofNat 512 (ofLe k.data)
      (s.dropNet net).modChip p (fun c =>
        if !c.joined || c.pel.inbuf.contains e then c else { c with pel := { c.pel with inbuf := c.pel.inbuf ++ [e] } }))

/-- The number that the chip awaits. -/
def Peloton.awaits (x : Peloton) : Nat := x.rep.seq + x.apply.length + 1
/-- The highest term delivered. -/
def Peloton.topTerm (x : Peloton) : Nat := ((x.apply.getLast?).map evTerm).getD x.rep.term

/-- Whether the chip takes events in: not while it fetches a snapshot or tail, and not with events missing for good. -/
def Peloton.delivers (x : Peloton) : Bool := !x.stuck && (x.rejoining = .none || x.rejoining = .proposed)

/-- Delivers one event: it is kept, its proposal is outstanding no longer. -/
def Peloton.deliver (x : Peloton) (id : Nat) (e : EventRec) : Peloton :=
  let own := fun (r : EventRec) => !evWit e && evOrigin e = id && evPnum r = evPnum e
  { x with apply := x.apply ++ [e], kept := (x.kept ++ [e]).drop (x.kept.length + 1 - keepEvents), inbuf := x.inbuf.filter (fun r => r ≠ e)
           outstanding := x.outstanding.filter (fun r => !own r) }

/-- EVENT_DELIVER (R441): the event that is awaited is delivered; repeated events and those of an earlier term are discarded. -/
def execEventDeliver (p : Nat) (s : State) : Host.Outcome State Fault Refusal :=
  .next (s.modChip p (fun c =>
    let x := c.pel
    if !c.online || !x.delivers then c
    else
      let l := x.inbuf.filter (fun e => x.awaits ≤ evSeq e && x.topTerm ≤ evTerm e)
      let y := { x with inbuf := l }
      { c with pel := match l.find? (fun e => evSeq e = x.awaits) with
          | none => y
          | some e => y.deliver c.chipId e }))

/-- GAP_REQUEST (R441): a chip that holds a later event than the one it awaits asks for those between. -/
def execGapRequest (p : Nat) (s : State) : Host.Outcome State Fault Refusal :=
  let c := s.chip p
  let x := c.pel
  let later := (x.inbuf.map evSeq).filter (fun n => x.awaits < n)
  .next (match later with
    | [] => s
    | n :: l =>
      let low := l.foldl Nat.min n
      if !c.online || !x.delivers || x.inbuf.any (fun e => evSeq e = x.awaits) ||
          s.net.any (fun k => k.ptype == 16 && k.dstSw && k.src == c.chipId) then s
      else s.toSwitch p 16 (Nat.min keepEvents (low - x.awaits)) x.awaits [])

/-- RTQ (R379, R441): the sequencer's switch answers with the events; a chip whose first missing event has left the buffer applies no more. -/
def execRtq (net : Nat) (s : State) : Host.Outcome State Fault Refusal :=
  .next (match s.switchPacket net 16 with
    | none => s
    | some k =>
      let s1 := s.dropNet net
      let first := k.addr.toNat
      let l := s1.sw.retrans.filter (fun e => first ≤ evSeq e && evSeq e < first + k.opw.toNat)
      if !l.any (fun e => evSeq e = first) then
        match s1.pkgOf k.src with
        | none => s1
        | some q => s1.modChip q (fun c => { c with pel := { c.pel with stuck := true } })
      else { s1 with net := s1.net ++ l.map (fun e =>
        { Packet.blank with ptype := 14, srcSw := true, src := s1.sw.plane, dst := k.src, len := 64, data := leBytes 64 e.toNat, plane := k.plane }) })

/-! ## The standby (R442) and heartbeats (R443) -/

/-- STANDBY_TICK. -/
def execStandbyTick (s : State) : Host.Outcome State Fault Refusal := .next { s with sw := { s.sw with ticked := true } }

/-- STANDBY_TAKEOVER: the standby's 16 µs run out. It goes on waiting where it has heard the sequencer in them, and else takes over: a higher
term, the next plane, its own replica; what the old sequencer held of the chips' proposals is sent again by them. Every event that the standby
has acknowledged has been multicast, since a step of the model does both. -/
def execStandbyTakeover (s : State) : Host.Outcome State Fault Refusal :=
  let w := s.sw
  .next (if w.ticked then { s with sw := { w with ticked := false } }
    else { s with sw := { w with term := w.term + 1, pos := (w.pos + 1) % 48, witness := w.standby, inbox := w.inbox.filter evWit, ticked := true } })

/-- HEARTBEAT_SEND: stream `g` of a chip that is ALIVE or JOINING, to the sequencer. A chip with events missing for good emits nothing (R441). -/
def execHeartbeatSend (p g : Nat) (s : State) : Host.Outcome State Fault Refusal :=
  let c := s.chip p
  let x := (c.pel.rep.chip c.chipId).state
  .next (if c.online && !c.pel.stuck && (x = .alive || x = .joining) then s.beat p g else s)

/-- HB (R379): the switch of a plane passes a heartbeat to the sequencer, which has heard the chip. -/
def execHb (net : Nat) (s : State) : Host.Outcome State Fault Refusal :=
  .next (match s.switchPacket net 15 with
    | none => s
    | some k =>
      let s1 := s.dropNet net
      { s1 with sw := { s1.sw with heard := insNat k.src s1.sw.heard } })

/-- HEARTBEAT_TIMEOUT: 1 ms of the sequencer ends for a chip: with no heartbeat in it, CHIP_LOSS is emitted. -/
def execHeartbeatTimeout (chip : Nat) (s : State) : Host.Outcome State Fault Refusal :=
  let w := s.sw
  let x := (w.witness.chip chip).state
  .next (if w.heard.contains chip then { s with sw := { w with heard := w.heard.filter (· ≠ chip) } }
    else if (x = .alive || x = .joining) && !w.emit.any (fun e => evType e = 4 && evPay e 0 9 = chip) then
      { s with sw := { w with emit := w.emit ++ [switchEvent 4 chip] } }
    else s)

/-! ## Snapshots as bytes (R379) -/

/-- The image of a snapshot, as R379 lists it. -/
def Replica.image (r : Replica) : List Byte :=
  let grids := (List.range 4096).flatMap (fun g => (r.gridWordA g :: r.gridWordB g :: (r.rowsOf g).map (fun e => r.placeWord g e.1)).flatMap (leBytes 16))
  let chips := (List.range 512).flatMap (fun c => leBytes 16 (r.chipWord c))
  let caps := (List.range 512).flatMap (fun c => leBytes 8 (tget 0 r.caps c).toNat)
  let verdicts := r.points.flatMap (fun x => match x.verdict with | some v => leBytes 8 x.seq ++ leBytes 16 v.toNat | none => [])
  grids ++ chips ++ leBytes 16 r.dg.toNat ++ caps ++ verdicts

/-- A state from its code. -/
def chipStateOf (n : Nat) : ChipState :=
  match n with
  | 0 => .absent | 1 => .joining | 2 => .alive | _ => .fenced
/-- See `chipStateOf`. -/
def gridStateOf (n : Nat) : GridState :=
  match n with
  | 0 => .free | 1 => .waiting | _ => .running
/-- See `chipStateOf`. -/
def placeStateOf (n : Nat) : PlaceState :=
  match n with
  | 0 => .empty | 1 => .running | _ => .finished

/-- Enters a row word into tables. -/
def Replica.enter (r : Replica) (w : Nat) : Replica :=
  let g := fld w 112 12
  let put := fun (x : GridRow) => { r with grids := if x = GridRow.free then tdel r.grids g else tset r.grids g x }
  match fld w 124 4 with
  | 1 =>
    let x : PlaceRow := { state := placeStateOf (fld w 92 2), first := fld w 68 24, count := fld w 44 24, cores := fld w 18 26, exec := fld w 94 9 }
    { r with places := tset r.places (g * 512 + fld w 103 9) x }
  | 2 =>
    let x : ChipRow := { state := chipStateOf (fld w 113 2), capl := fld w 103 10, capb := fld w 93 10, capp := fld w 83 10 }
    { r with chips := if x = ChipRow.absent then r.chips else tset r.chips (fld w 115 9) x }
  | 3 => put { r.grid g with state := gridStateOf (fld w 110 2), ggen := BitVec.ofNat 32 (fld w 78 32), sseq := BitVec.ofNat 64 (fld w 14 64) }
  | 4 => put { r.grid g with origin := fld w 103 9, nbm1 := fld w 79 24, csm1 := fld w 74 5, kc := fld w 68 6, cls := fld w 66 2, gang := nbit w 65,
                             restart := nbit w 64, fgear := nbit w 63 }
  | _ => r

/-- What the image of a snapshot does not hold, though a chip needs it to run the grids that it names: of each grid its LREC, ASID and QTAG, and the
count of counted events. DESIGN CHOICE: it comes beside the image, as in the snapshot that was sent (`Peloton.src`). -/
def Replica.fillFrom (r src : Replica) : Replica :=
  { r with
      grids := tmap r.grids (fun g x => { x with lrec := (src.grid g).lrec, asid := (src.grid g).asid, qtag := (src.grid g).qtag })
      counted := src.counted }

/-- The tables of an image of `src`, at the highest point it has a verdict of, with that verdict; that point is open again, since its reports lie in
the tail. None where the bytes are no image. -/
def replicaOf (bs : List Byte) (src : Replica) : Option (Replica × BitVec 128) :=
  let words := (pieces 16 (bs.length / 16) bs).map ofLe
  let n := (words.takeWhile (fun w => fld w 124 4 ≠ 2)).length
  let r0 := (words.take (n + 512)).foldl Replica.enter Replica.formation
  let rest := bs.drop (16 * (n + 512))
  if rest.length < 16 + 4096 then none
  else
    let caps := ((pieces 8 512 ((rest.drop 16).take 4096)).zip (List.range 512)).foldl (fun (t : Tbl DWord) e =>
      if ofLe e.1 = 0 then t else tset t e.2 (BitVec.ofNat 64 (ofLe e.1))) []
    let vs := rest.drop 4112
    let points := (pieces 24 (vs.length / 24) vs).map (fun b => (ofLe (b.take 8), BitVec.ofNat 128 (ofLe (b.drop 8))))
    match points.getLast? with
    | none => none
    | some (seq, v) =>
      let r := { (r0.fillFrom src) with caps := caps, dg := BitVec.ofNat 128 (ofLe (rest.take 16)), seq := seq, term := 0 }
      let old := (points.filter (fun e => e.1 ≠ seq)).map (fun e =>
        ({ seq := e.1, parts := [], reports := [], own := e.2, verdict := some e.2, late := none } : DigestPoint))
      some ((Appl.openPoint { rep := { r with points := old }, acts := [], wp := [], wg := [], wc := [] }).rep, v)

/-- Data of more than one packet as SND packets (R379). -/
def State.sendPieces (s : State) (p : Nat) (rq : Packet) (bs : List Byte) : State :=
  let n := Nat.max 1 ((bs.length + 511) / 512)
  let c := s.chip p
  ((pieces 512 n bs).zip (List.range n)).foldl (fun s e => s.emit p { Packet.blank with
    ptype := 18, src := c.chipId, dst := rq.src, tid := rq.tid, opw := if e.2 + 1 = n then 0x80000000 else 0, addr := BitVec.ofNat 64 (512 * e.2),
    len := e.1.length, data := e.1, plane := c.planeFor rq.plane }) s

/-- SNQ (R379, R458): an ALIVE chip answers with its snapshot, or with the events it has delivered after S; a repeated TID from its record (R378). -/
def execSnq (p net : Nat) (s : State) : Host.Outcome State Fault Refusal :=
  .next (match s.packetFor p net 17 with
    | none => s
    | some k =>
      let s1 := s.dropNet net
      let c := s1.chip p
      let bare := k.opw = 0
      let now := (k.src, k.tid, if bare then (c.pel.snap.map Replica.image).getD []
        else (c.pel.kept.filter (fun e => k.addr.toNat < evSeq e)).flatMap (fun e => leBytes 64 e.toNat), if bare then c.pel.snap else none)
      let old := c.snSent.find? (fun a => a.1 = k.src && a.2.1 = k.tid)
      let a := old.getD now
      let tell := fun (s : State) => match s.pkgOf k.src with
        | some q => if bare then s.modChip q (fun d => { d with pel := { d.pel with src := a.2.2.2 } }) else s
        | none => s
      if !c.answers then s1
      else (tell (if old.isSome then s1 else s1.setChip p { c with snSent := c.snSent ++ [now] })).sendPieces p k a.2.2.1)

/-- SND (R379): a piece reaches the chip that rejoins; with the last of them its request is answered. -/
def execSnd (p net : Nat) (s : State) : Host.Outcome State Fault Refusal :=
  .next (match s.packetFor p net 18 with
    | none => s
    | some k =>
      let s1 := s.dropNet net
      let c := s1.chip p
      match c.requests.find? (fun r => r.ptype = 17 && r.dst = k.src && r.tid = k.tid) with
      | none => s1
      | some rq =>
        let n := k.addr.toNat / 512
        let ps := tset c.pel.pieces n k.data
        let count := if nbit k.opw.toNat 31 then some (n + 1) else c.pel.pieceCount
        let whole := count = some ps.length
        s1.setChip p { c with requests := if whole then c.requests.erase rq else c.requests
                              pel := { c.pel with pieces := ps, pieceCount := count } })

/-! ## Rejoining (R458) -/

/-- The neighbour of a chip: the first ALIVE one after it, as the witness has it. -/
def State.neighbour (s : State) (id : Nat) : Option Nat :=
  ((List.range 511).map (fun i => (id + 1 + i) % 512)).find? (fun c => (s.sw.witness.chip c).state = .alive)

/-- PAYLOAD of JOIN (R445). -/
def Chip.joinPayload (c : Chip) (seq : Nat) : Nat :=
  let k := c.capacity
  seq + c.ownCap.toNat * 2 ^ 64 + k.1 * 2 ^ 128 + k.2.1 * 2 ^ 138 + k.2.2 * 2 ^ 148

/-- Asks the neighbour for a snapshot or a tail. -/
def State.askNeighbour (s : State) (p nb kind seq : Nat) (stage : RejoinStage) : State :=
  (s.modChip p (fun c => { c with pel := { c.pel with rejoining := stage, pieces := [], pieceCount := none } })).ask p
    { Packet.blank with ptype := 17, dst := nb, opw := BitVec.ofNat 32 kind, addr := BitVec.ofNat 64 seq }

/-- The events of a run that follow one another from `n` on. -/
def inSeries (n : Nat) : List EventRec → Bool
  | [] => true
  | e :: l => evSeq e = n && inSeries (n + 1) l

/-- The buffered events that follow one another from `n` on, at most `k` of them. -/
def seriesFrom (l : List EventRec) : Nat → Nat → List EventRec
  | 0, _ => []
  | k + 1, n => match l.find? (fun e => evSeq e = n) with
    | none => []
    | some e => e :: seriesFrom l k (n + 1)

/-- The bytes of the pieces, once all are there. -/
def Peloton.received (x : Peloton) : Option (List Byte) :=
  if x.pieceCount = some x.pieces.length then some (x.pieces.flatMap (·.2)) else none

/-- The last part of a rejoin: the tail and the buffered events are replayed, every verdict among them is checked, and JOIN is proposed. -/
def Chip.replay (c : Chip) (tail : List EventRec) : Chip :=
  let seq := c.pel.rep.seq
  if !inSeries (seq + 1) tail then c.restartJoin
  else
    let buf := seriesFrom c.pel.inbuf c.pel.inbuf.length (seq + 1 + tail.length)
    let r := (tail ++ buf).foldl (fun r e => (r.applyEvent e).rep) c.pel.rep
    if r.points.any (fun x => x.verdict.any (· ≠ x.own)) then c.restartJoin
    else ({ c with pel := { c.pel with rep := r, rejoining := .proposed, pieces := [], pieceCount := none, kept := tail ++ buf
                                       inbuf := c.pel.inbuf.filter (fun e => r.seq < evSeq e) } } : Chip).propose 6 (c.joinPayload seq)

/-- Whether a chip whose missing events have left the buffer has been sent a FENCE or CHIP_LOSS that names it (R441). -/
def Chip.ousted (c : Chip) : Bool := c.pel.inbuf.any (fun e => (evType e = 4 || evType e = 5) && evPay e 0 9 = c.chipId && c.pel.rep.seq < evSeq e)

/-- REJOIN (R458, R491): the next step of a chip that has an identifier and is not in the pod, from the reset on. Where no chip is ALIVE there is
nothing to fetch, and it proposes JOIN at once. A chip whose missing events have left the buffer comes to it once it is fenced. -/
def execRejoin (p : Nat) (s : State) : Host.Outcome State Fault Refusal :=
  let c := s.chip p
  let x := c.pel
  let out := (x.rep.chip c.chipId).state
  let lostNb := c.requests.any (fun r => r.ptype = 17 && (s.sw.witness.chip r.dst).state ≠ .alive)
  .next (if !c.online || !c.joined || c.recovery then s
    else if x.stuck then (if c.ousted then s.setChip p c.restartJoin else s)
    else match x.rejoining with
      | .none => if out = .alive || out = .joining then s else s.setChip p c.restartJoin
      | .start =>
        (match s.neighbour c.chipId with
          | some nb => s.askNeighbour p nb 0 0 .snapshot
          | none => s.setChip p (({ c with pel := { x with rejoining := .proposed } } : Chip).propose 6 (c.joinPayload 0)))
      | .snapshot =>
        if lostNb then s.setChip p c.restartJoin
        else match x.received, s.neighbour c.chipId with
          | some bs, some nb =>
            (match replicaOf bs (x.src.getD Replica.formation) with
            | none => s.setChip p c.restartJoin
            | some (r, v) =>
              if r.pointDigest ≠ v then s.setChip p c.restartJoin
              else (s.setChip p { c with pel := { x with rep := r } }).askNeighbour p nb 1 r.seq .tail)
          | _, _ => s
      | .tail =>
        if lostNb then s.setChip p c.restartJoin
        else match x.received with
          | some bs => s.setChip p (c.replay ((pieces 64 (bs.length / 64) bs).map (fun b => BitVec.ofNat 512 (ofLe b))))
          | none => s
      | .proposed => s)

/-! ## Divergence (R456) -/

/-- SCHEDULER_DIVERGENCE: a row of one replica changes without an event; no replica named is the witness. -/
def Replica.upset (r : Replica) (u : Upset) : Replica :=
  match u with
  | .chip c l b q => { r with chips := tset r.chips c { r.chip c with capl := l, capb := b, capp := q } }
  | .cap c w => { r with caps := tset r.caps c w }
  | .grid g n => { r with grids := tset r.grids g { r.grid g with ggen := n } }
  | .place g c exec => { r with places := tset r.places (g * 512 + c) { r.place g c with exec := exec } }

/-- See `Replica.upset`. -/
def execSchedulerDivergence (replica : Option Nat) (u : Upset) (s : State) : Host.Outcome State Fault Refusal :=
  .next (match replica with
    | none => { s with sw := { s.sw with witness := s.sw.witness.upset u } }
    | some p => s.modChip p (fun c => { c with pel := { c.pel with rep := c.pel.rep.upset u } }))

end Sys2Proof.Machine
end

