-- ==== Sys2Proof/Machine/Fabric.lean ====
section
/-! DEFINITION. The events of a fabric link (R376, R377) and the loss of a plane (R372, R378, R496). -/

namespace Sys2Proof.Machine

open Sys2Proof

/-! ## The loss of a plane -/

/-- Whether a packet type is a request whose response its source awaits. -/
def isRequest (ptype : Nat) : Bool := ptype = 17 || ptype < 12 && ptype % 2 = 1

/-- Moves what travels over a lost plane to another one: requests of the chip that are outstanding are sent again with their TID, whether
they were performed or not; responses to it are lost with the plane, since it asks again; everything else it sends takes another plane. With no plane left, everything stays with its link. -/
def State.losePlane (s : State) (p plane : Nat) : State :=
  let c := s.chip p
  let alt := c.planeFor plane
  let mine := fun (k : Packet) => k.plane = plane && k.src = c.chipId && !k.srcSw
  let held := (c.link plane).parcels.filter (fun k => !isRequest k.ptype)
  let again := (c.requests.filter (fun r => r.plane = plane && r.dst ≠ c.chipId)).map (fun (r : Packet) => { r with plane := alt })
  let net := (s.net.filter (fun k => !(mine k && isRequest k.ptype) && !(k.plane = plane && k.dst = c.chipId && vcOf k.ptype = 1))).map
    (fun (k : Packet) => if k.plane = plane && (mine k || k.dst = c.chipId && !k.dstSw) then { k with plane := alt } else k)
  let s1 := { s.setChip p { c with requests := c.requests.map (fun (r : Packet) => if r.plane = plane then { r with plane := alt } else r) }
              with net := net }
  if alt = plane then s
  else (again ++ held.map (fun (k : Packet) => { k with plane := alt })).foldl (fun s k => s.emit p k)
    (s1.modChip p (fun c => c.setLink plane { Link.trained with up := false }))

/-- The link of a plane goes down: the chip stops using it, and the loss is logged. -/
def State.downLink (s : State) (p plane : Nat) : State :=
  (s.modChip p (fun c => (c.setLink plane { c.link plane with up := false }).logEvent 8 0 plane 0 0)).losePlane p plane

/-- LINK_DOWN (R377): 16 replays of one flit have failed in a row, or no good flit has come for 2 µs, which the environment says. -/
def execLinkDown (p plane : Nat) (s : State) : Host.Outcome State Fault Refusal :=
  .next (if plane < 48 && ((s.chip p).link plane).up then s.downLink p plane else s)

/-- LINK_RETRAIN (R377): a link that is down is trained; where that succeeds the plane is used again. -/
def execLinkRetrain (p plane : Nat) (trained : Bool) (s : State) : Host.Outcome State Fault Refusal :=
  let l := (s.chip p).link plane
  .next (if trained && !l.up then s.putLink p plane (Link.pump { Link.trained with waiting := l.waiting, parcels := l.parcels }) else s)

/-- The switch at the other end of a link serves it (R377). -/
def State.serveLink (s : State) (p plane : Nat) : State :=
  let l := (s.chip p).link plane
  if !l.up || !(s.chip p).online then s else s.putLink p plane l.served

/-! ## Flits -/

/-- FLIT_RECEIVE (R377): a flit from the other end. A bad CRC is logged as a corrected error. -/
def execFlitReceive (p plane : Nat) (f : BitVec 512) (s : State) : Host.Outcome State Fault Refusal :=
  let c := s.chip p
  .next (if !(c.link plane).up || !c.online then s
    else
      let r := (c.link plane).receive plane f
      let s1 := s.putLink p plane (r.1, r.2.1.toList ++ r.2.2)
      let s2 := if flitGood f then s1 else s1.modChip p (fun c => c.logCorrected 7 plane 0)
      if 16 < r.1.failed then s2.downLink p plane else s2)

/-- REPLAY_REQUEST (R377): the other end asks for every kept flit after a LACK. -/
def execReplayRequest (p plane : Nat) (lack : Byte) (s : State) : Host.Outcome State Fault Refusal :=
  let c := s.chip p
  .next (if !(c.link plane).up || !c.online then s
    else
      let l := (c.link plane).resend lack
      let s1 := s.setChip p (c.setLink plane l)
      if 16 < l.failed then s1.downLink p plane else s1)

/-- IDLE_FLIT (R377). -/
def execIdleFlit (p plane : Nat) (s : State) : Host.Outcome State Fault Refusal :=
  let c := s.chip p
  .next (if (c.link plane).up && c.online then s.setChip p (c.setLink plane ((c.link plane).control 0)) else s)

end Sys2Proof.Machine
end

