-- ==== Sys2Proof/Machine/IssuePorts.lean ====
section
/-! DEFINITION. The choice of an issue port (R38 to R40). -/

namespace Sys2Proof.Machine

open Sys2Proof

/-- What a port knows of a candidate: E, age, wave number, slot, the wave. -/
structure PortCand where
  prio : Nat
  age : Nat
  wno : Nat
  slot : Slot
  wid : Nat
  deriving DecidableEq, Repr

/-- Whether a port chooses `a` before `b` (R40): greater E, earlier age, lower wave number, slot A before B. DESIGN CHOICE: among equal wave numbers of
different blocks, the wave admitted first. -/
def PortCand.before (a b : PortCand) : Bool :=
  b.prio < a.prio || a.prio = b.prio && (a.age < b.age || a.age = b.age && (a.wno < b.wno || a.wno = b.wno &&
    (a.slot = .A && b.slot = .B || a.slot = b.slot && a.wid < b.wid)))

/-- Puts a candidate in its place. -/
def insertCand (x : PortCand) : List PortCand → List PortCand
  | [] => [x]
  | y :: r => if y.before x then y :: insertCand x r else x :: y :: r

/-- The places of a pipe class in a cycle (R38). -/
def classPlaces (k : Nat) : Nat := if k = 1 || k = 2 then 1 else 2

/-- The pipe classes of the word at which a slot stands. -/
def Chip.classesAt (c : Chip) (tick : Nat) (w : Wave) (sl : Slot) : List Nat :=
  ((w.path? sl).map (fun q => (c.wordAt tick w q).map classOf)).getD []

/-- The slots that the ports of a core have chosen in the cycle in progress. -/
def Core.chosenNow (k : Core) (now : DWord) : List (Nat × Slot × List Nat) := if k.pcycle = now then k.chosen else []

/-- Whether a slot may be chosen by a port: a candidate of the core whose next word has not issued, not chosen in this cycle, with free places in its
classes. Of a candidate whose word is not ready, the issue itself says so. -/
def State.choosable (s : State) (p core wid : Nat) (w : Wave) (sl : Slot) : Bool :=
  let c := s.chip p
  let taken := (c.core core).chosenNow c.cycle
  w.core = core && s.candidate p w sl && (w.path? sl).any (fun q => !q.waiting) && !taken.any (fun e => e.1 = wid && e.2.1 = sl) &&
  (c.classesAt s.tick w sl).all (fun k => (taken.flatMap (·.2.2)).count k < classPlaces k)

/-- The choosable slots of a core, the first choice first. A candidate that has not been found ready before has the age of this cycle. -/
def State.portList (s : State) (p core : Nat) : List PortCand :=
  let c := s.chip p
  (c.waves.flatMap (fun e => ([Slot.A, Slot.B].filter (s.choosable p core e.1 e.2)).map (fun sl =>
    ({ prio := c.effPrio e.2 sl, age := ((e.2.issueOf sl).age.getD c.cycle).toNat, wno := e.2.wno, slot := sl, wid := e.1 } : PortCand)))).foldr
    insertCand []

/-- Records a port's choice. -/
def State.choose (s : State) (p core wid : Nat) (sl : Slot) (classes : List Nat) : State :=
  s.modChip p (fun c =>
    let k := c.core core
    c.setCore core { k with pcycle := c.cycle, chosen := k.chosenNow c.cycle ++ [(wid, sl, classes)] })

/-- Issues the first of a list of candidates that is ready. -/
def State.issueFirst (ex : Instr → State → Host.Outcome State Fault Refusal) (p core : Nat) :
    List PortCand → State → Host.Outcome State Fault Refusal
  | [], s => .next s
  | x :: rest, s =>
    let cur : Cursor := { pkg := p, wid := x.wid, slot := x.slot, half := .single }
    let classes := ((tfind (s.chip p).waves x.wid).map (fun w => (s.chip p).classesAt s.tick w x.slot)).getD []
    match issueWord ex s cur with
    | .next t => if t.notIssued cur then State.issueFirst ex p core rest t else .next (t.choose p core x.wid x.slot classes)
    | r => r

/-- What the ports of a core have chosen in the cycle in progress. -/
def State.chosenAt (s : State) (p core : Nat) : List (Nat × Slot × List Nat) := (((s.chip p).core core).chosenNow (s.chip p).cycle)

/-- The first port of a core has chosen a word of slot B of a wave, which traps (`t`, from `s`). Where the other port chooses slot A of that wave in the same
cycle, its word comes first: it completes, and then slot B's word traps, or it traps, and slot B's is taken as not issued (R279). DESIGN CHOICE:
a path of slot B that slot A's word has moved or merged is not issued in that cycle. -/
def State.trapOrder (ex : Instr → State → Host.Outcome State Fault Refusal) (s t : State) (p core wid : Nat) (classes : List Nat) :
    Host.Outcome State Fault Refusal :=
  let s1 := s.choose p core wid .B classes
  let pathB := fun (u : State) => ((tfind (u.chip p).waves wid).bind (fun w => w.path? .B)).map (fun q => (q.pc, q.mask, q.wbase))
  match State.issueFirst ex p core (s1.portList p core) s1 with
  | .next a =>
    if (a.chosenAt p core).length = 2 && (a.chosenAt p core).any (fun e => e.1 = wid && e.2.1 = .A) then
      if a.raised.isSome || pathB a ≠ pathB s then .next a
      else issueWord ex a { pkg := p, wid := wid, slot := .B, half := .single }
    else .next t
  | _ => .next t

/-- A port of a core chooses (R40): each of the two issues one word in a cycle, by one rule, so it is the same whichever of them goes first. -/
def State.portIssue (ex : Instr → State → Host.Outcome State Fault Refusal) (s : State) (p core : Nat) : Host.Outcome State Fault Refusal :=
  if 2 ≤ (s.chosenAt p core).length then .next s
  else match State.issueFirst ex p core (s.portList p core) s with
    | .next t =>
      match s.chosenAt p core, (t.chosenAt p core).getLast? with
      | [], some (wid, .B, classes) => if t.raised.isSome then s.trapOrder ex t p core wid classes else .next t
      | _, _ => .next t
    | r => r

end Sys2Proof.Machine
end

