-- ==== Sys2Proof/Machine/System.lean ====
section
/-! DEFINITION. Traps, special registers, cycles and the instruction cache, major opcode 0xC1 (R287 to R292), debug stops (R294), and
`fg.sync` and `fg.clk`, major opcode 0xC2 (R296, R297). -/

namespace Sys2Proof.Machine

open Sys2Proof

/-! ## Stops (R294) -/

/-- A wave stops: STOPPED is set and CAUSE receives the reason. -/
def Wave.stop (w : Wave) (reason : Nat) : Wave :=
  { w with dbg := w.dbg ||| 1, cause := (w.cause &&& 0xFFFFFF00) ||| BitVec.ofNat 32 (reason % 256), stepping := .none }

/-- A debug stop of a wave; with BSTOP set, every other wave of its block that is not stopped stops with reason 0 (R294). -/
def Chip.debugStop (c : Chip) (wid reason : Nat) : Chip :=
  match tfind c.waves wid with
  | none => c
  | some w =>
    let c1 := c.setWave wid (w.stop reason)
    if w.dbg.getLsbD 2 then
      { c1 with waves := tmap c1.waves (fun k u =>
          if k ≠ wid && u.grow = w.grow && u.blk = w.blk && !u.ended && !u.dbg.getLsbD 0 then u.stop 0 else u) }
    else c1

/-! ## Major opcode 0xC1 -/

/-- `trap` (R289). -/
def execTrap (o : Ops) (s : State) : Host.Outcome State Fault Refusal :=
  issue (formTrap o) o s (once (fun _ _ => .trap { cause := 0x30, e1 := BitVec.ofNat 32 (o.modw % 2 ^ 16) }))

/-- `brk` (R289): a stop where a debugger is attached. -/
def execBrk (o : Ops) (s : State) : Host.Outcome State Fault Refusal :=
  issue (formTrap o) o s (once (fun x s =>
    if x.w.dbg.getLsbD 1 then .done (s.modChip x.p (fun c => c.debugStop x.wid 0x31))
    else .trap { cause := 0x31, e1 := BitVec.ofNat 32 (o.modw % 2 ^ 16) }))

/-- Whether the wave at the cursor is in handler mode. -/
def State.inHandler (s : State) : Bool := ((tfind (s.chip s.cur.pkg).waves s.cur.wid).map Wave.hmode).getD false

/-- The illegal-instruction trap of `trap.res` and `trap.ret` outside handler mode, before every operand check (R283, R289). -/
def notInHandler (o : Ops) (s : State) : Host.Outcome State Fault Refusal := issue (formBare true) o s (fun _ _ => .trap { cause := 0x01 })

/-- The PC that follows the word at a PC (R132): two slots on where its line pairs the slot. -/
def Iss.afterWord (x : Iss) (pc : DWord) : DWord :=
  match x.c.viewLine x.tick x.w.core (x.c.asidOf x.w.grow) pc with
  | .good l => pcNext pc (if pcSlot pc < 4 && nbit (lineWord l) (5 + pcSlot pc) then 2 else 1)
  | _ => pcNext pc 1

/-- `trap.res` (R289): resumes at the resumption PC, or with SKIP after the word that stands there. -/
def execTrapRes (o : Ops) (s : State) : Host.Outcome State Fault Refusal :=
  if !s.inHandler then notInHandler o s
  else issue (formTrapRes o) o s (once (fun x s =>
    let pc := if nbit o.modw 0 then x.afterWord x.w.epc else x.w.epc
    .moved (x.set s (x.w.leaveTrap (s.cpOf x.p x.w) x.sl pc (x.c.fgear x.w.grow)))))

/-- `trap.ret` (R289): the return to a PC of the program's, a checked transfer. An illegal one makes the wave fault (R281). -/
def execTrapRet (o : Ops) (s : State) : Host.Outcome State Fault Refusal :=
  if !s.inHandler then notInHandler o s
  else issue (formTrapRet o) o s (once (fun x s =>
    let pc := x.dword .a 0
    match x.c.checkTarget x.tick x.w.core (x.c.asidOf x.w.grow) pc with
    | .illegal => .trap { cause := 0x04, e0 := x.q.mask }
    | .hold cause level => .wait (x.holdPages s .fetch [(pcLine pc % 2 ^ 48, x.q.mask, cause, level)])
    | .ok => .moved (x.set s (x.w.leaveTrap (s.cpOf x.p x.w) x.sl pc (x.c.fgear x.w.grow)))))

/-- A special register as lane `k` reads it (R22, R284, R288, R297): as it stands before the word (R146). -/
def Iss.special (x : Iss) (r : SReg) (k : Nat) : Word :=
  let b := tfind x.c.blocks x.w.blk
  match r with
  | .grid => BitVec.ofNat 32 x.w.grow
  | .cohort => BitVec.ofNat 32 ((b.elim 0 Block.crank) % 32 * 2 ^ 24 + (b.elim 0 Block.cohort) % 2 ^ 24)
  | .block => BitVec.ofNat 32 ((b.elim 0 Block.core) % 32 * 2 ^ 24 + (b.elim 0 Block.block) % 2 ^ 24)
  | .stage => BitVec.ofNat 32 x.w.stage
  | .wave => BitVec.ofNat 32 (x.w.swave * 2 ^ 8 + x.w.wno)
  | .lane => BitVec.ofNat 32 k
  | .chip => BitVec.ofNat 32 (x.w.core / 32 * 2 ^ 9 + x.c.chipId)
  | .flags => x.r.flags
  | .lclock => if x.c.fgear x.w.grow then lo32 x.r.clock else 0
  | .cause => x.r.cause
  | .epcl => lo32 x.r.epc
  | .epch => hi32 x.r.epc
  | .emask => x.r.emask
  | .einfo0 => x.r.einfo0
  | .einfo1 => x.r.einfo1
  | .einfo2 => x.r.einfo2
  | .dbg => x.r.dbg

/-- `getsr` (R288). -/
def execGetsr (o : Ops) (s : State) : Host.Outcome State Fault Refusal :=
  issue (formGetsr o) o s (onWave (fun x =>
    match o.a with
    | .sreg r => x.put 1 (fun k _ => x.special r k) x.w
    | _ => x.w))

/-- `setsr` (R288): only `sr.flags` is writable; a write to another register is ignored. -/
def execSetsr (o : Ops) (s : State) : Host.Outcome State Fault Refusal :=
  issue (formSetsr o) o s (onWave (fun x =>
    match o.d with
    | .sreg .flags => if x.go then x.w.writeFlags (x.word .a 0 0) else x.w
    | _ => x.w))

/-- `yield` (R290): its slot is no candidate for the n + 1 cycles that follow issue. -/
def execYield (o : Ops) (s : State) : Host.Outcome State Fault Refusal :=
  issue { modOk := fun w => w < 256, once := true } o s (onWave (fun x =>
    if x.go then x.w.setIssue x.sl { x.w.issueOf x.sl with promo := 0, yieldEnd := some (x.c.cycle + BitVec.ofNat 64 (o.modw % 256 + 2)) } else x.w))

/-- `cyc` (R291). -/
def execCyc (o : Ops) (s : State) : Host.Outcome State Fault Refusal :=
  issue { d := Opd.u 2, once := true } o s (onWave (fun x =>
    x.put 2 (fun _ j => if j = 0 then lo32 x.c.cycle else hi32 x.c.cycle) x.w))

/-- The path fetches afresh from here on: the line it has entered is dropped with the others (R292). -/
def Iss.refetch (x : Iss) (c : Chip) : Chip :=
  c.modWave x.wid (fun w => w.setPath x.sl ((w.path? x.sl).map (fun q => { q with line := none })))

/-- `icinv` (R292): the executing core's instruction cache. -/
def execIcinv (o : Ops) (s : State) : Host.Outcome State Fault Refusal :=
  issue (formBare true) o s (once (fun x s => .done (s.modChip x.p (fun c =>
    x.refetch (c.setCore x.w.core { c.core x.w.core with icache := [], icBad := [], icMet := [] })))))

/-- `icinv.chip` (R292): every core's. -/
def execIcinvChip (o : Ops) (s : State) : Host.Outcome State Fault Refusal :=
  issue { modOk := fun w => w == 1, once := true } o s (once (fun x s => .done (s.modChip x.p (fun c =>
    x.refetch { c with cores := tmap c.cores (fun _ k => { k with icache := [], icBad := [], icMet := [] }) }))))

/-! ## Major opcode 0xC2 -/

/-- `fg.sync` (R296). -/
def execFgSync (o : Ops) (s : State) : Host.Outcome State Fault Refusal :=
  issueSync (formBare true) o s (once (fun x s => if x.myTurn then .done s else .wait s))

/-- `fg.clk` (R297). -/
def execFgClk (o : Ops) (s : State) : Host.Outcome State Fault Refusal :=
  issue { d := Opd.u 2, once := true } o s (onWave (fun x =>
    let v := if x.c.fgear x.w.grow then x.r.clock else 0
    x.put 2 (fun _ j => if j = 0 then lo32 v else hi32 v) x.w))

end Sys2Proof.Machine
end

