-- ==== Sys2Proof/Machine/Debug.lean ====
section
/-! DEFINITION. The debug interface (R293 to R295, R484, R485). -/

namespace Sys2Proof.Machine

open Sys2Proof

/-- ALL, BLOCK, GROW and WAVE of DBGSEL. -/
def Chip.dbgEvery (c : Chip) : Bool := c.dbgsel.getLsbD 56
/-- See `Chip.dbgEvery`. -/
def Chip.dbgGrow (c : Chip) : Nat := fld c.dbgsel.toNat 20 12

/-- The waves that DBGSEL names. -/
def Chip.dbgWaves (c : Chip) : List Nat :=
  (c.waves.filter (fun e => !e.2.ended && e.2.grow = c.dbgGrow &&
    (c.dbgEvery || c.blockNo e.2 = fld c.dbgsel.toNat 32 24 && e.2.wno = fld c.dbgsel.toNat 0 5))).map (·.1)

/-- The bits of `sr.dbg` that DBGCTL writes: SLANE, STEP, BSTOP, ATT. -/
def dbgFields : Word := 0x1F0E

/-- Changes the selected waves; the image of a vacated one is brought up to date. -/
def Chip.dbgMod (c : Chip) (f : Wave → Wave) : Chip := c.dbgWaves.foldl (fun c i => (c.modWave i f).resave i) c

/-- Sets the fields of DBGCTL in the selected waves; with ALL, in every wave that the grid creates later too. -/
def Chip.dbgSet (c : Chip) (v : Word) : Chip :=
  let c1 := c.dbgMod (fun w => { w with dbg := w.dbg &&& ~~~dbgFields ||| v &&& dbgFields })
  if c.dbgEvery then { c1 with dbgAll := c1.dbgAll.filter (fun e => e.1 ≠ c.dbgGrow) ++ [(c.dbgGrow, v &&& dbgFields)] } else c1

/-- A write of DBGCTL whose ACT is `act` (R484). -/
def dbgCtl (p : Nat) (v : Word) (act : Nat) (f : State → State) (s : State) : Host.Outcome State Fault Refusal :=
  .next (if fld v.toNat 6 2 ≠ act || !(s.chip p).accepts then s else f (s.modChip p (fun c => c.dbgSet v)))

/-- DBGCTL_NONE (R484). -/
def execDbgctlNone (p _port : Nat) (v : Word) (s : State) : Host.Outcome State Fault Refusal := dbgCtl p v 0 id s

/-- DBG_STOP (R294): every step of the model ends at an instruction boundary. -/
def execDbgStop (p _port : Nat) (v : Word) (s : State) : Host.Outcome State Fault Refusal :=
  dbgCtl p v 1 (fun s => s.modChip p (fun c => c.dbgWaves.foldl (fun c i =>
    if (tfind c.waves i).any (fun w => w.dbg.getLsbD 0) then c else (c.debugStop i 0).resave i) c)) s

/-- Reads a wave back from DBGBUF in the layout of a snapshot (R485). -/
def Wave.loadFrom (w : Wave) (m : Memory) (a : Nat) : Wave :=
  (w.readRecord m a false).readResident m (a + 8192) (a + 8192 + 128 * w.L)

/-- The address in DBGBUF. -/
def Chip.dbgAddr (c : Chip) : Nat := fld c.dbgbuf.toNat 6 46 * 64

/-- Whether the buffer can hold the snapshot of a wave: it is DRAM, and no line of it is poisoned (R461, R478). -/
def Chip.dbgFits (c : Chip) (w : Wave) : Bool :=
  let n := 8192 + 136 * w.L
  c.dbgAddr + n ≤ dramBytes && c.poison.all (fun line => line < c.dbgAddr / 128 || (c.dbgAddr + n - 1) / 128 < line)

/-- DBG_RESUME (R295, R485): with LOAD the selected wave is read from DBGBUF first, where all of
that can be read; with STEP one word issues. -/
def execDbgResume (p _port : Nat) (v : Word) (s : State) : Host.Outcome State Fault Refusal :=
  dbgCtl p v 2 (fun s => s.modChip p (fun c => c.dbgMod (fun w =>
    if !w.dbg.getLsbD 0 then w
    else
      let w1 := if v.getLsbD 5 && !c.dbgEvery && c.dbgFits w then w.loadFrom c.dram c.dbgAddr else w
      { w1 with dbg := w1.dbg &&& ~~~(1 : Word), stepping := if w1.dbg.getLsbD 3 then .armed else .none }))) s

/-- The bytes of a snapshot: the wave record, at 8,192 its lane registers, then their bits (R485). -/
def Wave.snapshot (w : Wave) (stalled : Slot → Bool) : List Byte := padTo 8192 (w.recordBytes stalled) ++ w.residentBytes ++ w.residentBits

/-- DBG_SNAPSHOT (R485): SNAP tells that all of it is written. -/
def execDbgSnapshot (p _port : Nat) (v : Word) (s : State) : Host.Outcome State Fault Refusal :=
  dbgCtl p v 3 (fun s =>
    let c := s.chip p
    let one := if c.dbgEvery then none else (c.dbgWaves.head?.bind (tfind c.waves)).filter (fun w => w.dbg.getLsbD 0)
    match one with
    | none => s.setChip p { c with dbgstat := 0 }
    | some w => s.setChip p { c.putLong c.dbgAddr (w.snapshot (Wave.stalled (s.cpOf p w) (c.fgear w.grow) w)) with
        dbgstat := if c.dbgFits w then 2 else 0 }) s

/-- DBGSTAT as a port reads it: REASON and STOPPED of the selected wave, SNAP of the last snapshot (R484). -/
def Chip.dbgStatus (c : Chip) : Nat :=
  match c.dbgWaves.head?.bind (tfind c.waves) with
  | none => c.dbgstat.toNat
  | some w => c.dbgstat.toNat + b2n (w.dbg.getLsbD 0) + (if w.dbg.getLsbD 0 then fld w.cause.toNat 0 8 * 2 ^ 8 else 0)

/-- STEP_STOP (R295): the stepped word has issued. -/
def execStepStop (p wid : Nat) (s : State) : Host.Outcome State Fault Refusal :=
  .next (s.modChip p (fun c =>
    if (tfind c.waves wid).any (fun w => !w.ended && w.stepping = .issued) then c.debugStop wid 0x32 else c))

end Sys2Proof.Machine
end

