-- ==== Sys2Proof/Machine/Mgmt.lean ====
section
/-! DEFINITION. The management window: the semaphore (R411 to R413), controlled registers, reset, firmware, joining, attestation
(R486 to R492), the command mailbox (R493, R494), power and heat (R495). -/

namespace Sys2Proof.Machine

open Sys2Proof

/-! ## The semaphore (R411 to R413) -/

/-- The value of OWNER for a port. -/
def ownerOf (port : Nat) : Nat := port + 1
/-- DENIED of a port. -/
def Chip.deniedAt (c : Chip) (port : Nat) : Bool := c.denied.getD port false
/-- SEM as a port reads it. -/
def Chip.semWord (c : Chip) (port : Nat) : Nat := c.semOwner + 4 * b2n (c.deniedAt port)
/-- A controlled write that is ignored sets DENIED of its port. -/
def Chip.deny (c : Chip) (port : Nat) : Chip := { c with denied := c.denied.set port true }

/-- SEMTAS_READ (R412): the read returns the value from before it. -/
def execSemtasRead (p port : Nat) (s : State) : Host.Outcome State Fault Refusal :=
  .next (s.modChip p (fun c => if !c.powered then c else
    { c with portRead := c.portRead.set port (BitVec.ofNat 64 (c.semWord port)), semOwner := if c.semOwner = 0 then ownerOf port else c.semOwner }))

/-- SEMREL_WRITE (R412). -/
def execSemrelWrite (p port : Nat) (s : State) : Host.Outcome State Fault Refusal :=
  .next (s.modChip p (fun c => if c.semOwner = ownerOf port then { c with semOwner := 0 } else c))

/-- HOST_LINK_DOWN (R413). -/
def execHostLinkDown (p port : Nat) (s : State) : Host.Outcome State Fault Refusal :=
  .next (s.modChip p (fun c => if c.semOwner = ownerOf port then { c with semOwner := 0 } else c))

/-- The offsets of the controlled registers (R486). -/
def controlled (off : Nat) : Bool := off = 0x40 || off = 0x48 || off = 0x50 || off = 0x60

/-- CONTROLLED_WRITE_DENIED (R411). -/
def execControlledWriteDenied (p port off : Nat) (_v : DWord) (s : State) : Host.Outcome State Fault Refusal :=
  .next (s.modChip p (fun c => if controlled off && c.semOwner ≠ ownerOf port then c.deny port else c))

/-- A controlled write that recovery takes too, as FWUP's: ignored with DENIED set where the port does not own the semaphore (R411, R487). A chip that
has stopped performs none but the reset (R495). -/
def State.controlledAlways (s : State) (p port : Nat) (f : Chip → Chip) : State :=
  s.modChip p (fun c => if !c.online then c else if c.semOwner = ownerOf port then f c else c.deny port)

/-- A controlled write: ignored with DENIED set where the port does not own the semaphore, and ignored in recovery. -/
def State.controlledWrite (s : State) (p port : Nat) (f : Chip → Chip) : State :=
  s.modChip p (fun c => if !c.accepts then c else if c.semOwner = ownerOf port then f c else c.deny port)

/-- A controlled write of a chip that has not stopped (R495). -/
def State.controlledLive (s : State) (p port : Nat) (f : Chip → Chip) : State := if (s.chip p).stopped then s else s.controlledWrite p port f

/-! ## Reset and power (R487, R495, R496) -/

/-- CHIP_RESET (R487): by RESETCTL from the owning port, by power-on of a package without power, or of a chip whose own tables have it FENCED. -/
def execChipReset (p port : Nat) (cause : ResetCause) (s : State) : Host.Outcome State Fault Refusal :=
  .next (match cause with
    | .resetctl => s.controlledWrite p port (fun c => c.resetBy .resetctl)
    | .powerOn => s.modChip p (fun c => if c.powered then c else c.resetBy .powerOn)
    | .fence => s.modChip p (fun c => if c.powered && (c.pel.rep.chip c.chipId).state = .fenced then c.resetBy .fence else c))

/-- POWER_ON (R487). PCAP takes its Reset value. -/
def execPowerOn (p : Nat) (s : State) : Host.Outcome State Fault Refusal :=
  .next (s.modChip p (fun c => if c.powered && (tfind s.chips p).isSome then c else { c.resetBy .powerOn with pcap := Chip.reset.pcap }))

/-- POWER_LOSS (R496): the package stops. -/
def execPowerLoss (p : Nat) (s : State) : Host.Outcome State Fault Refusal := .next (s.modChip p (fun c => { c with powered := false }))

/-- PCAP_WRITE (R486, R495): a value outside 600 to 2,400 is ignored. -/
def execPcapWrite (p port : Nat) (v : DWord) (s : State) : Host.Outcome State Fault Refusal :=
  let w := fld v.toNat 0 12
  .next (s.controlledLive p port (fun c => if 600 ≤ w && w ≤ 2400 then { c with pcap := BitVec.ofNat 12 w } else c))

/-- THERMAL_THROTTLE (R495, R496): cycles are withheld, which is timing; the half's sensor is logged in class 12. -/
def execThermalThrottle (p half : Nat) (s : State) : Host.Outcome State Fault Refusal :=
  .next (s.modChip p (fun c => c.logEvent 12 0 half 0 0))

/-- THERMAL_SHUTDOWN (R495): every unit stops until reset. -/
def execThermalShutdown (p _half : Nat) (s : State) : Host.Outcome State Fault Refusal := .next (s.modChip p (fun c => { c with stopped := true }))

/-- POWER_CAP_WITHHOLD (R495): timing only. -/
def execPowerCapWithhold (_p : Nat) (s : State) : Host.Outcome State Fault Refusal := .next s

/-! ## Firmware (R488 to R490) -/

/-- FWUP_GO (R490): the image at BASE is copied into firmware SRAM, and its verification begins. -/
def execFwupGo (p port : Nat) (v : DWord) (s : State) : Host.Outcome State Fault Refusal :=
  let base := fld v.toNat 6 46 * 64
  .next (s.controlledAlways p port (fun c => if v.getLsbD 0 && c.fwState ≠ 1 then
    { c with fwState := 1, fwBase := BitVec.ofNat 64 base, fwSram := some (Config.fwImage c.dram base) } else c))

/-- FW_VERIFY_DONE (R490): of the image in firmware SRAM, that is; a passing one goes to the bank that did not boot. -/
def execFwVerifyDone (p : Nat) (image : FwImage) (s : State) : Host.Outcome State Fault Refusal :=
  .next (s.modChip p (fun c =>
    if c.fwState ≠ 1 || !c.online || c.fwSram ≠ some image then c
    else match imageFail image c.fwMin with
      | none => { c with fwState := 2, fwBanks := c.fwBanks.set (1 - c.fwBank) image }
      | some f => { c with fwState := 3, fwFail := f }))

/-! ## Joining (R491) -/

/-- A plane order: each number from 0 to 47 once. -/
def orderOk (l : List Byte) : Bool := l.length = 48 && (List.range 48).all (fun n => l.contains (BitVec.ofNat 8 n))

/-- JOINCTL_GO (R491): with a well-formed order and an identifier that is not ALIVE, the chip has a join state, and REJOIN goes on from there to
JOIN. The first order of a pod names its sequencer (R439). DESIGN CHOICE: an identifier that another package in service has taken is refused as
an ALIVE one is, so that it is unique in the pod (R2). -/
def execJoinctlGo (p port : Nat) (v : DWord) (s : State) : Host.Outcome State Fault Refusal :=
  let id := fld v.toNat 0 9
  let frame := fld v.toNat 12 40 * 4096
  let c := s.chip p
  let order := ((s.readTgt p (.dram frame) 48).getD [])
  let taken := s.chips.any (fun e => e.1 ≠ p && e.2.joined && e.2.online && e.2.chipId = id)
  let go := c.accepts && !c.stopped && c.semOwner = ownerOf port && v.getLsbD 63 && orderOk order && (s.sw.witness.chip id).state ≠ .alive && !taken
  .next (if !go then s.controlledLive p port (fun c => c)
    else
      let s1 := s.setChip p { c with planeOrder := order, chipId := id, joined := true, rejoin := false, incast := []
                                     pel := { Peloton.reset with pnum := c.pel.pnum, rejoining := .start } }
      { s1 with sw := { s1.sw with order := if s1.sw.order.isEmpty then order else s1.sw.order } })

/-! ## Attestation (R492) -/

/-- ATTREQ_WRITE: the nonce is read. DESIGN CHOICE: where it cannot be read, the request is refused and no index is used. -/
def execAttreqWrite (p : Nat) (v : DWord) (s : State) : Host.Outcome State Fault Refusal :=
  let buf := fld v.toNat 6 46 * 64
  .next (s.modChip p (fun c =>
    if !c.online || c.attState = 1 then c
    else if c.attLeft = 0 then { c with attState := 3 }
    else match s.readTgt p (.dram buf) 48 with
      | none => { c with attState := 3 }
      | some nonce => { c with attState := 1, attBuf := BitVec.ofNat 64 buf, attNonce := nonce }))

/-- Bytes of the two signatures: ECDSA over P-384, and LMS with the parameter sets of R488. -/
def signatureBytes : Nat := 96 + 1772

/-- What a report says, before it is signed (R492): the nonce, the digest of the running image, SVN, revision and chip identifier. -/
def Chip.reportBody (c : Chip) : List Byte :=
  c.attNonce ++ (List.range 48).map (Config.imageDigest c.fwRun) ++ leBytes 1 c.fwRun.svn ++ leBytes 1 (fld c.ownCap.toNat 56 8) ++ leBytes 2 c.chipId

/-- ATTESTATION_DONE: one index is used up, and the report stands at BUF + 64, with its signatures. -/
def execAttestationDone (p : Nat) (s : State) : Host.Outcome State Fault Refusal :=
  let c := s.chip p
  .next (if c.attState ≠ 1 || !c.online then s
    else
      let report := c.reportBody ++ (List.range signatureBytes).map (Config.signature c.secret c.keyImage c.attLeft.toNat s.tick c.reportBody)
      s.setChip p { (c.putLong (c.attBuf.toNat + 64) report) with attState := 2, attLeft := c.attLeft - 1 })

/-! ## The mailbox (R493, R494) -/

/-- The address of a command record. -/
def mboxAddr (cmd : DWord) : Nat := fld cmd.toNat 6 46 * 64

/-- The fields of a command record. -/
def mb (r lo n : Nat) : Nat := fld r (8 * lo) (8 * n)

/-- Whether every byte that the table does not name for an operation is zero: `two` and `six` name bytes of 2 to 7, `more` the words from 8 on. -/
def mboxRest (r : Nat) (small : List Nat) (more : Nat) : Bool :=
  (List.range 30).all (fun i => small.contains (i + 2) || 8 ≤ i + 2 && i + 2 < 8 + 8 * more || mb r (i + 2) 1 = 0)

/-- The engines that a binding names. -/
def mboxEngines (r : Nat) : List Nat := mb r 3 1 :: (List.range 16).filter (fun k => nbit (mb r 4 2) k && k ≠ mb r 3 1)

/-- The pages of a code range, each with its frame where it is mapped with X set. -/
def Chip.codeFrames (c : Chip) (asid first last : Nat) : List (Option Nat) :=
  (List.range (Nat.min 5 ((last + 4095) / 4096 - first / 4096))).map (fun i =>
    match c.xlate asid ((first / 4096 + i) * 4096) .fetch with
    | .ok (.dram pa) => some (pa / 4096)
    | _ => none)

/-- Whether a record's command is performed, by its operation (R494). -/
def Chip.mboxOk (c : Chip) (r : Nat) : Bool :=
  match mb r 0 1 with
  | 1 =>
    let first := mb r 8 8
    let last := mb r 16 8
    let fr := c.codeFrames (mb r 6 2) first last
    mboxRest r [2, 3, 4, 5, 6, 7] 2 && mb r 2 1 < 64 && mb r 3 1 < 16 && first < last && last ≤ 2 ^ 48 && (tfind c.bindings (mb r 2 1)).isNone &&
    fr.length ≤ 4 && fr.all Option.isSome && (mboxEngines r).all (fun k => (c.cluster k).fit.regions.length < 8)
  | 2 => mboxRest r [2] 0 && (tfind c.bindings (mb r 2 1)).isSome
  | 3 => mboxRest r [2, 3] 0 && mb r 2 1 < 16 && mb r 3 1 + (c.cluster (mb r 2 1)).part ≤ 32
  | 4 => mboxRest r [2, 3] 0 && mb r 2 1 < 16 && mb r 3 1 + (c.cluster (mb r 2 1)).lres ≤ 32
  | 5 => mboxRest r [] 1 && mb r 8 8 % 128 = 0 && mb r 8 8 < dramBytes
  | 6 => mboxRest r [2, 3, 4, 5, 6, 7] 1 && mb r 2 1 < 2 && 4 ≤ mb r 3 1 && mb r 3 1 ≤ 16 && mb r 4 2 < 512 && mb r 8 8 % (64 * 2 ^ mb r 3 1) = 0 &&
      !c.offChip (mb r 8 8) && (c.queueAt (mb r 2 1) (mb r 4 2)).isNone
  | 7 => mboxRest r [2, 4, 5] 0 && mb r 2 1 < 2 && mb r 4 2 < 512 && (match c.queueAt (mb r 2 1) (mb r 4 2) with
      | none => false
      | some x => x.started.all (fun k => k.stage = .fetched))
  | _ => false

/-- Performs a command of operation `op` where the record is one that is performed, and writes its result; `op` 0 stands for a refused one. -/
def mbox (p : Nat) (cmd : DWord) (op : Nat) (f : Chip → Nat → Chip) (s : State) : Host.Outcome State Fault Refusal :=
  let a := mboxAddr cmd
  let c := s.chip p
  .next (if !c.accepts || c.stopped then s
    else match s.readTgt p (.dram a) 32 with
      | none => s
      | some bs =>
        let r := ofLe bs
        if op = 0 then
          if c.mboxOk r then s else s.setChip p (c.writeDram (a + 1) [1]).1
        else if mb r 0 1 ≠ op || !c.mboxOk r then s
        else s.setChip p ((f c r).writeDram (a + 1) [0]).1)

/-- A copy of a region at binding (R338). -/
def RegionCopy.bound (home : Bool) : RegionCopy :=
  { home := home, state := 0, ewma := 0, samples := 0, sur := none, ring := [], nextPair := 0, obs := 0, batch := [] }

/-- THR, ALPHA, SEXP, LR, OBSN and EPS after binding (R341). -/
def bindRegs : List Word := [0, 0x3D800000, 4, 0x3A800000, 256, 0x35800000]

/-- MBOX_BIND_REGION (R336 to R338). -/
def execMboxBindRegion (p : Nat) (cmd : DWord) (s : State) : Host.Outcome State Fault Refusal :=
  mbox p cmd 1 (fun c r =>
    let n := mb r 2 1
    let es := mboxEngines r
    let b : Binding := { home := mb r 3 1, mirrors := es.drop 1, asid := mb r 6 2, first := mb r 8 8, last := mb r 16 8,
                         frames := (c.codeFrames (mb r 6 2) (mb r 8 8) (mb r 16 8)).filterMap id, loaded := false, regs := bindRegs }
    es.foldl (fun c k =>
      let u := c.cluster k
      c.setCluster k { u with fit := { u.fit with regions := tset u.fit.regions n (RegionCopy.bound (k = mb r 3 1)) } })
      { c with bindings := tset c.bindings n b }) s

/-- MBOX_WITHDRAW_REGION (R336). -/
def execMboxWithdrawRegion (p : Nat) (cmd : DWord) (s : State) : Host.Outcome State Fault Refusal :=
  mbox p cmd 2 (fun c r =>
    { c with bindings := tdel c.bindings (mb r 2 1)
             clusters := tmap c.clusters (fun _ u => { u with fit := { u.fit with regions := tdel u.fit.regions (mb r 2 1) } }) }) s

/-- MBOX_SET_LRES (R429). -/
def execMboxSetLres (p : Nat) (cmd : DWord) (s : State) : Host.Outcome State Fault Refusal :=
  mbox p cmd 3 (fun c r => (c.setCluster (mb r 2 1) { c.cluster (mb r 2 1) with lres := mb r 3 1 }).sendBlocked c) s

/-- MBOX_SET_PARTITION (R383, R494). -/
def execMboxSetPartition (p : Nat) (cmd : DWord) (s : State) : Host.Outcome State Fault Refusal :=
  mbox p cmd 4 (fun c r => (c.setCluster (mb r 2 1) { c.cluster (mb r 2 1) with part := mb r 3 1 }).sendBlocked c) s

/-- MBOX_CLEAR_POISON (R478). -/
def execMboxClearPoison (p : Nat) (cmd : DWord) (s : State) : Host.Outcome State Fault Refusal :=
  mbox p cmd 5 (fun c r =>
    let line := mb r 8 8 / 128
    (({ c with poison := c.poison.filter (· ≠ line) } : Chip).writeDram (line * 128) (List.replicate 128 0)).1) s

/-- MBOX_CREATE_QUEUE (R414). -/
def execMboxCreateQueue (p : Nat) (cmd : DWord) (s : State) : Host.Outcome State Fault Refusal :=
  mbox p cmd 6 (fun c r => c.setQueue (mb r 2 1) (mb r 4 2)
    { ring := BitVec.ofNat 64 (mb r 8 8), log2 := mb r 3 1, asid := mb r 6 2, notify := 0, fetch := 0, doneCnt := 0, stall := false, started := [] }) s

/-- MBOX_REMOVE_QUEUE (R414). -/
def execMboxRemoveQueue (p : Nat) (cmd : DWord) (s : State) : Host.Outcome State Fault Refusal :=
  mbox p cmd 7 (fun c r => { c with queues := tdel c.queues (mb r 2 1 * 512 + mb r 4 2) }) s

/-- MBOX_REFUSED (R494). -/
def execMboxRefused (p : Nat) (cmd : DWord) (s : State) : Host.Outcome State Fault Refusal := mbox p cmd 0 (fun c _ => c) s

/-! ## Other registers (R7) -/

/-- SZ of a ring as its register holds it: values that are not named read as 0. -/
def ringSz (v : Nat) : Nat := if 7 ≤ fld v 0 5 && fld v 0 5 ≤ 16 then fld v 0 5 else 0

/-- A write to a register of the window that no other row performs, by its Access code: RW takes the fields, W1C clears, RO and offsets that
name no register take nothing. FQBASE with SZ 0 answers the records that wait (R475). -/
def Chip.regWrite (c : Chip) (port off : Nat) (v : DWord) : Chip :=
  let n := v.toNat
  let base := fun (lo len : Nat) => fld n lo len * 2 ^ lo
  match off with
  | 0x000 => if v.getLsbD 2 then { c with denied := c.denied.set port false } else c
  | 0x100 => { c with fqovf := c.fqovf &&& ~~~(lo32 v) }
  | 0x108 =>
    let c1 := { c with fqbase := BitVec.ofNat 64 (base 12 40 + ringSz n) }
    if ringSz n = 0 then c1.failWaiting else c1
  | 0x118 => { c with fqtail := v }
  | 0x138 => { c with savepool := BitVec.ofNat 64 (base 21 31 + fld n 0 10) }
  | 0x140 => { c with elbase := BitVec.ofNat 64 (base 12 40 + ringSz n) }
  | 0x150 => { c with eltail := v }
  | 0x158 => { c with elovf := c.elovf &&& ~~~(lo32 v) }
  | 0x200 => { c with dbgsel := BitVec.ofNat 64 (base 20 37 + fld n 0 5) }
  | 0x218 => { c with dbgbuf := BitVec.ofNat 64 (base 6 46) }
  | _ => c

/-- REGISTER_WRITE (R7). In recovery the semaphore alone takes it (R487). -/
def execRegisterWrite (p port off : Nat) (v : DWord) (s : State) : Host.Outcome State Fault Refusal :=
  .next (s.modChip p (fun c => if !c.powered || !c.accepts && off ≠ 0 then c else c.regWrite port off v))

/-- Word `w` of CORERET (R500, R501). -/
def Chip.coreRet (c : Chip) (w : Nat) : Nat :=
  ((List.range 64).map (fun j => b2n (((tfind c.cores (64 * w + j)).map Core.retired).getD false) * 2 ^ j)).sum

/-- A register of the window as a port reads it, by its Access code: WO and reserved fields read as zero (R7). DESIGN CHOICE: so do offsets that name
no register. -/
def Chip.regRead (c : Chip) (port off : Nat) : Nat :=
  match off with
  | 0x000 | 0x004 => c.semWord port
  | 0x048 => c.pcap.toNat
  | 0x058 => c.fwRun.svn % 256 * 2 ^ 8 + c.fwFail % 16 * 2 ^ 4 + c.fwBank % 2 * 2 ^ 3 + c.fwState % 8
  | 0x078 => c.attLeft.toNat * 2 ^ 32 + c.attState % 4
  | 0x080 => b2n c.rejoin * 2 ^ 9 + (if c.joined then c.chipId % 512 else 0)
  | 0x088 => c.astbase.toNat
  | 0x100 => c.fqovf.toNat
  | 0x108 => c.fqbase.toNat
  | 0x110 => c.fqhead.toNat
  | 0x118 => c.fqtail.toNat
  | 0x130 => b2n c.tlbBusy
  | 0x138 => c.savepool.toNat
  | 0x140 => c.elbase.toNat
  | 0x148 => c.elhead.toNat
  | 0x150 => c.eltail.toNat
  | 0x158 => c.elovf.toNat
  | 0x160 => c.cecntD.toNat * 2 ^ 32 + c.cecntS.toNat
  | 0x200 => c.dbgsel.toNat
  | 0x210 => c.dbgStatus
  | 0x218 => c.dbgbuf.toNat
  | _ => if 0x180 ≤ off && off < 0x1C0 && off % 8 = 0 then c.coreRet ((off - 0x180) / 8) else 0

/-- A port's read of a register returns its value (R7); that of SEMTAS takes the semaphore too (R412). A package without power answers nothing. -/
def State.regRead (s : State) (p port off : Nat) : State :=
  s.modChip p (fun c =>
    if !c.powered then c
    else { c with portRead := c.portRead.set port (BitVec.ofNat 64 (c.regRead port off)),
                  semOwner := if off = 0x004 && c.semOwner = 0 then ownerOf port else c.semOwner })

/-- Both ports read SEMTAS in one cycle: the port that lost the last such tie goes first, port 0 after reset (R413). -/
def State.semBoth (s : State) (p : Nat) : State :=
  let first := (s.chip p).semTie % 2
  ((s.regRead p first 0x004).regRead p (1 - first) 0x004).modChip p (fun c => { c with semTie := 1 - first })

end Sys2Proof.Machine
end

