-- ==== Sys2Proof/Machine/Ports.lean ====
section
/-! DEFINITION. What a host port reaches besides the registers of its management window: device memory (R411) and, through BAR 2, the register
aperture with control and queue pages (R310, R414, R462). An access is of 1 to 8 bytes; what it returns stands in `Chip.portRead`. -/

namespace Sys2Proof.Machine

open Sys2Proof

/-- What a port's access returns to it. -/
def Chip.portGets (c : Chip) (port : Nat) (v : Nat) : Chip := { c with portRead := c.portRead.set port (BitVec.ofNat 64 v) }

/-- Whether `n` bytes at a physical address are device memory. DESIGN CHOICE: the driver maps all of it to the ports; an address that is neither device memory
nor a register of the aperture reads as zero, and a write to it does nothing. -/
def portDram (pa n : Nat) : Bool := 1 ≤ n && n ≤ 8 && pa + n ≤ dramBytes

/-- The status word that a port is given for a damaged line (R478, R498). DESIGN CHOICE: UNIT is 0, and it takes the place of the bytes. -/
def Chip.portPoison (c : Chip) : Nat := (statusWord codePoison 0 c.chipId 0).toNat

/-- What a port reads in the aperture: a counter, or the registers of a queue page; nothing else of a control page (R310, R414). -/
def Chip.portAp (c : Chip) (pa n : Nat) : Nat :=
  match apAddr pa with
  | .control _ off => if isCounter off then c.apLoad pa .n32 n false else 0
  | _ => c.apLoad pa .n32 n false

/-- A read of `n` bytes by a port. DESIGN CHOICE: of a counter in which an uncorrectable error stands it is given the status word, as of a damaged line. -/
def State.hostRead (s : State) (p port pa n : Nat) : State :=
  let c := s.chip p
  if !c.online then s
  else if portDram pa n then s.setChip p (c.portGets port (match s.readTgt p (.dram pa) n with
    | some bs => ofLe bs
    | none => c.portPoison))
  else if (c.badCounter pa).isSome && n = 4 then
    (s.sense p (.aperture pa) n (c.poisonStatus 0)).modChip p (fun c => c.portGets port c.portPoison)
  else s.setChip p (c.portGets port (c.portAp pa n))

/-- A write of a port: device memory, a counter, which it sets, or NOTIFY; a start request is refused (R310, R414). -/
def State.hostWrite (s : State) (p _port pa : Nat) (bs : List Byte) : State :=
  let c := s.chip p
  let n := bs.length
  if !c.online then s
  else if portDram pa n then (splitAt 128 pa n).foldl (fun s e => (s.writeTgt p (.dram e.1) ((bs.drop (e.1 - pa)).take e.2)).1) s
  else s.setChip p (match apAddr pa with
    | .control e off => if isCounter off && n = 4 then c.ctrSet e (off / 4) (BitVec.ofNat 32 (ofLe bs)) else c
    | .queue _ _ _ => c.apStore 0 pa .n64 n (BitVec.ofNat 64 (ofLe bs))
    | .none => c)

/-- An AtomicOp of a port, FetchAdd, Swap or CAS of 32 or 64 bits: it returns the old value. On a counter FetchAdd adds and the others set; on a
start request it is refused with a status word; on a queue page it changes nothing and returns zero (R310, R414). -/
def State.hostAtomic (s : State) (p port pa aop : Nat) (t : Ty) (v cmp : DWord) : State :=
  let c := s.chip p
  let n := t.width / 8
  if !c.online || !(aop = 0 || aop = 6 || aop = 7) || !(t = .b32 || t = .b64) then s
  else if portDram pa n then
    match s.readTgt p (.dram pa) n with
    | none => s.setChip p (c.portGets port c.portPoison)
    | some bs =>
      let s1 := (s.writeTgt p (.dram pa) (leBytes n (aopNew aop t (ofLe bs) (v.toNat % 2 ^ t.width) (cmp.toNat % 2 ^ t.width)))).1
      s1.modChip p (fun c => c.portGets port (ofLe bs))
  else s.setChip p (match apAddr pa with
    | .control e off =>
      let old := (c.engine e).counter (off / 4)
      if isCounter off && t = .b32 && (c.engine e).isBad (off / 4) && aop = 0 then (c.ctrAdd e (off / 4) (lo32 v)).portGets port c.portPoison
      else if isCounter off && t = .b32 then
        (if aop = 0 then c.ctrAdd e (off / 4) (lo32 v)
         else c.ctrSet e (off / 4) (BitVec.ofNat 32 (aopNew aop t old.toNat (lo32 v).toNat (lo32 cmp).toNat))).portGets port old.toNat
      else c.portGets port (if off = 0x100 then c.hostRefusal.toNat else 0)
    | _ => c.portGets port 0)

end Sys2Proof.Machine
end

