-- ==== Sys2Proof/Machine/Agenda.lean ====
section
/-! DEFINITION. What may happen next of the machine's own accord, for a step that the outside does not direct: the choice of an issue port, a slot that
waits in its word, the next command of a context, and every event that a unit brings about by itself. An event offered here whose condition does not hold leaves the state as
it is, so the lists below say where a thing may happen and its meaning says whether it does. What only the outside can say (errors, hosts, power,
the far end of a link) comes through `State.inputs`. -/

namespace Sys2Proof.Machine

open Sys2Proof

/-- The two slots. -/
def slotList : List Slot := [.A, .B]

/-- The events `f i` for i below `n`. -/
def upTo (n : Nat) (f : Nat → Instr) : List Instr := (List.range n).map f

/-- The events of each entry of a list. -/
def forEach {α : Type} (l : List α) (f : α → List Instr) : List Instr := l.flatMap f

/-- Waves: promotion, throttle, `yield`, the turn of fixed gear, the stop after a step. -/
def waveEvents (p : Nat) (c : Chip) : List Instr :=
  forEach c.waves (fun e => .stepStop p e.1 :: forEach slotList (fun sl =>
    [.promotion p e.1 sl, .throttlePermitExpiry p e.1 sl, .yieldExpiry p e.1 sl, .fgTurn p e.1 sl]))

/-- The array commands of a core. -/
def arrayEvents (p core i : Nat) : List Instr :=
  [.mwldPerform p core i, .mcbPerform p core i, .mldPerform p core i, .mstPerform p core i, .mzeroPerform p core i, .mmaRow p core i 0,
   .mdrainPerform p core i, .arrayCommandComplete p core i]

/-- Cores: the throttle's shift, L1, the array commands, steal requests. -/
def coreEvents (p : Nat) (c : Chip) : List Instr :=
  (upTo 512 (fun n => .stealRequest p n)).append
    (forEach c.cores (fun e => .localityScoreShift p e.1 ::
      (forEach e.2.l1 (fun l => [.l1Replacement p e.1 l.line])).append (forEach (List.range e.2.aq.length) (arrayEvents p e.1))))

/-- Accesses, copy commands, remote groups. -/
def accessEvents (p : Nat) (c : Chip) : List Instr :=
  List.flatten
    [forEach c.prods (fun e => [.longLatencyComplete p e.1, .loadMissComplete p e.1]),
     forEach c.pend (fun a =>
       [.storeAck p a.id, .orderedAtomicPerform p a.id, .ctrlCounterAdd p (.wave a.id), .ctrlCounterSet p (.wave a.id),
        .ctrlStartRequest p a.id, .ctrlStartStore p a.id]),
     forEach c.copies (fun k => .incastServe p k.id :: .copyCommandComplete p k.id :: upTo k.units (fun u => .copyUnitTransfer p k.id u)),
     upTo (c.got.length + c.requests.length) (fun i => .ratomGroupComplete p i)]

/-- Collectives. -/
def collEvents (p : Nat) (c : Chip) : List Instr :=
  (forEach c.colls (fun e => [.collRankReady p e.2.blk e.2.cid, .collRankOutcome p e.2.blk e.2.cid])).append
    (forEach c.coords (fun k => [.collDecide p k.grow k.cid]))

/-- Stream contexts. -/
def streamEvents (p : Nat) (c : Chip) : List Instr :=
  forEach c.engines (fun e => forEach e.2.ctx (fun x =>
    .armedRelease p e.1 x.1 :: .contextEnd p e.1 x.1 ::
    forEach (List.range x.2.cmds.length) (fun i => .tilewWrite p e.1 x.1 i :: upTo 32 (fun r => .deliverSlice p e.1 x.1 i r))))

/-- Clusters: event queues, fitting engines, the queue engine, work-graph timers. -/
def clusterEvents (p : Nat) (c : Chip) : List Instr :=
  List.flatten
    [upTo c.recOut.length (fun i => .eventQueueRecord p i),
     upTo c.apxOps.length (fun i => .apxCtlComplete p i),
     upTo c.steals.length (fun i => .stealAnswer p i),
     forEach c.clusters (fun e =>
       List.flatten
         [[.cccRecordProcess p e.1, .fitInvocationEval p e.1, .fitInputTake p e.1, .cohortAdmit p e.1, .cohortVacate p e.1],
          forEach e.2.fit.regions (fun r => [.fitValidation p e.1 r.1, .sgdStep p e.1 r.1]),
          upTo e.2.bins.length (fun i => .binTimerExpiry p e.1 i)])]

/-- The packets of a queue; whether the host completes AtomicOps is the host's own, so both are offered. -/
def packetEvents (p h q n : Nat) : List Instr :=
  [.launchPacket p h q n, .barrierPacket p h q n, .barrierRecheck p h q n, .copyPacket p h q n, .signalPacket p h q n true,
   .signalPacket p h q n false, .packetRetire p h q n true, .packetRetire p h q n false]

/-- Queues and grids. -/
def queueEvents (p : Nat) (c : Chip) : List Instr :=
  (forEach c.queues (fun e => .packetFetch p (e.1 / 512) (e.1 % 512) ::
    forEach e.2.started (fun k => packetEvents p (e.1 / 512) (e.1 % 512) k.n))).append
    (forEach c.grids (fun e => .quantumCommit e.1 :: forEach (c.pel.rep.rowsOf e.1) (fun r => [.gridChipFinish p e.1 r.1])))

/-- Translation and the fault queue. -/
def walkEvents (p : Nat) (c : Chip) : List Instr :=
  List.flatten
    [forEach c.walks (fun e => [.pageWalk p e.1]), upTo c.pendFaults.length (fun i => .faultRecordWrite p i),
     if c.tlbBusy then [.tlbinvDone p] else []]

/-- The chip's part in Peloton, its heartbeats, its links, its signing key. -/
def podEvents (p : Nat) (c : Chip) : List Instr :=
  List.flatten
    [upTo c.pel.props.length (fun i => .eventPropose p i), upTo c.pel.outstanding.length (fun i => .proposalResend p i),
     forEach c.pel.due (fun n => [.digestPropose p n]),
     if c.joined then .eventDeliver p :: .gapRequest p :: .rejoin p :: upTo 4 (fun g => .heartbeatSend p g) else [],
     forEach c.links (fun e => [.idleFlit p e.1]), if c.attState = 1 then [.attestationDone p] else []]

/-- The cores with a slot whose next word has not issued, at which a port may choose (R40). -/
def portItems (s : State) (p : Nat) (c : Chip) : List Input :=
  ((c.waves.filter (fun e => slotList.any (fun sl => s.candidate p e.2 sl && (e.2.path? sl).any (fun q => !q.waiting)))).map
    (fun e => e.2.core)).dedup.map (fun n => Input.port p n)

/-- The slots that wait in a word they have issued, and the contexts that may read a command. -/
def waitItems (s : State) (p : Nat) (c : Chip) : List Input :=
  (c.waves.flatMap (fun e => (slotList.filter (fun sl => s.candidate p e.2 sl && (e.2.path? sl).any Path.waiting)).map (fun sl =>
    Input.issue { pkg := p, wid := e.1, slot := sl, half := .single }))).append
    (c.engines.flatMap (fun e => e.2.ctx.map (fun x => Input.stream p e.1 x.1)))

/-- The links that have something for the switch at their other end. -/
def linkItems (p : Nat) (c : Chip) : List Input :=
  (c.links.filter (fun e => e.2.up && !(e.2.replay.isEmpty && e.2.waiting.isEmpty))).map (fun e => Input.ack p e.1)

/-- What may happen on a package that has power and has not stopped. -/
def chipItems (s : State) (p : Nat) (c : Chip) : List Input :=
  if !c.online then []
  else
    List.flatten
      [portItems s p c, waitItems s p c, linkItems p c, if c.pel.apply.isEmpty then [] else [.apply p], if c.fwState = 1 then [.verify p] else [],
       (List.flatten [waveEvents p c, coreEvents p c, accessEvents p c, collEvents p c, streamEvents p c, clusterEvents p c, queueEvents p c,
          walkEvents p c, podEvents p c]).map Input.ev]

/-- The packets in the fabric, at the package or switch they are for. -/
def packetItems (s : State) : List Input :=
  (s.net.zip (List.range s.net.length)).flatMap (fun e =>
    if e.1.dstSw then [Input.packet 0 e.2]
    else match s.pkgOf e.1.dst with
      | none => []
      | some p => [Input.packet p e.2])

/-- The sequencing switches. -/
def switchEvents (w : Switch) : List Instr :=
  List.flatten
    [if w.emit.isEmpty then [] else [.sequenceEvent 0], upTo w.inbox.length (fun i => .sequenceEvent i), [.standbyTick, .standbyTakeover],
     forEach w.witness.chips (fun e => [.heartbeatTimeout e.1])]

/-- Everything that may happen next. -/
def agenda (s : State) : List Input :=
  List.flatten
    [s.chips.flatMap (fun e => chipItems s e.1 e.2), packetItems s, if s.sw.order.isEmpty then [] else (switchEvents s.sw).map Input.ev]

/-- The choice among what may happen next: the only item, or one of several, which no rule orders. -/
def chooseNext (s : State) : Option Input :=
  match agenda s with
  | [] => none
  | [x] => some x
  | l => l[Config.schedule s.tick % l.length]?

/-- The cycle counter of a package goes on by `n`; a new cycle begins with no flag raised in it (R286). -/
def Chip.goCycles (c : Chip) (n : DWord) : Chip :=
  { c with cycle := c.cycle + n, waves := tmap c.waves (fun _ w => { w with raised := if n = 0 then w.raised else 0 }) }

/-- The passing of time beside a step: the issue rules' record of each package is brought up to date (R39), then the free-value counter and each
package's own cycle counter go on (R14, R291). -/
def State.passTime (s : State) : State :=
  let t := s.chips.foldl (fun t e => t.settleIssue e.1) s
  { t with tick := s.tick + 1, chips := tmap t.chips (fun p c => c.goCycles (BitVec.ofNat 64 (Config.elapsed p s.tick))) }

/-- A packet reaches package `p`, or the switch it is for: the event of its type (R378, R379). A message of a collective that is over goes nowhere. -/
def packetArrives (s : State) (p net : Nat) : Host.Outcome State Fault Refusal :=
  match s.net[net]? with
  | none => .next s
  | some k =>
    match k.ptype with
    | 1 => execWr p net s
    | 2 => execAck p net s
    | 3 => execRd p net s
    | 4 => execRdd p net s
    | 5 => execAtReq p net s
    | 6 => execAtr p net s
    | 7 => execTk p net s
    | 8 => execTkr p net s
    | 9 => execTkw p net s
    | 10 => execTkg p net s
    | 11 => execTka p net s
    | 12 =>
      if k.dstSw then .next (s.dropNet net)
      else match fld k.opw.toNat 0 4 with
      | 0 => execClParameters p net s
      | 1 => execClData p net s
      | 2 => execClReady p net s
      | 3 => execClDecision p net s
      | 4 => execClAbortRequest p net s
      | _ => execClLossNotice p net s
    | 13 => execEvp net s
    | 14 => execEv p net s
    | 15 => execHb net s
    | 16 => execRtq net s
    | 17 => execSnq p net s
    | _ => execSnd p net s

/-- The chip applies the delivered event at the head of its list: the event of its type (R450). -/
def applyNext (s : State) (p : Nat) : Host.Outcome State Fault Refusal :=
  match ((s.chip p).pel.apply.head?).map evType with
  | some 0 => execApplySubmit p s
  | some 1 => execApplyFinish p s
  | some 2 => execApplyBlocked p s
  | some 3 => execApplyFault p s
  | some 4 => execApplyChipLoss p s
  | some 5 => execApplyFence p s
  | some 6 => execApplyJoin p s
  | some 7 => execApplyDigest p s
  | _ => .next s

/-- Performs one item, `ex` being the meaning of an operation or event. -/
def perform (ex : Instr → State → Host.Outcome State Fault Refusal) (s : State) : Input → Host.Outcome State Fault Refusal
  | .ev i => ex i s
  | .port p core => s.portIssue ex p core
  | .issue c => issueWord ex s c
  | .stream p v k => streamWord ex s p v k
  | .packet p n => packetArrives s p n
  | .ack p plane => .next (s.serveLink p plane)
  | .apply p => applyNext s p
  | .verify p => (((s.chip p).fwSram.map (fun i => execFwVerifyDone p i s)).getD (.next s))
  | .hostRead p port pa n => .next (s.hostRead p port pa n)
  | .hostWrite p port pa bs => .next (s.hostWrite p port pa bs)
  | .hostAtomic p port pa aop t v cmp => .next (s.hostAtomic p port pa aop t v cmp)
  | .regRead p port off => .next (s.regRead p port off)
  | .semBoth p => .next (s.semBoth p)
  | .damage p d => .next (s.damage p d)

end Sys2Proof.Machine
end

