-- ==== Sys2Proof/Machine/Logic.lean ====
section
/-! DEFINITION. Bit operations, major opcode 0x02 (R165 to R170). -/

namespace Sys2Proof.Machine

open Sys2Proof

/-- Writes the low bits of a number as a value of raw width. -/
def Iss.putNat (x : Iss) (t : Ty) (n : Nat → Nat) : Wave := x.put t.regs (fun k j => BitVec.ofNat 32 (n k / 2 ^ (32 * j))) x.w

/-- `and`, `or`, `xor` over registers, or over predicates (R166). -/
def logic2 (f : Nat → Nat → Nat) (g : Bool → Bool → Bool) : Iss → State → Eff :=
  onWave (fun x =>
    if x.o.d.isPred then x.putPred (fun k => g (x.predAt .a k) (x.predAt .b k)) x.w
    else x.putNat x.o.ty (fun k => f (x.valN x.o.ty .a k) (x.valN x.o.ty .b k)))

/-- `and` (R165). -/
def execAnd (o : Ops) (s : State) : Host.Outcome State Fault Refusal := issue (formLogic2 o) o s (logic2 Nat.land and)

/-- `or` (R165). -/
def execOr (o : Ops) (s : State) : Host.Outcome State Fault Refusal := issue (formLogic2 o) o s (logic2 Nat.lor or)

/-- `xor` (R165). -/
def execXor (o : Ops) (s : State) : Host.Outcome State Fault Refusal := issue (formLogic2 o) o s (logic2 Nat.xor xor)

/-- `not` (R165). -/
def execNot (o : Ops) (s : State) : Host.Outcome State Fault Refusal :=
  issue (formLogic1 o) o s (onWave (fun x =>
    if x.o.d.isPred then x.putPred (fun k => !x.predAt .a k) x.w
    else x.putNat x.o.ty (fun k => 2 ^ x.o.ty.width - 1 - x.valN x.o.ty .a k)))

/-- The shape of the shifts (R167): width, value, amount. -/
def shiftOp (f : Nat → Nat → Nat → Nat) : Iss → State → Eff :=
  onWave (fun x => x.putNat x.o.ty (fun k => f x.o.ty.width (x.valN x.o.ty .a k) (x.word .b k 0).toNat))

/-- `shl` (R167). -/
def execShl (o : Ops) (s : State) : Host.Outcome State Fault Refusal :=
  issue (formShift o) o s (shiftOp (fun w a n => if w ≤ n then 0 else a * 2 ^ n % 2 ^ w))

/-- `shr` (R167). -/
def execShr (o : Ops) (s : State) : Host.Outcome State Fault Refusal :=
  issue (formShift o) o s (shiftOp (fun w a n => if w ≤ n then 0 else a / 2 ^ n))

/-- `sar` (R167). -/
def execSar (o : Ops) (s : State) : Host.Outcome State Fault Refusal :=
  issue (formShift o) o s (shiftOp (fun w a n => modPow (asSigned w a / 2 ^ Nat.min n (w - 1)) w))

/-- `rot` (R167): left by the amount modulo the width. -/
def execRot (o : Ops) (s : State) : Host.Outcome State Fault Refusal :=
  issue (formShift o) o s (shiftOp (fun w a n => (a * 2 ^ (n % w) + a / 2 ^ (w - n % w)) % 2 ^ w))

/-- `clz` (R168). -/
def execClz (o : Ops) (s : State) : Host.Outcome State Fault Refusal :=
  issue (formCount o) o s (onWave (fun x => x.put 1 (fun k _ =>
    let a := x.valN x.o.ty .a k
    BitVec.ofNat 32 (if a = 0 then x.o.ty.width else x.o.ty.width - 1 - Nat.log2 a)) x.w))

/-- The number of one bits among the `w` low bits. -/
def onesOf (w a : Nat) : Nat := (List.range w).foldl (fun n i => n + b2n (nbit a i)) 0

/-- `popc` (R168). -/
def execPopc (o : Ops) (s : State) : Host.Outcome State Fault Refusal :=
  issue (formCount o) o s (onWave (fun x => x.put 1 (fun k _ => BitVec.ofNat 32 (onesOf x.o.ty.width (x.valN x.o.ty .a k))) x.w))

/-- The `w` low bits in reverse order. -/
def reverseBits (w a : Nat) : Nat := (List.range w).foldl (fun n i => 2 * n + b2n (nbit a i)) 0

/-- `brev` (R168). -/
def execBrev (o : Ops) (s : State) : Host.Outcome State Fault Refusal :=
  issue (formInt1 tysRaw false o) o s (onWave (fun x => x.putNat x.o.ty (fun k => reverseBits x.o.ty.width (x.valN x.o.ty .a k))))

/-- The extracted field of `bfx` (R169). -/
def extractField (t : Ty) (a ctl : Nat) : Int :=
  let w := t.width
  let pos := ctl % 256
  let n := Nat.min (fld ctl 8 8) w
  let v : Int := if t.signed then asSigned w a else (a : Int)
  if n = 0 then 0
  else
    let f := modPow (v / 2 ^ pos) n
    if t.signed then asSigned n f else f

/-- `bfx` (R169). -/
def execBfx (o : Ops) (s : State) : Host.Outcome State Fault Refusal :=
  issue (formBfx o) o s (onWave (fun x => x.putInt x.o.ty (fun k =>
    extractField x.o.ty (x.valN x.o.ty .a k) (x.word .b k 0).toNat)))

/-- The result of `bfi` (R170): `c` with a field of `a` inserted. -/
def insertField (w a ctl c : Nat) : Nat :=
  let pos := ctl % 256
  let n := Nat.min (fld ctl 8 8) w
  (List.range w).foldl (fun r i => r + (if pos ≤ i && i < pos + n && nbit a (i - pos) || !(pos ≤ i && i < pos + n) && nbit c i
    then 2 ^ i else 0)) 0

/-- `bfi` (R170). -/
def execBfi (o : Ops) (s : State) : Host.Outcome State Fault Refusal :=
  issue (formBfi o) o s (onWave (fun x => x.putNat x.o.ty (fun k =>
    insertField x.o.ty.width (x.valN x.o.ty .a k) (x.word .b k 0).toNat (x.valN x.o.ty .c k))))

end Sys2Proof.Machine
end

