-- ==== Sys2Proof/Machine/CmpMov.lean ====
section
/-! DEFINITION. Compare, select and move, major opcode 0x03 (R171 to R175). -/

namespace Sys2Proof.Machine

open Sys2Proof

/-- The truth of a condition between integers (R171, R172). -/
def intCond (cc : Nat) (a b : Int) : Bool :=
  match cc with
  | 0 => a = b
  | 1 => a ≠ b
  | 2 => a < b
  | 3 => a ≤ b
  | 4 => a > b
  | _ => a ≥ b

/-- The value of the 28-bit immediate of `cmp` (R171) as 64 bits: its bits above the type's width are its extension; a 64-bit operand
is extended as its selector says. -/
def cmpImm (o : Ops) : Word :=
  let v := fld o.word.toNat 0 28
  let sx := o.ty.signed || o.a = .imm .sx64 || o.b = .imm .sx64
  BitVec.ofNat 32 (if sx && 2 ^ 27 ≤ v then v + 15 * 2 ^ 28 else v)

/-- The operand of `cmp` as its immediate is read: sign-extended for a signed type, whatever the selector (R171). -/
def cmpOperand (t : Ty) : Operand → Operand
  | .imm .zx64 => if t.signed then .imm .sx64 else .imm .zx64
  | op => op

/-- `cmp` (R171, R172). -/
def execCmp (o : Ops) (s : State) : Host.Outcome State Fault Refusal :=
  issue (formCmp o) o s (fun x s =>
    let x := { x with immw := cmpImm o, o := { x.o with a := cmpOperand o.ty x.o.a, b := cmpOperand o.ty x.o.b } }
    onWave (fun x => x.putPred (fun k => intCond (fld o.modi 28 4) (x.int o.ty .a k) (x.int o.ty .b k)) x.w) x s)

/-- `sel` (R173). -/
def execSel (o : Ops) (s : State) : Host.Outcome State Fault Refusal :=
  issue (formSel o) o s (onWave (fun x => x.putInt o.ty (fun k => if x.predAt .c k then x.int o.ty .a k else x.int o.ty .b k)))

/-- `mov` (R174): a predicate destination takes whether the source is not zero. -/
def execMov (o : Ops) (s : State) : Host.Outcome State Fault Refusal :=
  issue (formMov o) o s (onWave (fun x => x.put (formMov o).d.n (fun k j => x.word .a k j) x.w))

/-- `movi` (R175): the 42-bit immediate, sign-extended. -/
def execMovi (o : Ops) (s : State) : Host.Outcome State Fault Refusal :=
  issue (formMovi o) o s (onWave (fun x => x.putInt .i64 (fun _ => asSigned 42 o.imm42)))

end Sys2Proof.Machine
end

