-- ==== Sys2Proof/Machine/Control.lean ====
section
/-! DEFINITION. Control instructions, major opcode 0xC0 (R176 to R184): transfers with their checked targets, the sliding window of
`call` and `ret` (R60), the end of paths and waves (R31, R184). -/

namespace Sys2Proof.Machine

open Sys2Proof

/-! ## Transfers -/

/-- Lanes grouped by a PC each of them gives, lowest lane first. -/
def groupTargets (f : Nat → DWord) (m : Word) : List (DWord × Word) :=
  (lanesOf m).foldl (fun l k =>
    let b := maskOf (· == k)
    if l.any (fun g => g.1 = f k) then l.map (fun g => if g.1 = f k then (g.1, g.2 ||| b) else g) else l ++ [(f k, b)]) []

/-- The target of format W (R134): the own line address plus the displacement in lines, at the slot given. -/
def Iss.dispTarget (x : Iss) : DWord :=
  let v := asSigned 42 x.o.imm42
  BitVec.ofNat 64 (modPow ((pcLine x.ownPc : Int) + v / 8 * 64 + v % 8) 64)

/-- The check of every target (R133): the trap of the offending lanes, or the word held for a line that fails translation, or none. -/
def Iss.badTargets (x : Iss) (s : State) (gs : List (DWord × Word)) : Option Eff :=
  let fate := gs.map (fun g => (g, x.c.checkTarget x.tick x.w.core (x.c.asidOf x.w.grow) g.1))
  let bad := fate.foldl (fun m e => if e.2 = .illegal then m ||| e.1.2 else m) 0
  if bad ≠ 0 then some (.trap { cause := 0x04, e0 := bad })
  else
    let holds := fate.filterMap (fun e => match e.2 with
      | .hold cause level => some (pcLine e.1.1 % 2 ^ 48, e.1.2, cause, level)
      | _ => none)
    if holds.isEmpty then none else some (.wait (x.holdPages s .fetch holds))

/-- Moves the path of the slot to its successors (R28, R178): the lanes of each target with window base `wb`, the others at the next PC
with their own base, in the line that they have entered as long as it holds that PC (R131). A divergent transfer in handler mode is a double fault
(R280). -/
def Iss.transfer (x : Iss) (s : State) (w : Wave) (gs : List (DWord × Word)) (wb : Nat) (hint : Option Word) : Eff :=
  let taken := gs.foldl (fun m g => m ||| g.2) 0
  let rest := x.q.mask &&& ~~~taken
  let succ := gs.map (fun g => ({ pc := g.1, mask := g.2, wbase := wb, fresh := true, wait := .none } : Path)) ++
    (if rest = 0 then [] else [{ pc := x.nextPc, mask := rest, wbase := x.q.wbase, fresh := true, wait := .none,
                                  line := if pcLine x.nextPc = pcLine x.q.pc then x.q.line else none }])
  let cp := s.cpOf x.p w
  let s := s.modChip x.p (fun c => c.bindLanes x.wid x.q.mask)
  match succ with
  | [] => .done s
  | q :: l =>
    if l.all (fun r => r.pc = q.pc && r.wbase = q.wbase) then
      let w1 := w.setPath x.sl (some { q with mask := x.q.mask, fresh := false })
      .moved (x.set s (if w.hmode then w1 else w1.arriveIf cp x.sl))
    else if w.hmode then .moved (s.waveFault x.p x.wid (w.cause.toNat % 256))
    else .moved (x.set s (w.diverge cp x.sl (sortPaths succ) hint))

/-- The hinted side of `br` and `call` (R178): the target's with `.ta`, else the fall-through. DESIGN CHOICE: an indirect `call.ta` with several
targets has several successors at a target, and the spec names one; each of them counts as the hinted side. -/
def Iss.hintTaken (x : Iss) : Option Word := if x.o.hs then some x.exe else some (x.q.mask &&& ~~~x.exe)

/-- The hinted successor of `brx` and `ret` (R178): the one with the lowest transferring lane, or the fall-through if there is one. -/
def Iss.hintGroup (x : Iss) (gs : List (DWord × Word)) : Option Word :=
  if x.o.hs then (gs.head?).map (·.2)
  else if x.exe = x.q.mask then none else some (x.q.mask &&& ~~~x.exe)

/-- `nop`. -/
def execNop (o : Ops) (s : State) : Host.Outcome State Fault Refusal := issue (formBare false) o s (fun _ s => .done s)

/-- `br` (R180). -/
def execBr (o : Ops) (s : State) : Host.Outcome State Fault Refusal :=
  issue (formBr o) o s (fun x s =>
    if x.exe = 0 then .done s
    else
      let gs := [(x.dispTarget, x.exe)]
      (x.badTargets s gs).getD (x.transfer s x.w gs x.q.wbase x.hintTaken))

/-- `brx` (R180). DEDUCED: a may be an indexed pair, whose displacement stands in WORD (R140). -/
def execBrx (o : Ops) (s : State) : Host.Outcome State Fault Refusal :=
  issue (formBrx o) o s (fun x s =>
    if x.exe = 0 then .done s
    else
      let gs := groupTargets (x.dword .a) x.exe
      (x.badTargets s gs).getD (x.transfer s x.w gs x.q.wbase (x.hintGroup gs)))

/-! ## The sliding window (R60) -/

/-- Logical registers `lo` to `lo + n - 1`. -/
def regRange (lo n : Nat) : List Nat := (List.range n).map (lo + ·)

/-- A register of the frame that `call` opens: full, the calling lanes' values undefined and their error bits cleared (R60). -/
def LaneReg.open (r : LaneReg) (m : Word) (tick x : Nat) : LaneReg :=
  { r.write m (fun k => Config.freeWord (tick * 2 ^ 20 + x * 32 + k)) with full := true }

/-- SlideCall after its checks (R60): the new frame, then the return PC in its last two registers. -/
def Wave.slideCall (w : Wave) (tick wbase f : Nat) (m : Word) (ret : DWord) : Wave :=
  let nb := wbase - f
  let w1 := (regRange nb f).foldl (fun w x => { w with v := tset w.v x ((w.lreg x).open m tick x) }) w
  (w1.putV (nb + f - 2) m (fun _ => lo32 ret)).putV (nb + f - 1) m (fun _ => hi32 ret)

/-- The register-range trap of `call` and `ret` (R60, R182): the frame field is no operand (R177), so SRC is 0 and the offending lanes are
those the word calls or returns; `sr.einfo2` holds the field as encoded (R282). -/
def Iss.frameTrap (x : Iss) : TrapInfo := { cause := 0x08, src := 0, e0 := x.exe, e2 := BitVec.ofNat 32 x.o.d.raw }

/-- `call` (R181). -/
def execCall (o : Ops) (s : State) : Host.Outcome State Fault Refusal :=
  issue (formCall o) o s (fun x s =>
    if x.exe = 0 then .done s
    else
      let gs := if o.a = .none then [(x.dispTarget, x.exe)] else groupTargets (x.dword .a) x.exe
      let f := frameOf o
      match x.badTargets s gs with
      | some e => e
      | none =>
        if x.w.L < f || x.q.wbase < f then .trap x.frameTrap
        else if (regRange (x.q.wbase - f) f).any (fun r => !(x.w.lreg r).full) then .wait s
        else x.transfer s (x.w.slideCall x.tick x.q.wbase f x.exe x.nextPc) gs (x.q.wbase - f) x.hintTaken)

/-- A register of the frame that `ret` releases, once it is full (R182): in the lanes of the path as the word read it, where it was full then (R146);
else as it stands. -/
def Iss.frameReg (x : Iss) (n : Nat) : LaneReg :=
  let a := x.r.lreg n
  let b := x.w.lreg n
  if !a.full then b
  else
    let m := (a.mask &&& x.q.mask) ||| (b.mask &&& ~~~x.q.mask)
    { b with vals := mergeLanes b.vals x.q.mask (fun k => a.vals.getD k 0), mask := m, err := (a.err || b.err) && m ≠ 0 }

/-- The error bits that the returning lanes have in the released frame are discarded (R182). -/
def Wave.dropErrs (w : Wave) (lo n : Nat) (m : Word) : Wave :=
  (regRange lo n).foldl (fun w x =>
    let r := w.lreg x
    if !r.err then w else { w with v := tset w.v x { r with mask := r.mask &&& ~~~m, err := r.mask &&& ~~~m ≠ 0 } }) w

/-- `ret` (R182). -/
def execRet (o : Ops) (s : State) : Host.Outcome State Fault Refusal :=
  issue (formRet o) o s (fun x s =>
    let f := frameOf o
    let lo := x.q.wbase + f - 2
    if x.exe = 0 then .done s
    else if x.w.D < x.q.wbase + f then .trap x.frameTrap
    else if (regRange x.q.wbase f).any (fun r => !(x.w.lreg r).full) then .wait (x.set s (x.poll x.w))
    else
      match [lo, lo + 1].find? (fun r => (x.frameReg r).err) with
      | some r => .trap { x.errTrap .d (.v r) with src := 0, e0 := (x.frameReg r).mask, e1 := (x.frameReg r).vals.getD (lowLane (x.frameReg r).mask) 0 }
      | none =>
        let gs := groupTargets (fun k => dword ((x.frameReg lo).vals.getD k 0) ((x.frameReg (lo + 1)).vals.getD k 0)) x.exe
        (x.badTargets s gs).getD (x.transfer s (x.w.dropErrs x.q.wbase f x.exe) gs (x.q.wbase + f) (x.hintGroup gs)))

/-! ## The end of paths (R31, R183, R184) -/

/-- The end of the path in a slot (R31): handler mode ends with it (R280); Fill; the other slot arrives again at a check point; the last
path ends the wave. -/
def Wave.endPath (cp : DWord → Bool) (w : Wave) (sl : Slot) : Wave :=
  let w0 := { w with cause := w.cause &&& 0xFFFF7FFF }.setPath sl none
  let w1 := Wave.arriveIf cp (Wave.fill cp w0) sl.other
  if w1.paths.isEmpty then { w1 with ended := true } else w1

/-- The path after an `exit` of some of its lanes: it keeps its slot and its fresh bit, and goes on with the others (R183). -/
def Iss.exitPath (x : Iss) : Path := { x.q.goTo x.nextPc with mask := x.q.mask &&& ~~~x.exe, fresh := x.q.fresh }

/-- `exit` (R183, R184). -/
def execExit (o : Ops) (s : State) : Host.Outcome State Fault Refusal :=
  issue (formBare false) o s (fun x s =>
    let cp := s.cpOf x.p x.w
    if x.exe = 0 then .done s
    else if x.exe = x.q.mask then .moved ((x.set s (x.w.endPath cp x.sl)).modChip x.p (fun c => c.blockEnd x.w.blk))
    else
      let w1 := x.w.setPath x.sl (some x.exitPath)
      .moved (x.set (s.modChip x.p (fun c => c.bindLanes x.wid x.q.mask)) (if x.w.hmode then w1 else w1.arriveIf cp x.sl)))

end Sys2Proof.Machine
end

