-- ==== Sys2Proof/Machine/Float.lean ====
section
/-! DEFINITION. Float arithmetic, conversion, packed halves and byte dot products, major opcodes 0x04 and 0x05 (R186 to R196). -/

namespace Sys2Proof.Machine

open Sys2Proof

/-- FVal of an operand in lane `k` (R186). -/
def Iss.flt (x : Iss) (t : Ty) (ps : Pos) (k : Nat) : FNum := fval t (x.word ps k 0).toNat

/-- The random operand of RS, zero in every other mode (R188). -/
def Iss.rnd (x : Iss) (ps : Pos) (k : Nat) : Nat := if rmOf x.o.modw = 4 then (x.word ps k 0).toNat else 0

/-- Rounds per lane with RoundToFormat and writes the encodings; QSAT of any lane is kept (R113). -/
def Iss.putRounded (x : Iss) (t : Ty) (ps : Pos) (v : Nat → FNum) : Wave :=
  let r := fun k => roundToF t (v k) (rmOf x.o.modw) x.o.hs (x.rnd ps k)
  (x.put 1 (fun k _ => BitVec.ofNat 32 (r k).1) x.w).raiseIf (x.outLanes.any (fun k => (r k).2)) flagQsat

/-- Whether an exact zero sum is -0: rounding toward minus infinity (R110). -/
def Iss.down (x : Iss) : Bool := rmOf x.o.modw == 3

/-- `fadd` (R189). -/
def execFadd (o : Ops) (s : State) : Host.Outcome State Fault Refusal :=
  issue (formFadd o) o s (onWave (fun x => x.putRounded o.ty .c (fun k => FNum.add x.down (x.flt o.ty .a k) (x.flt o.ty .b k))))

/-- `fmul` (R189). -/
def execFmul (o : Ops) (s : State) : Host.Outcome State Fault Refusal :=
  issue (formFadd o) o s (onWave (fun x => x.putRounded o.ty .c (fun k => FNum.mul (x.flt o.ty .a k) (x.flt o.ty .b k))))

/-- `ffma` (R189): the product is not rounded. -/
def execFfma (o : Ops) (s : State) : Host.Outcome State Fault Refusal :=
  issue (formFfma o) o s (onWave (fun x => x.putRounded o.ty .c (fun k =>
    FNum.add x.down (FNum.mul (x.flt o.ty .a k) (x.flt o.ty .b k)) (x.flt o.ty .c k))))

/-- The shape of `fmin` and `fmax` (R191): no rounding, one of the operands or the canonical NaN. -/
def minMax (f : Ty → Nat → Nat → Nat) : Iss → State → Eff :=
  onWave (fun x => x.put 1 (fun k _ => BitVec.ofNat 32 (f x.o.ty (x.valN x.o.ty .a k) (x.valN x.o.ty .b k))) x.w)

/-- `fmin` (R191). -/
def execFmin (o : Ops) (s : State) : Host.Outcome State Fault Refusal := issue (formFmin o) o s (minMax fminN)

/-- `fmax` (R191). -/
def execFmax (o : Ops) (s : State) : Host.Outcome State Fault Refusal := issue (formFmin o) o s (minMax fmaxN)

/-- The truth of a condition between floats (R192). -/
def fltCond (cc : Nat) (a b : FNum) : Bool :=
  let un := a.isNan || b.isNan
  match cc with
  | 0 => a.eqv b
  | 1 => !a.eqv b
  | 2 => a.lt b
  | 3 => a.lt b || a.eqv b
  | 4 => b.lt a
  | 5 => b.lt a || a.eqv b
  | 6 => un
  | _ => !un

/-- `fcmp` (R192): an immediate stands in WORD [15:0]. -/
def execFcmp (o : Ops) (s : State) : Host.Outcome State Fault Refusal :=
  issue (formFcmp o) o s (fun x s =>
    let x := { x with immw := BitVec.ofNat 32 (fld o.word.toNat 0 16) }
    onWave (fun x => x.putPred (fun k => fltCond (fld o.modi 28 4) (x.flt o.ty .a k) (x.flt o.ty .b k)) x.w) x s)

/-- A value times a power of two; an exponent far beyond every format is taken at the bound (R189). -/
def scaleByPow (a : FNum) (n : Int) : FNum :=
  match a with
  | .fin x => .fin { x with e := x.e + Max.max (-4096) (Min.min 4096 n) }
  | v => v

/-- `fscale` (R189). -/
def execFscale (o : Ops) (s : State) : Host.Outcome State Fault Refusal :=
  issue (formFscale o) o s (onWave (fun x => x.putRounded o.ty .c (fun k => scaleByPow (x.flt o.ty .a k) (x.int .i32 .b k))))

/-- `ffma2` (R190): two multiply-adds, element by element of a pair. -/
def execFfma2 (o : Ops) (s : State) : Host.Outcome State Fault Refusal :=
  issue (formFfma2 o) o s (onWave (fun x =>
    let e := fun ps k j => fval .f32 (x.word ps k j).toNat
    let r := fun k j => roundToF .f32 (FNum.add x.down (FNum.mul (e .a k j) (e .b k j)) (e .c k j)) (rmOf x.o.modw) x.o.hs 0
    (x.put 2 (fun k j => BitVec.ofNat 32 (r k j).1) x.w).raiseIf
      (x.outLanes.any (fun k => (r k 0).2 || (r k 1).2)) flagQsat))

/-- The exact value of an operand of any number type. -/
def Iss.num (x : Iss) (t : Ty) (ps : Pos) (k : Nat) : FNum := if Ty.isFloat t then x.flt t ps k else FNum.ofInt (x.int t ps k)

/-- `fcvt` (R194). -/
def execFcvt (o : Ops) (s : State) : Host.Outcome State Fault Refusal :=
  issue (formFcvt o) o s (onWave (fun x =>
    let src := (stypeOf o.modw).getD .b32
    let r := fun k => roundTo o.ty (x.num src .a k) (rmOf o.modw) o.hs (x.rnd .b k)
    (x.put o.ty.regs (fun k j => intWords o.ty (r k).1 j) x.w).raiseIf (x.outLanes.any (fun k => (r k).2)) flagQsat))

/-- `hfma2` (R195): two halves of each word. -/
def execHfma2 (o : Ops) (s : State) : Host.Outcome State Fault Refusal :=
  issue (formHfma2 o) o s (onWave (fun x =>
    let e := fun ps k h => fval o.ty (fld (x.word ps k 0).toNat (16 * h) 16)
    let r := fun k h => roundToF o.ty (FNum.add x.down (FNum.mul (e .a k h) (e .b k h)) (e .c k h)) (rmOf x.o.modw) x.o.hs 0
    (x.put 1 (fun k _ => BitVec.ofNat 32 ((r k 0).1 + 2 ^ 16 * (r k 1).1)) x.w).raiseIf
      (x.outLanes.any (fun k => (r k 0).2 || (r k 1).2)) flagQsat))

/-- `dot4` (R196). -/
def execDot4 (o : Ops) (s : State) : Host.Outcome State Fault Refusal :=
  issue (formDot4 o) o s (onWave (fun x => x.putInt o.ty (fun k =>
    let b := fun ps j => intVal (if o.ty.signed then .i8 else .n8) (fld (x.word ps k 0).toNat (8 * j) 8)
    reduceInt o.ty o.hs (x.int o.ty .c k + ((List.range 4).map (fun j => b .a j * b .b j)).foldl (· + ·) 0))))

end Sys2Proof.Machine
end

