-- ==== Sys2Proof/Machine/Cross.lean ====
section
/-! DEFINITION. Cross-lane instructions, major opcode 0x41 (R201 to R210), and block amax and quantisation, major opcode 0x42 (R199,
R200). -/

namespace Sys2Proof.Machine

open Sys2Proof

/-! ## Major opcode 0x41 -/

/-- The source lane of `shfl` for lane `l` (R203); none where the lane keeps its own value. -/
def shflLane (mode seg l k : Nat) : Option Nat :=
  let sz := 2 ^ seg
  let base := l / sz * sz
  match mode with
  | 0 => some (base + k % sz)
  | 1 => if l < base + k then none else some (l - k)
  | 2 => if base + sz ≤ l + k then none else some (l + k)
  | _ => some (base + (l ^^^ k) % sz)

/-- `shfl` (R203): a source lane that is not active in the path leaves a lane its own value. -/
def execShfl (o : Ops) (s : State) : Host.Outcome State Fault Refusal :=
  issue (formShfl o) o s (fun x s =>
    let x := { x with immw := BitVec.ofNat 32 (fld o.word.toNat 0 8) }
    let src := fun l => match shflLane (fld o.modi 30 2) (fld o.modi 24 3) l ((x.word .b l 0).toNat % 256) with
      | some k => if laneOn x.q.mask k then k else l
      | none => l
    onWave (fun x => x.put o.ty.regs (fun l j => x.word .a (src l) j) x.w) x s)

/-- `vote` (R204). -/
def execVote (o : Ops) (s : State) : Host.Outcome State Fault Refusal :=
  issue (formVote o) o s (onWave (fun x =>
    let m := x.q.mask &&& maskOf (fun k => x.predAt .a k)
    let v : Word := match fld o.modw 30 2 with
      | 0 => m
      | 1 => if m ≠ 0 then 1 else 0
      | 2 => if m = x.q.mask then 1 else 0
      | _ => if m = 0 || m = x.q.mask then 1 else 0
    x.put 1 (fun _ _ => v) x.w))

/-- `rfal` (R205). -/
def execRfal (o : Ops) (s : State) : Host.Outcome State Fault Refusal :=
  issue (formRfal o) o s (onWave (fun x => x.put o.ty.regs (fun _ j => x.word .a x.low j) x.w))

/-- The float encodings of a list summed exactly and rounded once (R207). -/
def combineFadd (sat : Bool) (l : List Nat) : Nat × Bool := roundToF .f32 (fsum (l.map (fval .f32))) 0 sat 0

/-- Combine (R207): the result as the bits of the type, and QSAT. -/
def combine (op : Nat) (t : Ty) (sat : Bool) (l : List Nat) : Nat × Bool :=
  let w := t.width
  let ints := l.map (intVal t)
  match op, ints with
  | 0, _ => (modPow (reduceInt t sat (ints.foldl (· + ·) 0)) w, false)
  | 1, _ => (modPow (ints.foldl Min.min (Ty.greatest t)) w, false)
  | 2, _ => (modPow (ints.foldl Max.max (Ty.least t)) w, false)
  | 3, _ => (l.foldl Nat.land (2 ^ w - 1), false)
  | 4, _ => (l.foldl Nat.lor 0, false)
  | 5, _ => (l.foldl Nat.xor 0, false)
  | 6, [] => (0x80000000, false)
  | 6, _ => combineFadd sat l
  | 7, [] => (0x7F800000, false)
  | 7, _ => (l.foldl (fminN .f32) nan32, false)
  | _, [] => (0xFF800000, false)
  | _, _ => (l.foldl (fmaxN .f32) nan32, false)

/-- `red.w` (R208): over the active lanes whose predicate is true. -/
def execRedW (o : Ops) (s : State) : Host.Outcome State Fault Refusal :=
  issue (formRedW o) o s (onWave (fun x =>
    let ls := (lanesOf x.q.mask).filter (fun k => x.predAt .b k)
    let r := combine (fld o.modw 28 4) o.ty o.hs (ls.map (x.valN o.ty .a))
    ((x.put o.ty.regs (fun _ j => BitVec.ofNat 32 (r.1 / 2 ^ (32 * j))) x.w).raiseIf (x.go && r.2) flagQsat).raiseIf
      (x.go && ls.isEmpty) flagEmpty))

/-- `scan` (R209): over the guard-true lanes at or below, or strictly below, each of them. -/
def execScan (o : Ops) (s : State) : Host.Outcome State Fault Refusal :=
  issue (formScan o) o s (onWave (fun x =>
    let excl := nbit o.modw 27
    let r := fun l => combine (fld o.modw 28 4) o.ty o.hs
      (((lanesOf x.exe).filter (fun k => k < l || !excl && k = l)).map (x.valN o.ty .a))
    (x.put o.ty.regs (fun l j => BitVec.ofNat 32 ((r l).1 / 2 ^ (32 * j))) x.w).raiseIf
      ((lanesOf x.exe).any (fun l => (r l).2)) flagQsat))

/-- `match` (R210). -/
def execMatchLanes (o : Ops) (s : State) : Host.Outcome State Fault Refusal :=
  issue (formMatch o) o s (onWave (fun x =>
    x.put 1 (fun l _ => x.q.mask &&& maskOf (fun k => x.valN o.ty .a k = x.valN o.ty .a l)) x.w))

/-! ## Major opcode 0x42 -/

/-- The participants of the block of lane `l` (BL8 in WORD [28]). -/
def Iss.blockLanes (x : Iss) (l : Nat) : List Nat :=
  (lanesOf x.exe).filter (fun k => !nbit x.o.modw 28 || k / 8 = l / 8)

/-- `famax` (R199): the largest magnitude of the block, an encoding of the type with its sign bit clear. -/
def execFamax (o : Ops) (s : State) : Host.Outcome State Fault Refusal :=
  issue (formFamax o) o s (onWave (fun x =>
    x.put 1 (fun l _ => BitVec.ofNat 32 (roundToF o.ty (amaxOf ((x.blockLanes l).map (x.flt o.ty .a))) 0 false 0).1) x.w))

/-- `fqb` (R200): QuantiseBlock over each block. -/
def execFqb (o : Ops) (s : State) : Host.Outcome State Fault Refusal :=
  issue (formFqb o) o s (onWave (fun x =>
    let ef := fld o.modw 24 3
    let blk := fun l => quantiseBlock ef (nbit o.modw 27) (rmOf o.modw)
      ((x.blockLanes l).map (fun k => (x.flt o.ty .a k, x.rnd .b k)))
    let elem := fun l => (((x.blockLanes l).zip (blk l).2.1).find? (fun e => e.1 = l)).elim 0 (·.2)
    let any := fun (f : Nat × List Nat × Bool × Bool → Bool) => (lanesOf x.exe).any (fun l => f (blk l))
    ((x.put 2 (fun l j => BitVec.ofNat 32 (if j = 0 then elem l else (blk l).1)) x.w).raiseIf
      (any (fun b => b.2.2.1)) flagQsat).raiseIf (any (fun b => b.2.2.2)) flagScuf))

end Sys2Proof.Machine
end

