-- ==== Sys2Proof/Machine/FitEngine.lean ====
section
/-! DEFINITION. The fitting engines at work (R339 to R349, R354, R355): inference, recording, validation, training, and the ops of `apx.ctl`. -/

namespace Sys2Proof.Machine

open Sys2Proof

/-! ## Inference (R339) -/

/-- Fma: one rounding of a × b + c. -/
def fma32 (a b c : Nat) : Nat := rne32 (FNum.add false (FNum.mul (fval .f32 a) (fval .f32 b)) (fval .f32 c))
/-- Fr(a + b) and Fr(a - b). -/
def fadd32 (a b : Nat) : Nat := rne32 (FNum.add false (fval .f32 a) (fval .f32 b))
/-- See `fadd32`. -/
def fsub32 (a b : Nat) : Nat := rne32 (FNum.add false (fval .f32 a) (FNum.neg (fval .f32 b)))
/-- Relu. -/
def relu32 (z : Nat) : Nat := fmaxN .f32 z 0

/-- A layer: units, inputs, where its weights begin in the image order, whether it is hidden; its biases follow its weights. -/
structure Layer where
  units : Nat
  n : Nat
  off : Nat
  hidden : Bool
  deriving DecidableEq, Repr

/-- The layers of a surrogate, first to last (R339, R340). -/
def Surrogate.layers (s : Surrogate) : List Layer :=
  let a : Layer := { units := s.h1, n := s.ni, off := 0, hidden := true }
  let o1 := s.h1 * s.ni + s.h1
  if s.h2 = 0 then [a, { units := s.no, n := s.h1, off := o1, hidden := false }]
  else [a, { units := s.h2, n := s.h1, off := o1, hidden := true },
        { units := s.no, n := s.h2, off := o1 + s.h2 * s.h1 + s.h2, hidden := false }]

/-- Weight (j, k) and bias j of a layer. -/
def Layer.w (y : Layer) (ws : List Word) (j k : Nat) : Nat := (ws.getD (y.off + j * y.n + k) 0).toNat
/-- See `Layer.w`. -/
def Layer.b (y : Layer) (ws : List Word) (j : Nat) : Nat := (ws.getD (y.off + y.units * y.n + j) 0).toNat

/-- The accumulators of a layer from its inputs. -/
def Layer.accs (y : Layer) (ws : List Word) (inp : List Nat) : List Nat :=
  (List.range y.units).map (fun j => (List.range y.n).foldl (fun acc k => fma32 (y.w ws j k) (inp.getD k 0) acc) (y.b ws j))

/-- A forward pass: for each layer its inputs and accumulators, and the values it gives. -/
def forward (ws : List Word) : List Layer → List Nat → List (Layer × List Nat × List Nat) × List Nat
  | [], inp => ([], inp)
  | y :: r, inp =>
    let z := y.accs ws inp
    let f := forward ws r (if y.hidden then z.map relu32 else z)
    ((y, inp, z) :: f.1, f.2)

/-- Infer (R339). -/
def Surrogate.infer (s : Surrogate) (x : List Word) : List Word :=
  ((forward s.w s.layers (x.map BitVec.toNat)).2).map (BitVec.ofNat 32)

/-! ## Errors (R347) -/

/-- MaxFinite of FP32. -/
def maxFinite32 : Nat := 0x7F7FFFFF

/-- The quotient of two FP32 numbers, rounded once. -/
def fdiv32 (a b : Nat) : Nat :=
  match fval .f32 a, fval .f32 b with
  | .fin x, .fin y => rne32 (.fin (x.div y))
  | .zero _, .fin _ => 0
  | _, _ => nan32

/-- The error of one output: a NaN or an infinity counts as the largest finite number. -/
def outError (eps surr true_ : Nat) : Nat :=
  let den := fmaxN .f32 (true_ % 2 ^ 31) eps
  let num := rne32 (FNum.abs (fval .f32 (fsub32 surr true_)))
  let e := fdiv32 num den
  if (fval .f32 num).isNan || (fval .f32 num).isInf || (fval .f32 den).isInf || (fval .f32 e).isNan || (fval .f32 e).isInf then
    (if (fval .f32 den).isInf && !(fval .f32 num).isNan && !(fval .f32 num).isInf then 0 else maxFinite32)
  else e

/-- The invocation error over some lanes: the greatest of all outputs. -/
def maxError (eps : Nat) (l : List (List Word × List Word)) : Nat :=
  l.foldl (fun m e => (e.1.zip e.2).foldl (fun m v => let x := outError eps v.1.toNat v.2.toNat
                                                      if m < x then x else m) m) 0

/-- The update of EWMA and SAMPLES by an error. -/
def RegionCopy.note (r : RegionCopy) (alpha e : Nat) : RegionCopy :=
  { r with ewma := BitVec.ofNat 32 (fma32 alpha (fsub32 e r.ewma.toNat) r.ewma.toNat), samples := Nat.min 65535 (r.samples + 1) }

/-- FP32 comparison. -/
def flt32 (a b : Nat) : Bool := FNum.lt (fval .f32 a) (fval .f32 b)

/-- A change of state (R342): SAMPLES cleared, ring emptied, numbering restarted. -/
def RegionCopy.toState (r : RegionCopy) (st : Nat) (ewma : Word) : RegionCopy :=
  { r with state := st, ewma := ewma, samples := 0, ring := [], nextPair := 0, obs := 0, batch := [] }

/-! ## The engine's queue and input buffer (R345, R347, R349) -/

/-- Replaces the engine of a cluster. -/
def Chip.setFit (c : Chip) (cluster : Nat) (f : FitEngine) : Chip := c.setCluster cluster { c.cluster cluster with fit := f }

/-- The record of a change of state of a copy (R355). -/
def Chip.stateRecord (c : Chip) (cluster region old new : Nat) (grow : Option Nat) (status : Word) : Chip :=
  c.record cluster grow (BitVec.ofNat 32 region) (BitVec.ofNat 32 (new + 2 ^ 8 * old)) status 4 0

/-- Lane `k` of a list of lane registers. -/
def laneOf (l : List Lanes) (k : Nat) : List Word := l.map (fun v => v.getD k 0)

/-- FIT_INVOCATION_EVAL (R349): the oldest accepted invocation is evaluated, each lane by itself, and delivered. -/
def execFitInvocationEval (p cluster : Nat) (s : State) : Host.Outcome State Fault Refusal :=
  let f := ((s.chip p).cluster cluster).fit
  .next (match f.queue with
    | [] => s
    | q :: rest => s.modChip p (fun c =>
        ((lanesOf q.lanes).foldl (fun c k => c.laneDone q.prod k (.ok (q.sur.infer (laneOf q.inputs k))))
          (c.setFit cluster { f with queue := rest })).landProducer q.prod))

/-- Whether every value of a pair is finite (R345). -/
def finitePair (x t : List Word) : Bool := (x ++ t).all (fun v => !(fval .f32 v.toNat).isNan && !(fval .f32 v.toNat).isInf)

/-- Records one pair: the oldest unprocessed one of a full ring is overwritten; in OBSERVE it counts toward OBSN, and the count with an image
loaded moves the copy to TRAIN (R342, R345). -/
def Chip.recordPair (c : Chip) (region grow : Nat) (r : RegionCopy) (x t : List Word) : RegionCopy :=
  if !finitePair x t then r
  else
    let ring := r.ring ++ [{ num := r.nextPair, x := x, t := t, grow := grow }]
    let r1 := { r with ring := if 256 < ring.length then ring.drop 1 else ring, nextPair := r.nextPair + 1,
                       obs := if r.state = 1 then r.obs + 1 else r.obs }
    if r1.state = 1 && r1.sur.isSome && c.regionReg region 4 ≤ r1.obs then r1.toState 2 (BitVec.ofNat 32 (c.regionReg region 0)) else r1

/-- FIT_INPUT_TAKE (R345, R347, R349, R353): the oldest entry of the input buffer, while no invocation waits. One whose copy is no longer in the
state that its invocation fixed is discarded. -/
def execFitInputTake (p cluster : Nat) (s : State) : Host.Outcome State Fault Refusal :=
  let f := ((s.chip p).cluster cluster).fit
  .next (match f.queue, f.input with
    | [], e :: rest => s.modChip p (fun c =>
        let c1 := c.setFit cluster { f with input := rest }
        match c1.regionAt cluster e.region with
        | none => c1
        | some r =>
          if r.state ≠ e.state then c1
          else if !e.sampled then
            c1.setRegion cluster e.region ((lanesOf e.lanes).foldl (fun r k =>
              if r.state = e.state then c1.recordPair e.region e.grow r (laneOf e.inputs k) (laneOf e.outputs k) else r) r)
          else match r.sur with
            | none => c1
            | some sur =>
              let err := maxError (c1.regionReg e.region 5) ((lanesOf e.lanes).map (fun k =>
                (sur.infer (laneOf e.inputs k), laneOf e.outputs k)))
              let r1 := r.note (c1.regionReg e.region 1) err
              let thr := c1.regionReg e.region 0
              if r1.state = 3 && flt32 thr r1.ewma.toNat then
                (c1.setRegion cluster e.region (r1.toState 2 (BitVec.ofNat 32 thr))).stateRecord cluster e.region 3 2 (some e.grow) 0
              else c1.setRegion cluster e.region r1)
    | _, _ => s)

/-! ## Training (R346) -/

/-- Moves the leading training pairs of the ring into the batch, while it holds fewer than 32 (R346). -/
def gather : List Pair → List Pair → List Pair × List Pair
  | b, [] => (b, [])
  | b, q :: r => if q.num % 8 ≠ 7 && b.length < 32 then gather (b ++ [q]) r else (b, q :: r)

/-- The copy of a region in TRAIN whose engine has nothing to evaluate, its leading training pairs gathered. -/
def Chip.training (c : Chip) (cluster region : Nat) : Option RegionCopy :=
  if (c.cluster cluster).fit.queue.isEmpty then
    ((c.regionAt cluster region).filter (fun r => r.state = 2)).map (fun r =>
      let g := gather r.batch r.ring
      { r with batch := g.1, ring := g.2 })
  else none

/-- FIT_VALIDATION (R346): the next pair in number order is a validation pair; a batch that is full makes its step first. -/
def execFitValidation (p cluster region : Nat) (s : State) : Host.Outcome State Fault Refusal :=
  .next (match (s.chip p).training cluster region with
    | none => s
    | some r =>
      match r.ring, r.sur with
      | q :: rest, some sur =>
        if q.num % 8 ≠ 7 || 32 ≤ r.batch.length then s
        else s.modChip p (fun c =>
          let r1 := { r with ring := rest }.note (c.regionReg region 1) (maxError (c.regionReg region 5) [(sur.infer q.x, q.t)])
          if 32 ≤ r1.samples && flt32 r1.ewma.toNat (c.regionReg region 0) then
            (c.setRegion cluster region (r1.toState 3 r1.ewma)).stateRecord cluster region 2 3 (some q.grow) 0
          else c.setRegion cluster region r1)
      | _, _ => s)

/-- The gradients after one layer: biases and weights (R346). -/
def Layer.grads (y : Layer) (inp d : List Nat) (g : List Word) : List Word :=
  (List.range y.units).foldl (fun g j =>
    let dj := d.getD j 0
    let ib := y.off + y.units * y.n + j
    let g1 := g.set ib (BitVec.ofNat 32 (fadd32 (g.getD ib 0).toNat dj))
    (List.range y.n).foldl (fun g k =>
      let iw := y.off + j * y.n + k
      g.set iw (BitVec.ofNat 32 (fma32 dj (inp.getD k 0) (g.getD iw 0).toNat))) g1) g

/-- The deltas of the layer below, from its accumulators. -/
def Layer.below (y : Layer) (ws : List Word) (d z : List Nat) : List Nat :=
  (List.range y.n).map (fun k =>
    let acc := (List.range y.units).foldl (fun acc j => fma32 (y.w ws j k) (d.getD j 0) acc) 0
    if flt32 0 (z.getD k 0) then acc else 0)

/-- The backward pass over the layers, last to first. -/
def backward (ws : List Word) : List (Layer × List Nat × List Nat) → List Nat → List Word → List Word
  | [], _, g => g
  | [(y, inp, _)], d, g => y.grads inp d g
  | (y, inp, _) :: (y2, inp2, z2) :: r, d, g => backward ws ((y2, inp2, z2) :: r) (y.below ws d z2) (y.grads inp d g)

/-- One SGD step (R346): the new weights, or the old ones where one would not be finite. -/
def Surrogate.sgd (s : Surrogate) (lr : Nat) (batch : List Pair) : Surrogate :=
  let c := rne32 (FNum.divEx (FNum.ofInt 2) { n := 32 * s.no, d := 1, e := 0 })
  let g0 : List Word := List.replicate s.w.length 0
  let g := batch.foldl (fun g q =>
    let f := forward s.w s.layers (q.x.map BitVec.toNat)
    let d := (List.range s.no).map (fun o =>
      rne32 (FNum.mul (fval .f32 (fsub32 (f.2.getD o 0) (q.t.getD o 0).toNat)) (fval .f32 c)))
    backward s.w f.1.reverse d g) g0
  let neg := (lr + 2 ^ 31) % 2 ^ 32
  let w := (s.w.zip g).map (fun e => BitVec.ofNat 32 (fma32 neg e.2.toNat e.1.toNat))
  if w.all (fun v => !(fval .f32 v.toNat).isNan && !(fval .f32 v.toNat).isInf) then { s with w := w } else s

/-- SGD_STEP (R346): a full batch of 32. -/
def execSgdStep (p cluster region : Nat) (s : State) : Host.Outcome State Fault Refusal :=
  .next (match (s.chip p).training cluster region with
    | none => s
    | some r =>
      match r.sur with
      | none => s
      | some sur =>
        if r.batch.length < 32 then s
        else s.modChip p (fun c => c.setRegion cluster region { r with batch := [], sur := some (sur.sgd (c.regionReg region 3) r.batch) }))

/-! ## `apx.ctl` at the engine (R341, R343, R344) -/

/-- A status word of a fitting engine. -/
def Chip.fitStatus (c : Chip) (code detail : Nat) : Word := statusWord code 4 c.chipId detail

/-- Applies `f` to every copy of a region. -/
def Chip.onCopies (c : Chip) (region : Nat) (f : RegionCopy → RegionCopy) : Chip :=
  { c with clusters := tmap c.clusters (fun _ k => { k with fit := { k.fit with regions := tmod k.fit.regions region f } }) }

/-- Whether a value lies in the range of a region register (R341). -/
def regionRegOk (i v : Nat) : Bool :=
  let x := fval .f32 v
  let finite := !x.isNan && !x.isInf
  match i with
  | 0 => finite && (v % 2 ^ 31 = 0 || v < 2 ^ 31)
  | 1 => finite && flt32 0 v && !flt32 0x3F800000 v
  | 2 => v ≤ 16
  | 3 => finite
  | 4 => 32 ≤ v && v ≤ 4096
  | 5 => finite && flt32 0 v
  | _ => false

/-- Op 0 (R343). -/
def Chip.ctlState (c : Chip) (k : ApxOp) (b : Binding) : Chip × Word :=
  let v := fld k.b.toNat 0 3
  if 5 ≤ v then (c, c.fitStatus codeReject 3)
  else if (v = 2 || v = 3 || v = 4) && !b.loaded then (c, c.fitStatus codeReject 1)
  else if (v = 1 || v = 2 || v = 3) && k.fgear then (c, c.fitStatus codeReject 2)
  else
    let thr := BitVec.ofNat 32 (c.regionReg k.region 0)
    (c.onCopies k.region (fun r =>
      let st := if r.home || v = 4 then v else 0
      r.toState st (if st = 2 then thr else 0)), 0)

/-- Op 1 (R341). -/
def Chip.ctlRegister (c : Chip) (k : ApxOp) (b : Binding) : Chip × Word :=
  let v := (lo32 k.b).toNat
  if !regionRegOk k.idx v then (c, c.fitStatus codeReject 3)
  else ({ c with bindings := tset c.bindings k.region { b with regs := b.regs.set k.idx (lo32 k.b) } }, 0)

/-- Weights of an image (R340). -/
def imageWeights (word : Nat) : Nat :=
  let i := fld word 0 3 + 1
  let o := fld word 3 2 + 1
  let h1 := fld word 5 6
  let h2 := fld word 11 6
  h1 * i + h1 + h2 * h1 + h2 + o * (if 0 < h2 then h2 else h1) + o

/-- Whether the first 64 bytes of an image are malformed (R340). -/
def imageHeadBad (n : Nat) : Bool :=
  let word := fld n 0 32
  fld word 17 15 ≠ 0 || fld word 5 6 = 0 || 32 < fld word 5 6 || 32 < fld word 11 6 || n / 2 ^ 32 ≠ 0

/-- Reads `n` bytes of an image in pieces of 64, each translated. -/
def State.imageRead (s : State) (p : Nat) (k : ApxOp) (addr n : Nat) : State × Except Word (List Byte) :=
  (List.range ((n + 63) / 64)).foldl (fun acc i =>
    match acc.2 with
    | .error _ => acc
    | .ok bs =>
      let r := acc.1.unitXlate p (askOp k.prod) k.asid (addr + 64 * i) .unitRead 4 (tfind (acc.1.chip p).waves k.wid)
      match r.2 with
      | .error st => (r.1, .error st)
      | .ok t =>
        match r.1.unitRead p 4 t (Nat.min 64 (n - 64 * i)) with
        | .error st => (r.1, .error st)
        | .ok b => (r.1, .ok (bs ++ b))) (s, .ok [])

/-- Writes an image in pieces of 64. -/
def State.imageWrite (s : State) (p : Nat) (k : ApxOp) (addr : Nat) (bs : List Byte) : State × Word :=
  (List.range ((bs.length + 63) / 64)).foldl (fun acc i =>
    if acc.2 ≠ 0 then acc
    else
      let r := acc.1.unitXlate p (askOp k.prod) k.asid (addr + 64 * i) .unitWrite 4 (tfind (acc.1.chip p).waves k.wid)
      match r.2 with
      | .error st => (r.1, st)
      | .ok t => r.1.unitWrite p 4 t none ((bs.drop (64 * i)).take 64)) (s, 0)

/-- The check of an image address (R344). -/
def Chip.imageAddrBad (c : Chip) (b : DWord) : Option Word :=
  if b.toNat % 64 ≠ 0 then some (c.fitStatus codeReject 5)
  else if b.toNat / 2 ^ 57 ≠ 0 || c.offChip b.toNat then some (c.fitStatus codeXlate 0)
  else none

/-- Op 2 (R344). -/
def State.ctlLoad (s : State) (p : Nat) (k : ApxOp) (b : Binding) : State × Word :=
  let c := s.chip p
  let st := ((c.regionAt b.home k.region).map RegionCopy.state).getD 0
  if st ≠ 0 && st ≠ 4 then (s, c.fitStatus codeReject 4)
  else match c.imageAddrBad k.b with
    | some e => (s, e)
    | none =>
      let h := s.imageRead p k k.b.toNat 64
      match h.2 with
      | .error e => (h.1, e)
      | .ok head =>
        let n := ofLe head
        let word := fld n 0 32
        if imageHeadBad n then (h.1, c.fitStatus codeReject 5)
        else
          let r := h.1.imageRead p k (k.b.toNat + 64) (4 * imageWeights word)
          match r.2 with
          | .error e => (r.1, e)
          | .ok bs =>
            let sur : Surrogate := { ni := fld word 0 3 + 1, no := fld word 3 2 + 1, h1 := fld word 5 6, h2 := fld word 11 6,
                                     w := wordsOf (imageWeights word) bs }
            (r.1.modChip p (fun c => { c with bindings := tset c.bindings k.region { b with loaded := true } }.onCopies k.region
              (fun q => { q with sur := some sur })), 0)

/-- The layout word of a surrogate. -/
def Surrogate.word (s : Surrogate) : Nat := s.ni - 1 + 8 * (s.no - 1) + 2 ^ 5 * s.h1 + 2 ^ 11 * s.h2

/-- Op 3 (R344). -/
def State.ctlSave (s : State) (p : Nat) (k : ApxOp) (b : Binding) : State × Word :=
  let c := s.chip p
  match ((c.regionAt b.home k.region).bind RegionCopy.sur).filter (fun _ => b.loaded) with
  | none => (s, c.fitStatus codeReject 1)
  | some sur =>
    match c.imageAddrBad k.b with
    | some e => (s, e)
    | none => s.imageWrite p k k.b.toNat (leBytes 64 sur.word ++ sur.w.flatMap (fun v => leBytes 4 v.toNat))

/-- APX_CTL_COMPLETE (R304, R355): the op is performed, the record written, and d receives 0 or the status word. REJECT
is a value that the wave reads (16_programs_engines.md, the outcome `Launch A in fixed gear`); an image that op 2 or op 3 cannot reach is a failed access, with
an error bit and mask (R68). A region withdrawn meanwhile refuses it. -/
def execApxCtlComplete (p idx : Nat) (s : State) : Host.Outcome State Fault Refusal :=
  .next (s.unitStep (match (s.chip p).apxOps[idx]? with
    | none => s
    | some k =>
      let s0 := s.modChip p (fun c => { c with apxOps := c.apxOps.eraseIdx idx })
      let c := s0.chip p
      let r := match c.binding? k.region with
        | none => (s0, c.fitStatus codeReject 1)
        | some b =>
          match k.op with
          | 0 => let v := c.ctlState k b
                 (s0.setChip p v.1, v.2)
          | 1 => let v := c.ctlRegister k b
                 (s0.setChip p v.1, v.2)
          | 2 => s0.ctlLoad p k b
          | _ => s0.ctlSave p k b
      r.1.modChip p (fun c =>
        let st := (((c.binding? k.region).bind (fun b => c.regionAt b.home k.region)).map RegionCopy.state).getD 0
        let res : LaneRes := if r.2 = 0 || fld r.2.toNat 24 8 = codeReject then .ok [r.2] else .fail r.2
        ((c.record k.cluster (some k.grow) (BitVec.ofNat 32 k.region) (BitVec.ofNat 32 st) r.2 4 0).allDone k.prod res).landProducer k.prod)))

/-- The weights of a surrogate after an uncorrectable error: undefined until the next op 2 (R354). -/
def Surrogate.wreck (tick : Nat) (s : Surrogate) : Surrogate :=
  { s with w := (List.range s.w.length).map (fun i => Config.freeWord (tick * 2 ^ 20 + i)) }

/-- FIT_UNCORRECTABLE (R354): an error while the oldest invocation is evaluated delivers a status word into its lanes; in every case the region is
forced to OFF, with a record. The weights are undefined in the invocations that wait, too. -/
def execFitUncorrectable (p cluster region : Nat) (evaluating : Bool) (s : State) : Host.Outcome State Fault Refusal :=
  let f := ((s.chip p).cluster cluster).fit
  let hit := f.queue.head?.filter (fun q => evaluating && q.region = region)
  .next (match (s.chip p).regionAt cluster region with
    | none => s
    | some r =>
      if evaluating && hit.isNone then s
      else s.modChip p (fun c =>
        let st := c.fitStatus codePoison 6
        let c1 := match hit with
          | some q => ((lanesOf q.lanes).foldl (fun (c : Chip) k => c.laneDone q.prod k (.fail st))
              (c.setFit cluster { f with queue := f.queue.drop 1 })).landProducer q.prod
          | none => c
        let r1 := { r with sur := r.sur.map (Surrogate.wreck s.tick) }
        let f1 := (c1.cluster cluster).fit
        let c2 := c1.setFit cluster { f1 with queue := f1.queue.map (fun (q : Invocation) =>
          if q.region = region then { q with sur := q.sur.wreck s.tick } else q) }
        ((c2.setRegion cluster region { r1.off with nextPair := 0 }).logEvent 4 1 (3 * 2 ^ 12 + cluster) 0 st).stateRecord cluster region
          r.state 0 (hit.map Invocation.grow) st))

end Sys2Proof.Machine
end

