-- ==== Sys2Proof/Machine/Reliab.lean ====
section
/-! DEFINITION. Detected errors of memory (R496 to R499, R503). -/

namespace Sys2Proof.Machine

open Sys2Proof

/-- PATROL_SCRUB (R499): a corrected line is logged in class 1; an uncorrectable one is poisoned and logged in class 2. -/
def execPatrolScrub (p line : Nat) (found : ScrubResult) (s : State) : Host.Outcome State Fault Refusal :=
  .next (s.modChip p (fun c => match found with
    | .clean => c
    | .corrected => c.logCorrected 1 (lineVault line) (line * 128)
    | .uncorrectable => (c.poisonLine line).logEvent 2 1 (lineVault line) (line * 128) 0))

/-- LINE_CRC_RESEND (R496): the line is sent again; a second mismatch poisons it. Class 14. DESIGN CHOICE: STATUS is then what a load of it receives (R502). -/
def execLineCrcResend (p line : Nat) (second : Bool) (s : State) : Host.Outcome State Fault Refusal :=
  .next (s.modChip p (fun c =>
    if second then (c.poisonLine line).logEvent 14 1 (lineVault line) (line * 128) (c.poisonStatus 0) else c.logEvent 14 0 (lineVault line) (line * 128) 0))

/-- The address of the line of a vault in which a corrected error of DRAM was found, which the event does not name: any of them (R461, R502). -/
def eccAddr (tick vault : Nat) : Nat :=
  let n := Config.eccLine tick
  ((n / 32 % (dramBytes / 2 ^ 19) * 128 + vault % 128) * 32 + n % 32) * 128

/-- CORRECTED_ERROR (R503): classes 1, 3 and 7 are counted and logged at a limited rate. -/
def execCorrectedError (p cls loc : Nat) (s : State) : Host.Outcome State Fault Refusal :=
  .next (if cls = 1 || cls = 3 || cls = 7 then s.modChip p (fun c => c.logCorrected cls loc (if cls = 1 then eccAddr s.tick loc else 0)) else s)

end Sys2Proof.Machine
end

