-- ==== Sys2Proof/Machine/Special.lean ====
section
/-! DEFINITION. The special functions (R197, R198): exact where the value is rational, else enclosed between two fixed-point numbers
that round alike. A function value that is not rational is never a rounding boundary, so an enclosure that is narrow enough
decides; where it did not, the middle would be rounded (`SfVal.round`). -/

namespace Sys2Proof.Machine

open Sys2Proof

/-! ## Fixed-point series -/

/-- floor(√n), bit by bit; `bits` bounds the root. -/
def isqrt (bits n : Nat) : Nat :=
  (List.range bits).foldr (fun i r => if (r + 2 ^ i) * (r + 2 ^ i) ≤ n then r + 2 ^ i else r) 0

/-- The sum of t·x^(2j) / (k + 2j) over j, signs alternating where `alt`, at scale 2^p; `x2` is x² at that scale. -/
def atanSeries (alt : Bool) (p : Nat) (x2 : Nat) : Nat → Nat → Nat → Int
  | 0, _, _ => 0
  | fuel + 1, t, k =>
    (t / k : Nat) + (if alt then -1 else 1) * atanSeries alt p x2 fuel (t * x2 / 2 ^ p) (k + 2)

/-- The arctangent of 1 / m at scale 2^p. -/
def atanInv (alt : Bool) (p m : Nat) : Int := atanSeries alt p (2 ^ p / (m * m)) (p / 3 + 4) (2 ^ p / m) 1

/-- ln 2 at scale 2^p: twice the inverse hyperbolic tangent of 1/3. -/
def ln2Fix (p : Nat) : Nat := (2 * atanInv false p 3).toNat

/-- π at scale 2^p, by Machin's sum. -/
def piFix (p : Nat) : Nat := (16 * atanInv true p 5 - 4 * atanInv true p 239).toNat

/-- The sum of t·x^j / (k (k + 1) …) over j, every term divided by the next number: the exponential of x / 2^p from t = 2^p, k = 1. -/
def expSeries (p x : Nat) : Nat → Nat → Nat → Nat
  | 0, _, _ => 0
  | fuel + 1, t, k => t + expSeries p x fuel (t * x / 2 ^ p / k) (k + 1)

/-- e^(x / 2^p) at scale 2^p for 0 ≤ x / 2^p < 1. -/
def expFix (p x : Nat) : Nat := expSeries p x (p / 3 + 4) (2 ^ p) 1

/-- The alternating sum of t·x^(2j) / (k (k + 1)) …: the sine from t = x, k = 2, the cosine from t = 2^p, k = 1. -/
def trigSeries (p x2 : Nat) : Nat → Nat → Nat → Int
  | 0, _, _ => 0
  | fuel + 1, t, k => (t : Int) - trigSeries p x2 fuel (t * x2 / 2 ^ p / (k * (k + 1))) (k + 2)

/-- The sine of x / 2^p at scale 2^p for 0 ≤ x / 2^p < 2. -/
def sinFix (p x : Nat) : Int := trigSeries p (x * x / 2 ^ p) (p / 5 + 4) x 2

/-- The cosine of x / 2^p at scale 2^p for 0 ≤ x / 2^p < 2. -/
def cosFix (p x : Nat) : Int := trigSeries p (x * x / 2 ^ p) (p / 5 + 4) (2 ^ p) 1

/-! ## Enclosures -/

/-- A function value: known exactly, or within `err` units of y × 2^-p. -/
inductive SfVal
  | exact (v : FNum)
  | near (p : Nat) (y : Int) (err : Nat)
  deriving DecidableEq, Repr

/-- Bits of the fixed point of the functions with a small argument. -/
def sfP : Nat := 448

/-- √(n / d) for positive n and d: exact where the root of the scaled quotient is, else between two neighbours. -/
def sqrtRatio (n d : Nat) (e : Int) : SfVal :=
  let odd := e % 2 ≠ 0
  let n := if odd then 2 * n else n
  let h := (if odd then e - 1 else e) / 2
  let s := 2 * (60 + Nat.log2 d)
  let q := n * 2 ^ s / d
  let r := isqrt (Nat.log2 q / 2 + 1) q
  let h' := h - (s / 2 : Nat)
  if r * r * d = n * 2 ^ s then .exact (.fin { n := r, d := 1, e := h' })
  else .exact (.fin { n := 2 * r + 1, d := 1, e := h' - 1 })

/-- 2^(n × 2^e). -/
def exp2Val (n : Int) (e : Int) : SfVal :=
  if 0 ≤ e then
    let k := n * 2 ^ Min.min e.toNat 12
    let k := if 400 < k || 12 < e && 0 < n then 400 else if k < -400 || 12 < e then -400 else k
    .exact (.fin { n := 1, d := 1, e := k })
  else
    let den : Int := 2 ^ (-e).toNat
    if n % den = 0 then
      let k := n / den
      .exact (.fin { n := 1, d := 1, e := if 400 < k then 400 else if k < -400 then -400 else k })
    else
      let k := n / den
      let f := (n % den).toNat
      let t := f * ln2Fix sfP / den.toNat
      if 400 < k then .exact (.fin { n := 1, d := 1, e := 400 })
      else if k < -400 then .exact (.fin { n := 1, d := 1, e := -400 })
      else .near (sfP - k).toNat (expFix sfP t) (2 ^ 20)

/-- log2(n × 2^e) of a positive number. -/
def log2Val (n : Nat) (e : Int) : SfVal :=
  let l := Nat.log2 n
  if n = 2 ^ l then .exact (FNum.ofInt (e + l))
  else
    let up := 99 * 2 ^ l < 70 * n
    let a := 2 ^ (if up then l + 1 else l)
    let k := e + (if up then l + 1 else l : Nat)
    let neg := n < a
    let z := (if neg then a - n else n - a) * 2 ^ sfP / (n + a)
    let s := 2 * atanSeries false sfP (z * z / 2 ^ sfP) (sfP / 4) z 1
    let r := s * 2 ^ sfP / (ln2Fix sfP : Int)
    .near sfP (k * 2 ^ sfP + (if neg then -r else r)) (2 ^ 20)

/-- tanh(n × 2^e) of a positive number. -/
def tanhVal (n : Nat) (e : Int) : SfVal :=
  if 6 ≤ (Nat.log2 n : Int) + e then .near sfP (2 ^ sfP - 2 ^ (sfP - 64)) (2 ^ 20)
  else
    let y := n * 2 ^ (e + 1 + sfP).toNat
    let l := ln2Fix sfP
    let k := y / l + 1
    let g := expFix sfP (k * l - y) / 2 ^ k
    .near sfP ((2 ^ sfP - g : Nat) * 2 ^ sfP / (2 ^ sfP + g : Nat)) (2 ^ 30)

/-- Bits of the fixed point of the trigonometric functions, whose argument reaches 2^128. -/
def trigP : Nat := 608

/-- The sine (`cosine` false) or cosine of a positive n × 2^e: reduced by quarter turns at every magnitude. -/
def trigVal (cosine : Bool) (n : Nat) (e : Int) : SfVal :=
  let x := n * 2 ^ (e + trigP).toNat
  let half := piFix trigP / 2
  let q := x / half
  let r := x % half
  let k := (q + (if cosine then 1 else 0)) % 4
  let v := if k % 2 = 0 then sinFix trigP r else cosFix trigP r
  .near trigP (if 2 ≤ k then -v else v) (2 ^ 160)

/-- Rounds a function value (R198): the common rounding of the ends of an enclosure, else that of its middle. UNVERIFIED: that no FP32 argument reaches the second
case. -/
def SfVal.round (sat : Bool) : SfVal → Nat × Bool
  | .exact v => roundToF .f32 v 0 sat 0
  | .near p y err =>
    let f := fun (n : Int) => roundToF .f32 (if n = 0 then .zero false else .fin { n := n, d := 1, e := -(p : Int) }) 0 sat 0
    if f (y - err) = f (y + err) then f (y + err) else f y

/-- The functions of R198 by variant (R197): the value at an operand, with the inputs of its table. -/
def sfVal (k : Nat) (v : FNum) : SfVal :=
  match k, v with
  | _, .nan => .exact .nan
  | 0, .inf s => .exact (.zero s)
  | 0, .zero s => .exact (.inf s)
  | 0, .fin x => .exact (.fin (Ex.one.div x))
  | 1, .inf s => .exact (if s then .nan else .zero false)
  | 1, .zero s => .exact (.inf s)
  | 1, .fin x => if x.n < 0 then .exact .nan else sqrtRatio x.d x.n.natAbs (-x.e)
  | 2, .inf s => .exact (if s then .nan else .inf false)
  | 2, .zero s => .exact (.zero s)
  | 2, .fin x => if x.n < 0 then .exact .nan else sqrtRatio x.n.natAbs x.d x.e
  | 3, .inf s => .exact (if s then .zero false else .inf false)
  | 3, .zero _ => .exact (.fin Ex.one)
  | 3, .fin x => exp2Val x.n x.e
  | 4, .inf s => .exact (if s then .nan else .inf false)
  | 4, .zero _ => .exact (.inf true)
  | 4, .fin x => if x.n < 0 then .exact .nan else log2Val x.n.natAbs x.e
  | 5, .zero s => .exact (.zero s)
  | 5, .inf _ => .exact .nan
  | 5, .fin x =>
    if x.n < 0 then match trigVal false x.n.natAbs x.e with
      | .near p y err => .near p (-y) err
      | r => r
    else trigVal false x.n.natAbs x.e
  | 6, .zero _ => .exact (.fin Ex.one)
  | 6, .inf _ => .exact .nan
  | 6, .fin x => trigVal true x.n.natAbs x.e
  | _, .zero s => .exact (.zero s)
  | _, .inf s => .exact (.fin { Ex.one with n := if s then -1 else 1 })
  | _, .fin x => match tanhVal x.n.natAbs x.e with
    | .near p y err => .near p (if x.n < 0 then -y else y) err
    | r => r

/-- A special function of an FP32 encoding: the result and QSAT (R198). -/
def specialFn (k : Nat) (sat : Bool) (x : Word) : Nat × Bool := (sfVal k (fval .f32 x.toNat)).round sat

end Sys2Proof.Machine
end

