-- ==== Sys2Proof/Machine/SpecialFn.lean ====
section
/-! DEFINITION. Special functions, major opcode 0x40 (R197, R198). -/

namespace Sys2Proof.Machine

open Sys2Proof

/-- The shape of the special functions: variant `k` of R197. -/
def specialOp (k : Nat) : Iss → State → Eff :=
  onWave (fun x =>
    let r := fun l => specialFn k x.o.hs (x.word .a l 0)
    (x.put 1 (fun l _ => BitVec.ofNat 32 (r l).1) x.w).raiseIf (x.outLanes.any (fun l => (r l).2)) flagQsat)

/-- `rcp` (R198). -/
def execRcp (o : Ops) (s : State) : Host.Outcome State Fault Refusal := issue (formSf true o) o s (specialOp 0)
/-- `rsq` (R198). -/
def execRsq (o : Ops) (s : State) : Host.Outcome State Fault Refusal := issue (formSf true o) o s (specialOp 1)
/-- `sqrt` (R198). -/
def execSqrt (o : Ops) (s : State) : Host.Outcome State Fault Refusal := issue (formSf false o) o s (specialOp 2)
/-- `exp2` (R198). -/
def execExp2 (o : Ops) (s : State) : Host.Outcome State Fault Refusal := issue (formSf true o) o s (specialOp 3)
/-- `log2` (R198). -/
def execLog2 (o : Ops) (s : State) : Host.Outcome State Fault Refusal := issue (formSf false o) o s (specialOp 4)
/-- `sin` (R198). -/
def execSin (o : Ops) (s : State) : Host.Outcome State Fault Refusal := issue (formSf false o) o s (specialOp 5)
/-- `cos` (R198). -/
def execCos (o : Ops) (s : State) : Host.Outcome State Fault Refusal := issue (formSf false o) o s (specialOp 6)
/-- `tanh` (R198). -/
def execTanh (o : Ops) (s : State) : Host.Outcome State Fault Refusal := issue (formSf false o) o s (specialOp 7)

end Sys2Proof.Machine
end

