-- ==== Sys2Proof/Machine/Dispatch.lean ====
section
/-! DEFINITION. One arm per operation and event: each is one direct call of its meaning. -/

namespace Sys2Proof.Machine

open Sys2Proof

/-- The meaning of every operation and event of the table. -/
def exec (i : Instr) (s : State) : Host.Outcome State Fault Refusal :=
  match i with
  | .add o => Sys2Proof.Machine.execAdd o s
  | .sub o => Sys2Proof.Machine.execSub o s
  | .mul o => Sys2Proof.Machine.execMul o s
  | .mulHi o => Sys2Proof.Machine.execMulHi o s
  | .mad o => Sys2Proof.Machine.execMad o s
  | .madHi o => Sys2Proof.Machine.execMadHi o s
  | .min o => Sys2Proof.Machine.execMin o s
  | .max o => Sys2Proof.Machine.execMax o s
  | .abs o => Sys2Proof.Machine.execAbs o s
  | .neg o => Sys2Proof.Machine.execNeg o s
  | .add64 o => Sys2Proof.Machine.execAdd64 o s
  | .kadd o => Sys2Proof.Machine.execKadd o s
  | .lea o => Sys2Proof.Machine.execLea o s
  | .and o => Sys2Proof.Machine.execAnd o s
  | .or o => Sys2Proof.Machine.execOr o s
  | .xor o => Sys2Proof.Machine.execXor o s
  | .not o => Sys2Proof.Machine.execNot o s
  | .shl o => Sys2Proof.Machine.execShl o s
  | .shr o => Sys2Proof.Machine.execShr o s
  | .sar o => Sys2Proof.Machine.execSar o s
  | .rot o => Sys2Proof.Machine.execRot o s
  | .clz o => Sys2Proof.Machine.execClz o s
  | .popc o => Sys2Proof.Machine.execPopc o s
  | .brev o => Sys2Proof.Machine.execBrev o s
  | .bfx o => Sys2Proof.Machine.execBfx o s
  | .bfi o => Sys2Proof.Machine.execBfi o s
  | .cmp o => Sys2Proof.Machine.execCmp o s
  | .sel o => Sys2Proof.Machine.execSel o s
  | .mov o => Sys2Proof.Machine.execMov o s
  | .movi o => Sys2Proof.Machine.execMovi o s
  | .fadd o => Sys2Proof.Machine.execFadd o s
  | .fmul o => Sys2Proof.Machine.execFmul o s
  | .ffma o => Sys2Proof.Machine.execFfma o s
  | .fmin o => Sys2Proof.Machine.execFmin o s
  | .fmax o => Sys2Proof.Machine.execFmax o s
  | .fcmp o => Sys2Proof.Machine.execFcmp o s
  | .fscale o => Sys2Proof.Machine.execFscale o s
  | .ffma2 o => Sys2Proof.Machine.execFfma2 o s
  | .fcvt o => Sys2Proof.Machine.execFcvt o s
  | .hfma2 o => Sys2Proof.Machine.execHfma2 o s
  | .dot4 o => Sys2Proof.Machine.execDot4 o s
  | .rcp o => Sys2Proof.Machine.execRcp o s
  | .rsq o => Sys2Proof.Machine.execRsq o s
  | .sqrt o => Sys2Proof.Machine.execSqrt o s
  | .exp2 o => Sys2Proof.Machine.execExp2 o s
  | .log2 o => Sys2Proof.Machine.execLog2 o s
  | .sin o => Sys2Proof.Machine.execSin o s
  | .cos o => Sys2Proof.Machine.execCos o s
  | .tanh o => Sys2Proof.Machine.execTanh o s
  | .shfl o => Sys2Proof.Machine.execShfl o s
  | .vote o => Sys2Proof.Machine.execVote o s
  | .rfal o => Sys2Proof.Machine.execRfal o s
  | .redW o => Sys2Proof.Machine.execRedW o s
  | .scan o => Sys2Proof.Machine.execScan o s
  | .matchLanes o => Sys2Proof.Machine.execMatchLanes o s
  | .famax o => Sys2Proof.Machine.execFamax o s
  | .fqb o => Sys2Proof.Machine.execFqb o s
  | .kcg o => Sys2Proof.Machine.execKcg o s
  | .dmask o => Sys2Proof.Machine.execDmask o s
  | .ld o => Sys2Proof.Machine.execLd o s
  | .ldu o => Sys2Proof.Machine.execLdu o s
  | .ldByp o => Sys2Proof.Machine.execLdByp o s
  | .lduByp o => Sys2Proof.Machine.execLduByp o s
  | .st o => Sys2Proof.Machine.execSt o s
  | .lds o => Sys2Proof.Machine.execLds o s
  | .sts o => Sys2Proof.Machine.execSts o s
  | .atom o => Sys2Proof.Machine.execAtom o s
  | .atomL o => Sys2Proof.Machine.execAtomL o s
  | .red o => Sys2Proof.Machine.execRed o s
  | .gath o => Sys2Proof.Machine.execGath o s
  | .ratom o => Sys2Proof.Machine.execRatom o s
  | .fence o => Sys2Proof.Machine.execFence o s
  | .acq o => Sys2Proof.Machine.execAcq o s
  | .rel o => Sys2Proof.Machine.execRel o s
  | .bar o => Sys2Proof.Machine.execBar o s
  | .pbarInit o => Sys2Proof.Machine.execPbarInit o s
  | .pbarArr o => Sys2Proof.Machine.execPbarArr o s
  | .pbarWait o => Sys2Proof.Machine.execPbarWait o s
  | .pbarTest o => Sys2Proof.Machine.execPbarTest o s
  | .cpy o => Sys2Proof.Machine.execCpy o s
  | .put o => Sys2Proof.Machine.execPut o s
  | .get o => Sys2Proof.Machine.execGet o s
  | .putRed o => Sys2Proof.Machine.execPutRed o s
  | .getRed o => Sys2Proof.Machine.execGetRed o s
  | .ticket o => Sys2Proof.Machine.execTicket o s
  | .wwait o => Sys2Proof.Machine.execWwait o s
  | .wwaitTest o => Sys2Proof.Machine.execWwaitTest o s
  | .wfree o => Sys2Proof.Machine.execWfree o s
  | .wpost o => Sys2Proof.Machine.execWpost o s
  | .obitGive o => Sys2Proof.Machine.execObitGive o s
  | .obitWait o => Sys2Proof.Machine.execObitWait o s
  | .obitTest o => Sys2Proof.Machine.execObitTest o s
  | .resAlloc o => Sys2Proof.Machine.execResAlloc o s
  | .resPin o => Sys2Proof.Machine.execResPin o s
  | .resDemote o => Sys2Proof.Machine.execResDemote o s
  | .resEvict o => Sys2Proof.Machine.execResEvict o s
  | .resFree o => Sys2Proof.Machine.execResFree o s
  | .resPrio o => Sys2Proof.Machine.execResPrio o s
  | .qemit o => Sys2Proof.Machine.execQemit o s
  | .mwld o => Sys2Proof.Machine.execMwld o s
  | .mcb o => Sys2Proof.Machine.execMcb o s
  | .mld o => Sys2Proof.Machine.execMld o s
  | .mst o => Sys2Proof.Machine.execMst o s
  | .mzero o => Sys2Proof.Machine.execMzero o s
  | .mma o => Sys2Proof.Machine.execMma o s
  | .mmaT o => Sys2Proof.Machine.execMmaT o s
  | .mdrain o => Sys2Proof.Machine.execMdrain o s
  | .mstat o => Sys2Proof.Machine.execMstat o s
  | .msync o => Sys2Proof.Machine.execMsync o s
  | .collAllreduce o => Sys2Proof.Machine.execCollAllreduce o s
  | .collRedscat o => Sys2Proof.Machine.execCollRedscat o s
  | .collAllgath o => Sys2Proof.Machine.execCollAllgath o s
  | .collBcast o => Sys2Proof.Machine.execCollBcast o s
  | .collAlltoall o => Sys2Proof.Machine.execCollAlltoall o s
  | .collWait o => Sys2Proof.Machine.execCollWait o s
  | .collAbort o => Sys2Proof.Machine.execCollAbort o s
  | .nop o => Sys2Proof.Machine.execNop o s
  | .br o => Sys2Proof.Machine.execBr o s
  | .brx o => Sys2Proof.Machine.execBrx o s
  | .call o => Sys2Proof.Machine.execCall o s
  | .ret o => Sys2Proof.Machine.execRet o s
  | .exit o => Sys2Proof.Machine.execExit o s
  | .trap o => Sys2Proof.Machine.execTrap o s
  | .trapRes o => Sys2Proof.Machine.execTrapRes o s
  | .trapRet o => Sys2Proof.Machine.execTrapRet o s
  | .brk o => Sys2Proof.Machine.execBrk o s
  | .getsr o => Sys2Proof.Machine.execGetsr o s
  | .setsr o => Sys2Proof.Machine.execSetsr o s
  | .yield o => Sys2Proof.Machine.execYield o s
  | .cyc o => Sys2Proof.Machine.execCyc o s
  | .icinv o => Sys2Proof.Machine.execIcinv o s
  | .icinvChip o => Sys2Proof.Machine.execIcinvChip o s
  | .fgSync o => Sys2Proof.Machine.execFgSync o s
  | .fgClk o => Sys2Proof.Machine.execFgClk o s
  | .apxBegin o => Sys2Proof.Machine.execApxBegin o s
  | .apxEnd o => Sys2Proof.Machine.execApxEnd o s
  | .apxCtlState o => Sys2Proof.Machine.execApxCtlState o s
  | .apxCtlRegister o => Sys2Proof.Machine.execApxCtlRegister o s
  | .apxCtlLoad o => Sys2Proof.Machine.execApxCtlLoad o s
  | .apxCtlSave o => Sys2Proof.Machine.execApxCtlSave o s
  | .apxInval o => Sys2Proof.Machine.execApxInval o s
  | .apxStat o => Sys2Proof.Machine.execApxStat o s
  | .promotion p wid sl => Sys2Proof.Machine.execPromotion p wid sl s
  | .localityScoreShift p core => Sys2Proof.Machine.execLocalityScoreShift p core s
  | .throttlePermitExpiry p wid sl => Sys2Proof.Machine.execThrottlePermitExpiry p wid sl s
  | .longLatencyComplete p prod => Sys2Proof.Machine.execLongLatencyComplete p prod s
  | .loadMissComplete p prod => Sys2Proof.Machine.execLoadMissComplete p prod s
  | .storeAck p acc => Sys2Proof.Machine.execStoreAck p acc s
  | .orderedAtomicPerform p acc => Sys2Proof.Machine.execOrderedAtomicPerform p acc s
  | .copyUnitTransfer p cmd unit => Sys2Proof.Machine.execCopyUnitTransfer p cmd unit s
  | .copyCommandComplete p cmd => Sys2Proof.Machine.execCopyCommandComplete p cmd s
  | .ratomGroupComplete p net => Sys2Proof.Machine.execRatomGroupComplete p net s
  | .incastServe p cmd => Sys2Proof.Machine.execIncastServe p cmd s
  | .mwldPerform p core idx => Sys2Proof.Machine.execMwldPerform p core idx s
  | .mcbPerform p core idx => Sys2Proof.Machine.execMcbPerform p core idx s
  | .mldPerform p core idx => Sys2Proof.Machine.execMldPerform p core idx s
  | .mstPerform p core idx => Sys2Proof.Machine.execMstPerform p core idx s
  | .mzeroPerform p core idx => Sys2Proof.Machine.execMzeroPerform p core idx s
  | .mmaRow p core idx mismatches => Sys2Proof.Machine.execMmaRow p core idx mismatches s
  | .arrayUncorrectable p core idx => Sys2Proof.Machine.execArrayUncorrectable p core idx s
  | .mdrainPerform p core idx => Sys2Proof.Machine.execMdrainPerform p core idx s
  | .arrayCommandComplete p core idx => Sys2Proof.Machine.execArrayCommandComplete p core idx s
  | .collRankReady p blk cid => Sys2Proof.Machine.execCollRankReady p blk cid s
  | .collDecide p grow cid => Sys2Proof.Machine.execCollDecide p grow cid s
  | .collRankOutcome p blk cid => Sys2Proof.Machine.execCollRankOutcome p blk cid s
  | .ctrlCounterAdd p src => Sys2Proof.Machine.execCtrlCounterAdd p src s
  | .ctrlCounterSet p src => Sys2Proof.Machine.execCtrlCounterSet p src s
  | .ctrlStartRequest p acc => Sys2Proof.Machine.execCtrlStartRequest p acc s
  | .ctrlStartStore p acc => Sys2Proof.Machine.execCtrlStartStore p acc s
  | .hostStartRefused p vault atomicOp => Sys2Proof.Machine.execHostStartRefused p vault atomicOp s
  | .snop => Sys2Proof.Machine.execSnop s
  | .setq qd imm => Sys2Proof.Machine.execSetq qd imm s
  | .setqh qd imm => Sys2Proof.Machine.execSetqh qd imm s
  | .addq qd qs imm => Sys2Proof.Machine.execAddq qd qs imm s
  | .ldq qd qa off => Sys2Proof.Machine.execLdq qd qa off s
  | .stq qs qa off => Sys2Proof.Machine.execStq qs qa off s
  | .layout sl qa => Sys2Proof.Machine.execLayout sl qa s
  | .setix sl qa => Sys2Proof.Machine.execSetix sl qa s
  | .stepix sl dim => Sys2Proof.Machine.execStepix sl dim s
  | .fetch rc sl tgt => Sys2Proof.Machine.execFetch rc sl tgt s
  | .fetchs rc sl tgt sh sm1 => Sys2Proof.Machine.execFetchs rc sl tgt sh sm1 s
  | .tilew rc sl qa qw => Sys2Proof.Machine.execTilew rc sl qa qw s
  | .copy rc qd qs qn => Sys2Proof.Machine.execCopy rc qd qs qn s
  | .target tgt qh qm => Sys2Proof.Machine.execTarget tgt qh qm s
  | .arm c thr => Sys2Proof.Machine.execArm c thr s
  | .cadd c e v => Sys2Proof.Machine.execCadd c e v s
  | .cset c e v => Sys2Proof.Machine.execCset c e v s
  | .loop qd disp => Sys2Proof.Machine.execLoop qd disp s
  | .brz qd disp => Sys2Proof.Machine.execBrz qd disp s
  | .jump qa => Sys2Proof.Machine.execJump qa s
  | .arriveCmd qa => Sys2Proof.Machine.execArriveCmd qa s
  | .sfence => Sys2Proof.Machine.execSfence s
  | .signal rc qv qa off => Sys2Proof.Machine.execSignal rc qv qa off s
  | .halt rc => Sys2Proof.Machine.execHalt rc s
  | .armedRelease p vault ctx => Sys2Proof.Machine.execArmedRelease p vault ctx s
  | .deliverSlice p vault ctx cmd rank => Sys2Proof.Machine.execDeliverSlice p vault ctx cmd rank s
  | .tilewWrite p vault ctx cmd => Sys2Proof.Machine.execTilewWrite p vault ctx cmd s
  | .contextEnd p vault ctx => Sys2Proof.Machine.execContextEnd p vault ctx s
  | .eventQueueRecord p idx => Sys2Proof.Machine.execEventQueueRecord p idx s
  | .cccRecordProcess p cluster => Sys2Proof.Machine.execCccRecordProcess p cluster s
  | .fitInvocationEval p cluster => Sys2Proof.Machine.execFitInvocationEval p cluster s
  | .fitInputTake p cluster => Sys2Proof.Machine.execFitInputTake p cluster s
  | .fitValidation p cluster region => Sys2Proof.Machine.execFitValidation p cluster region s
  | .sgdStep p cluster region => Sys2Proof.Machine.execSgdStep p cluster region s
  | .apxCtlComplete p idx => Sys2Proof.Machine.execApxCtlComplete p idx s
  | .fitUncorrectable p cluster region evaluating => Sys2Proof.Machine.execFitUncorrectable p cluster region evaluating s
  | .fgTurn p wid sl => Sys2Proof.Machine.execFgTurn p wid sl s
  | .quantumCommit grow => Sys2Proof.Machine.execQuantumCommit grow s
  | .notifyWrite p half q v => Sys2Proof.Machine.execNotifyWrite p half q v s
  | .packetFetch p half q => Sys2Proof.Machine.execPacketFetch p half q s
  | .launchPacket p half q n => Sys2Proof.Machine.execLaunchPacket p half q n s
  | .barrierPacket p half q n => Sys2Proof.Machine.execBarrierPacket p half q n s
  | .barrierRecheck p half q n => Sys2Proof.Machine.execBarrierRecheck p half q n s
  | .signalPacket p half q n hostAtomics => Sys2Proof.Machine.execSignalPacket p half q n hostAtomics s
  | .copyPacket p half q n => Sys2Proof.Machine.execCopyPacket p half q n s
  | .packetRetire p half q n hostAtomics => Sys2Proof.Machine.execPacketRetire p half q n hostAtomics s
  | .cohortAdmit p cluster => Sys2Proof.Machine.execCohortAdmit p cluster s
  | .cohortVacate p cluster => Sys2Proof.Machine.execCohortVacate p cluster s
  | .stealRequest p core => Sys2Proof.Machine.execStealRequest p core s
  | .stealAnswer p idx => Sys2Proof.Machine.execStealAnswer p idx s
  | .binTimerExpiry p cluster bin => Sys2Proof.Machine.execBinTimerExpiry p cluster bin s
  | .gridChipFinish p grow rc => Sys2Proof.Machine.execGridChipFinish p grow rc s
  | .eventPropose p idx => Sys2Proof.Machine.execEventPropose p idx s
  | .proposalResend p idx => Sys2Proof.Machine.execProposalResend p idx s
  | .sequenceEvent idx => Sys2Proof.Machine.execSequenceEvent idx s
  | .eventDeliver p => Sys2Proof.Machine.execEventDeliver p s
  | .gapRequest p => Sys2Proof.Machine.execGapRequest p s
  | .standbyTick => Sys2Proof.Machine.execStandbyTick s
  | .standbyTakeover => Sys2Proof.Machine.execStandbyTakeover s
  | .heartbeatSend p g => Sys2Proof.Machine.execHeartbeatSend p g s
  | .heartbeatTimeout chip => Sys2Proof.Machine.execHeartbeatTimeout chip s
  | .applySubmit p => Sys2Proof.Machine.execApplySubmit p s
  | .applyFinish p => Sys2Proof.Machine.execApplyFinish p s
  | .applyBlocked p => Sys2Proof.Machine.execApplyBlocked p s
  | .applyFault p => Sys2Proof.Machine.execApplyFault p s
  | .applyFence p => Sys2Proof.Machine.execApplyFence p s
  | .applyChipLoss p => Sys2Proof.Machine.execApplyChipLoss p s
  | .applyJoin p => Sys2Proof.Machine.execApplyJoin p s
  | .applyDigest p => Sys2Proof.Machine.execApplyDigest p s
  | .digestPropose p point => Sys2Proof.Machine.execDigestPropose p point s
  | .rejoin p => Sys2Proof.Machine.execRejoin p s
  | .flitReceive p plane flit => Sys2Proof.Machine.execFlitReceive p plane flit s
  | .replayRequest p plane lack => Sys2Proof.Machine.execReplayRequest p plane lack s
  | .idleFlit p plane => Sys2Proof.Machine.execIdleFlit p plane s
  | .linkDown p plane => Sys2Proof.Machine.execLinkDown p plane s
  | .linkRetrain p plane trained => Sys2Proof.Machine.execLinkRetrain p plane trained s
  | .wr p net => Sys2Proof.Machine.execWr p net s
  | .ack p net => Sys2Proof.Machine.execAck p net s
  | .rd p net => Sys2Proof.Machine.execRd p net s
  | .rdd p net => Sys2Proof.Machine.execRdd p net s
  | .atReq p net => Sys2Proof.Machine.execAtReq p net s
  | .atr p net => Sys2Proof.Machine.execAtr p net s
  | .tk p net => Sys2Proof.Machine.execTk p net s
  | .tkr p net => Sys2Proof.Machine.execTkr p net s
  | .tkw p net => Sys2Proof.Machine.execTkw p net s
  | .tkg p net => Sys2Proof.Machine.execTkg p net s
  | .tka p net => Sys2Proof.Machine.execTka p net s
  | .clParameters p net => Sys2Proof.Machine.execClParameters p net s
  | .clData p net => Sys2Proof.Machine.execClData p net s
  | .clReady p net => Sys2Proof.Machine.execClReady p net s
  | .clDecision p net => Sys2Proof.Machine.execClDecision p net s
  | .clAbortRequest p net => Sys2Proof.Machine.execClAbortRequest p net s
  | .clLossNotice p net => Sys2Proof.Machine.execClLossNotice p net s
  | .evp net => Sys2Proof.Machine.execEvp net s
  | .ev p net => Sys2Proof.Machine.execEv p net s
  | .hb net => Sys2Proof.Machine.execHb net s
  | .rtq net => Sys2Proof.Machine.execRtq net s
  | .snq p net => Sys2Proof.Machine.execSnq p net s
  | .snd p net => Sys2Proof.Machine.execSnd p net s
  | .pageWalk p vault => Sys2Proof.Machine.execPageWalk p vault s
  | .faultRecordWrite p idx => Sys2Proof.Machine.execFaultRecordWrite p idx s
  | .fqansWrite p v => Sys2Proof.Machine.execFqansWrite p v s
  | .tlbinvPage p asid page => Sys2Proof.Machine.execTlbinvPage p asid page s
  | .tlbinvAsid p asid => Sys2Proof.Machine.execTlbinvAsid p asid s
  | .tlbinvAll p => Sys2Proof.Machine.execTlbinvAll p s
  | .tlbinvDone p => Sys2Proof.Machine.execTlbinvDone p s
  | .astbaseWrite p v => Sys2Proof.Machine.execAstbaseWrite p v s
  | .linePoison p line => Sys2Proof.Machine.execLinePoison p line s
  | .dbgctlNone p port v => Sys2Proof.Machine.execDbgctlNone p port v s
  | .dbgStop p port v => Sys2Proof.Machine.execDbgStop p port v s
  | .dbgResume p port v => Sys2Proof.Machine.execDbgResume p port v s
  | .dbgSnapshot p port v => Sys2Proof.Machine.execDbgSnapshot p port v s
  | .stepStop p wid => Sys2Proof.Machine.execStepStop p wid s
  | .semtasRead p port => Sys2Proof.Machine.execSemtasRead p port s
  | .semrelWrite p port => Sys2Proof.Machine.execSemrelWrite p port s
  | .hostLinkDown p port => Sys2Proof.Machine.execHostLinkDown p port s
  | .controlledWriteDenied p port off v => Sys2Proof.Machine.execControlledWriteDenied p port off v s
  | .chipReset p port cause => Sys2Proof.Machine.execChipReset p port cause s
  | .powerOn p => Sys2Proof.Machine.execPowerOn p s
  | .pcapWrite p port v => Sys2Proof.Machine.execPcapWrite p port v s
  | .fwupGo p port v => Sys2Proof.Machine.execFwupGo p port v s
  | .fwVerifyDone p image => Sys2Proof.Machine.execFwVerifyDone p image s
  | .joinctlGo p port v => Sys2Proof.Machine.execJoinctlGo p port v s
  | .attreqWrite p v => Sys2Proof.Machine.execAttreqWrite p v s
  | .attestationDone p => Sys2Proof.Machine.execAttestationDone p s
  | .mboxBindRegion p cmd => Sys2Proof.Machine.execMboxBindRegion p cmd s
  | .mboxWithdrawRegion p cmd => Sys2Proof.Machine.execMboxWithdrawRegion p cmd s
  | .mboxSetLres p cmd => Sys2Proof.Machine.execMboxSetLres p cmd s
  | .mboxSetPartition p cmd => Sys2Proof.Machine.execMboxSetPartition p cmd s
  | .mboxClearPoison p cmd => Sys2Proof.Machine.execMboxClearPoison p cmd s
  | .mboxCreateQueue p cmd => Sys2Proof.Machine.execMboxCreateQueue p cmd s
  | .mboxRemoveQueue p cmd => Sys2Proof.Machine.execMboxRemoveQueue p cmd s
  | .mboxRefused p cmd => Sys2Proof.Machine.execMboxRefused p cmd s
  | .registerWrite p port off v => Sys2Proof.Machine.execRegisterWrite p port off v s
  | .thermalThrottle p half => Sys2Proof.Machine.execThermalThrottle p half s
  | .thermalShutdown p half => Sys2Proof.Machine.execThermalShutdown p half s
  | .powerCapWithhold p => Sys2Proof.Machine.execPowerCapWithhold p s
  | .patrolScrub p line found => Sys2Proof.Machine.execPatrolScrub p line found s
  | .lineCrcResend p line second => Sys2Proof.Machine.execLineCrcResend p line second s
  | .correctedError p cls loc => Sys2Proof.Machine.execCorrectedError p cls loc s
  | .l1Replacement p core line => Sys2Proof.Machine.execL1Replacement p core line s
  | .yieldExpiry p wid sl => Sys2Proof.Machine.execYieldExpiry p wid sl s
  | .powerLoss p => Sys2Proof.Machine.execPowerLoss p s
  | .schedulerDivergence replica upset => Sys2Proof.Machine.execSchedulerDivergence replica upset s

end Sys2Proof.Machine
end

