-- ==== Sys2Proof/Machine/Placement.lean ====
section
/-! DEFINITION. A program placed from outside: a fetch line or a stream command in DRAM, the page tables and the address space that reach it,
and a grid of one block of one wave, or a stream context of it, that stands at it. The log says how a program comes to run from reset. -/

namespace Sys2Proof.Machine

open Sys2Proof

/-- `nop` (R149): every operand absent, guard p7. -/
def nopWord : Nat := 0xC0070C0300C0300000000000

/-- A fetch line whose first slot holds `x` and whose others hold `nop`, with check point 0 and its parities (R128, R129). -/
def lineOf (x : Nat) : Nat :=
  let slot := fun (k : Nat) => if k = 0 then x % 2 ^ 96 else nopWord
  let w0 := 1 + ((List.range 5).map (fun k => b2n (parity 96 (slot k)) * 2 ^ (9 + k))).sum
  let w := w0 + b2n (parity 14 w0) * 2 ^ 14
  ((List.range 5).map (fun k => slot k * 2 ^ (96 * k))).sum + w * 2 ^ 480

/-- Where the placed words stand, physically and in their address space. -/
def placedAt : Nat := 0x10000

/-- A launch record of one block of one wave, with every register of a wave, whose code and handler stand at
the placed words. -/
def placedKern : LaunchRec :=
  { code := BitVec.ofNat 64 placedAt, trapPc := BitVec.ofNat 64 placedAt, hspill := 0x40000, nblocks := 1, csize := 1, tandem := false,
    fgear := false, fuseL1 := false, nothrot := false, pcoll := false, latency := false, gang := false, restart := false, lsize := 4096,
    acc := 0, narg := 0, nwin := 0, nbin := 0, rmir := 0, key := 0, bintab := 0,
    stages := [{ waves := 1, L := 256, D := 128, U := 64, prio := 0, heap := 8, entry := placedAt }], wins := [], args := [] }

/-- The wave that stands at the placed words. -/
def placedWave : Wave :=
  newWave 0 0 0 0 0 0 { waves := 1, L := 256, D := 128, U := 64, prio := 0, heap := 8, entry := placedAt } [] 0

/-- A package that runs the placed wave: bytes `bs` at `placedAt`, an address space 1 whose first GiB is DRAM from 0 on, and the translation
in the TLBs of core 0 and of its cluster. -/
def Chip.placed (c : Chip) (bs : List Byte) : Chip :=
  let put := fun (m : Memory) (a v : Nat) => memPut m a (leBytes 8 v)
  let tables := put (put (put c.dram 0x80008 0x20001) 0x20000 0x21001) 0x21000 0x6000000000000003
  let run : GridRun := { grow := 0, ggen := 0, asid := 1, origin := c.chipId, kern := placedKern, recAddr := 0, live := true }
  let block : Block :=
    { grow := 0, block := 0, cohort := 0, crank := 0, core := 0, tandem := false, lsize := 4096, acc := 0, mem := [], folMem := [], bars := [],
      waves := [0], node := none, saved := none, ended := false }
  let k := c.core 0
  let u := c.cluster 0
  let e : TlbEntry := { asid := 1, base := 0, log2 := 30, pa := 0, w := true, x := true, host := false }
  { c with
      dram := memPut tables placedAt bs, astbase := 0x80001, grids := tset c.grids 0 run, blocks := tset c.blocks 0 block,
      waves := tset c.waves 0 placedWave,
      cores := tset c.cores 0 { k with icache := [], tlb := e :: k.tlb }
      clusters := tset c.clusters 0 { u with l2tlb := e :: u.l2tlb } }

/-- The context that stands at the placed command. -/
def placedCtx : Ctx := { Ctx.free with busy := true, ptr := BitVec.ofNat 64 placedAt, asid := 1 }

/-- Places a wave instruction, or with 64 bits a stream command, so that the next step performs it. -/
def State.place (s : State) (nbits w : Nat) : State :=
  let c := s.chip 0
  if nbits = 64 then
    let c1 := c.placed (leBytes 8 w)
    { s.setChip 0 (c1.setCtx 0 0 placedCtx) with inputs := .stream 0 0 0 :: s.inputs }
  else
    { s.setChip 0 (c.placed (leBytes 64 (lineOf w))) with inputs := .issue { pkg := 0, wid := 0, slot := .A, half := .single } :: s.inputs }

end Sys2Proof.Machine
end

