-- ==== Sys2Proof/Machine/Step.lean ====
section
/-! DEFINITION. One step of the pod: the next input from outside, or what the machine does of its own accord. -/

namespace Sys2Proof.Machine

open Sys2Proof

/-- One step: an input from outside first, else what is chosen among what may happen; time passes beside it. -/
def step (s : State) : Host.Outcome State Fault Refusal :=
  match s.inputs with
  | x :: r => perform exec { s.passTime with inputs := r } x
  | [] =>
    match chooseNext s with
    | some x => perform exec s.passTime x
    | none => .next s.passTime

/-- Places an instruction so that the next step fetches and runs it. -/
def State.withFetchWord (s : State) (nbits w : Nat) : State := s.place nbits w

end Sys2Proof.Machine
end

