-- ==== Sys2Proof/Safety.lean ====
section
/-! DEFINITION. The terms in which claims are stated: a step that goes on, an operation that issues with nothing in its way, the state that its
own effect leaves, and the invariants. -/

namespace Sys2Proof

/-- A step goes on: it ends in no fault and no refusal. -/
def Machine.State.goesOn (s : Machine.State) : Prop := ∃ t, Machine.step s = .next t

namespace Machine

/-! ## An operation with nothing in its way -/

/-- Whether the operation of `x` completes at once as far as the operands, the path and its successor go: it is not waiting, its operands
pass every check (R39, R56, R65, R68, R69), no path stands in the heap (R27), and the path does not step to a check point, or is in handler
mode (R26, R280). -/
def Iss.calm (x : Iss) (s : State) : Bool :=
  !x.q.waiting && decide (x.check = .ready) && x.w.heap.isEmpty && x.w.heapRes == 0 &&
  (!x.ends || x.w.hmode || !s.cpOf x.p x.w x.nextPc)

/-- The path of `x` after the word: it falls through, in its line as long as that holds the next slot (R28, R131, R132); the first operation of a
pair moves no PC while the second is to come (R146). -/
def Iss.onward (x : Iss) : Path :=
  if x.ends then x.q.goTo x.nextPc else { x.q with wait := .none, ord := false }

/-- What an issued operation does to its wave beside its effect: it counts on the logical clock in fixed gear (R357), the promotions of its slot are zero
(R39) and its turn is over, but for the first operation of a pair, which leaves the turn to the second (R359). -/
def Iss.tally (x : Iss) (fg : Bool) (w : Wave) : Wave := if x.ends then (w.count x.sl fg).endTurn x.sl else w.count x.sl fg

/-- The state after an operation whose whole effect is that its wave becomes `w`: the path of its slot falls through, and the operation is counted. -/
def Iss.after (x : Iss) (s : State) (w : Wave) : State :=
  { s.setChip x.p ((s.chip x.p).setWave x.wid (x.tally ((s.chip x.p).fgear x.w.grow) (w.setPath x.sl (some x.onward)))) with
    last := .completed }

/-! ## What writing a destination leaves -/

/-- Nothing but the registers and the flags of a wave has changed, with the check bits of its registers and what the cycle notes of its flags. -/
def Wave.RegOnly (w w' : Wave) : Prop :=
  w' = { w with v := w'.v, s := w'.s, p := w'.p, i := w'.i, h := w'.h, soft := w'.soft, flags := w'.flags, raised := w'.raised }

/-- The lanes in which an operation writes its destination: a uniform register or a handle takes one value, that of the lowest active lane,
where the guard allows (R137, R157); a write to p7 is ignored (R53). -/
def Iss.wroteLanes (x : Iss) : List Nat :=
  match x.o.d with
  | .unif _ | .handle _ => if x.go then [x.low] else []
  | .lane _ | .indexed _ | .idx _ => lanesOf x.exe
  | .pred n => if n = 7 then [] else lanesOf x.exe
  | _ => []

/-- How many words of a destination of `n` registers its class holds: a predicate and an index one, a handle two. -/
def Iss.destWords (x : Iss) (n : Nat) : Nat :=
  match x.o.d with
  | .pred _ | .idx _ => Nat.min n 1
  | .handle _ => Nat.min n 2
  | _ => n

/-- A word as the destination's class holds it: a predicate takes whether it is not zero (R174). -/
def Iss.asHeld (x : Iss) (v : Word) : Word :=
  match x.o.d with
  | .pred _ => if v = 0 then 0 else 1
  | _ => v

/-- Word `j` of the destination operand in lane `k`, read from wave `w`. -/
def Iss.destWord (x : Iss) (w : Wave) (k j : Nat) : Word :=
  match x.o.d with
  | .lane n => (w.lreg (x.q.wbase + n.toNat + j)).vals.getD k 0
  | .unif n => (w.ureg (n.toNat + j)).val
  | .indexed i => (w.lreg (x.q.wbase + (x.r.ixNum i (x.o.disp .d) k).toNat + j)).vals.getD k 0
  | .pred n => if w.pbit n.toNat k then 1 else 0
  | .idx n => w.ireg n.toNat k
  | .handle n => if j = 0 then lo32 (w.hreg n.toNat) else hi32 (w.hreg n.toNat)
  | _ => 0

/-- Whether lane `k` of logical lane register `r` is written through a destination of `n` registers. -/
def Iss.hitsLane (x : Iss) (n r k : Nat) : Bool :=
  laneOn x.exe k && match x.o.d with
  | .lane d => decide (x.q.wbase + d.toNat ≤ r ∧ r < x.q.wbase + d.toNat + n)
  | .indexed i =>
    let b := x.q.wbase + (x.r.ixNum i (x.o.disp .d) k).toNat
    decide (b ≤ r ∧ r < b + n)
  | _ => false

/-- Whether uniform register `r` is written through a destination of `n` registers. -/
def Iss.hitsUnif (x : Iss) (n r : Nat) : Bool :=
  match x.o.d with
  | .unif d => x.go && decide (d.toNat ≤ r ∧ r < d.toNat + n)
  | _ => false

/-- The predicate, index or handle register that an operand names as a destination. -/
def softDest : Operand → Option SoftReg
  | .indexed _ => none
  | d => softOf d

/-- Wave `w` holds the words `val` in the destination of `n` registers, in the lanes that are written (p7 ignores a write, R53), and what the
wave of `x` holds in every other register, predicate, index and handle and in every lane that is not written; no register has an uncorrectable error
in a lane in which it had none. -/
def Iss.Holds (x : Iss) (w : Wave) (n : Nat) (val : Nat → Nat → Word) : Prop :=
  (∀ k ∈ x.wroteLanes, ∀ j < x.destWords n, x.destWord w k j = x.asHeld (val k j)) ∧
  (∀ r, ∀ k < 32, x.hitsLane n r k = false → (w.lreg r).vals.getD k 0 = (x.w.lreg r).vals.getD k 0) ∧
  (∀ r, x.hitsUnif n r = false → w.ureg r = x.w.ureg r) ∧
  (∀ r < 8, ∀ k < 32, x.o.d ≠ .pred (BitVec.ofNat 3 r) ∨ laneOn x.exe k = false → w.pbit r k = x.w.pbit r k) ∧
  (∀ r < 4, ∀ k < 32, x.o.d ≠ .idx (BitVec.ofNat 2 r) ∨ laneOn x.exe k = false → w.ireg r k = x.w.ireg r k) ∧
  (∀ r < 16, x.o.d ≠ .handle (BitVec.ofNat 4 r) ∨ x.go = false → w.hreg r = x.w.hreg r) ∧
  (∀ r m, softDest x.o.d ≠ some r → w.softBad r m = x.w.softBad r m)

/-- What an operation leaves that writes a destination of `n` registers with the words `val` and raises the flags `fl`: the registers are as
`Iss.Holds` says; no other flag changes; the path has gone on and nothing else of the pod has changed. -/
def Iss.Wrote (x : Iss) (s t : State) (n : Nat) (val : Nat → Nat → Word) (fl : Word) : Prop :=
  ∃ w : Wave, t = x.after s w ∧ x.w.RegOnly w ∧ w.flags = x.w.flags ||| fl ∧ w.raised = x.w.raised ||| fl ∧ x.Holds w n val

/-! ## Operations with other effects -/

/-- The wave numbered `i` of a package. -/
def State.wave? (s : State) (p i : Nat) : Option Wave := tfind (s.chip p).waves i

/-- The same without the tags of lines that have left its L1 (R43). -/
def State.untagged (s : State) (p i : Nat) : Option Wave := (s.wave? p i).map (fun w => { w with vtags := [] })

/-- The operation may issue: its path does not wait and its operands pass every check (R39, R56, R65, R68, R69). -/
def Iss.ready (x : Iss) : Bool := !x.q.waiting && decide (x.check = .ready)

/-- The effect `s'` of an operation leaves its path where it stands, with no path in the heap, and the path's next PC is no check point, or the
wave is in handler mode, or the operation is the first of a pair. -/
def Iss.calmAfter (x : Iss) (s' : State) : Bool :=
  match s'.wave? x.p x.wid with
  | some w => decide (w.path? x.sl = some x.q) && w.heap.isEmpty && w.heapRes == 0 && x.w.heap.isEmpty && x.w.heapRes == 0 &&
      (!x.ends || w.hmode || !s'.cpOf x.p w x.nextPc)
  | none => false

/-- The state after an operation whose effect leaves `s'` and whose path goes on as `q`: the operation is counted. -/
def Iss.onFrom (x : Iss) (s' : State) (q : Path) : State :=
  { s'.modChip x.p (fun c => c.modWave x.wid (fun w => x.tally (c.fgear w.grow) (w.setPath x.sl (some q)))) with last := .completed }

/-- The operation may issue, and its path is the only one of its wave. -/
def Iss.lone (x : Iss) : Bool :=
  x.ready && decide (x.w.path? x.sl.other = none) && x.w.heap.isEmpty && x.w.heapRes == 0

/-- The operation may issue, no path stands in the heap, and the path of the other slot, where there is one, is not at `pc` with window base `wb`, or waits:
a path that comes there merges with none (R29). -/
def Iss.clearAt (x : Iss) (pc : DWord) (wb : Nat) : Bool :=
  x.ready && x.w.heap.isEmpty && x.w.heapRes == 0 && (x.w.path? x.sl.other).all (fun y => y.waiting || y.pc ≠ pc || y.wbase ≠ wb)

/-- The successor of a branch at its target, and the one that falls through (R28, R131). -/
def Iss.takenPath (x : Iss) : Path := { pc := x.dispTarget, mask := x.exe, wbase := x.q.wbase, fresh := true, wait := .none }
/-- See `Iss.takenPath`. -/
def Iss.restPath (x : Iss) : Path :=
  { pc := x.nextPc, mask := x.q.mask &&& ~~~x.exe, wbase := x.q.wbase, fresh := true, wait := .none
    line := if pcLine x.nextPc = pcLine x.q.pc then x.q.line else none }

/-- The path of `x` at another PC and window base, as a transfer leaves it (R28). -/
def Iss.pathAt (x : Iss) (pc : DWord) (wb : Nat) : Path :=
  { pc := pc, mask := x.q.mask, wbase := wb, fresh := false, wait := .none, late := false, held := [], ord := false, line := none }

/-- The state from which the lanes of `x` go their ways: what is ordered before one of them is ordered before them all (R94). -/
def Iss.bound (x : Iss) (s : State) : State := s.modChip x.p (fun c => c.bindLanes x.wid x.q.mask)

/-- Whether a PC is a legal target of a transfer (R133), as the operation sees the lines. -/
def Iss.legalTarget (x : Iss) (pc : DWord) : Bool := decide (x.c.checkTarget x.tick x.w.core (x.c.asidOf x.w.grow) pc = .ok)

/-- The PC to which lane `k` goes: that of format W, or the one its source a holds (R134, R181). -/
def Iss.goal (x : Iss) (k : Nat) : DWord := if x.o.a = .none then x.dispTarget else x.dword .a k

/-- The registers of an opened frame that a producer has left empty (R60, R68). -/
def Iss.frameFull (x : Iss) (lo n : Nat) : Bool := (regRange lo n).all (fun r => (x.w.lreg r).full)

/-- Instruction `i`, of form `f` with fields `o`, completes from every state in which nothing is in its way: it answers a next state, in which
its destination of `n` registers holds the words `val`, the flags `fl` are raised, and all else is as `Iss.Wrote` says. -/
def Completes (i : Instr) (f : Form) (o : Ops) (n : Nat) (val : Iss → Nat → Nat → Word) (fl : Iss → Word) : Prop :=
  ∀ s x, issOf f o s = some x → x.calm s = true → ∃ t, exec i s = .next t ∧ x.Wrote s t n (val x) (fl x)

/-! ## Memory -/

/-- One byte of a target as package `p` reads it, none where its line is poisoned. -/
def State.byteAt (s : State) (p : Nat) (tg : Target) : Option Byte := (s.readTgt p tg 1).bind (fun l => l.head?)

/-- Every byte of every memory reads as before, but for those that `but` names. -/
def State.SameBytesBut (s t : State) (but : Nat → Target → Prop) : Prop := ∀ p tg, ¬ but p tg → t.byteAt p tg = s.byteAt p tg

/-- Every byte of every memory reads as before. -/
def State.SameBytes (s t : State) : Prop := s.SameBytesBut t (fun _ _ => False)

/-- The `n` bytes from a target of package `p` up; host memory is the same for every package. -/
def Target.Within (p : Nat) (tg : Target) (n q : Nat) (a : Target) : Prop := ∃ i < n, a = tg.shift i ∧ (q = p ∨ ∃ h, a = .host h)

/-- The bytes that stand from a target up. -/
def State.HoldsBytes (s : State) (p : Nat) (tg : Target) (bs : List Byte) : Prop := ∀ i < bs.length, s.byteAt p (tg.shift i) = bs[i]?

/-- Whether a write of `n` bytes at a target is performed: its bytes are DRAM and no line of them is poisoned, the block is there with no
uncorrectable error left in a word that they cover in part, and it is no aperture page. -/
def State.canWrite (s : State) (p : Nat) (tg : Target) (n : Nat) : Bool :=
  match tg with
  | .dram pa => !(s.chip p).noAccess pa n
  | .host _ => true
  | .loc k fol off => (tfind (s.chip p).blocks k).any (fun b => !(b.mend fol off n).damaged fol off n)
  | .aperture _ => false

/-! ## What an operation leaves beside its own effect -/

/-- The registers of a wave, its flags apart. -/
def Wave.SameRegs (w w' : Wave) : Prop := w'.v = w.v ∧ w'.s = w.s ∧ w'.p = w.p ∧ w'.i = w.i ∧ w'.h = w.h

/-- The registers `l` are empty, their error bits and masks clear (R68), and every other register holds what it held. -/
def Wave.Emptied (w w' : Wave) (l : List RegRef) : Prop :=
  (∀ r ∈ l, w'.isFull r = false ∧ w'.isErr r = false ∧ w'.errMask r = 0) ∧ (∀ n, RegRef.v n ∉ l → w'.lreg n = w.lreg n) ∧
  (∀ n, RegRef.s n ∉ l → w'.ureg n = w.ureg n) ∧ w'.p = w.p ∧ w'.i = w.i ∧ w'.h = w.h

/-- The operation has completed: its path, and no other of its wave, has gone on; the trap registers, every other wave of the package and
every other package are as they were. `w` is its wave after it. -/
def Iss.Through (x : Iss) (s t : State) (w : Wave) : Prop :=
  t.last = .completed ∧ t.wave? x.p x.wid = some w ∧ w.path? x.sl = some x.onward ∧ w.path? x.sl.other = x.w.path? x.sl.other ∧
  w.heap = x.w.heap ∧ w.hslot = x.w.hslot ∧ w.cause = x.w.cause ∧ w.epc = x.w.epc ∧ w.emask = x.w.emask ∧ w.einfo0 = x.w.einfo0 ∧
  w.einfo1 = x.w.einfo1 ∧ w.einfo2 = x.w.einfo2 ∧ w.dbg = x.w.dbg ∧ (∀ j, j ≠ x.wid → t.wave? x.p j = s.wave? x.p j) ∧
  (∀ q, q ≠ x.p → t.chip q = s.chip q) ∧ t.sw = s.sw

/-- APXS where the operation writes inside an open region (R302). -/
def Iss.apxFlag (x : Iss) : Word := if x.w.region.isSome then flagApxs else 0

/-- Instruction `i` completes from every state in which it may issue and `pre` holds, and what it leaves is `eff` with its path gone on; the
effect leaves the path where it stands, and what follows is no check point. -/
def DoneBy (i : Instr) (f : Form) (o : Ops) (pre : Iss → State → Prop) (eff : Iss → State → State) : Prop :=
  ∀ s x, issOf f o s = some x → x.ready = true → pre x s → x.calmAfter (eff x s) = true →
    exec i s = .next (x.onFrom (eff x s) x.onward)

/-- Instruction `i` traps, wherever it may issue and `pre` holds, with the cause, source and words of `t`; no byte of memory changes. -/
def TrapsWith (i : Instr) (f : Form) (o : Ops) (pre : Iss → State → Prop) (t : Iss → State → TrapInfo) : Prop :=
  ∀ s x, issOf f o s = some x → x.ready = true → pre x s →
    ∃ u, exec i s = .next u ∧ u.last = .trapped (t x s).cause (t x s).src (t x s).e0 (t x s).e1 (t x s).e2 ∧ s.SameBytes u

/-! ## Accesses -/

/-- The accesses of `n` bytes of kind `k` that an operation makes in global memory are on their way: there is one at least, the throttle lets
them pass (R46), their addresses are of this chip and aligned (R217), and the TLBs give their targets `ts`, by lane (R469). -/
def Iss.Global (x : Iss) (s : State) (k : AccessKind) (n : Nat) (ts : List (Nat × Target)) : Prop :=
  x.outLanes ≠ [] ∧ x.c.throttled x.r x.sl = false ∧ x.globalTrap (x.outLanes.map (fun l => (l, x.gaddr l))) n = none ∧
  x.translate s k (x.outLanes.map (fun l => (l, x.gaddr l))) = .ok ts

/-- Package `p` has the accesses `l` behind those that were pending, and of its producers one more at `id`. -/
def Chip.Started (c d : Chip) (pr : Option Producer) (l : List PendAcc) : Prop :=
  d.pend = c.pend ++ l ∧ (∀ i, i ≠ c.next → tfind d.prods i = tfind c.prods i) ∧
  (match pr with
    | some q => tfind d.prods c.next = some q
    | none => d.prods = c.prods)

/-- An access of operation `x` as it is queued: lane, target, bytes and data, without its place in the queue. -/
def PendAcc.core (a : PendAcc) : Nat × Target × Nat × DWord := (a.lane, a.tgt, a.size, a.data)

/-- Access `a` stems from operation `x` and is of kind `k`, ordered or not, with its result for producer `pr`. -/
def PendAcc.from (a : PendAcc) (x : Iss) (k : AccKind) (ord : Bool) (pr : Option Nat) : Prop :=
  a.wid = x.wid ∧ a.pathMask = x.q.mask ∧ a.kind = k ∧ a.ty = x.o.ty ∧ a.ordered = ord ∧ a.prod = pr

/-- A synchronising operation may issue at its turn only, in fixed gear (R359). -/
def Iss.dueAt (x : Iss) (i : Instr) : Prop := syncOp i = true → x.myTurn = true

/-- Nothing of fixed gear holds a synchronising operation on the ranges `l`: it is its turn, the wave's store buffer is empty, and no earlier command of
the grid has still to touch the ranges (R359, R364); outside fixed gear there is nothing of the kind. -/
def Iss.atTurn (x : Iss) (s : State) (l : List (Target × Nat)) : Prop :=
  x.myTurn = true ∧ (x.fg = true → x.w.buf = []) ∧ x.fgClear s l = true

/-- The traps of a global access of `n` bytes by lanes (R73, R74, R217, R282): an address of another chip in any lane, else a misaligned one. -/
def GlobalTraps (i : Instr) (f : Form) (o : Ops) (n : Nat) : Prop :=
  TrapsWith i f o (fun x _ => x.dueAt i ∧ x.c.throttled x.r x.sl = false ∧ ∃ k ∈ x.outLanes, x.c.offChip (x.gaddr k) = true)
    (fun x _ => { cause := 0x10, e0 := maskOf (fun k => x.outLanes.contains k && x.c.offChip (x.gaddr k)) }) ∧
  TrapsWith i f o (fun x _ => x.dueAt i ∧ x.c.throttled x.r x.sl = false ∧ (∀ k ∈ x.outLanes, x.c.offChip (x.gaddr k) = false) ∧
      ∃ k ∈ x.outLanes, x.gaddr k % n ≠ 0)
    (fun x _ => { cause := 0x12, e0 := maskOf (fun k => x.outLanes.contains k && decide (x.gaddr k % n ≠ 0)) })

/-- The operand checks of an instruction (R39, R56, R65, R68, R69, R282, R285). It is not ready while a register that it reads with its EMODE bit clear, or that it
writes, is empty; else it traps where an operand names a register that is not there (0x08), else where a source with EMODE set is empty (0x09), else where a
source has its error bit set (0x0A), in each case for the first position of a, b, c, d. -/
def OperandTraps (i : Instr) (f : Form) (o : Ops) : Prop :=
  ∀ s x, issOf f o s = some x → x.q.waiting = false → x.dueAt i →
    let empty := fun ps => x.badAt ps = 0 ∧ ∃ r ∈ x.refsAt ps, x.r.isFull r = false
    let pending := (∃ ps ∈ srcPos, x.emode ps = false ∧ empty ps) ∨ x.badAt .d = 0 ∧ ∃ r ∈ x.refsAt .d, x.w.isFull r = false
    let traps := fun (t : TrapInfo) => ∃ u, exec i s = .next u ∧ u.last = .trapped t.cause t.src t.e0 t.e1 t.e2
    let first := fun (l : List Pos) (ok : Pos → Prop) (ps : Pos) => ∃ a b, l = a ++ ps :: b ∧ ok ps ∧ ∀ q ∈ a, ¬ok q
    (pending → exec i s = .next { s with last := .notReady }) ∧
    (¬pending →
      (∀ ps, first [.a, .b, .c, .d] (fun q => x.badAt q ≠ 0) ps → traps (x.rangeTrap ps (x.badAt ps))) ∧
      ((∀ q, x.badAt q = 0) →
        (∀ ps r l, first srcPos empty ps → x.refsAt ps = l ++ r :: (x.refsAt ps).drop (l.length + 1) → x.r.isFull r = false → (∀ e ∈ l, x.r.isFull e = true) →
          traps { cause := 0x09, src := posSrc ps, e2 := x.regCode ps r }) ∧
        ((∀ q ∈ srcPos, ¬empty q) → ∀ ps r l, first srcPos (fun q => ∃ r ∈ x.refsAt q, x.r.isErr r = true) ps →
          x.refsAt ps = l ++ r :: (x.refsAt ps).drop (l.length + 1) → x.r.isErr r = true → (∀ e ∈ l, x.r.isErr e = false) →
          traps (x.errTrap ps r))))

/-- The traps of a local access of `n` bytes by lanes (R76, R217, R282): an address outside the allocation in any lane, else a misaligned one. -/
def LocalTraps (i : Instr) (f : Form) (o : Ops) (n : Nat) : Prop :=
  TrapsWith i f o (fun x _ => x.dueAt i ∧ ∃ k ∈ x.outLanes, x.c.localAt x.w.blk (x.laddr k) n = none)
    (fun x _ => { cause := 0x11, e0 := maskOf (fun k => x.outLanes.contains k && (x.c.localAt x.w.blk (x.laddr k) n).isNone) }) ∧
  TrapsWith i f o (fun x _ => x.dueAt i ∧ (∀ k ∈ x.outLanes, x.c.localAt x.w.blk (x.laddr k) n ≠ none) ∧ ∃ k ∈ x.outLanes, x.laddr k % n ≠ 0)
    (fun x _ => { cause := 0x12, e0 := maskOf (fun k => x.outLanes.contains k && decide (x.laddr k % n ≠ 0)) })

/-- Operation `x` has entered `s`'s array queue of block `b` as the command `k`: it has completed, no register and no byte of memory has changed,
and the queue has `k` behind what it held. -/
def Iss.Queued (x : Iss) (s t : State) (b : Block) (k : ArrCmd) : Prop :=
  ∃ w, x.Through s t w ∧ s.SameBytes t ∧ x.w.SameRegs w ∧ w.flags = x.w.flags ||| (if k.writes.isEmpty then 0 else x.apxFlag) ∧
    ((t.chip x.p).core b.core).aq = ((s.chip x.p).core b.core).aq ++ [{ k with id := (s.chip x.p).next }] ∧
    (s.chip x.p).Started (t.chip x.p) none []

/-- The array of block `b` takes one more command of `x`, on its follower where `fol` says so, or on both cores (R253, R259, R500). -/
def Iss.arrayOpen (x : Iss) (b : Block) (both fol : Bool) : Prop :=
  x.go = true ∧ x.arrayGate both fol = .ok b ∧ (x.c.core b.core).aq.length < 8

/-- Operation `x` waits, and polls: its path keeps its place, no register and no byte of memory changes. -/
def Iss.Polls (x : Iss) (s t : State) : Prop :=
  ∃ w, t.last = .notReady ∧ t.wave? x.p x.wid = some w ∧ w.path? x.sl = some { x.q with wait := .polling (x.half = .second), fresh := false, ord := false } ∧
    w.path? x.sl.other = x.w.path? x.sl.other ∧ x.w.SameRegs w ∧ w.flags = x.w.flags ∧ s.SameBytes t ∧ (t.chip x.p).pend = (s.chip x.p).pend

/-- What an acquire of `x` at a scope does to L1 (R96): the core's own from cohort scope on, the 32 slices of a fused cluster from chip scope on. -/
def Iss.Acquired (x : Iss) (s t : State) (scope : Nat) : Prop :=
  let fused := ((s.chip x.p).cluster (clusterOf x.w.core)).fused
  (scope ≤ 1 ∨ scope = 2 ∧ fused = true → (t.chip x.p).cores = (s.chip x.p).cores) ∧
  (2 ≤ scope → fused = false → ((t.chip x.p).core x.w.core).l1 = []) ∧
  (3 ≤ scope → fused = true → ∀ k < 32, ((t.chip x.p).core (clusterOf x.w.core * 32 + k)).l1 = [])

/-- Producer `id` of wave `w` of package `p` has completed with the results `l` behind those it had: its registers are full, it is gone, and no other
wave of the package has changed. -/
def State.Landed (s t : State) (p id : Nat) (pr : Producer) (w : Wave) (l : List (Nat × LaneRes)) : Prop :=
  t.wave? p pr.wid = some (w.land { pr with res := pr.res ++ l }) ∧ tfind (t.chip p).prods id = none ∧
  ∀ j, j ≠ pr.wid → t.wave? p j = s.wave? p j

/-- Producer `id` of package `p` is outstanding for a wave that is there, has not ended and is not saved (R68, R483). -/
def State.Open (s : State) (p id : Nat) (pr : Producer) (w : Wave) : Prop :=
  tfind (s.chip p).prods id = some pr ∧ s.wave? p pr.wid = some w ∧ w.ended = false ∧ w.saved = none

/-- Command `k` of a queue is marked as performed, and nothing else of the queue has changed (R253). -/
def Chip.ArrMarked (c d : Chip) (core : Nat) (k : ArrCmd) : Prop :=
  (d.core core).aq = (c.core core).aq.map (fun e => if e.id = k.id then { k with done := true } else e)

/-- Every accumulator cell and sum cell of a core but those of rows `r0` to `r0 + n - 1` is as it was. -/
def Core.RowsBut (u v : Core) (r0 n : Nat) : Prop :=
  ∀ r, r < r0 ∨ r0 + n ≤ r → v.sumCell r = u.sumCell r ∧ ∀ i < 256, v.cell r i = u.cell r i

/-! ## Events -/

/-- Package `p` has become `c`, and nothing else of the pod has changed. -/
def State.OnlyChip (s t : State) (p : Nat) (c : Chip) : Prop :=
  t.chip p = c ∧ (∀ q, q ≠ p → t.chip q = s.chip q) ∧ t.host = s.host ∧ t.net = s.net ∧ t.sw = s.sw

/-- The whole effect of an event is that package `p` becomes `c`. -/
def Becomes (i : Instr) (s : State) (p : Nat) (c : Chip) : Prop := ∃ t, exec i s = .next t ∧ s.OnlyChip t p c

/-- No unit asks for a translation in the step in progress. -/
def State.NoAsk (s : State) : Prop := s.asks = [] ∧ s.taken = []

/-- The command at the head of the context `x` that `State.scur` names may run: the context is busy and not ending, the
conditions of what is armed are all met (R312, R319), and no unit asks for a translation. -/
def State.CmdReady (s : State) (x : Ctx) : Prop :=
  s.NoAsk ∧ x = ((s.chip s.scur.1).engine s.scur.2.1).context s.scur.2.2 ∧ x.busy = true ∧ x.ending = none ∧ x.halted = false ∧
  (s.chip s.scur.1).ctxAlive x = true ∧ x.armed = [] ∧ ((s.chip s.scur.1).engine s.scur.2.1).stillArmed (x.arms.map (fun a => (a.1, a.2, false))) = []

/-- The state of a context behind a command that has run: nothing is armed, and the command is counted (R319, R329). -/
def Ctx.ran (x : Ctx) : Ctx := { x with arms := [], armed := [], count := x.count + 1 }

/-- A stream command runs, and leaves package `c` with its context as `x`, counted. -/
def CmdLeaves (i : Instr) (s : State) (c : Chip) (x : Ctx) : Prop := Becomes i s s.scur.1 (c.setCtx s.scur.2.1 s.scur.2.2 x.ran)

/-- A stream command waits: what it is armed on is noted, and nothing else changes (R319, R324). -/
def CmdWaits (i : Instr) (s : State) (c : Chip) (x : Ctx) : Prop :=
  Becomes i s s.scur.1 (c.setCtx s.scur.2.1 s.scur.2.2 { x with arms := [], armed := [] })

/-- A stream command that acts on memory or units runs: its context is left as `x`, counted; no wave of the package changes. -/
def CmdRuns (i : Instr) (s : State) (x : Ctx) (f : State → Prop) : Prop :=
  ∃ t, exec i s = .next t ∧ ((t.chip s.scur.1).engine s.scur.2.1).context s.scur.2.2 = x.ran ∧
    (t.chip s.scur.1).waves = (s.chip s.scur.1).waves ∧ (∀ q, q ≠ s.scur.1 → t.chip q = s.chip q) ∧ f t

/-- A unit of package `p`, which waits for no walk, finds `tg` for an address in the L2 TLB that it looks up: that of the wave `w`, where one has
started its command (R470). -/
def State.UnitAt (s : State) (p who asid addr : Nat) (k : AccessKind) (w : Option Wave) (tg : Target) : Prop :=
  let off := addr % 2 ^ 48
  s.NoAsk ∧ (∀ x ∈ (s.chip p).unitWalks, x.req.who ≠ who) ∧
  (((s.chip p).cluster (unitCluster w asid off)).l2tlb.find? (fun e => e.covers asid off && (e.refuse k).isNone)).map (fun e => e.target off) = some tg

/-- The chip that serves a request finds `tg` for its address (R470, R472). -/
def State.ReqAt (s : State) (p : Nat) (k : Packet) (kind : AccessKind) (tg : Target) : Prop :=
  s.UnitAt p (askReq k) k.asid k.addr.toNat kind (((s.starter k).filter (fun e => e.1 = p)).map (·.2.2)) tg

/-- A stream engine reads `n` bytes at an address as `bs`, with no failure and no other effect (R321, R331). -/
def State.ReadsAs (s : State) (p who : Nat) (x : Ctx) (addr n : Nat) (bs : List Byte) : Prop :=
  s.NoAsk ∧ s.streamRead p who x addr n = { s := s, bytes := bs, status := 0, off := false }

/-- Context `x`, the one that `State.scur` names, reaches a word of `n` bytes of DRAM at `pa` under an address (R321, R331). -/
def State.Reaches (s : State) (x : Ctx) (addr n pa : Nat) (k : AccessKind) : Prop :=
  (s.chip s.scur.1).rangeOff addr n = false ∧ pa % 128 = addr % 128 ∧
  s.UnitAt s.scur.1 (askCtx s.scur.2.1 s.scur.2.2) x.asid addr k (tfind (s.chip s.scur.1).waves x.wid) (.dram pa)

/-! ## Queues and the queue engine -/

/-- Packet `k` of queue `x` is numbered `n`, of type `ty`, may start and was read (R415, R418, R420); where its completion signal lies in host memory, the
host has said whether it completes AtomicOps (R419). -/
def State.MayStart (s : State) (p half q n ty : Nat) (x : Queue) (k : StartedPkt) : Prop :=
  (s.chip p).queueAt half q = some x ∧ x.pkt n = some k ∧ k.type = ty ∧ x.mayStart k = true ∧ k.code = 0 ∧
  (s.hostAtomics = none → (s.chip p).csigHost x.asid k = false)

/-- The same, with no reserved bit set, and with no unit asking for a translation. -/
def State.Starts (s : State) (p half q n ty : Nat) (x : Queue) (k : StartedPkt) : Prop :=
  s.MayStart p half q n ty x k ∧ k.reserved = false ∧ s.NoAsk

/-- Between `c` and `d`, the `n` oldest of the pending records of bin `b` of cluster `cl` have become a batch (R435, R437): a pending cohort of one
node block at the end of the list of its grid's class; the timer of the bin runs on where records are left and it has one. -/
def Chip.Batched (c d : Chip) (cl : Nat) (b : Bin) (n : Nat) : Prop :=
  (∃ k, tfind d.cohorts c.next = some k ∧ k.status = .pending ∧ k.grow = b.grow ∧ k.cluster = cl ∧ k.count = 1 ∧
    k.node = some { bin := b.num, first := (b.tail + 1024 - b.pending) % 1024, count := n, kern := b.node }) ∧
  (∀ j, j ≠ c.next → tfind d.cohorts j = tfind c.cohorts j) ∧
  (d.cluster cl).bins = (c.cluster cl).bins.map (fun x => if x.grow = b.grow ∧ x.num = b.num then
    { b with pending := b.pending - n, held := b.held + n, running := b.timer ≠ 0 && b.pending - n ≠ 0 } else x) ∧
  (let latency := ((c.grid? b.grow).map (fun g => g.kern.latency)).getD false
   (d.cluster cl).lat = (c.cluster cl).lat ++ (if latency then [c.next] else []) ∧
   (d.cluster cl).bulk = (c.cluster cl).bulk ++ (if latency then [] else [c.next]))

/-! ## Peloton -/

/-- Event `e`, of type `ty`, is at the head of what a chip has delivered; the chip runs, misses no event and does not replay, and its tables are in
order (R441, R449). -/
def Chip.Applies (c : Chip) (e : EventRec) (ty : Nat) : Prop :=
  c.pel.apply.head? = some e ∧ evType e = ty ∧ c.online = true ∧ c.pel.stuck = false ∧ c.pel.rejoining = .none ∧
  Sorted c.pel.rep.grids ∧ Sorted c.pel.rep.places ∧ ∀ y ∈ c.pel.rep.chips, y.1 < 512

/-- Package `p` has applied event `e`, the head of its list, and its tables stand at its number and term (R449). -/
def State.Applied (s t : State) (p : Nat) (e : EventRec) : Prop :=
  (t.chip p).pel.apply = (s.chip p).pel.apply.tail ∧ (t.chip p).pel.rep.seq = evSeq e ∧ (t.chip p).pel.rep.term = evTerm e ∧ t.sw = s.sw

/-- The submitted LAUNCH packets that a QTAG names have become what `f` makes of them (R450). -/
def Chip.LaunchesBecome (c d : Chip) (qtag : Word) (f : StartedPkt → StartedPkt) : Prop :=
  ∀ key x j, tfind c.queues key = some x → j ∈ x.started → j.stage = .submitted → qtagOf (key / 512) (key % 512) j.n = qtag.toNat →
    ∃ y, tfind d.queues key = some y ∧ f j ∈ y.started

/-- A packet of channel 2 from a chip to the sequencer's switch (R379). -/
def State.pelPacket (s : State) (c : Chip) (ptype opw addr : Nat) (data : List Byte) : Packet :=
  { Packet.blank with ptype := ptype, src := c.chipId, dstSw := true, opw := BitVec.ofNat 32 opw, addr := BitVec.ofNat 64 addr,
                      len := data.length, data := data, plane := c.planeFor s.sw.plane }

/-- A packet at place `net` of the fabric is for the sequencer's switch (R379). -/
def State.SwitchGets (s : State) (net ty : Nat) (k : Packet) : Prop := s.net[net]? = some k ∧ k.ptype = ty ∧ k.dstSw = true

/-- A packet at place `net` of the fabric is for package `p`, which runs (R378). -/
def State.ChipGets (s : State) (p net ty : Nat) (k : Packet) : Prop :=
  s.net[net]? = some k ∧ k.ptype = ty ∧ k.dstSw = false ∧ k.dst = (s.chip p).chipId ∧ (s.chip p).online = true

/-- The record has been sequenced as `x` (R440, R441): the next number is taken, the record kept and sent
by every switch to every port of its plane. -/
def State.Sequenced (s t : State) (x : EventRec) : Prop :=
  t.sw.nextSeq = s.sw.nextSeq + 1 ∧ t.sw.term = s.sw.term ∧ t.sw.retrans.getLast? = some x ∧ t.sw.standby = (s.sw.standby.applyEvent x).rep ∧
  t.chips = s.chips ∧ t.net = s.net ++ (List.range 48).flatMap (fun n => (s.chips.filter (fun k => k.2.joined && k.2.online && (k.2.link n).up)).map
    (fun k => { Packet.blank with ptype := 14, srcSw := true, src := n, dst := k.2.chipId, len := 64, data := leBytes 64 x.toNat, plane := n }))

/-! ## Packets between chips, links, memory management, management -/

/-- A link is up and takes `n` flits of channel `vc` at once: nothing waits on it, no packet of the channel is under way, and there are credits and
places in the replay buffer (R377). -/
def Link.OpenFor (l : Link) (vc n : Nat) : Prop :=
  l.up = true ∧ l.waiting = [] ∧ (∀ k ∈ l.parcels, vcOf k.ptype ≠ vc) ∧ n ≤ l.credits.getD vc 0 ∧ l.replay.length + n ≤ 128

/-- Package `p` takes request `k` from the fabric and performs it: it is ALIVE and does not rejoin, the request is no repeated one, and its source
still awaits the response (R378, R458, R459). -/
def State.Serves (s : State) (p net ty : Nat) (k : Packet) : Prop :=
  s.ChipGets p net ty k ∧ ((s.chip p).pel.rep.chip (s.chip p).chipId).state = .alive ∧ (s.chip p).pel.rejoining = .none ∧
  (∀ a ∈ (s.chip p).answered, a.1 ≠ k.src ∨ a.2.1 ≠ k.tid) ∧ s.awaited k = true

/-- Request `k` has left the fabric, and its response `m` is sent and kept (R378). -/
def State.Answered (s t : State) (p net : Nat) (k m : Packet) : Prop :=
  t.net = ((s.dropNet net).emit p m).net ∧ m.src = (s.chip p).chipId ∧ m.dst = k.src ∧ m.tid = k.tid ∧ (k.src, k.tid, m) ∈ (t.chip p).answered

/-- Package `p` takes a response that answers its request `rq`, and no request to its source waits for a place (R378). -/
def State.Hears (s : State) (p net ty : Nat) (k rq : Packet) : Prop :=
  s.ChipGets p net ty k ∧ (s.chip p).requests.find? (fun r => r.dst = k.src && r.tid = k.tid) = some rq ∧ ∀ r ∈ (s.chip p).askWait, r.dst ≠ k.src

/-- The response has left the fabric and the request is outstanding no more (R378). -/
def State.Heard (s t : State) (p net : Nat) (rq : Packet) : Prop :=
  t.net = s.net.eraseIdx net ∧ (t.chip p).requests = (s.chip p).requests.erase rq ∧ (t.chip p).waves = (s.chip p).waves

/-- The error log of package `p` has taken a record: written at its head where it has room and its place can be written, or counted as lost (R501, R502). -/
def State.Logged (s t : State) (p cls action loc addr : Nat) (st : Word) : Prop :=
  let c := s.chip p
  let a := fld c.elbase.toNat 12 40 * 4096 + 32 * (c.elhead.toNat % 2 ^ c.elSz)
  (c.elSz = 0 → (t.chip p).elhead = c.elhead ∧ (t.chip p).elovf = c.elovf + 1) ∧
  (c.elSz ≠ 0 → 2 ^ c.elSz ≤ (c.elhead - c.eltail).toNat → (t.chip p).elhead = c.elhead ∧ (t.chip p).elovf = c.elovf + 1) ∧
  (c.elSz ≠ 0 → (c.elhead - c.eltail).toNat < 2 ^ c.elSz → (t.chip p).elhead = c.elhead + 1 ∧ (t.chip p).elovf = c.elovf ∧
    ((t.chip p).noAccess a 32 = false → t.HoldsBytes p (.dram a)
      (leBytes 32 (errorRecord c.cycle.toNat addr st 1 cls action loc + b2n (nbit c.elhead.toNat c.elSz)))))

/-- Port `port` owns the semaphore of a package that runs (R411, R495). -/
def Chip.owns (c : Chip) (port : Nat) : Prop := c.powered = true ∧ c.stopped = false ∧ c.semOwner = port + 1

/-- What the mailbox of package `p` reads at a command word is record `r`, which it may perform (R493, R494). -/
def State.MboxReads (s : State) (p : Nat) (cmd : DWord) (r : Nat) : Prop :=
  (s.chip p).powered = true ∧ (s.chip p).stopped = false ∧ (s.chip p).recovery = false ∧
  ∃ bs, s.readTgt p (.dram (fld cmd.toNat 6 46 * 64)) 32 = some bs ∧ r = ofLe bs

/-- A command of the mailbox has been performed: its result byte is zero, and the package is as `f` says (R493). -/
def MboxDone (i : Instr) (s : State) (p : Nat) (cmd : DWord) (f : Chip → Prop) : Prop :=
  ∃ t, exec i s = .next t ∧ t.HoldsBytes p (.dram (fld cmd.toNat 6 46 * 64 + 1)) [0] ∧ f (t.chip p)

/-! ## Decoding and stepping -/

/-- The fields of a wave instruction of every lane, with no error mode and HSTAT clear. -/
def opsOn (d a b c : Operand) (ty : Ty) (word : Word) : Ops :=
  { guard := { neg := false, p := 7 }, hs := false, em := 0, d := d, a := a, b := b, c := c, ty := ty, word := word }

/-- The slot of `c` may issue (R30, R39): its wave `w` and path `q` are there, with no array-check trap pending (R275) and no word held for
its pages (R475). -/
def State.MayIssue (s : State) (c : Cursor) (w : Wave) (q : Path) : Prop :=
  s.wave? c.pkg c.wid = some w ∧ w.path? c.slot = some q ∧ s.candidate c.pkg w c.slot = true ∧ w.arrayTrap = none ∧ w.held c.slot = []

/-- The line at the PC of path `q` is `l`, and `t` is the state in which its word is performed: the path has entered the line before, or the line is
translated, read and good, and comes into the instruction cache of the core (R128, R131, R469). -/
def State.Fetches (s : State) (c : Cursor) (w : Wave) (q : Path) (l : BitVec 512) (t : State) : Prop :=
  let v := w.setHeld c.slot []
  let src := if q.wait = .none then none else tfind (s.chip c.pkg).srcs (srcKey c.wid c.slot)
  let u := { s with cur := c, pairSrc := src }.modChip c.pkg (fun k => k.setWave c.wid v)
  let k := u.chip c.pkg
  let off := pcLine q.pc % 2 ^ 48
  q.line = some l ∧ t = u ∨
  q.line = none ∧ ∃ e pa, k.tlbLookup v.core (k.asidOf v.grow) off .fetch = some e ∧ e.target off = .dram pa ∧
    k.fetchLine u.tick v.core pa = some l ∧ lineBad l = false ∧
    t = u.setChip c.pkg (((k.tlbTouch v.core (k.asidOf v.grow) off .fetch).cacheLine u.tick v.core pa l).setWave c.wid (v.enterLine c.slot l))

/-- The word at a PC is a pair with the next slot (R144). -/
def pairedAt (l : BitVec 512) (pc : DWord) : Bool := decide (pcSlot pc < 4) && nbit (lineWord l) (5 + pcSlot pc)

/-- A stream context runs: it is busy, at no end, not halted, and its grid is there (R311, R335). -/
def State.ctxRuns (s : State) (p v k : Nat) : Bool :=
  let x := ((s.chip p).engine v).context k
  x.busy && x.ending.isNone && !x.halted && (s.chip p).ctxAlive x

/-- Instruction `i` is the arrival, at package `p` or its switch, of packet `n` of the fabric with PTYPE `ty` and, of a collective, message `msg` (R378, R379, R386). -/
def ArrivalOf (ty msg p n : Nat) (i : Instr) : Prop :=
  (ty = 1 ∧ i = .wr p n) ∨ (ty = 2 ∧ i = .ack p n) ∨ (ty = 3 ∧ i = .rd p n) ∨ (ty = 4 ∧ i = .rdd p n) ∨ (ty = 5 ∧ i = .atReq p n) ∨
  (ty = 6 ∧ i = .atr p n) ∨ (ty = 7 ∧ i = .tk p n) ∨ (ty = 8 ∧ i = .tkr p n) ∨ (ty = 9 ∧ i = .tkw p n) ∨ (ty = 10 ∧ i = .tkg p n) ∨
  (ty = 11 ∧ i = .tka p n) ∨ (ty = 13 ∧ i = .evp n) ∨ (ty = 14 ∧ i = .ev p n) ∨ (ty = 15 ∧ i = .hb n) ∨ (ty = 16 ∧ i = .rtq n) ∨
  (ty = 17 ∧ i = .snq p n) ∨ (ty = 18 ∧ i = .snd p n) ∨
  ty = 12 ∧
   ((msg = 0 ∧ i = .clParameters p n) ∨ (msg = 1 ∧ i = .clData p n) ∨ (msg = 2 ∧ i = .clReady p n) ∨ (msg = 3 ∧ i = .clDecision p n) ∨
    (msg = 4 ∧ i = .clAbortRequest p n) ∨ (msg = 5 ∧ i = .clLossNotice p n))

/-- Instruction `i` is the application of an event of TYPE `ty` by package `p` (R444, R450). -/
def ApplicationOf (ty p : Nat) (i : Instr) : Prop :=
  (ty = 0 ∧ i = .applySubmit p) ∨ (ty = 1 ∧ i = .applyFinish p) ∨ (ty = 2 ∧ i = .applyBlocked p) ∨ (ty = 3 ∧ i = .applyFault p) ∨
  (ty = 4 ∧ i = .applyChipLoss p) ∨ (ty = 5 ∧ i = .applyFence p) ∨ (ty = 6 ∧ i = .applyJoin p) ∨ (ty = 7 ∧ i = .applyDigest p)

/-! ## The invariant -/

/-- Every memory of a package is in canonical form: its DRAM, the allocations of its blocks in both parts of a tandem pair, and the tiles of its
cores' array banks and of the array parts that are saved. -/
def Chip.MemoriesWf (c : Chip) : Prop :=
  Memory.wf c.dram ∧ (∀ e ∈ c.blocks, Memory.wf e.2.mem ∧ Memory.wf e.2.folMem) ∧
  (∀ e ∈ c.cores, ∀ b ∈ e.2.banks, Memory.wf b.2.tile) ∧ (∀ e ∈ c.savedParts, ∀ b ∈ e.2.banks, Memory.wf b.2.tile)

/-- Every memory of the pod is in canonical form: addresses strictly rising, and no byte listed that an unlisted address reads as. -/
def State.MemoriesWf (s : State) : Prop := Memory.wf s.host ∧ ∀ p, (s.chip p).MemoriesWf

end Machine

end Sys2Proof
end

