-- ==== Sys2Proof/Certificates/Slice0/Obligations.lean ====
section
/-! DEFINITION. The statements about the machine that the provers are asked to prove. -/

open Sys2Proof Sys2Proof.Machine

/-! ## Instructions whose whole effect is on registers -/

/-- R155, R159 to R163: integer and address arithmetic. In every lane written the destination holds the exact result of the operands read as
integers, saturated where HSTAT asks for it and wrapped otherwise, in one, two or four registers; for every operand form and every type.
R165 to R170 on registers: bit operations, shifts at every amount, counts, and field extract and insert. -/
def Obligations.IntegerAndBitOperations : Prop :=
  (∀ o : Ops,
  Completes (.add o) (formAddSub o) o o.ty.regs
    (fun x k => intWords o.ty (reduceInt o.ty o.hs (x.int o.ty .a k + x.int o.ty .b k))) 0 ∧
  Completes (.sub o) (formAddSub o) o o.ty.regs
    (fun x k => intWords o.ty (reduceInt o.ty o.hs (x.int o.ty .a k - x.int o.ty .b k))) 0 ∧
  Completes (.mul o) (formInt2 tysInt true o) o o.ty.regs
    (fun x k => intWords o.ty (reduceInt o.ty o.hs (x.int o.ty .a k * x.int o.ty .b k))) 0 ∧
  Completes (.mulHi o) (formInt2 tysInt false o) o o.ty.regs
    (fun x k => intWords o.ty (reduceInt o.ty o.hs (x.int o.ty .a k * x.int o.ty .b k / 2 ^ o.ty.width))) 0 ∧
  Completes (.mad o) (formInt3 tysInt true o) o o.ty.regs
    (fun x k => intWords o.ty (reduceInt o.ty o.hs (x.int o.ty .a k * x.int o.ty .b k + x.int o.ty .c k))) 0 ∧
  Completes (.madHi o) (formInt3 tysInt false o) o o.ty.regs
    (fun x k => intWords o.ty (reduceInt o.ty o.hs (x.int o.ty .a k * x.int o.ty .b k / 2 ^ o.ty.width + x.int o.ty .c k))) 0 ∧
  Completes (.min o) (formInt2 tysInt false o) o o.ty.regs
    (fun x k => intWords o.ty (reduceInt o.ty o.hs (Min.min (x.int o.ty .a k) (x.int o.ty .b k)))) 0 ∧
  Completes (.max o) (formInt2 tysInt false o) o o.ty.regs
    (fun x k => intWords o.ty (reduceInt o.ty o.hs (Max.max (x.int o.ty .a k) (x.int o.ty .b k)))) 0 ∧
  Completes (.abs o) (formInt1 [.i8, .i16, .i32, .i64] true o) o o.ty.regs
    (fun x k => intWords o.ty (reduceInt o.ty o.hs (x.int o.ty .a k).natAbs)) 0 ∧
  Completes (.neg o) (formInt1 tysInt true o) o o.ty.regs
    (fun x k => intWords o.ty (reduceInt o.ty o.hs (- x.int o.ty .a k))) 0 ∧
  Completes (.add64 o) (formAdd64 o) o 2 (fun x k => intWords .n64 (x.int .n64 .a k + x.int o.ty .b k)) 0 ∧
  Completes (.lea o) (formLea o) o 2 (fun x k => intWords .n64 (x.int .n64 .a k + x.int o.ty .b k * 2 ^ (o.modw % 32))) 0 ∧
  Completes (.kadd o) (formKadd o) o 4
    (fun x k j => BitVec.ofNat 32 (modPow (x.quad .a k + x.int o.ty .b k) 128 / 2 ^ (32 * j))) 0) ∧
  (∀ o : Ops,
  (o.d.isPred = false →
    Completes (.and o) (formLogic2 o) o o.ty.regs
      (fun x k j => BitVec.ofNat 32 (Nat.land (x.valN o.ty .a k) (x.valN o.ty .b k) / 2 ^ (32 * j))) 0 ∧
    Completes (.or o) (formLogic2 o) o o.ty.regs
      (fun x k j => BitVec.ofNat 32 (Nat.lor (x.valN o.ty .a k) (x.valN o.ty .b k) / 2 ^ (32 * j))) 0 ∧
    Completes (.xor o) (formLogic2 o) o o.ty.regs
      (fun x k j => BitVec.ofNat 32 (Nat.xor (x.valN o.ty .a k) (x.valN o.ty .b k) / 2 ^ (32 * j))) 0 ∧
    Completes (.not o) (formLogic1 o) o o.ty.regs
      (fun x k j => BitVec.ofNat 32 ((2 ^ o.ty.width - 1 - x.valN o.ty .a k) / 2 ^ (32 * j))) 0) ∧
  Completes (.shl o) (formShift o) o o.ty.regs (fun x k j =>
    let n := (x.word .b k 0).toNat
    BitVec.ofNat 32 ((if o.ty.width ≤ n then 0 else x.valN o.ty .a k * 2 ^ n % 2 ^ o.ty.width) / 2 ^ (32 * j))) 0 ∧
  Completes (.shr o) (formShift o) o o.ty.regs (fun x k j =>
    let n := (x.word .b k 0).toNat
    BitVec.ofNat 32 ((if o.ty.width ≤ n then 0 else x.valN o.ty .a k / 2 ^ n) / 2 ^ (32 * j))) 0 ∧
  Completes (.sar o) (formShift o) o o.ty.regs (fun x k j =>
    let n := (x.word .b k 0).toNat
    BitVec.ofNat 32 (modPow (asSigned o.ty.width (x.valN o.ty .a k) / 2 ^ Nat.min n (o.ty.width - 1)) o.ty.width / 2 ^ (32 * j))) 0 ∧
  Completes (.rot o) (formShift o) o o.ty.regs (fun x k j =>
    let w := o.ty.width
    let n := (x.word .b k 0).toNat % w
    let a := x.valN o.ty .a k
    BitVec.ofNat 32 ((a * 2 ^ n + a / 2 ^ (w - n)) % 2 ^ w / 2 ^ (32 * j))) 0 ∧
  Completes (.clz o) (formCount o) o 1 (fun x k _ =>
    let a := x.valN o.ty .a k
    BitVec.ofNat 32 (if a = 0 then o.ty.width else o.ty.width - 1 - Nat.log2 a)) 0 ∧
  Completes (.popc o) (formCount o) o 1 (fun x k _ => BitVec.ofNat 32 (onesOf o.ty.width (x.valN o.ty .a k))) 0 ∧
  Completes (.brev o) (formInt1 tysRaw false o) o o.ty.regs
    (fun x k j => BitVec.ofNat 32 (reverseBits o.ty.width (x.valN o.ty .a k) / 2 ^ (32 * j))) 0 ∧
  Completes (.bfx o) (formBfx o) o o.ty.regs
    (fun x k => intWords o.ty (extractField o.ty (x.valN o.ty .a k) (x.word .b k 0).toNat)) 0 ∧
  Completes (.bfi o) (formBfi o) o o.ty.regs (fun x k j =>
    BitVec.ofNat 32 (insertField o.ty.width (x.valN o.ty .a k) (x.word .b k 0).toNat (x.valN o.ty .c k) / 2 ^ (32 * j))) 0)

/-- R53, R166, R171 to R175, R192, R213: the instructions that write a predicate (logic over predicates, compares, the dropout mask), and
select and move. A predicate takes 1 where the condition holds; p7 ignores the write. -/
def Obligations.PredicatesSelectAndMove : Prop := ∀ o : Ops,
  (o.d.isPred = true →
    Completes (.and o) (formLogic2 o) o 1 (fun x k _ => if x.predAt .a k && x.predAt .b k then 1 else 0) 0 ∧
    Completes (.or o) (formLogic2 o) o 1 (fun x k _ => if x.predAt .a k || x.predAt .b k then 1 else 0) 0 ∧
    Completes (.xor o) (formLogic2 o) o 1 (fun x k _ => if xor (x.predAt .a k) (x.predAt .b k) then 1 else 0) 0 ∧
    Completes (.not o) (formLogic1 o) o 1 (fun x k _ => if x.predAt .a k then 0 else 1) 0 ∧
    Completes (.cmp o) (formCmp o) o 1 (fun x k _ =>
      let y := { x with immw := cmpImm o, o := { x.o with a := cmpOperand o.ty o.a, b := cmpOperand o.ty o.b } }
      if intCond (fld o.modi 28 4) (y.int o.ty .a k) (y.int o.ty .b k) then 1 else 0) 0 ∧
    Completes (.fcmp o) (formFcmp o) o 1 (fun x k _ =>
      let y := { x with immw := BitVec.ofNat 32 (fld o.word.toNat 0 16) }
      if fltCond (fld o.modi 28 4) (y.flt o.ty .a k) (y.flt o.ty .b k) then 1 else 0) 0 ∧
    Completes (.dmask o) (formDmask o) o 1 (fun x k _ =>
      let y := { x with immw := BitVec.ofNat 32 (fld o.word.toNat 0 16) }
      if (kcgBlock (y.words4 .b k) (y.word .c k 0) (y.word .c k 1)).1.toNat % 65536 ≤ (y.word .a k 0).toNat % 65536 then 1 else 0) 0) ∧
  Completes (.sel o) (formSel o) o o.ty.regs
    (fun x k => intWords o.ty (if x.predAt .c k then x.int o.ty .a k else x.int o.ty .b k)) 0 ∧
  Completes (.mov o) (formMov o) o (formMov o).d.n (fun x k j => x.word .a k j) 0 ∧
  Completes (.movi o) (formMovi o) o 2 (fun _ _ => intWords .i64 (asSigned 42 o.imm42)) 0

/-- R113, R189, R197, R198: the rounded result of a float operation on the exact values, in every lane written, and the value of a special
function; QSAT is raised where a rounding saturated or mapped a NaN to zero, or a special function's value saturated. R190, R194 to R196,
R199, R200: paired and packed multiply-adds, conversion, byte dot products, block amax and block quantisation.
That an enclosure of a special function always decides its rounding is unverified (log entry 72). -/
def Obligations.FloatOperations : Prop :=
  ((∀ o : Ops,
  let rounded := fun (x : Iss) (v : Nat → FNum) (k : Nat) => roundToF o.ty (v k) (rmOf o.modw) o.hs (x.rnd .c k)
  let word := fun (x : Iss) (v : Nat → FNum) (k _j : Nat) => BitVec.ofNat 32 (rounded x v k).1
  let flag := fun (x : Iss) (v : Nat → FNum) => if x.outLanes.any (fun k => (rounded x v k).2) then flagQsat else 0
  let add := fun (x : Iss) k => FNum.add x.down (x.flt o.ty .a k) (x.flt o.ty .b k)
  let mul := fun (x : Iss) k => FNum.mul (x.flt o.ty .a k) (x.flt o.ty .b k)
  let fma := fun (x : Iss) k => FNum.add x.down (FNum.mul (x.flt o.ty .a k) (x.flt o.ty .b k)) (x.flt o.ty .c k)
  let scl := fun (x : Iss) k => scaleByPow (x.flt o.ty .a k) (x.int .i32 .b k)
  Completes (.fadd o) (formFadd o) o 1 (fun x => word x (add x)) (fun x => flag x (add x)) ∧
  Completes (.fmul o) (formFadd o) o 1 (fun x => word x (mul x)) (fun x => flag x (mul x)) ∧
  Completes (.ffma o) (formFfma o) o 1 (fun x => word x (fma x)) (fun x => flag x (fma x)) ∧
  Completes (.fscale o) (formFscale o) o 1 (fun x => word x (scl x)) (fun x => flag x (scl x)) ∧
  Completes (.fmin o) (formFmin o) o 1 (fun x k _ => BitVec.ofNat 32 (fminN o.ty (x.valN o.ty .a k) (x.valN o.ty .b k))) 0 ∧
  Completes (.fmax o) (formFmin o) o 1 (fun x k _ => BitVec.ofNat 32 (fmaxN o.ty (x.valN o.ty .a k) (x.valN o.ty .b k))) 0) ∧
  (∀ o : Ops,
  let val := fun n (x : Iss) k (_ : Nat) => BitVec.ofNat 32 (specialFn n o.hs (x.word .a k 0)).1
  let fl := fun n (x : Iss) => if x.outLanes.any (fun k => (specialFn n o.hs (x.word .a k 0)).2) then flagQsat else 0
  Completes (.rcp o) (formSf true o) o 1 (val 0) (fl 0) ∧ Completes (.rsq o) (formSf true o) o 1 (val 1) (fl 1) ∧
  Completes (.sqrt o) (formSf false o) o 1 (val 2) (fl 2) ∧ Completes (.exp2 o) (formSf true o) o 1 (val 3) (fl 3) ∧
  Completes (.log2 o) (formSf false o) o 1 (val 4) (fl 4) ∧ Completes (.sin o) (formSf false o) o 1 (val 5) (fl 5) ∧
  Completes (.cos o) (formSf false o) o 1 (val 6) (fl 6) ∧ Completes (.tanh o) (formSf false o) o 1 (val 7) (fl 7))) ∧
  (∀ o : Ops,
  let pair := fun (x : Iss) k j => roundToF .f32 (FNum.add x.down
    (FNum.mul (fval .f32 (x.word .a k j).toNat) (fval .f32 (x.word .b k j).toNat)) (fval .f32 (x.word .c k j).toNat)) (rmOf o.modw) o.hs 0
  let half := fun (x : Iss) ps k h => fval o.ty (fld (x.word ps k 0).toNat (16 * h) 16)
  let halves := fun (x : Iss) k h =>
    roundToF o.ty (FNum.add x.down (FNum.mul (half x .a k h) (half x .b k h)) (half x .c k h)) (rmOf o.modw) o.hs 0
  let conv := fun (x : Iss) k => roundTo o.ty (x.num ((stypeOf o.modw).getD .b32) .a k) (rmOf o.modw) o.hs (x.rnd .b k)
  let byteOf := fun (x : Iss) ps k j => intVal (if o.ty.signed then .i8 else .n8) (fld (x.word ps k 0).toNat (8 * j) 8)
  let blk := fun (x : Iss) l => quantiseBlock (fld o.modw 24 3) (nbit o.modw 27) (rmOf o.modw)
    ((x.blockLanes l).map (fun k => (x.flt o.ty .a k, x.rnd .b k)))
  let elem := fun (x : Iss) l => (((x.blockLanes l).zip (blk x l).2.1).find? (fun e => e.1 = l)).elim 0 (·.2)
  Completes (.ffma2 o) (formFfma2 o) o 2 (fun x k j => BitVec.ofNat 32 (pair x k j).1)
    (fun x => if x.outLanes.any (fun k => (pair x k 0).2 || (pair x k 1).2) then flagQsat else 0) ∧
  Completes (.hfma2 o) (formHfma2 o) o 1 (fun x k _ => BitVec.ofNat 32 ((halves x k 0).1 + 2 ^ 16 * (halves x k 1).1))
    (fun x => if x.outLanes.any (fun k => (halves x k 0).2 || (halves x k 1).2) then flagQsat else 0) ∧
  Completes (.fcvt o) (formFcvt o) o o.ty.regs (fun x k => intWords o.ty (conv x k).1)
    (fun x => if x.outLanes.any (fun k => (conv x k).2) then flagQsat else 0) ∧
  Completes (.dot4 o) (formDot4 o) o o.ty.regs (fun x k => intWords o.ty (reduceInt o.ty o.hs
    (x.int o.ty .c k + ((List.range 4).map (fun j => byteOf x .a k j * byteOf x .b k j)).foldl (· + ·) 0))) 0 ∧
  Completes (.famax o) (formFamax o) o 1 (fun x l _ =>
    BitVec.ofNat 32 (roundToF o.ty (amaxOf ((x.blockLanes l).map (x.flt o.ty .a))) 0 false 0).1) 0 ∧
  Completes (.fqb o) (formFqb o) o 2 (fun x l j => BitVec.ofNat 32 (if j = 0 then elem x l else (blk x l).1))
    (fun x => (if (lanesOf x.exe).any (fun l => (blk x l).2.2.1) then flagQsat else 0) |||
      if (lanesOf x.exe).any (fun l => (blk x l).2.2.2) then flagScuf else 0))

/-- R203 to R212: the cross-lane instructions and the counter generator.
That `kcg` with a uniform destination takes an immediate b is the model's choice (log entry 87). -/
def Obligations.CrossLaneAndGenerator : Prop := ∀ o : Ops,
  let src := fun (x : Iss) l =>
    match shflLane (fld o.modi 30 2) (fld o.modi 24 3) l
      ((({ x with immw := BitVec.ofNat 32 (fld o.word.toNat 0 8) } : Iss).word .b l 0).toNat % 256) with
    | some k => if laneOn x.q.mask k then k else l
    | none => l
  let yes := fun (x : Iss) => x.q.mask &&& maskOf (fun k => x.predAt .a k)
  let part := fun (x : Iss) => (lanesOf x.q.mask).filter (fun k => x.predAt .b k)
  let tot := fun (x : Iss) => combine (fld o.modw 28 4) o.ty o.hs ((part x).map (x.valN o.ty .a))
  let pre := fun (x : Iss) l => combine (fld o.modw 28 4) o.ty o.hs
    (((lanesOf x.exe).filter (fun k => k < l || !nbit o.modw 27 && k = l)).map (x.valN o.ty .a))
  Completes (.shfl o) (formShfl o) o o.ty.regs
    (fun x l j => ({ x with immw := BitVec.ofNat 32 (fld o.word.toNat 0 8) } : Iss).word .a (src x l) j) 0 ∧
  Completes (.vote o) (formVote o) o 1 (fun x _ _ =>
    match fld o.modw 30 2 with
    | 0 => yes x
    | 1 => if yes x ≠ 0 then 1 else 0
    | 2 => if yes x = x.q.mask then 1 else 0
    | _ => if yes x = 0 ∨ yes x = x.q.mask then 1 else 0) 0 ∧
  Completes (.rfal o) (formRfal o) o o.ty.regs (fun x _ j => x.word .a x.low j) 0 ∧
  Completes (.redW o) (formRedW o) o o.ty.regs (fun x _ j => BitVec.ofNat 32 ((tot x).1 / 2 ^ (32 * j)))
    (fun x => (if x.go && (tot x).2 then flagQsat else 0) ||| if x.go && (part x).isEmpty then flagEmpty else 0) ∧
  Completes (.scan o) (formScan o) o o.ty.regs (fun x l j => BitVec.ofNat 32 ((pre x l).1 / 2 ^ (32 * j)))
    (fun x => if (lanesOf x.exe).any (fun l => (pre x l).2) then flagQsat else 0) ∧
  Completes (.matchLanes o) (formMatch o) o 1
    (fun x l _ => x.q.mask &&& maskOf (fun k => x.valN o.ty .a k = x.valN o.ty .a l)) 0 ∧
  Completes (.kcg o) (formKcg o) o 4 (fun x k j => quadWord (kcgBlock (x.words4 .a k) (x.word .b k 0) (x.word .b k 1)) j) 0

/-! ## Control -/

/-- R28, R132 to R134, R177 to R182: transfers by every lane of a path, beside any path that it does not meet there. A transfer goes to its legal target and the
path is no longer fresh; `call` moves the window down by its frame and writes the PC that follows into the frame's last two registers in the lanes that call;
`ret` moves it up and goes to the PC that these hold. Where no lane is in T the path falls through. R31, R183, R184: `exit` by some lanes of a
path leaves the others, at the next PC, in the same slot, with the fresh bit the path had; `exit` by every lane of a wave's last path ends the wave, with no path left, and ends
handler mode. R26, R28, R29, R32: a branch that some lanes of a wave's only path take leaves two fresh paths in the slots, the hinted one in slot A, or beside a path
that waits the lower in the slot and the other in the heap; a path that steps to a check point takes in the other slot's path that stands there, or gives
its slot to the heap's head where that is lower; the slot of a path that ends is filled from the heap. -/
def Obligations.TransfersAndExit : Prop :=
  (∀ (o : Ops) (s : State) (x : Iss),
  (issOf (formBare false) o s = some x → x.calm s = true → exec (.nop o) s = .next (x.after s x.w)) ∧
  (issOf (formBr o) o s = some x → x.exe = 0 → x.calm s = true → exec (.br o) s = .next (x.after s x.w)) ∧
  (issOf (formBr o) o s = some x → x.clearAt x.dispTarget x.q.wbase = true → x.exe = x.q.mask → x.exe ≠ 0 → x.legalTarget x.dispTarget = true →
    exec (.br o) s = .next (x.onFrom (x.bound s) (x.pathAt x.dispTarget x.q.wbase))) ∧
  (∀ pc, issOf (formBrx o) o s = some x → x.clearAt pc x.q.wbase = true → x.exe = x.q.mask → x.exe ≠ 0 → (∀ k ∈ lanesOf x.exe, x.dword .a k = pc) →
    x.legalTarget pc = true → exec (.brx o) s = .next (x.onFrom (x.bound s) (x.pathAt pc x.q.wbase))) ∧
  (∀ pc, issOf (formCall o) o s = some x → x.clearAt pc (x.q.wbase - frameOf o) = true → x.exe = x.q.mask → x.exe ≠ 0 → (∀ k ∈ lanesOf x.exe, x.goal k = pc) →
    x.legalTarget pc = true → frameOf o ≤ x.w.L → frameOf o ≤ x.q.wbase → x.frameFull (x.q.wbase - frameOf o) (frameOf o) = true →
    ∃ w : Wave, exec (.call o) s = .next (x.onFrom (x.set (x.bound s) w) (x.pathAt pc (x.q.wbase - frameOf o))) ∧
      (∀ k ∈ lanesOf x.exe, (w.lreg (x.q.wbase - 2)).vals.getD k 0 = lo32 x.nextPc ∧
        (w.lreg (x.q.wbase - 1)).vals.getD k 0 = hi32 x.nextPc) ∧
      (∀ r, r < x.q.wbase - frameOf o ∨ x.q.wbase ≤ r → w.lreg r = x.w.lreg r)) ∧
  (∀ pc, issOf (formRet o) o s = some x → x.clearAt pc (x.q.wbase + frameOf o) = true → x.exe = x.q.mask → x.exe ≠ 0 → x.q.wbase + frameOf o ≤ x.w.D →
    x.frameFull x.q.wbase (frameOf o) = true →
    (∀ r ∈ [x.q.wbase + frameOf o - 2, x.q.wbase + frameOf o - 1], (x.frameReg r).err = false) →
    (∀ k ∈ lanesOf x.exe, dword ((x.frameReg (x.q.wbase + frameOf o - 2)).vals.getD k 0)
      ((x.frameReg (x.q.wbase + frameOf o - 1)).vals.getD k 0) = pc) →
    x.legalTarget pc = true → ∃ v, exec (.ret o) s = .next (x.onFrom (x.set (x.bound s) { x.w with v := v }) (x.pathAt pc (x.q.wbase + frameOf o))) ∧
      ∀ r, let a := x.w.lreg r
        let b := tget LaneReg.zero v r
        (r < x.q.wbase ∨ x.q.wbase + frameOf o ≤ r ∨ a.err = false → b = a) ∧
        (x.q.wbase ≤ r → r < x.q.wbase + frameOf o → a.err = true → b.vals = a.vals ∧ b.full = a.full ∧ b.mask = a.mask &&& ~~~x.exe ∧
          b.err = decide (b.mask ≠ 0)))) ∧
  (∀ (o : Ops) (s : State) (x : Iss), issOf (formBare false) o s = some x → x.exe ≠ 0 →
  (x.exe ≠ x.q.mask → x.calm s = true → x.half ≠ .first → exec (.exit o) s = .next (x.onFrom (x.bound s) x.exitPath)) ∧
  (x.lone = true → x.exe = x.q.mask →
    ∃ t w, exec (.exit o) s = .next t ∧ t.last = .completed ∧ t.wave? x.p x.wid = some w ∧ w.ended = true ∧ w.paths = [] ∧ w.hmode = false ∧
      w.v = x.w.v ∧ w.s = x.w.s ∧ (t.chip x.p).dram = (s.chip x.p).dram ∧ t.host = s.host)) ∧
  (∀ (o : Ops) (s : State) (x : Iss),
  let on := fun (i : Instr) (f : Wave → Prop) => ∃ t w, exec i s = .next t ∧ t.last = .completed ∧ t.wave? x.p x.wid = some w ∧ x.w.SameRegs w ∧
    w.flags = x.w.flags ∧ f w
  (issOf (formBr o) o s = some x → x.ready = true → x.w.hmode = false → x.w.heap = [] → x.w.heapRes = 0 → x.exe ≠ 0 → x.exe ≠ x.q.mask →
    x.legalTarget x.dispTarget = true → x.dispTarget ≠ x.nextPc →
    (x.w.path? x.sl.other = none → on (.br o) (fun w => w.heap = [] ∧ w.slotA = some (if o.hs then x.takenPath else x.restPath) ∧
      w.slotB = some (if o.hs then x.restPath else x.takenPath))) ∧
    (∀ y, x.w.path? x.sl.other = some y → y.waiting = true → 0 < x.w.heapDepth →
      let low := decide (x.dispTarget.toNat < x.nextPc.toNat)
      on (.br o) (fun w => w.path? x.sl.other = some y ∧ w.path? x.sl = some (if low then x.takenPath else x.restPath) ∧
        w.heap = [{ (if low then x.restPath else x.takenPath) with late := true }]))) ∧
  (issOf (formBare false) o s = some x → x.ready = true → x.w.hmode = false → x.half = .single →
    (∀ y, x.w.path? x.sl.other = some y → x.w.heap = [] → x.w.heapRes = 0 → s.cpOf x.p x.w x.nextPc = true → y.pc = x.nextPc → y.wbase = x.q.wbase →
      y.waiting = false → on (.nop o) (fun w => w.path? x.sl.other = none ∧ w.heap = [] ∧
        ∃ q, w.path? x.sl = some q ∧ q.pc = x.nextPc ∧ q.mask = x.q.mask ||| y.mask ∧ q.wbase = x.q.wbase ∧ q.fresh = false ∧ q.wait = .none)) ∧
    (∀ y h, x.w.path? x.sl.other = some y → x.w.heap = [h] → x.w.heapRes = 1 → 0 < x.w.heapDepth → h.late = false →
      (s.cpOf x.p x.w x.nextPc = true → y.pc ≠ x.nextPc → h.pc.toNat < x.nextPc.toNat → on (.nop o) (fun w => w.path? x.sl.other = some y ∧
        w.path? x.sl = some h ∧ w.heap = [{ x.onward with late := false }])) ∧
      (s.cpOf x.p x.w y.pc = false → x.exe = x.q.mask → x.exe ≠ 0 → on (.exit o) (fun w => w.path? x.sl.other = some y ∧ w.path? x.sl = some h ∧
        w.heap = [] ∧ w.ended = false)))))

/-- R279, R281, R284, R289, R294: what taking a trap does to the wave. `trap n` with its guard true records cause 0x30, the PC that follows, the lanes of the
path, and n in `sr.einfo1`; the wave is in handler mode, its path stands at the trap entry in the same slot with the same lanes and window, and
nothing else of the wave's registers has changed. With its guard false it does nothing. `brk` takes a breakpoint trap where no debugger is attached,
and with one attached completes and stops its wave with reason 0x31. -/
def Obligations.TrapEntry : Prop :=
  (∀ (o : Ops) (s : State) (x : Iss), issOf (formTrap o) o s = some x →
  (x.go = false → x.calm s = true → exec (.trap o) s = .next (x.after s x.w)) ∧
  (∀ entry, x.go = true → x.ready = true → x.half = .single → x.w.hmode = false →
    ((x.c.kernOf x.w).map LaunchRec.trapPc) = some entry → x.c.trapEntryOk s.tick x.w.core (x.c.asidOf x.w.grow) entry = true →
    ∃ t w, exec (.trap o) s = .next t ∧ t.wave? x.p x.wid = some w ∧
      w.cause = BitVec.ofNat 32 (2 ^ 15 + pcSlot x.q.pc * 2 ^ 12 + 0x30) ∧ w.hmode = true ∧ w.epc = pcNext x.q.pc 1 ∧ w.emask = x.q.mask ∧
      w.einfo0 = 0 ∧ w.einfo1 = BitVec.ofNat 32 (o.modw % 2 ^ 16) ∧ w.einfo2 = 0 ∧ w.hslot = x.sl ∧
      w.path? x.sl = some { x.q with pc := entry, fresh := false, wait := .none, held := [], ord := false, line := none, beside := false } ∧
      w.path? x.sl.other = x.w.path? x.sl.other ∧
      w.heap = x.w.heap ∧ w.v = x.w.v ∧ w.s = x.w.s ∧ w.p = x.w.p ∧ w.i = x.w.i ∧ w.h = x.w.h ∧ w.flags = x.w.flags ∧
      (t.chip x.p).dram = (s.chip x.p).dram ∧ (t.chip x.p).blocks = (s.chip x.p).blocks ∧ t.host = s.host)) ∧
  (∀ (o : Ops) (s : State) (x : Iss), issOf (formTrap o) o s = some x → x.go = true → x.half = .single →
  (x.ready = true → x.w.dbg.getLsbD 1 = true → x.calm s = true →
    ∃ t w, exec (.brk o) s = .next t ∧ t.wave? x.p x.wid = some w ∧ w.dbg = x.w.dbg ||| 1 ∧ w.cause.toNat % 256 = 0x31 ∧
      w.path? x.sl = some x.onward ∧ w.v = x.w.v ∧ w.s = x.w.s) ∧
  (∀ entry, x.ready = true → x.w.dbg.getLsbD 1 = false → x.w.hmode = false →
    ((x.c.kernOf x.w).map LaunchRec.trapPc) = some entry → x.c.trapEntryOk s.tick x.w.core (x.c.asidOf x.w.grow) entry = true →
    ∃ t w, exec (.brk o) s = .next t ∧ t.wave? x.p x.wid = some w ∧
      w.cause = BitVec.ofNat 32 (2 ^ 15 + pcSlot x.q.pc * 2 ^ 12 + 0x31) ∧ w.epc = pcNext x.q.pc 1 ∧
      w.einfo1 = BitVec.ofNat 32 (o.modw % 2 ^ 16) ∧
      w.path? x.sl = some { x.q with pc := entry, fresh := false, wait := .none, held := [], ord := false, line := none, beside := false }))

/-- R289: in handler mode `trap.res` returns to the resumption PC, or with SKIP to the word after the one there, and `trap.ret` to a legal PC that
its source holds; handler mode ends, the path keeps its slot, its lanes and its window, and no register changes. Outside handler mode both raise
an illegal-instruction trap. -/
def Obligations.ReturnFromTrap : Prop := ∀ (o : Ops) (s : State) (x : Iss),
  (issOf (formTrapRes o) o s = some x → x.lone = true → x.go = true → x.w.hmode = true →
    ∃ t w, exec (.trapRes o) s = .next t ∧ t.last = .completed ∧ t.wave? x.p x.wid = some w ∧ w.hmode = false ∧
      (∃ q, w.path? x.sl = some q ∧ q.pc = (if nbit o.modw 0 then x.afterWord x.w.epc else x.w.epc) ∧ q.mask = x.q.mask ∧ q.wbase = x.q.wbase ∧ q.fresh = x.q.fresh ∧
        q.wait = .none) ∧
      w.v = x.w.v ∧ w.s = x.w.s ∧ w.p = x.w.p ∧ w.i = x.w.i ∧ w.h = x.w.h ∧ w.flags = x.w.flags ∧
      (t.chip x.p).dram = (s.chip x.p).dram ∧ t.host = s.host) ∧
  (issOf (formTrapRet o) o s = some x → x.lone = true → x.go = true → x.w.hmode = true → x.legalTarget (x.dword .a 0) = true →
    ∃ t w, exec (.trapRet o) s = .next t ∧ t.last = .completed ∧ t.wave? x.p x.wid = some w ∧ w.hmode = false ∧
      (∃ q, w.path? x.sl = some q ∧ q.pc = (x.dword .a 0) ∧ q.mask = x.q.mask ∧ q.wbase = x.q.wbase ∧ q.fresh = x.q.fresh ∧
        q.wait = .none) ∧
      w.v = x.w.v ∧ w.s = x.w.s ∧ w.p = x.w.p ∧ w.i = x.w.i ∧ w.h = x.w.h ∧ w.flags = x.w.flags ∧
      (t.chip x.p).dram = (s.chip x.p).dram ∧ t.host = s.host) ∧
  (issOf (formBare true) o s = some x → x.w.hmode = false → x.ready = true → ∀ i ∈ [Instr.trapRes o, Instr.trapRet o],
    (x.half ≠ .single → exec i s = .next { s with last := .trapped 1 0 0 0 0, lastWord := none }) ∧
    (∀ entry, x.half = .single → ((x.c.kernOf x.w).map LaunchRec.trapPc) = some entry →
      x.c.trapEntryOk s.tick x.w.core (x.c.asidOf x.w.grow) entry = true → ∃ t w, exec i s = .next t ∧ t.last = .trapped 1 0 0 0 0 ∧
        t.wave? x.p x.wid = some w ∧ w.cause = BitVec.ofNat 32 (2 ^ 15 + pcSlot x.q.pc * 2 ^ 12 + 1) ∧ w.hmode = true ∧ w.epc = x.q.pc ∧ w.emask = x.q.mask ∧
        w.einfo0 = 0 ∧ w.einfo1 = 0 ∧ w.einfo2 = 0 ∧ w.hslot = x.sl ∧
        w.path? x.sl = some { x.q with pc := entry, fresh := false, wait := .none, held := [], ord := false, line := none, beside := false } ∧
        w.v = x.w.v ∧ w.s = x.w.s ∧ w.p = x.w.p ∧ w.i = x.w.i ∧ w.h = x.w.h ∧ w.flags = x.w.flags ∧ s.SameBytes t))

/-- R284 to R286, R288, R290 to R292, R296, R297: reading every special register, writing `sr.flags`, beside the flags raised in the cycle, and the others, which
ignores it, `yield`, the two clocks, the instruction caches,
and `fg.sync`, which is not ready before the wave's turn. -/
def Obligations.SystemInstructions : Prop := ∀ (o : Ops),
  (∀ r, o.a = .sreg r → Completes (.getsr o) (formGetsr o) o 1 (fun x k _ => x.special r k) 0) ∧
  Completes (.cyc o) { d := Opd.u 2, once := true } o 2 (fun x _ j => if j = 0 then lo32 x.c.cycle else hi32 x.c.cycle) 0 ∧
  Completes (.fgClk o) { d := Opd.u 2, once := true } o 2
    (fun x _ j => if x.c.fgear x.w.grow then if j = 0 then lo32 x.r.clock else hi32 x.r.clock else 0) 0 ∧
  (∀ s x, o.d = .sreg .flags → issOf (formSetsr o) o s = some x → x.calm s = true →
    exec (.setsr o) s = .next (x.after s (if x.go then { x.w with flags := x.word .a 0 0 &&& 0x3F ||| x.w.raised } else x.w))) ∧
  (∀ r s x, o.d = .sreg r → r ≠ .flags → issOf (formSetsr o) o s = some x → x.calm s = true → exec (.setsr o) s = .next (x.after s x.w)) ∧
  (∀ s x, issOf { modOk := fun w => w < 256, once := true } o s = some x → x.calm s = true → x.go = true →
    ∃ t w, exec (.yield o) s = .next t ∧ t.last = .completed ∧ t.wave? x.p x.wid = some w ∧ 
      (w.issueOf x.sl).yieldEnd = some (x.c.cycle + BitVec.ofNat 64 (o.modw % 256 + 2)) ∧
      w.path? x.sl = some x.onward ∧ w.v = x.w.v ∧ w.s = x.w.s ∧ w.flags = x.w.flags) ∧
  (∀ s x, issOf (formBare true) o s = some x → x.ready = true → x.go = true →
    let y : Iss := { x with q := { x.q with line := none } }
    let s' := s.modChip x.p (fun c => (c.setCore x.w.core { c.core x.w.core with icache := [], icBad := [], icMet := [] }).modWave x.wid
      (fun w => w.setPath x.sl (some y.q)))
    y.calmAfter s' = true → exec (.icinv o) s = .next (y.onFrom s' y.onward)) ∧
  (∀ s x, issOf { modOk := fun w => w == 1, once := true } o s = some x → x.ready = true → x.go = true →
    let y : Iss := { x with q := { x.q with line := none } }
    let s' := s.modChip x.p (fun c => { c with cores := tmap c.cores (fun _ k => { k with icache := [], icBad := [], icMet := [] }) }.modWave x.wid
      (fun w => w.setPath x.sl (some y.q)))
    y.calmAfter s' = true → exec (.icinvChip o) s = .next (y.onFrom s' y.onward)) ∧
  (∀ s x, issOf (formBare true) o s = some x →
    (x.myTurn = true → x.calm s = true → exec (.fgSync o) s = .next (x.after s x.w)) ∧
    (x.myTurn = false → x.q.waiting = false → exec (.fgSync o) s = .next { s with last := .notReady }))

/-! ## Memory -/

/-- R6, R77, R478: a write that is performed leaves its bytes at its target, and every other byte of every memory as it was; one that meets a poisoned
line leaves every byte as it was. -/
def Obligations.WritesAndReads : Prop := ∀ (s : State) (p : Nat) (tg : Target) (bs : List Byte), bs.length ≤ 128 →
  (s.canWrite p tg bs.length = true →
    (s.writeTgt p tg bs).2 = true ∧ (s.writeTgt p tg bs).1.HoldsBytes p tg bs ∧
      s.SameBytesBut (s.writeTgt p tg bs).1 (Target.Within p tg bs.length)) ∧
  ((s.writeTgt p tg bs).2 = false → s.SameBytes (s.writeTgt p tg bs).1)

/-- R68, R79, R98, R219 to R221, R223: loads. One from global memory that finds every lane's line in the private L1 of its core has its values at once,
as that line holds them, in fixed gear with the wave's buffered stores laid over them, and beside them the L1 TLB of its core may take entries of the L2
TLB (R469); any other, where it hits no damaged word of L1, empties its destination registers and starts one
producer for the registers of its lanes; no byte of memory changes. `lds` writes the bytes that the scratchpad holds, with the path's own stores on
their way to it, where no word it reads has an uncorrectable error. -/
def Obligations.Loads : Prop :=
  (∀ (o : Ops), ∀ e ∈ [(Instr.ld o, formLoad [.lane] [.lane, .unif] 2 o, true),
    (.ldu o, formLoad [.unif] [.unif] 2 o, true), (.ldByp o, formLoad [.lane] [.lane, .unif] 2 o, false),
    (.lduByp o, formLoad [.unif] [.unif] 2 o, false)],
  ∀ (s : State) (x : Iss) (ts : List (Nat × Target)), issOf e.2.1 o s = some x → x.calm s = true → x.Global s .load (memSize o) ts →
    let quick := e.2.2 && !(x.c.cluster (clusterOf x.w.core)).fused && ts.all (fun q => (x.hitBytes q.2 (memSize o)).isSome)
    (quick = true → ∃ t, exec e.1 s = .next t ∧
      x.Wrote (x.touchTlb s .load (x.outLanes.map (fun k => (k, x.gaddr k)))) t (memRegs o)
      (fun k j => (loadWords o.ty (((ts.find? (fun q => q.1 = k)).bind (fun q => x.hitBytes q.2 (memSize o))).getD [])).getD j 0) 0) ∧
    (quick = false → (e.2.2 = true → ∀ q ∈ ts, x.hitBad q.2 (memSize o) = false) → ∃ t w pr, exec e.1 s = .next t ∧ x.Through s t w ∧ s.SameBytes t ∧ w.flags = x.w.flags ∧
      x.w.Emptied w ((x.destRefs (memRegs o)).flatMap (·.2)) ∧ (s.chip x.p).Started (t.chip x.p) (some pr) [] ∧
      pr.wid = x.wid ∧ pr.pathMask = x.q.mask ∧ pr.dests = x.destRefs (memRegs o))) ∧
  (∀ (o : Ops) (s : State) (x : Iss) (ts : List (Nat × Target)),
  issOf (formLoad [.lane, .unif] [.lane, .unif] 1 o) o s = some x → x.calm s = true →
  x.localTargets (x.outLanes.map (fun k => (k, x.laddr k))) (memSize o) (memSize o) = .ok ts → x.arrayHolds false ts (memSize o) = false →
  (∀ q ∈ ts, (s.readTgt x.p q.2 (memSize o)).isSome = true) →
    ∃ t, exec (.lds o) s = .next t ∧ x.Wrote s t (memRegs o) (fun k j => (loadWords o.ty (((ts.find? (fun q => q.1 = k)).map (fun q =>
      layOver ((s.readTgt x.p q.2 (memSize o)).getD []) (x.c.ownBytes x.w x.wid x.q.mask q.2 (memSize o)))).getD [])).getD j 0) 0)

/-- R79, R100, R137, R222, R223, R302, R364: stores. Outside fixed gear each lane's store, in two parts where it is of 16 bytes, is queued with its target and
its bytes and reaches memory later; in fixed gear it goes to the wave's store buffer, once no earlier load of its path has still to read its bytes (R98). Inside an
open region APXS is set where some lane stores. No register changes, and no byte of memory. -/
def Obligations.Stores : Prop := ∀ (o : Ops) (s : State) (x : Iss) (ts : List (Nat × Target)), x.calm s = true →
  (∀ q ∈ ts, x.loadLeft q.2 (memSize o) = false) → ∀ i ∈ [Instr.st o, Instr.sts o],
  (i = .st o → issOf (formStore 2 o) o s = some x ∧ x.Global s .store (memSize o) ts) →
  (i = .sts o → issOf (formStore 1 o) o s = some x ∧ x.arrayHolds true ts (memSize o) = false ∧
    x.localTargets (x.outLanes.map (fun k => (k, x.laddr k))) (memSize o) (memSize o) = .ok ts) →
    let size := if memSize o = 16 then 8 else memSize o
    let stores := ts.flatMap (fun e => (partsOf (memSize o) e.2).map (fun q => (e.1, q.2, size, x.storeWord e.1 (q.1 / 8))))
    ∃ t w, exec i s = .next t ∧ x.Through s t w ∧ s.SameBytes t ∧ x.w.SameRegs w ∧ w.flags = x.w.flags ||| (if ts.isEmpty then 0 else x.apxFlag) ∧
      (x.fg = false → w.buf = x.w.buf ∧ ∃ l, (s.chip x.p).Started (t.chip x.p) none l ∧ (l.map PendAcc.core).Perm stores ∧
        ∀ a ∈ l, a.from x .store false none) ∧
      (x.fg = true → (s.chip x.p).Started (t.chip x.p) none [] ∧ ∃ l, w.buf = x.w.buf ++ l ∧
        l.map (fun b => (b.tgt, b.data)) = stores.map (fun e => (e.2.1, leBytes size e.2.2.2.toNat)))

/-- R39, R56, R65, R68, R69, R282, R285: the operand checks of ordinary instructions, among them a memory access, an atomic, a transfer and an operation across
lanes: not ready while a register is empty that is read with EMODE clear, or written; else a register-range trap; else, of a source with EMODE set, an
empty-operand trap; else an operand-error trap; each for the first operand position concerned. R73 to R76, R78, R147, R217, R282: the traps of memory accesses: an
address that is of another chip or outside the allocation in any lane, else a misaligned address in any lane, with the lanes concerned in `sr.einfo0`; no byte of
memory changes. That the trap of an indexed source names the first failing register in lane order is the model's choice (`Iss.errReg`, log entry 82). -/
def Obligations.OperandAndAccessTraps : Prop := ∀ o : Ops,
  (∀ e ∈ [(Instr.add o, formAddSub o), (.mad o, formInt3 tysInt true o), (.shl o, formShift o), (.cmp o, formCmp o), (.sel o, formSel o), (.mov o, formMov o),
      (.fadd o, formFadd o), (.ffma o, formFfma o), (.fcvt o, formFcvt o), (.shfl o, formShfl o), (.redW o, formRedW o), (.kcg o, formKcg o), (.brx o, formBrx o),
      (.ld o, formLoad [.lane] [.lane, .unif] 2 o), (.st o, formStore 2 o), (.lds o, formLoad [.lane, .unif] [.lane, .unif] 1 o), (.sts o, formStore 1 o),
      (.gath o, formGath o), (.atom o, formAtom 2 o), (.red o, formRed o), (.setsr o, formSetsr o)], OperandTraps e.1 e.2 o) ∧
  GlobalTraps (.ld o) (formLoad [.lane] [.lane, .unif] 2 o) o (memSize o) ∧ GlobalTraps (.ldu o) (formLoad [.unif] [.unif] 2 o) o (memSize o) ∧
  GlobalTraps (.ldByp o) (formLoad [.lane] [.lane, .unif] 2 o) o (memSize o) ∧
  GlobalTraps (.lduByp o) (formLoad [.unif] [.unif] 2 o) o (memSize o) ∧
  GlobalTraps (.st o) (formStore 2 o) o (memSize o) ∧ GlobalTraps (.atom o) (formAtom 2 o) o (o.ty.width / 8) ∧
  GlobalTraps (.red o) (formRed o) o (o.ty.width / 8) ∧
  LocalTraps (.lds o) (formLoad [.lane, .unif] [.lane, .unif] 1 o) o (memSize o) ∧ LocalTraps (.sts o) (formStore 1 o) o (memSize o) ∧
  LocalTraps (.atomL o) (formAtom 1 o) o (o.ty.width / 8)

/-- R105, R224, R227, R228: atomics in global memory, `atom` with a result and `red` without, and `gath` (R229), are sent on their way: every lane's access
is queued with its target, operation and operands; `atom` and `gath` empty their destination registers and start a producer, an `atom.ord` takes
its place behind the wave's earlier ones. No byte of memory changes yet. R359: in fixed gear `atom` and `red` are performed when they issue, at their turn; one of a
single lane leaves in memory what its operation makes of the old value, which `atom` has ready for its lane. -/
def Obligations.AtomicsIssue : Prop := ∀ (o : Ops) (s : State) (x : Iss) (ts : List (Nat × Target)), x.calm s = true →
  let accs := ts.map (fun e => (e.1, e.2, o.ty.width / 8, (x.atomVals e.1).1))
  let n := o.ty.width / 8
  let now := fun (t : State) (k : Nat) (tg : Target) (bs : List Byte) => t.HoldsBytes x.p tg (leBytes n
      (aopNew (aopOf o) o.ty (ofLe bs) ((x.atomVals k).1.toNat % 2 ^ o.ty.width) ((x.atomVals k).2.toNat % 2 ^ o.ty.width))) ∧
    s.SameBytesBut t (Target.Within x.p tg n) ∧ (t.chip x.p).pend = (s.chip x.p).pend
  (∀ k tg bs, x.fg = true → x.atTurn s [(tg, n)] → x.outLanes = [k] → x.Global s .atomic n [(k, tg)] → (∀ pa, tg ≠ .aperture pa) →
    s.readTgt x.p tg n = some bs → s.canWrite x.p tg n = true →
    (issOf (formAtom 2 o) o s = some x → x.ordBlocked = false → ∃ t w pr, exec (.atom o) s = .next t ∧ x.Through s t w ∧
      w.flags = x.w.flags ||| x.apxFlag ∧ x.w.Emptied w ((x.destRefs o.ty.regs).flatMap (·.2)) ∧ w.ordSeq = x.w.ordSeq ∧ now t k tg bs ∧
      tfind (t.chip x.p).prods (s.chip x.p).next = some pr ∧ pr.wid = x.wid ∧ pr.kind = .atomic ∧ pr.dests = x.destRefs o.ty.regs ∧
      pr.res = [(k, .ok [lo32 (BitVec.ofNat 64 (ofLe bs)), hi32 (BitVec.ofNat 64 (ofLe bs))])]) ∧
    (issOf (formRed o) o s = some x → ∃ t w, exec (.red o) s = .next t ∧ x.Through s t w ∧ x.w.SameRegs w ∧ w.flags = x.w.flags ||| x.apxFlag ∧
      now t k tg bs ∧ (t.chip x.p).prods = (s.chip x.p).prods)) ∧
  (issOf (formAtom 2 o) o s = some x → x.fg = false → x.Global s .atomic (o.ty.width / 8) ts → x.ordBlocked = false →
    ∃ t w pr l, exec (.atom o) s = .next t ∧ x.Through s t w ∧ s.SameBytes t ∧ w.flags = x.w.flags ||| x.apxFlag ∧
      x.w.Emptied w ((x.destRefs o.ty.regs).flatMap (·.2)) ∧ (s.chip x.p).Started (t.chip x.p) (some pr) l ∧
      pr.wid = x.wid ∧ pr.pathMask = x.q.mask ∧ pr.kind = .atomic ∧ pr.dests = x.destRefs o.ty.regs ∧ pr.res = [] ∧
      (l.map PendAcc.core).Perm accs ∧
      (∀ a ∈ l, a.from x (.atomic (aopOf o) (x.atomVals a.lane).2) o.hs (some (s.chip x.p).next)) ∧
      w.ordSeq = x.w.ordSeq ++ if o.hs then [(s.chip x.p).next] else []) ∧
  (issOf (formRed o) o s = some x → x.fg = false → x.Global s .atomic (o.ty.width / 8) ts →
    ∃ t w l, exec (.red o) s = .next t ∧ x.Through s t w ∧ s.SameBytes t ∧ x.w.SameRegs w ∧ w.flags = x.w.flags ||| x.apxFlag ∧
      (s.chip x.p).Started (t.chip x.p) none l ∧ (l.map PendAcc.core).Perm accs ∧
      ∀ a ∈ l, a.from x (.atomic (aopOf o) (x.atomVals a.lane).2) o.hs none) ∧
  (issOf (formGath o) o s = some x → x.outLanes ≠ [] → x.c.throttled x.r x.sl = false →
    (∀ k ∈ x.outLanes, x.c.offChip (x.gaddr k) = false ∧ x.gaddr k % 4 = 0 ∧ ∀ a ∈ x.gathAddrs k, x.c.offChip a = false) →
    x.translate s .load (x.outLanes.flatMap (fun k => (x.gathAddrs k).map (fun a => (k, a)))) = .ok ts →
    ∃ t w pr, exec (.gath o) s = .next t ∧ x.Through s t w ∧ s.SameBytes t ∧ w.flags = x.w.flags ∧
      x.w.Emptied w ((x.destRefs (gathN o)).flatMap (·.2)) ∧ (s.chip x.p).Started (t.chip x.p) (some pr) [] ∧
      pr.wid = x.wid ∧ pr.pathMask = x.q.mask ∧ pr.dests = x.destRefs (gathN o))

/-- R84, R224 to R226, R359: an atomic of one lane on a local word, in fixed gear at its turn: the word becomes what the operation makes of the old value, the destination takes the old
value, every other byte and register is as it was. -/
def Obligations.LocalAtomic : Prop := ∀ (o : Ops) (s : State) (x : Iss) (k : Nat) (tg : Target) (bs : List Byte),
  issOf (formAtom 1 o) o s = some x → x.calm s = true → x.w.buf = [] → x.atTurn s [(tg, o.ty.width / 8)] → x.ordBlocked = false → x.outLanes = [k] →
  x.localTargets [(k, x.laddr k)] (o.ty.width / 8) (o.ty.width / 8) = .ok [(k, tg)] → x.arrayHolds true [(k, tg)] (o.ty.width / 8) = false →
  (o.hs = true → x.w.ordSeq = []) → (s.chip x.p).pend.all (fun a => !a.own x.wid x.q.mask) = true →
  s.readTgt x.p tg (o.ty.width / 8) = some bs →
    let n := o.ty.width / 8
    let new := aopNew (aopOf o) o.ty (ofLe bs) ((x.atomVals k).1.toNat % 2 ^ o.ty.width) ((x.atomVals k).2.toNat % 2 ^ o.ty.width)
    ∃ t w, exec (.atomL o) s = .next t ∧ x.Through s t w ∧ w.flags = x.w.flags ||| x.apxFlag ∧
      x.Holds w o.ty.regs (fun _ j => BitVec.ofNat 32 (ofLe bs / 2 ^ (32 * j))) ∧
      t.HoldsBytes x.p tg (leBytes n new) ∧ s.SameBytesBut t (Target.Within x.p tg n) ∧ (t.chip x.p).pend = (s.chip x.p).pend

/-- R225, R232: what each atomic operation makes of the old value and b, at every width that it accepts; and an arrival on a barrier object of 64 bits:
a pending count above 1 falls by one, the last arrival flips the phase and makes the pending count the count again. -/
def Obligations.AtomicWords : Prop :=
  (∀ (t : Ty) (a b c : Nat), t.width ∈ [32, 64] → a < 2 ^ t.width → b < 2 ^ t.width →
  aopNew 0 t a b c = (a + b) % 2 ^ t.width ∧
  (t.signed = false → aopNew 1 t a b c = Nat.min a b ∧ aopNew 2 t a b c = Nat.max a b) ∧
  (t.signed = true → ∀ op ∈ [1, 2], aopNew op t a b c ∈ [a, b]) ∧
  (t.signed = true → asSigned t.width (aopNew 1 t a b c) = Min.min (asSigned t.width a) (asSigned t.width b) ∧
    asSigned t.width (aopNew 2 t a b c) = Max.max (asSigned t.width a) (asSigned t.width b)) ∧
  (∀ i < t.width, (aopNew 3 t a b c).testBit i = (a.testBit i && b.testBit i) ∧ (aopNew 4 t a b c).testBit i = (a.testBit i || b.testBit i) ∧
    (aopNew 5 t a b c).testBit i = xor (a.testBit i) (b.testBit i)) ∧
  aopNew 6 t a b c = b ∧ (a = c → aopNew 7 t a b c = b) ∧ (a ≠ c → aopNew 7 t a b c = a)) ∧
  (∀ (phase : Bool) (count pending : Nat), count < 2 ^ 16 → 0 < pending → pending < 2 ^ 16 →
  let word := fun (f : Bool) (n : Nat) => b2n f * 2 ^ 63 + count * 2 ^ 32 + n
  (1 < pending → pbarNext (word phase pending) = word phase (pending - 1)) ∧ pbarNext (word phase 1) = word (!phase) count)

/-- R79, R100, R105, R225, R227, R478: a pending access is performed at its home when nothing holds it back. A store leaves its bytes at its target; an
atomic leaves what its operation makes of the old value and notes the old value for its lane; on a poisoned line neither changes a byte, and the
atomic's lane fails with POISON. Every other byte is as it was, and the access is no longer pending. -/
def Obligations.AccessPerformed : Prop := ∀ (s : State) (p : Nat) (a : PendAcc),
  (s.chip p).pend.find? (fun b => b.id = a.id) = some a → a.size ≤ 8 → (a.kind ≠ .store → a.size = a.ty.width / 8) → (s.chip p).behind a = false → a.ctrl = none →
  (∀ pa, a.tgt ≠ .aperture pa) → (∀ k f b, a.tgt = .loc k f b → a.kind = .store) → ∀ i ∈ [Instr.storeAck p a.id, Instr.orderedAtomicPerform p a.id],
  (i = .storeAck p a.id → a.ordered = false) → (i = .orderedAtomicPerform p a.id → a.ordered = true ∧ (s.chip p).ordDue a = true) →
    ∃ t, exec i s = .next t ∧ (t.chip p).pend = (s.chip p).pend.filter (fun b => b.id ≠ a.id) ∧
      s.SameBytesBut t (Target.Within p a.tgt a.size) ∧
      (a.kind = .store → s.canWrite p a.tgt a.size = true → t.HoldsBytes p a.tgt (leBytes a.size a.data.toNat)) ∧
      (∀ pa, a.tgt = .dram pa → (s.chip p).isPoisoned pa = true → s.SameBytes t) ∧
      (∀ aop cmp pr id, a.kind = .atomic aop cmp → a.prod = some id → tfind (s.chip p).prods id = some pr →
        (∀ bs, s.readTgt p a.tgt a.size = some bs → s.canWrite p a.tgt a.size = true →
          t.HoldsBytes p a.tgt (leBytes a.size (aopNew aop a.ty (ofLe bs) (a.data.toNat % 2 ^ a.ty.width) (cmp.toNat % 2 ^ a.ty.width))) ∧
          tfind (t.chip p).prods id = some { pr with res := pr.res ++ [(a.lane, .ok [lo32 (BitVec.ofNat 64 (ofLe bs)),
            hi32 (BitVec.ofNat 64 (ofLe bs))])] }) ∧
        (s.readTgt p a.tgt a.size = none → tfind (t.chip p).prods id =
          some { pr with res := pr.res ++ [(a.lane, .fail (statusWord codePoison 0 (s.chip p).chipId 0))] }))

/-- R67, R68, R70: a producer completes: every register of it is full, and its error bit is set exactly where its error mask is not zero; in a lane that
succeeded a lane register holds the lane's word, in one that failed the status word, with the lane's bit in the mask; other lanes and
registers hold what they held. -/
def Obligations.ProducerLands : Prop := ∀ (w : Wave) (pr : Producer), (pr.res.map (·.1)).Nodup → (pr.dests.map (·.1)).Nodup →
  (∀ d ∈ pr.dests, d.1 < 32 ∧ d.2.Nodup) → (∀ n, (w.lreg n).vals.length = 32) →
    (∀ r ∈ pr.regs, (w.land pr).isFull r = true ∧ (w.land pr).isErr r = decide ((w.land pr).errMask r ≠ 0)) ∧
    (∀ d ∈ pr.dests, ∀ j n, d.2[j]? = some (.v n) →
      (∀ ws, (d.1, LaneRes.ok ws) ∈ pr.res → (((w.land pr).lreg n).vals.getD d.1 0 = ws.getD j 0)) ∧
      (∀ st, (d.1, LaneRes.fail st) ∈ pr.res → (((w.land pr).lreg n).vals.getD d.1 0 = st ∧ laneOn ((w.land pr).lreg n).mask d.1 = true))) ∧
    (∀ n, RegRef.v n ∉ pr.regs → (w.land pr).lreg n = w.lreg n) ∧ (∀ n, RegRef.s n ∉ pr.regs → (w.land pr).ureg n = w.ureg n) ∧
    (∀ n k, (∀ d ∈ pr.dests, d.1 = k → RegRef.v n ∉ d.2) → ((w.land pr).lreg n).vals.getD k 0 = (w.lreg n).vals.getD k 0) ∧
    (w.land pr).p = w.p ∧ (w.land pr).i = w.i ∧ (w.land pr).h = w.h ∧ (w.land pr).flags = w.flags

/-- R67, R68, R79, R82, R221: the last read of a load is performed: its lane ends with the bytes that its target holds, the path's own earlier stores laid
over them, or, where the line is poisoned, with a POISON status word, and the producer's registers become full; no byte of memory changes. A
bypassing load completes by LONG_LATENCY_COMPLETE, every other by LOAD_MISS_COMPLETE, one whose lanes have all hit a fused L1 with nothing to read. A
returning atomic, a remote group and a ticket complete when every lane has its result. Of other waves nothing changes but the tags of lines
that leave their L1 (R43). -/
def Obligations.LoadsComplete : Prop := ∀ (s : State) (p id : Nat) (pr : Producer) (w : Wave), tfind (s.chip p).prods id = some pr →
  s.wave? p pr.wid = some w → w.ended = false → w.saved = none →
  (∀ ty size fill l i tg, pr.kind = .load ty size fill [l] → l.tgts = [(i, tg)] → (s.chip p).readDue id pr tg size = true →
    (∀ d ∈ pr.dests, d.1 = l.lane ∨ pr.res.any (fun r => r.1 = d.1) = true) → (∃ pa, tg = .dram pa ∨ tg = .host pa) →
    let r := match s.readTgt p tg size with
      | some bs => LaneRes.ok (loadWords ty (layOver (overlay l.got i bs) l.fwd))
      | none => LaneRes.fail (statusWord codePoison 0 (s.chip p).chipId 0)
    ∃ t, exec (if fill then .loadMissComplete p id else .longLatencyComplete p id) s = .next t ∧
      t.untagged p pr.wid = some { w.land { pr with kind := .load ty size fill [], res := pr.res ++ [(l.lane, r)] } with vtags := [] } ∧
      tfind (t.chip p).prods id = none ∧ s.SameBytes t ∧ ∀ j, j ≠ pr.wid → t.untagged p j = s.untagged p j) ∧
  (∀ ty size fill, pr.kind = .load ty size fill [] → pr.allDone = true →
    ∃ t, exec (if fill then .loadMissComplete p id else .longLatencyComplete p id) s = .next t ∧ t.wave? p pr.wid = some (w.land pr) ∧
      tfind (t.chip p).prods id = none ∧ s.SameBytes t ∧ ∀ j, j ≠ pr.wid → t.wave? p j = s.wave? p j) ∧
  (pr.kind ∈ [.atomic, .remote, .ticket] → pr.allDone = true →
    ∃ t, exec (.longLatencyComplete p id) s = .next t ∧ t.wave? p pr.wid = some (w.land pr) ∧ tfind (t.chip p).prods id = none ∧
      s.SameBytes t ∧ ∀ j, j ≠ pr.wid → t.wave? p j = s.wave? p j)

/-! ## Synchronisation -/

/-- R84, R96, R230, R254, R366: `rel`, which in fixed gear first performs the stores in the wave's buffer, completes where every earlier store and atomic of the
path is performed, its loads have returned and its array commands have done with local memory, and waits otherwise; a store of the path that is still pending makes it wait. `acq` completes
where the loads and returning atomics have returned, and empties the L1 that its scope names; `fence` is both. None changes a register or a
byte of memory. A release at chip or pod scope makes the code lines that the wave has written new (R85). -/
def Obligations.Fences : Prop := ∀ (o : Ops) (s : State) (x : Iss),
  issOf (formFence o) o s = some x → x.calm s = true → x.go = true →
    (let s1 := x.drain s
     let s2 := x.publish s1 o.scope
     x.released s1 o.scope = true →
      (x.calmAfter s2 = true → exec (.rel o) s = .next (x.onFrom s2 x.onward)) ∧
      (x.acquired s1 = true → x.calmAfter (x.acquire s2 o.scope) = true → exec (.fence o) s = .next (x.onFrom (x.acquire s2 o.scope) x.onward))) ∧
    ((x.fg = true → x.w.buf = []) → x.released s o.scope = false → ∃ t, exec (.rel o) s = .next t ∧ x.Polls s t) ∧
    ((x.fg = true → x.w.buf = []) → (∃ a ∈ (s.chip x.p).pend, a.wid = x.wid ∧ a.pathMask &&& x.q.mask ≠ 0) → ∃ t, exec (.rel o) s = .next t ∧ x.Polls s t) ∧
    (x.acquired s = true → ∃ t w, exec (.acq o) s = .next t ∧ x.Through s t w ∧ x.w.SameRegs w ∧ w.flags = x.w.flags ∧ s.SameBytes t ∧
      x.Acquired s t o.scope) ∧
    (x.acquired s = false → ∃ t, exec (.acq o) s = .next t ∧ x.Polls s t) ∧
    ((x.fg = true → x.w.buf = []) → x.released s o.scope = true → x.acquired s = true → x.calmAfter (x.publish s o.scope) = true → ∃ t w, exec (.fence o) s = .next t ∧ x.Through s t w ∧ x.w.SameRegs w ∧
      w.flags = x.w.flags ∧ s.SameBytes t ∧ x.Acquired s t o.scope) ∧
    ((x.fg = true → x.w.buf = []) → x.released s o.scope = false ∨ x.acquired s = false → ∃ t, exec (.fence o) s = .next t ∧ x.Polls s t)

/-- R231, R359, R361: `bar`, in fixed gear at its turn. An arrival that does not complete the phase is noted, its count fixed by the first arrival, and its path waits; one
that completes it starts the next phase with no arrival and no count and lets the waiting waves go on, with true for the predicate of the last arriver, which is the wave itself,
in fixed gear that of the greatest number, and false for the others'; in fixed gear each of them gets a clock behind its own and that of the arrival. R96, R232, R308: a path that a barrier, a barrier object or a collective has let go goes on, when it may issue, once its earlier loads and
returning atomics have returned: its destination predicate or status register is written, the L1 that its scope names is invalidated, and the
path stands behind its word with no other register changed; until then it waits. -/
def Obligations.BlockBarrier : Prop :=
  (∀ (o : Ops) (s : State) (x : Iss) (b : Block), issOf (formBar o) o s = some x → x.calm s = true →
  x.go = true → x.atTurn s [] → x.w.path? x.sl.other = none → tfind (s.chip x.p).blocks x.w.blk = some b → x.released s o.scope = true →
  x.calmAfter (x.publish s o.scope) = true → ((s.chip x.p).waves.map (·.1)).Nodup →
    let id := fld o.mmod 5 2
    let bar := tget Bar.zero b.bars id
    let count := if bar.fixed then bar.count else o.mmod % 32 + 1
    let pd := match o.d with
      | .pred n => some n
      | _ => none
    let holds := fun (t : State) (v : Bar) => (tfind (t.chip x.p).blocks x.w.blk).map (fun k => tget Bar.zero k.bars id) = some v
    (x.wid ∉ bar.arrived → bar.arrived.length + 1 < count →
      ∃ t w, exec (.bar o) s = .next t ∧ t.last = .notReady ∧ t.wave? x.p x.wid = some w ∧ x.w.SameRegs w ∧ s.SameBytes t ∧
        w.path? x.sl = some { x.q with wait := .bar x.half id (o.mmod % 32 + 1) o.scope pd, fresh := false, ord := false } ∧
        holds t { arrived := bar.arrived ++ [x.wid], count := count, fixed := true, phase := bar.phase }) ∧
    (bar.arrived = [] → count ≤ 1 → x.acquired s = false →
      ∃ t w, exec (.bar o) s = .next t ∧ t.last = .notReady ∧ t.wave? x.p x.wid = some w ∧ x.w.SameRegs w ∧ s.SameBytes t ∧
        w.path? x.sl = some { x.q with wait := .freed x.half o.scope (barVal pd true), fresh := false, ord := false } ∧
        holds t { arrived := [], count := 0, fixed := false, phase := !bar.phase }) ∧
    (bar.arrived = [] → count ≤ 1 → x.acquired s = true →
      ∃ t w, exec (.bar o) s = .next t ∧ x.Through s t w ∧ s.SameBytes t ∧ x.Acquired s t o.scope ∧ w.v = x.w.v ∧ w.s = x.w.s ∧ w.flags = x.w.flags ∧
        holds t { arrived := [], count := 0, fixed := false, phase := !bar.phase } ∧
        ∀ n, pd = some n → ∀ k, laneOn x.q.mask k = true → k < 32 → w.pbit n.toNat k = true) ∧
    (∀ j u q m scope pj, bar.arrived = [j] → j ≠ x.wid → count = 2 → s.wave? x.p j = some u → u.slotA = some q → u.slotB = none → u.heap = [] →
      q.wait = .bar .single id m scope pj → x.acquired s = true →
      let other := x.fg && decide (x.w.wno < u.wno)
      ∃ t w v, exec (.bar o) s = .next t ∧ t.last = .completed ∧ t.wave? x.p x.wid = some w ∧ w.path? x.sl = some x.onward ∧
        t.wave? x.p j = some v ∧ v.slotA = some { q with wait := .freed .single scope (barVal pj other) } ∧
        (∀ n, pd = some n → n ≠ 7 → ∀ k, laneOn x.q.mask k = true → k < 32 → w.pbit n.toNat k = !other) ∧
        v.clock = (if x.fg then (u.freeClock x.time).clock else u.clock) ∧ v.v = u.v ∧ v.s = u.s ∧ v.p = u.p ∧ s.SameBytes t ∧ holds t { arrived := [], count := 0, fixed := false, phase := !bar.phase })) ∧
  (∀ (s : State) (c : Cursor) (w : Wave) (q : Path) (half : Half) (scope : Nat) (val : FreedVal),
  s.MayIssue c w q → q.wait = .freed half scope val →
  ((s.chip c.pkg).acqReady c.wid q.mask = false → ∃ t, issueWord exec s c = .next t ∧ t.last = .notReady ∧ s.SameBytes t ∧
    t.wave? c.pkg c.wid = some w) ∧
  (∀ n, (half = .single ∧ n = 1) ∨ (half = .second ∧ n = 2) → (s.chip c.pkg).acqReady c.wid q.mask = true →
    w.path? c.slot.other = none → w.heap = [] → w.heapRes = 0 → (w.hmode = true ∨ s.cpOf c.pkg w (pcNext q.pc n) = false) →
    ∃ t u, issueWord exec s c = .next t ∧ t.last = .completed ∧ t.wave? c.pkg c.wid = some u ∧ s.SameBytes t ∧
      u.path? c.slot = some (q.goTo (pcNext q.pc n)) ∧ u.v = w.v ∧ u.p = (val.write q w).p ∧ u.s = (val.write q w).s ∧ u.flags = w.flags ∧
      (t.chip c.pkg).cores = ((s.chip c.pkg).acquire w.core scope).cores))

/-- R98, R217, R232, R359, R361: phase-bit barrier objects, in fixed gear at the wave's turn. `pbar.init` stores a word of its count, pending as often, with phase 0, in
fixed gear at once; `pbar.arr` performs one arrival once its release may complete; `pbar.wait` completes where the phase differs from q and acquires, and otherwise polls, or
in fixed gear parks on the object; an arrival that completes the phase lets a wave parked on it go on, with a clock behind its own and that of the arrival;
`pbar.test` writes whether it differs. -/
def Obligations.PhaseBarriers : Prop := ∀ (o : Ops) (s : State) (x : Iss) (tg : Target), x.calm s = true → x.go = true → x.atTurn s [(tg, 8)] →
  x.object 8 = .ok tg → x.arrayHolds true [(0, tg)] 8 = false →
    let word := ofLe (x.objectBytes s tg 8)
    (issOf (formPbar 0 o) o s = some x → x.fg = true → s.canWrite x.p tg 8 = true →
      ∃ t w, exec (.pbarInit o) s = .next t ∧ x.Through s t w ∧ x.w.SameRegs w ∧ w.flags = x.w.flags ∧
        t.HoldsBytes x.p tg (leBytes 8 (fld (x.word .b x.low 0).toNat 0 16 * (2 ^ 32 + 1))) ∧ s.SameBytesBut t (Target.Within x.p tg 8) ∧
        (s.chip x.p).Started (t.chip x.p) none []) ∧
    (issOf (formPbar 0 o) o s = some x → x.fg = false →
      ∃ t w a, exec (.pbarInit o) s = .next t ∧ x.Through s t w ∧ x.w.SameRegs w ∧ w.flags = x.w.flags ∧ s.SameBytes t ∧
        (s.chip x.p).Started (t.chip x.p) none [a] ∧ a.wid = x.wid ∧ a.kind = .store ∧ a.tgt = tg ∧ a.size = 8 ∧
        a.data.toNat = fld (x.word .b x.low 0).toNat 0 16 * (2 ^ 32 + 1)) ∧
    (issOf (formPbar 1 o) o s = some x → x.released s o.scope = true → x.calmAfter (x.publish s o.scope) = true → (s.chip x.p).slotPaths.all (fun e => match e.2.2.wait with
        | .pbar _ _ _ _ => false
        | _ => true) = true →
      ∃ t w, exec (.pbarArr o) s = .next t ∧ x.Through s t w ∧ x.w.SameRegs w ∧ w.flags = x.w.flags ∧
        t.HoldsBytes x.p tg (leBytes 8 (pbarNext (ofLe ((s.readTgt x.p tg 8).getD [])))) ∧ s.SameBytesBut t (Target.Within x.p tg 8)) ∧
    (∀ j u q m scope, issOf (formPbar 1 o) o s = some x → x.fg = true → x.released s o.scope = true → x.calmAfter (x.publish s o.scope) = true →
      ((s.chip x.p).waves.map (·.1)).Nodup → j ≠ x.wid → s.wave? x.p j = some u → u.slotA = some q → u.slotB = none →
      q.wait = .pbar .single tg m scope → fld (ofLe ((s.readTgt x.p tg 8).getD [])) 0 16 = 1 → nbit (ofLe ((s.readTgt x.p tg 8).getD [])) 63 = m →
      ∃ t v, exec (.pbarArr o) s = .next t ∧ t.last = .completed ∧ t.wave? x.p j = some v ∧ v.clock = (u.freeClock x.time).clock ∧
        v.slotA = some { q with wait := .freed .single scope .none } ∧ v.v = u.v ∧ v.s = u.s ∧ v.p = u.p) ∧
    (issOf (formPbar 2 o) o s = some x →
      (nbit word 63 ≠ pbarQ o → x.acquired s = true → ∃ t w, exec (.pbarWait o) s = .next t ∧ x.Through s t w ∧ x.w.SameRegs w ∧
        w.flags = x.w.flags ∧ s.SameBytes t ∧ x.Acquired s t o.scope) ∧
      (nbit word 63 ≠ pbarQ o → x.acquired s = false → ∃ t w, exec (.pbarWait o) s = .next t ∧ t.last = .notReady ∧
        t.wave? x.p x.wid = some w ∧ x.w.SameRegs w ∧ s.SameBytes t ∧
        w.path? x.sl = some { x.q with wait := .freed x.half o.scope .none, fresh := false, ord := false }) ∧
      (nbit word 63 = pbarQ o → x.fg = false → ∃ t, exec (.pbarWait o) s = .next t ∧ x.Polls s t) ∧
      (nbit word 63 = pbarQ o → x.fg = true → ∃ t w, exec (.pbarWait o) s = .next t ∧ t.last = .notReady ∧ t.wave? x.p x.wid = some w ∧ x.w.SameRegs w ∧
        s.SameBytes t ∧ w.path? x.sl = some { x.q with wait := .pbar x.half tg (pbarQ o) o.scope, fresh := false, ord := false })) ∧
    (issOf (formPbar 3 o) o s = some x → o.d.isPred = true → x.acquired s = true →
      ∃ t w, exec (.pbarTest o) s = .next t ∧ x.Through s t w ∧ s.SameBytes t ∧ w.flags = x.w.flags ∧
        x.Holds w 1 (fun _ _ => if nbit word 63 ≠ pbarQ o then 1 else 0) ∧ x.Acquired s t (if nbit word 63 ≠ pbarQ o then o.scope else 0))

/-! ## Copies and remote operations -/

/-- R235 to R237, R240, R359: a copy command starts, in fixed gear a remote one at its turn and with the clock before its word: its status register is emptied, and a command stands behind those of the package with its addresses, length,
tag and operation, none of its units moved. An INC put to another chip, which asks for its turn first, is not among these. No byte of memory
changes. -/
def Obligations.CopiesStart : Prop := ∀ (o : Ops), ∀ e ∈ [(Instr.cpy o, formCopy true true false false o, false, false, (none : Option (Nat × Ty))),
    (.put o, formCopy false true true false o, true, false, none), (.get o, formCopy true false false false o, false, true, none),
    (.putRed o, formCopy false true true true o, true, false, some (copyRop o, o.ty)),
    (.getRed o, formCopy true false false true o, false, true, some (copyRop o, o.ty))],
  ∀ (s : State) (x : Iss), issOf e.2.1 o s = some x → x.calm s = true → x.go = true → (e.2.2.1 = true ∨ e.2.2.2.1 = true → x.atTurn s []) →
    x.copyTrap e.2.2.1 e.2.2.2.1 e.2.2.2.2 = none → x.c.inFlight84 x.w.core < 512 →
    (copyInc o = false ∨ x.copyDst / 2 ^ 48 = x.c.chipId) →
      ∃ t w pr k, exec e.1 s = .next t ∧ x.Through s t w ∧ s.SameBytes t ∧ x.w.Emptied w (x.w.refs x.q.wbase o.d 0 1 0) ∧
        w.flags = x.w.flags ||| (if e.2.2.1 then x.apxFlag else 0) ∧ (s.chip x.p).Started (t.chip x.p) (some pr) [] ∧ pr.wid = x.wid ∧
        pr.kind = .copy ∧ pr.dests = [(0, x.w.refs x.q.wbase o.d 0 1 0)] ∧ (t.chip x.p).copies = (s.chip x.p).copies ++ [k] ∧
        k.wid = x.wid ∧ k.put = e.2.2.1 ∧ k.get = e.2.2.2.1 ∧ k.red = e.2.2.2.2 ∧ k.dl = copyDl o ∧ k.sl = copySl o ∧
        k.dst.toNat = x.gaddr x.low ∧ k.src = x.dword .b x.low ∧ k.len = (x.word .b x.low 2).toNat ∧ k.tag = x.word .b x.low 3 ∧
        k.record = copyRec o ∧ k.prod = (s.chip x.p).next ∧ k.sent = [] ∧ k.finished = [] ∧ k.failed = none ∧ (k.granted = !copyInc o) ∧ k.clock = x.time

/-- R68, R89, R238 to R240: the copy unit moves a 16-byte unit between targets of its own chip: the destination holds the source's bytes, or for a reducing
copy the reduction of both element by element, where a local source of fixed gear shows the wave's buffered stores (R364); every other byte of memory is as it was, and the unit is counted as written. A command whose units
have all ended completes: its status register becomes full with zero, or with the status of the first failure and its error bit; one with REC
leaves a completion record with its tag and the units written. An INC put to its own chip starts its units when SERVING equals its ticket.
The error mask of a failed command is that of R239, not of R68 (the model's choice, log entry 86). -/
def Obligations.CopyUnit : Prop :=
  (∀ (s : State) (p cmd u : Nat) (k : CopyCmd) (src dst : Target) (bs old : List Byte),
  (s.chip p).copy? cmd = some k → s.unitDue p k u = true →
  (k.get = true → k.srcAt u / 2 ^ 48 = (s.chip p).chipId) → (k.put = true → k.dstAt u / 2 ^ 48 = (s.chip p).chipId) →
  s.NoAsk →
  (if k.sl then (s.chip p).localAt k.blk (k.srcAt u) 16 = some src
    else s.UnitAt p (askCopy k.id) k.asid (k.srcAt u) .unitRead (tfind (s.chip p).waves k.wid) src) →
  (if k.dl then (s.chip p).localAt k.blk (k.dstAt u) 16 = some dst
    else s.UnitAt p (askCopy k.id) k.asid (k.dstAt u) (writeKind k.red) (tfind (s.chip p).waves k.wid) dst) →
  (∀ pa, src ≠ .aperture pa) → s.readTgt p src 16 = some bs → s.readTgt p dst 16 = some old → s.canWrite p dst 16 = true →
    let got := if k.sl then layOver bs (((tfind (s.chip p).waves k.wid).map (fun w => w.bufBytes src 16)).getD []) else bs
    let new := match k.red with
      | none => got
      | some (rop, ty) => redBytes rop ty got old
    new.length = 16 →
    ∃ t, exec (.copyUnitTransfer p cmd u) s = .next t ∧ t.HoldsBytes p dst new ∧ s.SameBytesBut t (Target.Within p dst 16) ∧
      (t.chip p).copy? cmd = some { k with sent := k.sent ++ [u], finished := k.finished ++ [u], wrote := k.wrote + 1 } ∧
      (t.chip p).waves = (s.chip p).waves) ∧
  (∀ (s : State) (p cmd : Nat) (k : CopyCmd), (s.chip p).copy? cmd = some k →
  (∀ pr w, k.sent.all k.finished.contains = true → (k.failed = none → k.finished.length = k.units) → k.inc = false →
    tfind (s.chip p).prods k.prod = some pr → s.wave? p pr.wid = some w → w.ended = false → w.saved = none →
    let res := match k.failed with
      | none => LaneRes.ok [0]
      | some st => LaneRes.fail st
    ∃ t, exec (.copyCommandComplete p cmd) s = .next t ∧ t.wave? p pr.wid = some (w.land { pr with res := pr.res ++ [(0, res)] }) ∧
      tfind (t.chip p).prods k.prod = none ∧ (t.chip p).copies = (s.chip p).copies.filter (fun j => j.id ≠ k.id) ∧ s.SameBytes t ∧
      (k.record = false → (t.chip p).recOut = (s.chip p).recOut) ∧
      (k.record = true → ∃ r, (t.chip p).recOut = (s.chip p).recOut ++ [r] ∧ r.cluster = clusterOf k.core ∧ r.tag = k.tag ∧
        r.count = BitVec.ofNat 32 k.wrote ∧ r.status = k.failed.getD 0 ∧ r.unit = k.unitNo)) ∧
  (k.inc = true → k.granted = false → k.failed = none → k.dst.toNat / 2 ^ 48 = (s.chip p).chipId →
    ((s.chip p).incastAt k.counter).2.toNat = k.ticketNo →
    ∃ t, exec (.incastServe p cmd) s = .next t ∧ (t.chip p).copy? cmd = some { k with granted := true } ∧ s.SameBytes t))

/-- R105, R106, R240, R241: `ticket` on a counter of its own chip takes NEXT, which advances; `ratom` on words of its own chip empties its destination and
sends one request for each address; a request of one lane performed there leaves what the operation makes of the old word and gives the lane
the old word. R359: in fixed gear both are performed when they issue, at the wave's turn. -/
def Obligations.RemoteAtomics : Prop := ∀ (o : Ops) (s : State) (x : Iss),
  (issOf (formTicket o) o s = some x → x.calm s = true → x.go = true → x.myTurn = true →
    fld (x.word .a x.low 0).toNat 8 9 = x.c.chipId → capLacks (x.c.capOf x.c.chipId) capInc = false → x.c.unable capInc = false →
    x.c.inFlight84 x.w.core < 512 →
      let n := fld (x.word .a x.low 0).toNat 0 8
      ∃ t w pr, exec (.ticket o) s = .next t ∧ x.Through s t w ∧ s.SameBytes t ∧ w.flags = x.w.flags ∧
        x.w.Emptied w ((x.destRefs 1).flatMap (·.2)) ∧ (s.chip x.p).Started (t.chip x.p) (some pr) [] ∧ pr.kind = .ticket ∧
        pr.res = [(x.low, .ok [BitVec.ofNat 32 (x.c.incastAt n).1.toNat])] ∧
        (t.chip x.p).incastAt n = ((x.c.incastAt n).1 + 1, (x.c.incastAt n).2)) ∧
  (issOf (formAtom 2 o) o s = some x → x.calm s = true → x.fg = false → x.outLanes ≠ [] →
    (∀ k ∈ x.outLanes, x.gaddr k / 2 ^ 48 = x.c.chipId ∧ x.gaddr k % (o.ty.width / 8) = 0) → x.c.chipId < 512 →
    capLacks (x.c.capOf x.c.chipId) (capAopBit (aopOf o)) = false → x.ordBlocked = false →
    (o.hs = true → x.w.ordSeq = []) →
      ∃ t w pr, exec (.ratom o) s = .next t ∧ x.Through s t w ∧ s.SameBytes t ∧ w.flags = x.w.flags ||| x.apxFlag ∧
        x.w.Emptied w ((x.destRefs o.ty.regs).flatMap (·.2)) ∧ (s.chip x.p).Started (t.chip x.p) (some pr) [] ∧ pr.kind = .remote ∧
        pr.dests = x.destRefs o.ty.regs ∧ (t.chip x.p).requests = (s.chip x.p).requests ++
          (groupLanes (x.outLanes.map (fun k => (k, x.gaddr k)))).map (fun g =>
            { x.atPacket (s.chip x.p).next g (laneMask g.2).toNat with src := x.c.chipId, tid := 0 })) ∧
  (∀ (k : Nat) (tg : Target) (bs : List Byte), issOf (formAtom 2 o) o s = some x → x.calm s = true → x.fg = true → x.outLanes = [k] →
    x.gaddr k / 2 ^ 48 = x.c.chipId → x.gaddr k % (o.ty.width / 8) = 0 → x.c.chipId < 512 → s.pkgOf x.c.chipId = some x.p →
    capLacks (x.c.capOf x.c.chipId) (capAopBit (aopOf o)) = false → x.c.unable (capAopBit (aopOf o)) = false → x.ordBlocked = false →
    (o.hs = true → x.w.ordSeq = []) → x.atTurn s [(tg, o.ty.width / 8)] → (∀ pa, tg ≠ .aperture pa) →
    s.sideAt x.p x.w.blk (x.c.asidOf x.w.grow) false (x.gaddr k) = some (x.p, tg) →
    s.UnitAt x.p (askReq { x.atPacket (s.chip x.p).next (x.gaddr k, [k]) (laneMask [k]).toNat with src := x.c.chipId }) (x.c.asidOf x.w.grow) (x.gaddr k) .atomic
      (some x.w) tg →
    s.readTgt x.p tg (o.ty.width / 8) = some bs → s.canWrite x.p tg (o.ty.width / 8) = true →
      ∃ t w pr, exec (.ratom o) s = .next t ∧ x.Through s t w ∧ w.flags = x.w.flags ||| x.apxFlag ∧
        x.w.Emptied w ((x.destRefs o.ty.regs).flatMap (·.2)) ∧ (t.chip x.p).requests = (s.chip x.p).requests ∧
        t.HoldsBytes x.p tg (leBytes (o.ty.width / 8) (aopNew (aopOf o) o.ty (ofLe bs) ((x.atomVals k).1.toNat % 2 ^ o.ty.width)
          ((x.atomVals k).2.toNat % 2 ^ o.ty.width))) ∧ s.SameBytesBut t (Target.Within x.p tg (o.ty.width / 8)) ∧
        tfind (t.chip x.p).prods (s.chip x.p).next = some pr ∧ pr.kind = .remote ∧ pr.dests = x.destRefs o.ty.regs ∧
        pr.res = [(k, .ok [BitVec.ofNat 32 (ofLe bs), BitVec.ofNat 32 (ofLe bs / 2 ^ 32)])]) ∧
  (∀ (p k : Nat) (pk : Packet) (pr : Producer) (tg : Target) (bs : List Byte), (s.chip p).got = [] → (s.chip p).requests = [pk] → pk.ptype = 5 →
    (s.chip p).groupClear pk = true → pk.dst = (s.chip p).chipId → fld pk.opw.toNat 8 8 = 1 → k < 32 → pk.unit = 2 ^ k → pk.ty.width = (if nbit pk.opw.toNat 4 then 64 else 32) →
    pk.data.length = pk.ty.width / 8 → (s.chip p).unable (capAopBit (fld pk.opw.toNat 0 4)) = false →
    s.ReqAt p pk .atomic tg → (∀ pa, tg ≠ .aperture pa) → s.readTgt p tg (pk.ty.width / 8) = some bs →
    s.canWrite p tg (pk.ty.width / 8) = true → tfind (s.chip p).prods pk.ctx = some pr →
      ∃ t, exec (.ratomGroupComplete p 0) s = .next t ∧ (t.chip p).requests = [] ∧
        t.HoldsBytes p tg (leBytes (pk.ty.width / 8) (aopNew (fld pk.opw.toNat 0 4) pk.ty (ofLe bs) (ofLe pk.data) 0)) ∧
        s.SameBytesBut t (Target.Within p tg (pk.ty.width / 8)) ∧
        tfind (t.chip p).prods pk.ctx =
          some { pr with res := pr.res ++ [(k, .ok [BitVec.ofNat 32 (ofLe bs), BitVec.ofNat 32 (ofLe bs / 2 ^ 32)])] })

/-! ## Windows, tile words, the residency table -/

/-- R98, R244, R282: waves and windows. `wwait` completes where its slot is the block's with the phase it names, polls otherwise, and traps where the
slot is marked failed; the testing form writes whether it is; `wfree` gives the slot back once the wave's local stores are performed; `wpost` adds
to the header's low half, and traps rather than let it overflow. A handle that names no window of the allocation traps.
That the testing form writes its predicate in the guard-true active lanes is the model's choice (log entry 87). -/
def Obligations.Windows : Prop := ∀ (o : Ops) (s : State) (x : Iss), x.calm s = true → x.go = true →
  (∀ tg j, x.winSlot = .ok (tg, j) →
    let at_ := tg.shift (16 + 8 * j)
    let st := ofLe (x.objectBytes s at_ 8)
    let hit := nbit st 0 && nbit st 1 == x.slotQ
    (issOf (formWin false o) o s = some x →
      (hit = true → nbit st 2 = false → x.arrayHolds false [(0, at_)] 8 = false → exec (.wwait o) s = .next (x.after s x.w)) ∧
      (hit = false ∨ x.arrayHolds false [(0, at_)] 8 = true → ∃ t, exec (.wwait o) s = .next t ∧ x.Polls s t) ∧
      (x.fg = false → (s.chip x.p).localDone x.wid = true → nbit st 0 = true → st < 2 ^ 64 →
        ∃ t w, exec (.wfree o) s = .next t ∧ x.Through s t w ∧ x.w.SameRegs w ∧ w.flags = x.w.flags ∧
          t.HoldsBytes x.p at_ (leBytes 8 (st - 1)) ∧ s.SameBytesBut t (Target.Within x.p at_ 8)) ∧
      (x.fg = false → (s.chip x.p).localDone x.wid = false → ∃ t, exec (.wfree o) s = .next t ∧ x.Polls s t)) ∧
    (issOf (formWin true o) o s = some x → o.d.isPred = true → (hit && nbit st 2) = false → x.arrayHolds false [(0, at_)] 8 = false →
      ∃ t, exec (.wwaitTest o) s = .next t ∧ x.Wrote s t 1 (fun _ _ => if hit then 1 else 0) 0) ∧
    (hit = true → nbit st 2 = true → x.arrayHolds false [(0, at_)] 8 = false → ∀ e ∈ [(Instr.wwait o, formWin false o), (Instr.wwaitTest o, formWin true o)], issOf e.2 o s = some x →
      ∃ t, exec e.1 s = .next t ∧ s.SameBytes t ∧ t.last = .trapped 0x19 0 0 (BitVec.ofNat 32 (fld st 32 32)) (BitVec.ofNat 32 j))) ∧
  (∀ tg, x.window = some tg → issOf (formWin false o) o s = some x → x.fg = false →
    (s.chip x.p).pend.all (fun a => !(a.own x.wid x.q.mask)) = true → x.c.badAt tg 8 = false → x.arrayHolds true [(0, tg)] 8 = false →
    let hd := ofLe (x.objectBytes s tg 8)
    let k := (x.word .b x.low 0).toNat
    (fld hd 0 16 + k < 2 ^ 16 → ∃ t w, exec (.wpost o) s = .next t ∧ x.Through s t w ∧ x.w.SameRegs w ∧ w.flags = x.w.flags ∧
      t.HoldsBytes x.p tg (leBytes 8 (hd + k)) ∧ s.SameBytesBut t (Target.Within x.p tg 8)) ∧
    (2 ^ 16 ≤ fld hd 0 16 + k → ∃ t, exec (.wpost o) s = .next t ∧ s.SameBytes t ∧
      t.last = .trapped 0x18 0 0 (BitVec.ofNat 32 (fld hd 0 16)) (BitVec.ofNat 32 k))) ∧
  (x.window = none → ∀ e ∈ [(Instr.wwait o, formWin false o), (.wwaitTest o, formWin true o), (.wfree o, formWin false o),
      (.wpost o, formWin false o)], issOf e.2 o s = some x →
    ∃ t, exec e.1 s = .next t ∧ s.SameBytes t ∧ t.last = .trapped 0x11 0 (maskOf (· == x.low)) 0 0)

/-- R98, R246, R282: tile words. `obit.give` sets OWNER and clears ERR once the wave's local stores are performed; `obit.wait` completes where OWNER is 0,
polls where it is 1, and traps where the tile failed; `obit.test` writes whether OWNER is 0.
That `obit.test` writes its predicate in the guard-true active lanes is the model's choice (log entry 87). -/
def Obligations.TileWords : Prop := ∀ (o : Ops) (s : State) (x : Iss) (tg : Target), x.calm s = true → x.go = true → x.tileWord = .ok tg →
  let v := ofLe (x.objectBytes s tg 8)
  (issOf (formObit 0 o) o s = some x → x.fg = false →
    ((s.chip x.p).localDone x.wid = true → nbit v 0 = false →
      ∃ t w, exec (.obitGive o) s = .next t ∧ x.Through s t w ∧ x.w.SameRegs w ∧ w.flags = x.w.flags ∧
        t.HoldsBytes x.p tg (leBytes 8 (if nbit v 1 then v - 1 else v + 1)) ∧ s.SameBytesBut t (Target.Within x.p tg 8)) ∧
    ((s.chip x.p).localDone x.wid = false → ∃ t, exec (.obitGive o) s = .next t ∧ x.Polls s t)) ∧
  (issOf (formObit 1 o) o s = some x →
    (nbit v 0 = false → nbit v 1 = false → x.arrayHolds false [(0, tg)] 8 = false → exec (.obitWait o) s = .next (x.after s x.w)) ∧
    (nbit v 0 = true ∨ x.arrayHolds false [(0, tg)] 8 = true → ∃ t, exec (.obitWait o) s = .next t ∧ x.Polls s t)) ∧
  (issOf (formObit 2 o) o s = some x → o.d.isPred = true → (nbit v 0 = true ∨ nbit v 1 = false) → x.arrayHolds false [(0, tg)] 8 = false →
    ∃ t, exec (.obitTest o) s = .next t ∧ x.Wrote s t 1 (fun _ _ => if nbit v 0 then 0 else 1) 0) ∧
  (nbit v 0 = false → nbit v 1 = true → x.arrayHolds false [(0, tg)] 8 = false → ∀ e ∈ [(Instr.obitWait o, formObit 1 o), (.obitTest o, formObit 2 o)], issOf e.2 o s = some x →
    ∃ t, exec e.1 s = .next t ∧ s.SameBytes t ∧
      t.last = .trapped 0x19 0 0 (BitVec.ofNat 32 (fld v 32 32)) (BitVec.ofNat 32 (x.word .a x.low 0).toNat))

/-- R86, R87, R247: the residency table. `res.alloc` takes the lowest free entry, DEMOTED, with the base, lines and priority given, and answers status 0 and
its handle, or status REJECT with DETAIL 3 where none is free; the others act on the entry that their handle names, and answer REJECT with DETAIL 1
where it names none, and where it names an entry that is free (the model's choice, log entry 25): `pin` pins it or answers REJECT with DETAIL 2, `demote` and `evict` demote it, `free` frees it and advances its GEN, `prio`
changes its priority. -/
def Obligations.Residency : Prop := ∀ (o : Ops) (s : State) (x : Iss), x.calm s = true → x.go = true →
  let status := fun (w : Wave) (st : Word) => x.Holds w 1 (fun _ _ => st)
  let done := fun (i : Instr) (f : State → Wave → Prop) =>
    ∃ t w, exec i s = .next t ∧ x.Through s t w ∧ s.SameBytes t ∧ w.flags = x.w.flags ∧ f t w
  let only := fun (t : State) (n : Nat) (e : ResEntry) => (t.chip x.p).resAt n = e ∧ ∀ m, m ≠ n → (t.chip x.p).resAt m = x.c.resAt m
  (issOf (formRes 0 o) o s = some x → (x.dword .b x.low).toNat % 128 = 0 →
    (∀ n < 1024, (x.c.resAt n).state = .free → (∀ m < n, (x.c.resAt m).state ≠ .free) → done (.resAlloc o) (fun t w =>
      let lines := (x.word .b x.low 2).toNat
      x.Holds w 4 (fun _ j => [0, 0, BitVec.ofNat 32 n, (x.c.resAt n).gen].getD j 0) ∧
      only t n { x.c.resAt n with base := x.dword .b x.low, lines := if lines = 0 then 2 ^ 32 else lines,
                                  prio := fld (x.word .b x.low 3).toNat 0 3, state := .demoted, asid := x.c.asidOf x.w.grow })) ∧
    ((∀ n < 1024, (x.c.resAt n).state ≠ .free) → done (.resAlloc o) (fun t w =>
      x.Holds w 4 (fun _ j => if j = 0 then statusWord codeReject 0 x.c.chipId 3 else 0) ∧ (t.chip x.p).res = x.c.res))) ∧
  (x.resIndex = none → ∀ e ∈ [(Instr.resPin o, 1), (.resDemote o, 2), (.resEvict o, 3), (.resFree o, 4), (.resPrio o, 5)],
    issOf (formRes e.2 o) o s = some x →
    done e.1 (fun t w => status w (statusWord codeReject 0 x.c.chipId 1) ∧ (t.chip x.p).res = x.c.res)) ∧
  (∀ n, x.resIndex = some n →
    (issOf (formRes 1 o) o s = some x → done (.resPin o) (fun t w =>
      ((x.c.pin n).2 = true → status w 0 ∧ ((t.chip x.p).resAt n).state = .pinned) ∧
      ((x.c.pin n).2 = false → status w (statusWord codeReject 0 x.c.chipId 2) ∧ ((t.chip x.p).resAt n).state = .demoted))) ∧
    (issOf (formRes 2 o) o s = some x → done (.resDemote o) (fun t w => status w 0 ∧ only t n { x.c.resAt n with state := .demoted })) ∧
    (issOf (formRes 3 o) o s = some x → done (.resEvict o) (fun t w => status w 0 ∧ only t n { x.c.resAt n with state := .demoted })) ∧
    (issOf (formRes 4 o) o s = some x → done (.resFree o) (fun t w => status w 0 ∧
      only t n { x.c.resAt n with state := .free, gen := (x.c.resAt n).gen + 1 })) ∧
    (issOf (formRes 5 o) o s = some x → done (.resPrio o) (fun t w => status w 0 ∧
      only t n { x.c.resAt n with prio := fld (x.word .b x.low 0).toNat 0 3 })))

/-! ## The matrix array -/

/-- R253, R258 to R264, R268 to R271: a matrix instruction that passes the checks of R259 enters its array queue, with the fields of its encoding and the
records it has read, and changes no register and no byte of memory; `mst` and `mdrain`, which write local memory, set APXS in an open region. -/
def Obligations.ArrayCommands : Prop := ∀ (o : Ops) (s : State) (x : Iss) (b : Block), x.calm s = true →
  let fits := fun (fol : Bool) => x.arrayOpen b false fol ∧ wordR0 o + wordN o ≤ b.acc
  let len := if nbit o.modw 17 then 4 * wordN o else 1024 * wordN o
  let done := fun (i : Instr) (k : ArrCmd) => ∃ t, exec i s = .next t ∧ x.Queued s t b k
  (issOf (formArr Opd.none Opd.none Opd.none (2 ^ 17)) o s = some x → fits (nbit o.modw 16) →
    done (.mzero o) { x.arrBlank .mzero with fol := nbit o.modw 16, r0 := fld o.modw 0 8, n := fld o.modw 8 8 + 1 }) ∧
  (∀ tg, issOf (formArr (Opd.u 1) Opd.none Opd.none (2 ^ 18)) o s = some x → fits (nbit o.modw 16) →
    x.localRange (x.word .a x.low 0).toNat len 16 = .ok tg →
    let k := { x.arrBlank .mld with fol := nbit o.modw 16, r0 := fld o.modw 0 8, n := fld o.modw 8 8 + 1, sum := nbit o.modw 17 }
    done (.mld o) { k with reads := [(0, tg, len)] } ∧ done (.mst o) { k with op := .mst, writes := [(tg, len)] }) ∧
  (issOf (formArr (Opd.u 8) Opd.none Opd.none 4) o s = some x → x.arrayOpen b false (nbit o.modw 1) →
    let img := (List.range 8).map (fun j => x.word .a x.low j)
    imageBad img = false → done (.mcb o) { x.arrBlank .mcb with fol := nbit o.modw 1, bank := fld o.modw 0 1, image := img }) ∧
  (∀ tg fb rs, issOf (formArr (Opd.u 1) (Opd.u 1) Opd.none 4) o s = some x → x.arrayOpen b false (nbit o.modw 1) → x.recordAt .b 32 = .ok tg →
    x.readRecord s tg 32 = .ok fb → fld fb 130 126 = 0 → descBad (fbB fb) (fbSB fb) false = false →
    x.localRanges ((0, (x.word .a x.low 0).toNat, 65536, 64) :: (if descScp (fbB fb) then
      [(1, fbSB fb, 128 / descLen (fbB fb) * tileCols (descFmt (fbB fb)) * scaleBytes (fbB fb), scaleBytes (fbB fb))] else [])) = .ok rs →
    done (.mwld o) { x.arrBlank .mwld with fol := nbit o.modw 1, bank := fld o.modw 0 1, fb := BitVec.ofNat 256 fb, reads := rs }) ∧
  (∀ both tg fb rs bo, issOf (formArr (Opd.u 1) (Opd.u 1) Opd.bo (2 ^ 32)) o s = some x → x.arrayOpen b both false → x.recordAt .b 32 = .ok tg →
    x.readRecord s tg 32 = .ok fb →
    let bank := fld o.modw 16 1
    let banks := (if both then [false, true] else [false]).map (fun f => (x.c.core (b.arrayCore f)).bank bank)
    let q := tileCols (banks.headD Bank.empty).issFmt / 256
    mmaBad fb banks = false → wordR0 o + wordN o * q ≤ b.acc →
    x.localRanges (mmaRanges fb (x.word .a x.low 0).toNat (16 * fld o.modw 17 15) (wordN o)) = .ok rs → x.arrayBo .c = .ok bo →
    done (if both then .mmaT o else .mma o) { x.arrBlank (if both then .mmaT else .mma) with
      bank := bank, fb := BitVec.ofNat 256 fb, r0 := fld o.modw 0 8, n := fld o.modw 8 8 + 1, st := 16 * fld o.modw 17 15, q := q, reads := rs, bo := bo }) ∧
  (∀ tg d out rs bo, issOf (formMdrain o) o s = some x → x.arrayOpen b false (nbit o.modw 18) → x.recordAt .a 64 = .ok tg →
    x.readRecord s tg 64 = .ok d → drainBad d = false →
    let q := fld o.modw 16 2 + 1
    let size := (wordN o - 1) * dword32 d 1 + 256 * q * (o.ty.width / 8)
    wordR0 o + wordN o * q ≤ b.acc → x.localRange (dword32 d 0) size 16 = .ok out →
    x.localRanges (drainReads d (wordN o) (256 * q)) = .ok rs → x.arrayBo .b = .ok bo →
    done (.mdrain o) { x.arrBlank .mdrain with fol := nbit o.modw 18, desc := BitVec.ofNat 512 d, r0 := fld o.modw 0 8, n := fld o.modw 8 8 + 1,
                                               q := q, ty := o.ty, reads := rs, writes := [(out, size)], bo := bo })

/-- R253, R259, R273, R274, R282, R500: a matrix instruction does not issue while the queue is full; its checks in their order, with the number of the step
that failed in `sr.einfo1`; `mstat`
reads the status of the block's array; `msync` completes where no command of the wave is left in the queue, and polls otherwise.
The order of the traps within one step of R259, the gaps between rows, and `mstat` in a block with ACC 0 are the model's choice (log entry 88). -/
def Obligations.ArrayChecksAndStatus : Prop := ∀ (o : Ops) (s : State) (x : Iss) (b : Block), x.calm s = true → x.go = true →
  tfind x.c.blocks x.w.blk = some b →
  let room := decide ((x.c.core b.core).aq.length < 8)
  let retired := (x.c.core b.core).retired || b.tandem && (x.c.core (b.core + 1)).retired
  let traps := fun (i : Instr) (cause : Nat) (step : Word) => ∃ t, exec i s = .next t ∧ s.SameBytes t ∧ t.last = .trapped cause 0 0 step 0
  (∀ e ∈ [(Instr.mzero o, formArr Opd.none Opd.none Opd.none (2 ^ 17)), (.mld o, formArr (Opd.u 1) Opd.none Opd.none (2 ^ 18)),
      (.mst o, formArr (Opd.u 1) Opd.none Opd.none (2 ^ 18))], issOf e.2 o s = some x →
    (room = false → exec e.1 s = .next { s with last := .notReady }) ∧
    (room = true → retired = true → traps e.1 0x22 1) ∧
    (room = true → retired = false → b.acc = 0 → traps e.1 0x20 1) ∧
    (room = true → retired = false → b.acc ≠ 0 → nbit o.modw 16 = true → b.tandem = false → traps e.1 0x21 2) ∧
    (room = true → retired = false → b.acc ≠ 0 → (nbit o.modw 16 = true → b.tandem = true) → b.acc < fld o.modw 0 8 + fld o.modw 8 8 + 1 → traps e.1 0x20 5)) ∧
  (issOf (formMstat o) o s = some x → (nbit o.modw 16 = true → b.tandem = true) → ∃ t, exec (.mstat o) s = .next t ∧
    x.Wrote s t 2 (fun _ j => BitVec.ofNat 32 (arrayStatus x.c b (nbit o.modw 16) % 2 ^ 64 / 2 ^ (32 * j))) 0) ∧
  (issOf (formBare true) o s = some x → ((x.c.core b.core).aq.all (fun k => k.wid ≠ x.wid) = true → exec (.msync o) s = .next (x.after s x.w)) ∧
    ((x.c.core b.core).aq.any (fun k => k.wid = x.wid) = true → ∃ t, exec (.msync o) s = .next t ∧ x.Polls s t))

/-- R253, R262, R263, R269 to R272: what each array command, of the leader's array or of its follower's, does when it is due and no local operand of it is damaged: the tile, check data and codebook of a bank, zeroed rows, rows loaded from and
stored to local memory, a drain of one row. Only the rows, the bank and the bytes it names change, and the command is marked as performed.
That a drain reads every operand before it writes is the model's choice (log entry 88). -/
def Obligations.ArrayPerformed : Prop := ∀ (s : State) (p core idx : Nat) (k : ArrCmd), (∀ w, s.wave? p k.wid = some w → w.buf = []) →
  let c := s.chip p
  let n := core + b2n k.fol
  let u := c.core n
  let bs := s.roleBytes p k 0
  let due := fun op => c.arrayDue core idx (fun o => o = op) = some k ∧ k.op = op ∧ c.badRow k k.allRows = none
  let only := fun (i : Instr) (f : Core → Prop) => ∃ t, exec i s = .next t ∧ s.SameBytes t ∧ c.ArrMarked (t.chip p) core k ∧
    (t.chip p).waves = c.waves ∧ f ((t.chip p).core n)
  (due .mwld → only (.mwldPerform p core idx) (fun v => v.acc = u.acc ∧ v.sums = u.sums ∧
    let b := v.bank k.bank
    b.loaded = true ∧ b.efmt = descFmt (fbB k.fb.toNat) ∧ b.scp = descScp (fbB k.fb.toNat) ∧ (∀ i, memRead b.tile i = bs.getD i 0) ∧
      b.check = (List.range 128).map b.rowCheck ∧
      ∀ m, m ≠ k.bank → v.bank m = u.bank m)) ∧
  (due .mcb → only (.mcbPerform p core idx) (fun v => v.acc = u.acc ∧ v.sums = u.sums ∧
    let b := v.bank k.bank
    (∀ e < 16, b.cbT.getD e 0 = BitVec.ofNat 8 (fld (k.image.getD (e / 4) 0).toNat (8 * (e % 4)) 8)) ∧
      b.cbX = BitVec.ofNat 5 (k.image.getD 4 0).toNat ∧ b.tile = (u.bank k.bank).tile ∧ ∀ m, m ≠ k.bank → v.bank m = u.bank m)) ∧
  (due .mzero → only (.mzeroPerform p core idx) (fun v => u.RowsBut v k.r0 k.n ∧ v.banks = u.banks ∧
    ∀ r, k.r0 ≤ r → r < k.r0 + k.n → v.sumCell r = 0 ∧ ∀ i < 256, v.cell r i = 0)) ∧
  (due .mld → only (.mldPerform p core idx) (fun v => u.RowsBut v k.r0 k.n ∧ v.banks = u.banks ∧ ∀ j < k.n,
    let word := fun i => (wordsOf (bs.length / 4) bs).getD i 0
    (k.sum = true → v.sumCell (k.r0 + j) = word j ∧ ∀ i < 256, v.cell (k.r0 + j) i = u.cell (k.r0 + j) i) ∧
    (k.sum = false → v.sumCell (k.r0 + j) = u.sumCell (k.r0 + j) ∧ ∀ i < 256, v.cell (k.r0 + j) i = word (256 * j + i)))) ∧
  (∀ b f o z, due .mst → k.writes = [(.loc b f o, z)] →
    let rows := (List.range k.n).flatMap (fun j =>
      if k.sum then [u.sumCell (k.r0 + j)] else (List.range 256).map (fun i => u.cell (k.r0 + j) i))
    let out := rows.flatMap (fun v => leBytes 4 v.toNat)
    s.canWrite p (.loc b f o) out.length = true →
    ∃ t, exec (.mstPerform p core idx) s = .next t ∧ t.HoldsBytes p (.loc b f o) out ∧
      s.SameBytesBut t (Target.Within p (.loc b f o) out.length) ∧ c.ArrMarked (t.chip p) core k ∧ ((t.chip p).core n).acc = u.acc) ∧
  (∀ b f o z, due .mdrain → k.n = 1 → k.writes = [(.loc b f o, z)] →
    let d := k.desc.toNat
    let f32 := fun (l : List Byte) i => fval .f32 (ofLe ((l.drop (4 * i)).take 4))
    let size := (resType d).width / 8
    let row := (List.range (256 * k.q)).map (fun i => drainElem d 0 i k.ty (drainVal (drAccm d) (u.cell (k.r0 + i / 256) (i % 256)))
      (drainVal (drAccm d) (u.sumCell (k.r0 + i / 256))) (f32 (s.roleBytes p k 4) i) (f32 (s.roleBytes p k 3) i)
      (fval (resType d) (ofLe (((s.roleBytes p k 5).drop (i * size)).take size))))
    let out := row.flatMap (fun v => leBytes (k.ty.width / 8) (modPow v.1 (8 * (k.ty.width / 8))))
    s.canWrite p (.loc b f o) out.length = true →
    ∃ t, exec (.mdrainPerform p core idx) s = .next t ∧ t.HoldsBytes p (.loc b f o) out ∧
      s.SameBytesBut t (Target.Within p (.loc b f o) out.length) ∧ ((t.chip p).core n).acc = u.acc ∧
      c.ArrMarked (t.chip p) core { k with flags := if row.any (fun v => v.2) then flagQsat else 0 })

/-- R125, R126, R255, R257, R262, R264, R265, R267, R275, R276, R500: the check of a row of A against a bank that holds the check data of its tile passes,
and fails where one column sum is one too high; one row of an `mma`, of the leader's array, of its follower's, or of both at once (`mma.t`), that passes: each cell of its rows takes one more
term; the last row performs the command. A performed command leaves the queue and its flags go to its wave. A check that fails twice, and an uncorrectable error, discard the block's
commands and leave an array-check trap with DETAIL 1 or 2 and the row for every wave of the block that has not ended; the former retires the core. -/
def Obligations.ArrayRows : Prop :=
  (∀ (s : State) (p i : Nat) (k : ArrCmd) (b : Bank), b.cbT.length = 16 → (b.efmt ≤ 1 → b.cbT = fixedEntries b.efmt) →
    b.check = (List.range 128).map b.rowCheck → (s.aRow p k i).passes b 0 = true ∧ (s.aRow p k i).passes b 1 = false) ∧
  (∀ (s : State) (p core idx : Nat) (k : ArrCmd),
  let c := s.chip p
  let u := c.core core
  (c.arrayLead core = core → c.arrayDue core idx (fun o => o = .mma || o = .mmaT) = some k → k.op = .mma ∨ k.op = .mmaT →
    let a := s.aRow p k k.row
    c.badRow k [k.row] = none → c.rowFails core core k a 0 = [] →
    let accm := fbAccm k.fb.toNat
    let base := k.r0 + k.row * k.q
    ∃ t, exec (.mmaRow p core idx 0) s = .next t ∧ s.SameBytes t ∧ (t.chip p).waves = c.waves ∧
      (∀ f ∈ (if k.op = .mmaT then [false, true] else [k.fol]),
        let u := c.core (core + b2n f)
        let v := (t.chip p).core (core + b2n f)
        let b := u.bank k.bank
        u.RowsBut v base k.q ∧ v.banks = u.banks ∧
        ∀ n < 256 * k.q, v.cell (base + n / 256) (n % 256) = (accumulate accm (u.cell (base + n / 256) (n % 256))
          (if accm then 0 else kPass (a.pass b n) a.band) (if accm then a.intPass b n else 0)).1) ∧
      (∀ j, (∀ f ∈ (if k.op = .mmaT then [false, true] else [k.fol]), j ≠ core + b2n f) →
        ((t.chip p).core j).acc = (c.core j).acc ∧ ((t.chip p).core j).sums = (c.core j).sums) ∧
      ∀ e ∈ ((t.chip p).core core).aq, e.id = k.id → e.row = k.row + 1 ∧ (e.done = decide (k.row + 1 = k.n))) ∧
  (∀ w, u.aq[idx]? = some k → k.done = true → k.bo = none → s.wave? p k.wid = some w →
    ∃ t v, exec (.arrayCommandComplete p core idx) s = .next t ∧ s.SameBytes t ∧ ((t.chip p).core core).aq = u.aq.filter (fun e => e.id ≠ k.id) ∧
      t.wave? p k.wid = some v ∧ v.flags = w.flags ||| k.flags ∧ w.SameRegs v ∧ (∀ j, j ≠ k.wid → t.wave? p j = s.wave? p j))) ∧
  (∀ (s : State) (p core n idx : Nat) (k : ArrCmd), (s.chip p).arrayLead n = core →
  let c := s.chip p
  let row := k.r0 + k.row * k.q
  ∀ e ∈ [(Instr.mmaRow p n idx 2, 1), (Instr.arrayUncorrectable p n idx, 2)],
  (e.2 = 1 → c.arrayDue core idx (fun o => o = .mma || o = .mmaT) = some k ∧ c.badRow k [k.row] = none ∧
      c.rowFails core n k (s.aRow p k k.row) 1 = [n]) → (e.2 = 2 → c.arrayDue core idx (fun _ => true) = some k) →
    ∃ t, exec e.1 s = .next t ∧ ((t.chip p).core core).aq = (c.core core).aq.filter (fun x => x.blk ≠ k.blk) ∧
      (∀ j w, s.wave? p j = some w → t.wave? p j = some (if w.blk = k.blk ∧ w.ended = false then { w with arrayTrap := some (e.2, row) } else w)) ∧
      (((t.chip p).core n).retired = (e.2 == 1 || (c.core n).retired)))

/-! ## Collectives -/

/-- R305 to R308, R359, R362, R385, R386, R389: collectives as waves use them, in fixed gear at their turn. The arrival of a wave that is not its block's last is noted; that of the last starts the
collective: the status register of each wave that arrived is emptied and the parameters go to the chip of rank 0. `coll.wait` gives the status once
there is one, and waits before; `coll.abort` asks the coordinator of a collective of its CID, and does nothing where none is in flight. -/
def Obligations.Collectives : Prop := ∀ (o : Ops) (s : State) (x : Iss) (d : BitVec 6), x.calm s = true → x.go = true → x.atTurn s [] → o.d = .unif d →
  let h := (x.dword .a x.low).toNat
  let cid := fld h 32 16
  let key := collKey x.w.blk cid
  (∀ tg bo r rank, ∀ e ∈ [(Instr.collAllreduce o, 0), (.collRedscat o, 1), (.collAllgath o, 2), (.collBcast o, 3), (.collAlltoall o, 4)],
    issOf (formColl e.2 o) o s = some x → x.handleRecord h = .ok tg → x.arrayBo .b = .ok bo → x.collDiffers (x.dword .a x.low) = false →
    tfind x.c.colls key = none → x.cidBusy cid = false → x.c.localDone x.wid = true → x.arrayHolds false [(0, tg)] 64 = false →
    x.c.badAt tg 64 = false → r = ofLe (x.objectBytes s tg 64) →
    x.recordCheck r x.w.grow = .ok rank → (x.c.rankChips x.w.grow r).all (fun id => x.c.reaches id &&
      !capLacks (x.c.capOf id) (capKindBit (collKind o.modw)) && !capLacks (x.c.capOf id) (capCollBit o.ty)) = true →
    let more := x.c.waves.any (fun e => e.2.blk = x.w.blk && !e.2.ended && e.1 ≠ x.wid)
    ∃ t w k, exec e.1 s = .next t ∧ (x.fg = false ∨ more = true → x.Through s t w) ∧ t.last = .completed ∧ t.wave? x.p x.wid = some w ∧
      w.path? x.sl = some x.onward ∧ s.SameBytes t ∧ w.flags = x.w.flags ∧ tfind (t.chip x.p).colls key = some k ∧
      k.cid = cid ∧ k.rank = rank ∧ k.crec = BitVec.ofNat 512 r ∧ k.arrived = [(x.wid, d.toNat, x.q.mask)] ∧ k.outcome = none ∧ k.clock = x.time ∧
      (more = true → k.started = false ∧ x.w.SameRegs w ∧ t.net = s.net) ∧
      (more = false → k.started = true ∧ x.w.Emptied w [.s d.toNat] ∧ k.prods = [x.c.next] ∧
        ∃ pk, t.net = (s.emit x.p pk).net ∧ pk.ptype = 12 ∧ pk.dst = x.c.chipOfBlock x.w.grow (crBase r) ∧ fld pk.opw.toNat 0 4 = 0 ∧
          pk.data = leBytes 64 (BitVec.ofNat 512 r).toNat)) ∧
  (issOf (formCollWait o) o s = some x → x.handleTrap = none →
    (∀ k st, tfind x.c.colls key = some k → k.outcome = some st → ∃ t w, exec (.collWait o) s = .next t ∧ x.Through s t w ∧ s.SameBytes t ∧
      w.ureg d.toNat = { val := st, full := true, err := false, mask := 0 } ∧ (∀ n, n ≠ d.toNat → w.ureg n = x.w.ureg n) ∧ w.v = x.w.v ∧
      w.flags = x.w.flags) ∧
    ((tfind x.c.colls key).bind Coll.outcome = none → ∃ t w, exec (.collWait o) s = .next t ∧ t.last = .notReady ∧ t.wave? x.p x.wid = some w ∧ x.w.SameRegs w ∧
      w.path? x.sl = some { x.q with wait := .coll x.half cid d, fresh := false, ord := false } ∧ s.SameBytes t)) ∧
  (issOf (formCollAbort o) o s = some x → x.handleTrap = none →
    let mine := x.c.colls.find? (fun e => e.2.cid == cid && e.2.started && e.2.outcome.isNone)
    (mine = none → exec (.collAbort o) s = .next (x.after s x.w)) ∧
    (∀ e, mine = some e → ∃ t w pk, exec (.collAbort o) s = .next t ∧ x.Through s t w ∧ x.w.SameRegs w ∧ s.SameBytes t ∧ t.net = (s.emit x.p pk).net ∧
      pk.ptype = 12 ∧ pk.dst = x.c.chipOfBlock e.2.grow (crBase e.2.crec.toNat) ∧ fld pk.opw.toNat 0 4 = 4 ∧ pk.ctx = e.2.grow))

/-- R378, R382, R386, R389 to R391: the messages of collectives. Parameters are kept by the coordinator, which once all ranks have sent theirs
sends results; result bytes reach WORK; a rank that has all of them is ready and says so; the coordinator notes ready ranks until an abort is wanted
or it has decided, and abort requests until every rank is ready; it decides when all are ready or an abort is wanted, and tells every rank whether it
completes, how many do, and why not; a rank takes its decision, or the notice that a chip is lost. Parameters that differ from rank 0's, and two blocks that claim one rank,
abort the collective with DETAIL 2, a READY of a rank whose WORK is damaged with DETAIL 4. The model's choices: the refusal by a rank's chip is found at the coordinator
(log entry 35), and TYPE and WORD go beside the message (log entry 55). -/
def Obligations.CollectiveMessages : Prop := ∀ (s : State) (p net cid rank grow : Nat) (pk : Packet),
  let msg := fun m => s.clPacket p net m = some (pk, cid, rank, grow)
  let c := s.chip p
  (∀ ty wd, msg 0 → c.clWord pk cid grow = some (ty, wd) → (c.rankChips grow (ofLe pk.data)).all c.reaches = true →
    s.clTables c pk cid rank grow (c.rankChips grow (ofLe pk.data)) = none → (c.coordAt cid grow rank).decided = none →
    let old := c.coordAt cid grow rank
    let ps := old.params ++ [(rank, pk.src, BitVec.ofNat 512 (ofLe pk.data), ty, wd)]
    ∃ t, exec (.clParameters p net) s = .next t ∧ ∃ k ∈ (t.chip p).coords, k.cid = cid ∧ k.grow = grow ∧ k.params = ps ∧
      (k.want = some 4 ∨ s.SameBytes t) ∧ (old.want = none → s.rankRefuses pk.src ty wd = true → k.want = some 5) ∧
      (old.want = none → s.rankRefuses pk.src ty wd = false → (∃ e ∈ old.params, e.1 = rank) ∨ (∃ z e, ps.find? (fun e => e.1 = 0) = some z ∧ e ∈ ps ∧
        let a := e.2.2.1.toNat
        let b := z.2.2.1.toNat
        (crN a ≠ crN b ∨ crRanks a ≠ crRanks b ∨ crBase a ≠ crBase b ∨ crStep a ≠ crStep b ∨ crRoot a ≠ crRoot b ∨ e.2.2.2 ≠ z.2.2.2)) →
        k.want = some 2)) ∧
  (∀ key k b f o, msg 1 → c.collAt cid grow rank = some (key, k) → ((tfind c.blocks k.blk).bind Block.saved) = none →
    c.localAt k.blk (crWork k.crec.toNat + pk.addr.toNat) pk.data.length = some (.loc b f o) →
    s.canWrite p (.loc b f o) pk.data.length = true →
    ∃ t, exec (.clData p net) s = .next t ∧ t.HoldsBytes p (.loc b f o) pk.data ∧
      s.SameBytesBut t (Target.Within p (.loc b f o) pk.data.length) ∧ t.net = s.net.eraseIdx net ∧
      tfind (t.chip p).colls key = some { k with got := k.got + pk.data.length, sat := k.sat + pk.unit }) ∧
  (∀ blk k, tfind c.colls (collKey blk cid) = some k → k.started = true → k.ready = false → k.outcome = none →
    collOut (collKind k.word.toNat) k.crec.toNat * (k.ty.width / 8) ≤ k.got →
    ∃ t m, exec (.collRankReady p blk cid) s = .next t ∧ tfind (t.chip p).colls (collKey blk cid) = some { k with ready := true } ∧
      t.net = (s.emit p m).net ∧ m.ptype = 12 ∧ fld m.opw.toNat 0 4 = 2 ∧ m.dst = c.chipOfBlock k.grow (crBase k.crec.toNat) ∧ s.SameBytes t) ∧
  (∀ k, c.coordOf cid grow rank = some k →
    (∀ q y, msg 2 → k.decided = none → k.want = none → rank ∉ k.ready → s.pkgOf pk.src = some q → (s.chip q).collAt cid grow rank = some y →
      s.collWork q y.2 = none → ∃ t, exec (.clReady p net) s = .next t ∧ { k with want := some 4 } ∈ (t.chip p).coords) ∧
    (msg 2 → k.decided = none → k.want = none → rank ∉ k.ready →
      (∀ q y, s.pkgOf pk.src = some q → (s.chip q).collAt cid grow rank = some y → s.collWork q y.2 ≠ none) →
      ∃ t, exec (.clReady p net) s = .next t ∧ { k with ready := k.ready ++ [rank] } ∈ (t.chip p).coords ∧ s.SameBytes t) ∧
    (msg 2 → k.decided ≠ none ∨ k.want ≠ none → ∃ t, exec (.clReady p net) s = .next t ∧ (t.chip p).coords = c.coords ∧ s.SameBytes t) ∧
    (msg 4 → k.decided = none → k.want = none → k.allReady = false →
      ∃ t, exec (.clAbortRequest p net) s = .next t ∧ { k with want := some 1 } ∈ (t.chip p).coords ∧ s.SameBytes t) ∧
    (msg 4 → k.decided ≠ none ∨ k.allReady = true →
      ∃ t, exec (.clAbortRequest p net) s = .next t ∧ (t.chip p).coords = c.coords ∧ s.SameBytes t)) ∧
  (∀ k d, c.coords.find? (fun e => e.cid = cid && e.grow = grow && e.decided.isNone && (e.want.isSome || e.allReady)) = some k →
    (k.want = none → d = (k.ready, 0)) → (∀ n, k.want = some n → d = (if n = 1 then k.ready else [], n)) →
    s.SameBytes (k.params.foldl (fun u e => u.sendDecision p k d e.1 e.2.1) (s.modChip p (fun c => c.setCoord k { k with decided := some d }))) ∧
    exec (.collDecide p grow cid) s =
      .next (k.params.foldl (fun u e => u.sendDecision p k d e.1 e.2.1) (s.modChip p (fun c => c.setCoord k { k with decided := some d })))) ∧
  (∀ k d r ch, d.1.length < 2 ^ 13 → ∃ m, s.sendDecision p k d r ch = s.emit p m ∧ m.ptype = 12 ∧ m.dst = ch ∧ fld m.opw.toNat 0 4 = 3 ∧
    nbit (ofLe m.data) 0 = d.1.contains r ∧ fld (ofLe m.data) 1 13 = d.1.length ∧ fld (ofLe m.data) 14 5 = d.2 % 32) ∧
  (∀ key k, msg 3 → c.collAt cid grow rank = some (key, k) → k.lost = none → k.decision = none →
    ∃ t, exec (.clDecision p net) s = .next t ∧ s.SameBytes t ∧ tfind (t.chip p).colls key =
      some { k with decision := some (nbit (ofLe pk.data) 0, fld (ofLe pk.data) 1 13, fld (ofLe pk.data) 14 5, pk.src) }) ∧
  (∀ key k, msg 5 → c.collAt cid grow rank = some (key, k) → k.lost = none → k.decision = none →
    ∃ t, exec (.clLossNotice p net) s = .next t ∧ s.SameBytes t ∧
      tfind (t.chip p).colls key = some { k with lost := some (pk.addr.toNat % 512) })

/-- R306, R361, R362, R389, R392: the outcome of a collective at a rank, in fixed gear at its turn, where the waves that it frees get a clock behind their own and its. On commit OUT takes the bytes of WORK and the status is 0; otherwise OUT keeps its bytes and
the status is that of the abort or the loss. WORK is left undefined, the status registers become full, and a completion record is written. -/
def Obligations.CollectiveOutcome : Prop := ∀ (s : State) (p blk cid : Nat) (k : Coll) (commit : Bool) (st : Word) (count id : Nat) (pr : Producer)
    (w : Wave) (b : Nat) (f : Bool) (o : Nat) (b' : Nat) (f' : Bool) (o' : Nat),
  let c := s.chip p
  let n := collOut (collKind k.word.toNat) k.crec.toNat * (k.ty.width / 8)
  let work : Target := .loc b f o
  let out : Target := .loc b' f' o'
  tfind c.colls (collKey blk cid) = some k → k.result = some (commit, st, count) → k.started = true → k.outcome = none → k.bo = none →
  ((tfind c.blocks blk).bind Block.saved) = none → (c.waves.map (·.1)).Nodup → (c.fgear k.grow = true → ∀ t, k.heldAt = some t →
    s.isTurn k.grow (.coll cid (crShared k.crec.toNat)) t = true ∧ s.fgBusy k.grow t (k.touched c p) = false) →
  (commit = true → s.readTgt p work n ≠ none) → k.prods = [id] → s.Open p id pr w → s.canWrite p work n = true → s.canWrite p out n = true →
  c.localAt k.blk (crWork k.crec.toNat) n = some work → c.localAt k.blk (crOut k.crec.toNat) n = some out → work.overlaps n out n = false →
  c.slotPaths.all (fun e => match e.2.2.wait with
    | .coll _ _ _ => false
    | _ => true) = true →
    let clock := ((k.heldAt.map (fun t => BitVec.ofNat 64 (t / 2 ^ 64))).getD k.clock : DWord)
    let free := fun (i : Nat) (u : Wave) => if c.fgear k.grow && (s.collFrees p blk cid k.prods).contains i then u.freeClock clock else u
    ∃ t r, exec (.collRankOutcome p blk cid) s = .next t ∧
      t.wave? p pr.wid = some (free pr.wid (w.land { pr with res := pr.dests.map (fun d => (d.1, if commit then .ok [0] else .fail st)) })) ∧
      tfind (t.chip p).prods id = none ∧ (∀ j, j ≠ pr.wid → t.wave? p j = (s.wave? p j).map (free j)) ∧
      tfind (t.chip p).colls (collKey blk cid) = some { k with outcome := some st } ∧
      (t.chip p).recOut = c.recOut ++ [r] ∧ r.status = st ∧ r.count = BitVec.ofNat 32 count ∧ r.unit = 5 ∧
      (commit = true → t.HoldsBytes p out ((s.readTgt p work n).getD [])) ∧
      s.SameBytesBut t (fun q a => Target.Within p work n q a ∨ commit = true ∧ Target.Within p out n q a)

/-! ## Approximable regions -/

/-- R300, R301, R303, R304, R347 to R349: regions as waves use them. `apx.begin` opens its region, the true code going on, and in a state with a surrogate
empties the output registers, goes to its target and hands the invocation to the engine; every issue counts as an invocation. `apx.end` closes the
region, and hands the outputs of a recorded or sampled true run to the engine; `apx.ctl` empties its status register and hands its operation to the home engine; `apx.inval` forces regions to OFF; `apx.stat` reads the
home copy. -/
def Obligations.ApproximableRegions : Prop := ∀ (o : Ops) (s : State) (x : Iss),
  let g := fun m => ({ num := fld o.modw 0 6, state := x.apxState (x.c.regionAt (clusterOf x.w.core) (apxRegion o)), outs := apxO o, mode := m,
                       lanes := x.q.mask, inputs := x.apxInputs } : OpenRegion)
  let st := x.apxState (x.c.regionAt (clusterOf x.w.core) (apxRegion o))
  let sampled := x.apxSampled (apxRegion o) (x.c.regionReg (apxRegion o) 2)
  let goesOn := fun (i : Instr) (f : State → Wave → Prop) =>
    ∃ t w, exec i s = .next t ∧ x.Through s t w ∧ s.SameBytes t ∧ x.w.SameRegs w ∧ w.flags = x.w.flags ∧ f t w
  (issOf (formApxBegin o) o s = some x → x.calm s = true →
    (x.go = false → goesOn (.apxBegin o) (fun _ w => w.inv = x.w.inv + 1 ∧ w.region = x.w.region)) ∧
    (x.go = true → x.apxBeginCheck s = none → st ≤ 2 ∨ sampled = true → goesOn (.apxBegin o) (fun _ w => w.inv = x.w.inv + 1 ∧
      w.region = some (g (if st = 0 then .trueCode else if st ≤ 2 then .recorded else .sampled)))) ∧
    (∀ cp sur, x.go = true → x.apxFate = .ok → x.apxBeginCheck s = none → 2 < st → sampled = false → x.w.path? x.sl.other = none →
      x.c.regionAt (clusterOf x.w.core) (apxRegion o) = some cp → cp.sur = some sur → (x.c.cluster (clusterOf x.w.core)).fit.queue.length < 64 →
      ∃ t w inv, exec (.apxBegin o) s = .next t ∧ t.last = .completed ∧ t.wave? x.p x.wid = some w ∧ w.inv = x.w.inv + 1 ∧
        w.region = some (g .surrogate) ∧ (∃ q, w.path? x.sl = some q ∧ q.pc = x.apxTarget ∧ q.mask = x.q.mask ∧ q.wbase = x.q.wbase ∧
          q.fresh = false ∧ q.wait = .none) ∧
        x.w.Emptied w (x.apxOuts.flatMap (·.2)) ∧ s.SameBytes t ∧
        ((t.chip x.p).cluster (clusterOf x.w.core)).fit.queue = (x.c.cluster (clusterOf x.w.core)).fit.queue ++ [inv] ∧
        inv.region = apxRegion o ∧ inv.lanes = x.q.mask ∧ inv.inputs = x.apxInputs ∧ inv.sur = sur ∧ inv.prod = x.c.next)) ∧
  (∀ r, issOf (formApxEnd o) o s = some x → x.calm s = true → x.go = true → x.w.region = some r → x.w.regionWhole x.q = true →
    r.num = apxRegion o → r.outs = apxO o → r.mode ≠ .surrogate →
    goesOn (.apxEnd o) (fun t w => w.region = none ∧ ((r.mode = .recorded ∨ r.mode = .sampled) →
      (x.c.cluster (clusterOf x.w.core)).fit.input.length < 64 → ∃ e, ((t.chip x.p).cluster (clusterOf x.w.core)).fit.input =
        (x.c.cluster (clusterOf x.w.core)).fit.input ++ [e] ∧ e.sampled = decide (r.mode = .sampled) ∧ e.region = r.num ∧ e.inputs = r.inputs ∧
        e.lanes = r.lanes &&& x.w.lanes))) ∧
  (∀ r, issOf { formApxEnd o with a := { cls := [.lane], n := 0 } } o s = some x → x.calm s = true → x.go = true → x.w.region = some r →
    x.w.regionWhole x.q = true → r.num = apxRegion o → r.outs = apxO o → r.mode = .surrogate →
    goesOn (.apxEnd o) (fun t w => w.region = none ∧ (t.chip x.p).clusters = x.c.clusters)) ∧
  (∀ op, ∀ e ∈ [(Instr.apxCtlState o, 0), (.apxCtlRegister o, 1), (.apxCtlLoad o, 2), (.apxCtlSave o, 3)], e.2 = op →
    issOf (formApxCtl op o) o s = some x → x.calm s = true → x.go = true → (x.c.binding? x.regionArg).isSome = true →
    ∃ t w pr k, exec e.1 s = .next t ∧ x.Through s t w ∧ s.SameBytes t ∧ x.w.Emptied w (x.w.refs x.q.wbase o.d 0 1 0) ∧ w.flags = x.w.flags ∧
      (s.chip x.p).Started (t.chip x.p) (some pr) [] ∧ pr.kind = .apxCtl ∧ (t.chip x.p).apxOps = x.c.apxOps ++ [k] ∧ k.op = op ∧
      k.region = x.regionArg ∧ k.b = x.dword .b x.low ∧ k.idx = fld o.modw 3 5 ∧ k.prod = x.c.next) ∧
  (issOf { a := { cls := [.unif, .imm] }, once := true } o s = some x → x.calm s = true → x.go = true →
    nbit (x.word .a x.low 0).toNat 6 = false → (x.c.binding? x.regionArg).isSome = true →
    goesOn (.apxInval o) (fun t _ => (∀ cl, (t.chip x.p).regionAt cl x.regionArg = (x.c.regionAt cl x.regionArg).map RegionCopy.off) ∧
      ∀ cl n, n ≠ x.regionArg → (t.chip x.p).regionAt cl n = x.c.regionAt cl n)) ∧
  (∀ b, issOf { d := Opd.u 2, a := Opd.u 1, once := true } o s = some x → x.calm s = true → x.go = true → x.c.binding? x.regionArg = some b →
    ∃ t, exec (.apxStat o) s = .next t ∧
      x.Wrote s t 2 (fun _ j => BitVec.ofNat 32 (x.c.regionStatus x.regionArg b % 2 ^ 64 / 2 ^ (32 * j))) 0)

/-- R339 to R347, R349, R354, R355: the fitting engine at work: an invocation gives every lane the surrogate's outputs; the outputs of a true run become a
training pair; a validation pair updates EWMA and SAMPLES; a full batch makes one SGD step, after which every weight is finite where every one was;
`apx.ctl` sets a register within its range and answers REJECT otherwise; an uncorrectable error forces the region to OFF. -/
def Obligations.FittingEngine : Prop := ∀ (s : State) (p cl : Nat),
  let c := s.chip p
  let f := (c.cluster cl).fit
  (∀ q rest pr w, f.queue = q :: rest → s.Open p q.prod pr w →
    ∃ t, exec (.fitInvocationEval p cl) s = .next t ∧ s.SameBytes t ∧ ((t.chip p).cluster cl).fit.queue = rest ∧
      s.Landed t p q.prod pr w ((lanesOf q.lanes).map (fun k => (k, .ok (q.sur.infer (laneOf q.inputs k)))))) ∧
  (∀ e rest r k, f.queue = [] → f.input = e :: rest → c.regionAt cl e.region = some r → r.state = e.state → e.sampled = false → lanesOf e.lanes = [k] →
    finitePair (laneOf e.inputs k) (laneOf e.outputs k) = true → r.sur = none ∨ r.state = 2 → r.ring.length < 256 →
    ∃ t v, exec (.fitInputTake p cl) s = .next t ∧ s.SameBytes t ∧ ((t.chip p).cluster cl).fit.input = rest ∧
      (t.chip p).regionAt cl e.region = some v ∧ v.nextPair = r.nextPair + 1 ∧
      v.ring = r.ring ++ [{ num := r.nextPair, x := laneOf e.inputs k, t := laneOf e.outputs k, grow := e.grow }] ∧ v.state = r.state) ∧
  (∀ n r q rest sur, c.training cl n = some r → r.ring = q :: rest → r.sur = some sur → q.num % 8 = 7 → r.batch.length < 32 →
    let alpha := c.regionReg n 1
    let err := maxError (c.regionReg n 5) [(sur.infer q.x, q.t)]
    let ewma := fma32 alpha (fsub32 err r.ewma.toNat) r.ewma.toNat
    let samples := Nat.min 65535 (r.samples + 1)
    ∃ t v, exec (.fitValidation p cl n) s = .next t ∧ s.SameBytes t ∧ (t.chip p).regionAt cl n = some v ∧
      v.ewma = BitVec.ofNat 32 ewma ∧ v.sur = some sur ∧
      (if 32 ≤ samples && flt32 (BitVec.ofNat 32 ewma).toNat (c.regionReg n 0) then v.state = 3 ∧ v.samples = 0 ∧ v.ring = []
        else v.state = 2 ∧ v.samples = samples ∧ v.ring = rest)) ∧
  (∀ n r sur, c.training cl n = some r → r.sur = some sur → r.batch.length = 32 →
    ∃ t v, exec (.sgdStep p cl n) s = .next t ∧ s.SameBytes t ∧ (t.chip p).regionAt cl n = some v ∧ v.batch = [] ∧ v.state = r.state ∧
      v.ring = r.ring ∧ v.ewma = r.ewma ∧ v.sur = some (sur.sgd (c.regionReg n 3) r.batch)) ∧
  (∀ (sur : Surrogate) lr batch, let ok := fun (l : List Word) => l.all (fun v => !(fval .f32 v.toNat).isNan && !(fval .f32 v.toNat).isInf)
    (ok sur.w = true → ok (sur.sgd lr batch).w = true) ∧ (sur.sgd lr batch).ni = sur.ni ∧ (sur.sgd lr batch).h1 = sur.h1) ∧
  (∀ idx k b pr w, s.NoAsk → c.apxOps[idx]? = some k → c.binding? k.region = some b → k.op = 1 → k.idx < b.regs.length → s.Open p k.prod pr w →
    let v := (lo32 k.b).toNat
    let ok := regionRegOk k.idx v
    let status := if ok then 0 else statusWord codeReject 4 c.chipId 3
    ∃ t r, exec (.apxCtlComplete p idx) s = .next t ∧ s.SameBytes t ∧ (t.chip p).apxOps = c.apxOps.eraseIdx idx ∧
      t.wave? p pr.wid = some (w.land { pr with res := pr.dests.map (fun d => (d.1, .ok [status])) }) ∧ tfind (t.chip p).prods k.prod = none ∧
      (∀ j, j ≠ pr.wid → t.wave? p j = s.wave? p j) ∧ (t.chip p).recOut = c.recOut ++ [r] ∧ r.status = status ∧
      (t.chip p).regionReg k.region k.idx = (if ok then v else c.regionReg k.region k.idx)) ∧
  (∀ n r, c.regionAt cl n = some r → r.state ≠ 0 →
    ∃ t v e, exec (.fitUncorrectable p cl n false) s = .next t ∧ (t.chip p).regionAt cl n = some v ∧ v.state = 0 ∧ v.ring = [] ∧ v.samples = 0 ∧
      (t.chip p).recOut = c.recOut ++ [e] ∧ e.status = statusWord codePoison 4 c.chipId 6)

/-! ## Stream engines -/

/-- R313, R319, R321 to R325, R329: the stream commands that act on their context alone: registers, tile indices, targets, conditions, transfers. Each is
counted and goes on to the next command, but for a transfer that is taken. -/
def Obligations.StreamRegisters : Prop := ∀ (s : State) (x : Ctx), s.CmdReady x →
  let c := s.chip s.scur.1
  let leaves := fun (i : Instr) (y : Ctx) => CmdLeaves i s c y
  let on := { x with ptr := x.ptr + 8 }
  leaves .snop on ∧
  (∀ qd imm, leaves (.setq qd imm) { on with q := tset x.q qd.toNat (imm.setWidth 64) }) ∧
  (∀ qd imm, leaves (.setqh qd imm) { on with q := tset x.q qd.toNat (imm ++ (tget 0 x.q qd.toNat).setWidth 48) }) ∧
  (∀ qd qs imm, leaves (.addq qd qs imm) { on with q := tset x.q qd.toNat (tget 0 x.q qs.toNat + imm.signExtend 64) }) ∧
  (∀ sl qa l, tfind x.lay sl.toNat = some l → leaves (.setix sl qa) { on with lay := tset x.lay sl.toNat { l with
    j := [(x.reg qa).setWidth 16, (x.reg qa >>> 16).setWidth 16, (x.reg qa >>> 32).setWidth 16, (x.reg qa >>> 48).setWidth 16] } }) ∧
  (∀ sl dim l, tfind x.lay sl.toNat = some l → dim.toNat ≤ layRank l.lay.toNat → leaves (.stepix sl dim) { on with
    lay := tset x.lay sl.toNat { l with j := stepFrom l.lay.toNat 4 dim.toNat l.j } }) ∧
  (∀ tgt qh qm, winOk (x.reg qh).toNat = true → fld (x.reg qh).toNat 19 5 = 0 → fld (x.reg qh).toNat 25 7 = 0 → lo32 (x.reg qm) ≠ 0 →
    (∀ r ∈ lanesOf (lo32 (x.reg qm)), (c.ctxWindow x r (x.reg qh).toNat).isSome = true) → leaves (.target tgt qh qm) { on with
      tgt := tset x.tgt tgt.toNat { handle := x.reg qh, mask := lo32 (x.reg qm), next := 0 } }) ∧
  (∀ ct thr, Becomes (.arm ct thr) s s.scur.1 (c.setCtx s.scur.2.1 s.scur.2.2 { on with arms := x.arms ++ [(ct, thr)], count := x.count + 1 })) ∧
  (∀ qd disp, leaves (.loop qd disp) { x with
    q := tset x.q qd.toNat (x.reg qd - 1), ptr := if x.reg qd = 1 then x.ptr + 8 else x.ptr + 8 * disp.signExtend 64 }) ∧
  (∀ qd disp, leaves (.brz qd disp) { x with ptr := if x.reg qd = 0 then x.ptr + 8 * disp.signExtend 64 else x.ptr + 8 }) ∧
  (∀ qa, (x.reg qa).toNat % 8 = 0 → leaves (.jump qa) { x with ptr := x.reg qa })

/-- R318, R320 to R322, R327 to R331: the stream commands that reach memory and counters: a 64-bit load and store, a layout record, a copy of one unit, a
signal, an add to and a set of a trigger counter, which cancels what is armed on it, an arrival on a barrier object. -/
def Obligations.StreamMemory : Prop := ∀ (s : State) (x : Ctx), s.CmdReady x →
  let p := s.scur.1
  let c := s.chip p
  let on := { x with ptr := x.ptr + 8 }
  (∀ qd qa off pa bs, x.flying < 16 → x.addr qa off % 8 = 0 → s.Reaches x (x.addr qa off) 8 pa .unitRead → s.readTgt p (.dram pa) 8 = some bs →
    CmdLeaves (.ldq qd qa off) s c { on with q := tset x.q qd.toNat (BitVec.ofNat 64 (ofLe bs)) }) ∧
  (∀ qs qa off pa, x.flying < 16 → x.addr qa off % 8 = 0 → s.Reaches x (x.addr qa off) 8 pa .unitWrite → s.canWrite p (.dram pa) 8 = true →
    CmdRuns (.stq qs qa off) s on (fun t => t.HoldsBytes p (.dram pa) (leBytes 8 (x.reg qs).toNat) ∧
      s.SameBytesBut t (Target.Within p (.dram pa) 8))) ∧
  (∀ sl qa pa bs, (x.reg qa).toNat % 64 = 0 → s.Reaches x (x.reg qa).toNat 64 pa .unitRead → s.readTgt p (.dram pa) 64 = some bs →
    c.layBad (ofLe bs) = false →
    CmdLeaves (.layout sl qa) s c { on with lay := tset x.lay sl.toNat { lay := BitVec.ofNat 512 (ofLe bs), j := [0, 0, 0, 0] } }) ∧
  (∀ rc qd qs qn d src bs, x.flying < 16 → (x.reg qd).toNat % 16 = 0 → (x.reg qs).toNat % 16 = 0 → (x.reg qn).toNat = 16 →
    s.Reaches x (x.reg qs).toNat 16 src .unitRead → s.Reaches x (x.reg qd).toNat 16 d .unitWrite → s.readTgt p (.dram src) 16 = some bs →
    s.canWrite p (.dram d) 16 = true →
    CmdRuns (.copy rc qd qs qn) s on (fun t => t.HoldsBytes p (.dram d) bs ∧ s.SameBytesBut t (Target.Within p (.dram d) 16) ∧
      (rc = false → (t.chip p).recOut = c.recOut) ∧ (rc = true → ∃ r, (t.chip p).recOut = c.recOut ++ [r] ∧ r.count = 1 ∧ r.status = 0))) ∧
  (∀ rc qv qa off pa, x.cmds = [] → x.addr qa off % 8 = 0 → s.Reaches x (x.addr qa off) 8 pa .unitWrite → s.canWrite p (.dram pa) 8 = true →
    CmdRuns (.signal rc qv qa off) s on (fun t => t.HoldsBytes p (.dram pa) (leBytes 8 (x.reg qv).toNat) ∧
      s.SameBytesBut t (Target.Within p (.dram pa) 8) ∧ (rc = true → ∃ r, (t.chip p).recOut = c.recOut ++ [r] ∧ r.tag = lo32 (x.reg 15)))) ∧
  (∀ ct e v, (c.engine e.toNat).isBad ct.toNat = false → CmdRuns (.cadd ct e v) s on (fun t => s.SameBytes t ∧
    ((t.chip p).engine e.toNat).counter ct.toNat = (c.engine e.toNat).counter ct.toNat + v ∧
    ∀ n, n ≠ ct.toNat → ((t.chip p).engine e.toNat).counter n = (c.engine e.toNat).counter n)) ∧
  (∀ ct e v, CmdRuns (.cset ct e v) s on (fun t => s.SameBytes t ∧ ((t.chip p).engine e.toNat).counter ct.toNat = v ∧
    (∀ n, n ≠ ct.toNat → ((t.chip p).engine e.toNat).counter n = (c.engine e.toNat).counter n) ∧
    ∀ k y, tfind (c.engine e.toNat).ctx k = some y → (e.toNat, k) ≠ (s.scur.2.1, s.scur.2.2) → y.busy = true → y.ending = none →
      (y.armed.any (fun a => a.1.toNat = ct.toNat) || y.arms.any (fun a => a.1.toNat = ct.toNat)) = true →
      (((t.chip p).engine e.toNat).context k).ending = some (statusWord codeCancelled 2 c.chipId 9))) ∧
  (∀ qa k b tg, c.ctxLocal x (lo32 (x.reg qa)) 8 = some (k, b, tg) → (lo32 (x.reg qa)).toNat % 8 = 0 → x.cmds = [] → b.saved = none →
    c.badAt tg 8 = false → s.canWrite p tg 8 = true → c.slotPaths.all (fun e => match e.2.2.wait with
      | .pbar _ _ _ _ => false
      | _ => true) = true →
    CmdRuns (.arriveCmd qa) s on (fun t => t.HoldsBytes p tg (leBytes 8 (pbarNext (ofLe ((s.readTgt p tg 8).getD [])))) ∧
      s.SameBytesBut t (Target.Within p tg 8))) ∧
  (x.cmds = [] → CmdLeaves .sfence s c on) ∧ (x.cmds ≠ [] → CmdWaits .sfence s c x) ∧
  (x.cmds = [] → CmdLeaves (.halt false) s c { x with halted := true }) ∧
  (x.cmds = [] → CmdRuns (.halt true) s { x with halted := true } (fun t => s.SameBytes t ∧ ∃ r, (t.chip p).recOut = c.recOut ++ [r] ∧
    r.tag = lo32 (x.reg 15) ∧ r.count = BitVec.ofNat 32 (x.count + 1) ∧ r.status = 0 ∧ r.unit = 2))

/-- R314, R315, R324 to R326: `fetch` and `fetchs` read the rows of a tile, or of one slice of it, that hold elements of the tensor, zero elsewhere, and begin
one delivery for each rank of the target at its next slot; `tilew` begins a tile write. -/
def Obligations.StreamTiles : Prop := ∀ (s : State) (x : Ctx) (rc : Bool) (sl : BitVec 2) (l : LayoutSlot), s.CmdReady x → x.flying < 16 →
  tfind x.lay sl.toNat = some l →
  let p := s.scur.1
  let c := s.chip p
  let lr := l.lay.toNat
  (∀ (tgt : BitVec 2) (t0 : TargetSlot) (i n : Nat) (got : Nat × Nat × Nat → List Byte), tfind x.tgt tgt.toNat = some t0 →
    tileSize lr ≤ winSize t0.handle.toNat →
    let lo := i * tileRowCount lr / n
    let hi := (i + 1) * tileRowCount lr / n
    let rows := tileRowsIn lr l.j lo hi
    (∀ r ∈ rows, c.rangeOff r.2.1 ((r.2.2 + 7) / 8) = false ∧ s.ReadsAs p (askCtx s.scur.2.1 s.scur.2.2) x r.2.1 ((r.2.2 + 7) / 8) (got r)) →
    let bytes := rows.foldl (fun acc r => overlay acc ((r.1 - lo) * tilePitch lr) (trimBits r.2.2 (got r)))
      (List.replicate ((hi - lo) * tilePitch lr) 0)
    let cmd : DataCmd := { op := .fetch t0.handle (lo * tilePitch lr) bytes n ((lanesOf t0.mask).map (fun k =>
      { rank := k, slot := t0.next, state := .waiting })), record := rc, tag := lo32 (x.reg 15), status := 0, done := false, target := tgt.toNat }
    let y := { x with ptr := x.ptr + 8, cmds := x.cmds ++ [cmd],
                      tgt := tset x.tgt tgt.toNat { t0 with next := (t0.next + 1) % winSlots t0.handle.toNat } }
    (i = 0 → n = 1 → CmdLeaves (.fetch rc sl tgt) s c y) ∧
    (∀ a m : BitVec 6, i = a.toNat → n = m.toNat + 1 → a ≤ m → CmdLeaves (.fetchs rc sl tgt a m) s c y)) ∧
  (∀ qa qw, (c.ctxLocal x (lo32 (x.reg qa)) (tileSize lr)).isSome = true → (c.ctxLocal x (lo32 (x.reg qw)) 8).isSome = true →
    (lo32 (x.reg qa)).toNat % 16 = 0 → (lo32 (x.reg qw)).toNat % 8 = 0 →
    (∀ r ∈ tileRowsIn lr l.j 0 (tileRowCount lr), c.rangeOff r.2.1 ((r.2.2 + 7) / 8) = false) →
    let cmd : DataCmd := { op := .tilew l.lay l.j (lo32 (x.reg qa)) (lo32 (x.reg qw)), record := rc, tag := lo32 (x.reg 15), status := 0, done := false,
                           target := 0 }
    CmdLeaves (.tilew rc sl qa qw) s c { x with ptr := x.ptr + 8, cmds := x.cmds ++ [cmd] })

/-- R312, R316, R317, R319, R326, R329, R335: what stream engines do of their own accord: a slice is delivered to a block that has posted a slot, whose state
word it flips; a tile is written and its word flipped back; a condition that is met stays so, and a command
is released once all of its conditions are; a context that has halted, or is ending with
nothing in flight, becomes free, the latter with a record. -/
def Obligations.StreamEvents : Prop := ∀ (s : State) (p v k cmd : Nat),
  let c := s.chip p
  let x := (c.engine v).context k
  (∀ d w off bytes dels e blk b, x.cmds[cmd]? = some d → d.op = .fetch w off bytes 1 dels → e ∈ dels → (dels.map Delivery.rank).Nodup →
    e.state = .waiting → e.slot < winSlots w.toNat → c.ctxBlock x e.rank = some (blk, b) → b.saved = none →
    let tg : Target := .loc blk (nbit w.toNat 24) (fld w.toNat 0 19)
    let word := tg.shift (16 + 8 * e.slot)
    let hd := ofLe ((s.readTgt p tg 8).getD [])
    let st := ofLe ((s.readTgt p word 8).getD [])
    nbit st 0 = false → fld hd 0 16 ≠ 0 → delBefore (x.cmds.take cmd) d.target e.rank w true = false → c.badAt tg 8 = false → c.badAt word 8 = false →
    s.canWrite p tg 8 = true → s.canWrite p word 8 = true → s.canWrite p (tg.shift (winDataAt w.toNat e.slot + off)) bytes.length = true →
    ∃ t n, exec (.deliverSlice p v k cmd e.rank) s = .next t ∧ t.HoldsBytes p (tg.shift (winDataAt w.toNat e.slot + off)) bytes ∧
      t.HoldsBytes p tg (leBytes 8 (hd - 1)) ∧ t.HoldsBytes p word (leBytes 8 n) ∧ nbit n 0 = true ∧ (nbit n 1 = !nbit st 1) ∧
      fld n 3 7 = 0 ∧ (d.status = 0 → fld st 3 7 = 0 → nbit n 2 = false) ∧ (t.chip p).waves = c.waves ∧
      s.SameBytesBut t (fun q a => Target.Within p (tg.shift (winDataAt w.toNat e.slot + off)) bytes.length q a ∨ Target.Within p tg 8 q a ∨
        Target.Within p word 8 q a)) ∧
  (∀ d l j img tw ki bi ti kw bw tt r row addr bits bs, x.cmds[cmd]? = some d → d.op = .tilew l j img tw → d.done = false →
    c.ctxLocal x img (tileSize l.toNat) = some (ki, bi, ti) → c.ctxLocal x tw 8 = some (kw, bw, tt) → bi.saved = none → bw.saved = none →
    s.NoAsk → tileBefore (x.cmds.take cmd) tw = false → c.badAt tt 8 = false → c.badAt ti (tileSize l.toNat) = false →
    nbit (ofLe ((s.readTgt p tt 8).getD [])) 0 = true → tileRowsIn l.toNat j 0 (tileRowCount l.toNat) = [(row, addr, bits)] → bits % 8 = 0 →
    s.imageRow p ti l.toNat row = some bs → s.streamWrite p (askCtx v k) x false addr (bs.take ((bits + 7) / 8)) = r → r.s.NoAsk → r.off = false →
    r.status = 0 → s.canWrite p tt 8 = true →
    ∃ t, exec (.tilewWrite p v k cmd) s = .next t ∧
      t.HoldsBytes p tt (leBytes 8 (fld (ofLe ((s.readTgt p tt 8).getD [])) 2 30 * 4)) ∧ r.s.SameBytesBut t (Target.Within p tt 8)) ∧
  (x.busy = true → (∀ a ∈ x.armed, a.2.2 = true ∨ (c.engine v).isBad a.1.toNat = false) → ∃ t, exec (.armedRelease p v k) s = .next t ∧ s.SameBytes t ∧
    let met := fun (a : BitVec 6 × Word × Bool) => a.2.2 || reached ((c.engine v).counter a.1.toNat) a.2.1
    (((t.chip p).engine v).context k).armed = if x.armed.all met then [] else x.armed.map (fun a => (a.1, a.2.1, met a))) ∧
  (x.busy = true → x.halted = true → Becomes (.contextEnd p v k) s p (c.setCtx v k Ctx.free)) ∧
  (∀ st, x.busy = true → x.halted = false → x.ending = some st → x.reported = false → x.cmds = [] →
    ∃ t r, exec (.contextEnd p v k) s = .next t ∧ ((t.chip p).engine v).context k = Ctx.free ∧ (t.chip p).recOut = c.recOut ++ [r] ∧
      r.status = st ∧ r.count = 0 ∧ r.tag = lo32 (x.reg 15) ∧ s.SameBytes t)

/-- R79, R89 to R92, R310, R311, R318, R320: the control page of a stream engine: an add to a counter and a set of one, by a wave's access or by the host, a
start request by an atomic, which answers the number of the lowest free context, and by a store; a start by the host is refused, and an atomic
answers it REJECT, DETAIL 12. A completion
record goes to its cluster's event queue while that has room, those of one unit in order; the head of the queue is written at its mirror's head,
which advances, while the mirror has room. -/
def Obligations.ControlPagesAndRecords : Prop :=
  (∀ (s : State) (p : Nat) (a : PendAcc) (pa v off : Nat),
  let c := s.chip p
  c.behind a = false → c.ordDue a = true → a.tgt = .aperture pa → apAddr pa = .control v off →
  let due := fun (k : CtrlKind) => c.pend.find? (fun b => b.id = a.id && b.ctrl = some k) = some a
  let n := off / 4
  let counters := fun (t : State) (val : Word) => ((t.chip p).engine v).counter n = val ∧
    (∀ m, m ≠ n → ((t.chip p).engine v).counter m = (c.engine v).counter m) ∧ s.SameBytes t
  (due .add → (c.engine v).isBad n = false → ∃ t, exec (.ctrlCounterAdd p (.wave a.id)) s = .next t ∧ counters t ((c.engine v).counter n + lo32 a.data) ∧
    (t.chip p).pend = c.pend.filter (fun b => b.id ≠ a.id)) ∧
  (due .set → a.kind = .store → ∃ t, exec (.ctrlCounterSet p (.wave a.id)) s = .next t ∧ counters t (lo32 a.data) ∧
    (t.chip p).pend = c.pend.filter (fun b => b.id ≠ a.id)) ∧
  (∀ w k id pr, s.wave? p a.wid = some w → (List.range 8).find? (fun k => !((c.engine v).context k).busy) = some k →
    let started := fun (t : State) => (((t.chip p).engine v).context k).busy = true ∧ (((t.chip p).engine v).context k).grow = w.grow ∧
      (((t.chip p).engine v).context k).ptr.toNat = (c.chipId * 2 ^ 48 + fld a.data.toNat 3 45 * 8) % 2 ^ 64 ∧
      ∀ j, j ≠ k → ((t.chip p).engine v).context j = (c.engine v).context j
    (due .request → a.prod = some id → tfind c.prods id = some pr → a.ordered = false →
      ∃ t, exec (.ctrlStartRequest p a.id) s = .next t ∧ started t ∧
        tfind (t.chip p).prods id = some { pr with res := pr.res ++ [(a.lane, .ok [0, BitVec.ofNat 32 k])] }) ∧
    (due .store → a.ordered = false → ∃ t, exec (.ctrlStartStore p a.id) s = .next t ∧ started t)) ∧
  (∀ v' n' val, v' < 128 → n' < 64 →
    ((c.engine v').isBad n' = false → ∃ t, exec (.ctrlCounterAdd p (.host v' n' val)) s = .next t ∧ ((t.chip p).engine v').counter n' = (c.engine v').counter n' + val ∧
      s.SameBytes t) ∧
    (∃ t, exec (.ctrlCounterSet p (.host v' n' val)) s = .next t ∧ ((t.chip p).engine v').counter n' = val ∧ s.SameBytes t)) ∧
  (∀ v', exec (.hostStartRefused p v' false) s = .next s ∧ Becomes (.hostStartRefused p v' true) s p
    { c with portRead := c.portRead.set (v' / 128 % 2) ((statusWord codeReject 2 c.chipId 12).setWidth 64) })) ∧
  (∀ (s : State) (p : Nat),
  let c := s.chip p
  (∀ r rest, c.recOut = r :: rest → (c.cluster r.cluster).evq.length < 4096 →
    ∃ t, exec (.eventQueueRecord p 0) s = .next t ∧ (t.chip p).recOut = rest ∧
      ((t.chip p).cluster r.cluster).evq = (c.cluster r.cluster).evq ++ [r] ∧ s.SameBytes t ∧ (t.chip p).waves = c.waves) ∧
  (∀ cl r rest, s.NoAsk → (c.cluster cl).evq = r :: rest → c.mirrorOf r = none →
    ∃ t, exec (.cccRecordProcess p cl) s = .next t ∧ ((t.chip p).cluster cl).evq = rest ∧ s.SameBytes t) ∧
  (∀ cl r rest g t0 t1 h tl, (c.cluster cl).evq = r :: rest → c.mirrorOf r = some g → nbit r.tag.toNat 31 = false →
    s.UnitAt p (askRing cl) g.asid (g.kern.rmir * 8192) .unitWrite none (.dram t0) →
    s.UnitAt p (askRing cl) g.asid (g.kern.rmir * 8192 + 4096) .unitWrite none (.dram t1) →
    t0 + 4096 ≤ t1 ∨ t1 + 4096 ≤ t0 → s.readTgt p (.dram t0) 8 = some h → s.readTgt p (.dram (t0 + 8)) 8 = some tl →
    let head := ofLe h
    (BitVec.ofNat 64 head - BitVec.ofNat 64 (ofLe tl) : DWord).toNat < 256 → s.canWrite p (.dram t0) 8 = true →
    s.canWrite p (.dram (t1 + 16 * (head % 256))) 16 = true →
    ∃ t, exec (.cccRecordProcess p cl) s = .next t ∧ ((t.chip p).cluster cl).evq = rest ∧ t.HoldsBytes p (.dram t0) (leBytes 8 (head + 1)) ∧
      t.HoldsBytes p (.dram (t1 + 16 * (head % 256))) (leBytes 16 (recordBits r c.chipId ((c.cluster cl).evqHead - (c.cluster cl).evq.length))) ∧
      s.SameBytesBut t (fun q a => Target.Within p (.dram t0) 8 q a ∨ Target.Within p (.dram (t1 + 16 * (head % 256))) 16 q a)))

/-! ## Issue, turns, queues and the queue engine -/

/-- R38 to R40, R43 to R46, R79, R290, R359, R365: what the issue rules, the throttle, L1 and the turns of fixed gear do of their own accord. A promotion of a slot
that has been ready and not issued for 64 cycles; the end of a yield; a permit for a slot that the throttle has held for 4,096 cycles; the first choice of an
issue port; the halving of the locality scores of a core, once in 256 cycles, and its new number of permits; the replacement of a line, whose tag goes to the wave that filled it;
the turn of the operation whose wave comes first; the commit of a quantum, which empties the store buffers. -/
def Obligations.IssueEvents : Prop := ∀ (s : State) (p : Nat),
  let c := s.chip p
  (∀ wid w sl, s.wave? p wid = some w →
    let i := w.issueOf sl
    (s.readyAt p wid w sl = true → s.heldBack p w sl = false → i.age.isSome = true → 64 ≤ (c.cycle - i.since).toNat →
      Becomes (.promotion p wid sl) s p (c.setWave wid (w.setIssue sl { i with promo := i.promo + 1, since := i.since + 64 }))) ∧
    (∀ y, i.yieldEnd = some y → y.toNat ≤ c.cycle.toNat →
      Becomes (.yieldExpiry p wid sl) s p (c.setWave wid (w.setIssue sl { i with yieldEnd := none }))) ∧
    (∀ y, s.heldBack p w sl = true → i.throttledAt = some y → 4096 ≤ (c.cycle - y).toNat →
      Becomes (.throttlePermitExpiry p wid sl) s p (c.setWave wid (w.setIssue sl { i with permit := true }))) ∧
    (c.fgear w.grow = true → s.gridLive w.grow = true → w.ended = false → w.turn = none → (w.hmode = true → w.hslot = sl) → c.atSync s.tick w sl = true → s.pathParked p wid w sl = false →
      (∀ q, w.path? sl = some q → s.barIdle p wid w sl q = false) → s.otherReady p w sl = true →
      (∀ e ∈ s.parties w.grow, e.1 ≠ .wave p wid → c.timeKey w (c.slotClock s.tick wid w sl) < e.2) →
      Becomes (.fgTurn p wid sl) s p (c.setWave wid { w with turn := some (sl, c.slotClock s.tick wid w sl) }))) ∧
  (∀ core x rest, s.portList p core = x :: rest →
    (∀ y ∈ rest, y.prio ≤ x.prio ∧ (y.prio = x.prio → x.age ≤ y.age) ∧ (y.prio = x.prio → y.age = x.age → x.wno ≤ y.wno) ∧
      (y.prio = x.prio → y.age = x.age → y.wno = x.wno → y.slot = .A → x.slot = .A)) ∧
    ∃ e ∈ c.waves, e.1 = x.wid ∧ e.2.core = core ∧ s.candidate p e.2 x.slot = true ∧ x.wno = e.2.wno ∧ x.prio = c.effPrio e.2 x.slot ∧
      ∀ k ∈ c.classesAt s.tick e.2 x.slot, (((c.core core).chosenNow c.cycle).flatMap (fun y => y.2.2)).count k < classPlaces k) ∧
  (∀ core, 256 ≤ (c.cycle - (c.core core).shiftAt).toNat → ∃ t, exec (.localityScoreShift p core) s = .next t ∧
    ((t.chip p).core core).shiftAt = (c.core core).shiftAt + 256 ∧
    (∀ j v, s.wave? p j = some v →
      t.wave? p j = some (if v.core = core ∧ v.ended = false ∧ v.saved = none then { v with score := v.score / 2 } else v)) ∧
    (let sum := ((t.chip p).waves.filter (fun e => e.2.core = core && !e.2.ended && e.2.saved.isNone)).foldl (fun n e => n + e.2.score) 0
     ((t.chip p).core core).permitN = if sum < 256 then 64 else Nat.max 4 (16384 / sum)) ∧
    s.SameBytes t ∧ ∀ q, q ≠ p → t.chip q = s.chip q) ∧
  (∀ core line l, (c.core core).l1.find? (fun l => l.line = line) = some l →
    ∃ t, exec (.l1Replacement p core line) s = .next t ∧ ((t.chip p).core core).l1 = (c.core core).l1.filter (fun x => x.line ≠ line) ∧
      (∀ w, s.wave? p l.filler = some w → ∃ w', t.wave? p l.filler = some w' ∧
        w' = { w with vtags := (w.vtags ++ [line]).drop (w.vtags.length + 1 - 8) }) ∧
      (∀ j, j ≠ l.filler → t.wave? p j = s.wave? p j) ∧ s.SameBytes t) ∧
  (∀ grow, (∃ e ∈ s.chips, e.2.fgear grow = true) → s.quantumDue grow = true → ∃ t, exec (.quantumCommit grow) s = .next t ∧
    (∀ q j w, s.wave? q j = some w → w.grow = grow → s.gone grow (s.chip q) = false → w.quant = s.quantumOf grow →
      ∃ w', t.wave? q j = some w' ∧ w'.buf = [] ∧ w'.quant = w.quant + 1) ∧
    (∀ q j w b pa, s.wave? q j = some w → w.grow = grow → s.gone grow (s.chip q) = false → w.quant = s.quantumOf grow → w.buf = [b] → (∀ q' j' u, s.wave? q' j' = some u → (q', j') ≠ (q, j) → u.buf = []) →
      b.tgt = .dram pa → b.data.length ≤ 8 → s.canWrite q (.dram pa) b.data.length = true →
      t.HoldsBytes q (.dram pa) b.data ∧ s.SameBytesBut t (Target.Within q (.dram pa) b.data.length)))

/-- R414 to R420, R426, R427: queues. A NOTIFY raises the count of packets made known; a packet is read at FETCH, or the queue stalls where VALID is 0. A
LAUNCH whose record passes is entered; misaligned, reserved and failing ones are rejected. A BARRIER is done once every dependency is at most 0; a
SIGNAL adds to its word; a COPY moves its bytes. A packet that is resolved retires: its slot takes the result header, and then its completion signal counts
down; one in a host memory that completes no atomics rejects it before anything of it is performed. A slot that cannot be read is a packet that retires with
XLATE. That the copies of launch records stand at `lrecOff` of their QTAG, that an unreadable slot takes its place in the order, and what a slot off the chip
enters in the fault queue, are the model's choice (log entries 45, 83). -/
def Obligations.QueuePackets : Prop := ∀ (s : State) (p half q n : Nat) (x : Queue),
  let c := s.chip p
  let is := fun (i : Instr) (k : StartedPkt) => Becomes i s p (c.setPkt half q k)
  (c.queueAt half q = some x →
    (∀ v : DWord, Becomes (.notifyWrite p half q v) s p (if x.notify.toNat < v.toNat then c.setQueue half q { x with notify := v } else c)) ∧
    (x.notify.toNat ≤ x.fetch.toNat → Becomes (.packetFetch p half q) s p c) ∧
    (∀ tg bs, x.fetch.toNat < x.notify.toNat → c.offChip ((x.ring.toNat + 64 * (x.fetch.toNat % 2 ^ x.log2)) % 2 ^ 64) = false →
      s.UnitAt p (askPkt half q x.fetch.toNat) x.asid ((x.ring.toNat + 64 * (x.fetch.toNat % 2 ^ x.log2)) % 2 ^ 64) .unitRead none tg →
      s.unitRead p 0 tg 64 = .ok bs →
      let word := fun i => BitVec.ofNat 64 (ofLe ((bs.drop (8 * i)).take 8))
      ((word 0).getLsbD 0 = false → Becomes (.packetFetch p half q) s p (c.setQueue half q { x with stall := true })) ∧
      ((word 0).getLsbD 0 = true →
        let k : StartedPkt := { n := x.fetch.toNat, hdr := word 0, csig := word 1, payload := [word 2, word 3, word 4, word 5, word 6, word 7],
                                stage := .fetched, deps := [], code := 0, detail := 0, cause := 0, faultId := 0, kern := none }
        Becomes (.packetFetch p half q) s p (c.setQueue half q { x with stall := false, fetch := x.fetch + 1, started := x.started ++ [k] }))) ∧
    (x.fetch.toNat < x.notify.toNat → s.NoAsk → c.offChip ((x.ring.toNat + 64 * (x.fetch.toNat % 2 ^ x.log2)) % 2 ^ 64) = true →
      let k : StartedPkt := { n := x.fetch.toNat, hdr := 0, csig := 0, payload := [0, 0, 0, 0, 0, 0], stage := .fetched, deps := [], code := 4,
                              detail := 0, cause := 0, faultId := 0, kern := none }
      Becomes (.packetFetch p half q) s p ((c.farFault ((x.ring.toNat + 64 * (x.fetch.toNat % 2 ^ x.log2)) % 2 ^ 64) x.asid .unitRead 0).setQueue half q
        { x with stall := false, fetch := x.fetch + 1, started := x.started ++ [k] }))) ∧
  (∀ k ty, s.MayStart p half q n ty x k → k.reserved = true →
    (ty = 0 → is (.launchPacket p half q n) (k.result 1 1)) ∧ (ty = 1 → is (.barrierPacket p half q n) (k.result 1 1)) ∧
    (ty = 3 → is (.copyPacket p half q n) (k.result 1 1))) ∧
  (∀ k ha u, s.hostSays ha = some u → u.MayStart p half q n 2 x k → k.reserved = true → is (.signalPacket p half q n ha) (k.result 1 1)) ∧
  (∀ k, s.Starts p half q n 0 x k →
    (k.arg 0 % 256 ≠ 0 → is (.launchPacket p half q n) (k.result 1 2)) ∧
    (∀ bs, k.arg 0 % 256 = 0 → s.unitBytes p (askPkt half q n) x.asid (k.arg 0) 256 0 = (s, some bs) →
      (∀ d, c.checkRec x.asid (ofLe bs) = some d → is (.launchPacket p half q n) (k.result 1 d)) ∧
      (c.checkRec x.asid (ofLe bs) = none → s.barred p x.asid k = true → is (.launchPacket p half q n) (k.result 1 8)) ∧
      (c.checkRec x.asid (ofLe bs) = none → s.barred p x.asid k = false → c.rowFree = true → (∀ j ∈ x.started, j.n < n → j.stage ≠ .waiting) →
        Becomes (.launchPacket p half q n) s p (((c.keepRecord x.asid (qtagOf half q n) bs).setPkt half q
          { k with stage := .submitted, kern := some (decodeRec (ofLe bs)) }).propose 0
          (submitPayload (c.chipId * 2 ^ 48 + lrecOff (qtagOf half q n)) x.asid (decodeRec (ofLe bs)) (qtagOf half q n)))))) ∧
  (∀ k (val : DWord → List Byte), let live := fun (l : List DWord) => l.filter (fun d => decide (0 < asSigned 64 (ofLe (val d))))
    (s.Starts p half q n 1 x k →
      let deps := (k.payload.take 4).filter (fun d => d ≠ 0)
      ((∃ d ∈ deps, d.toNat % 8 ≠ 0) → is (.barrierPacket p half q n) (k.result 1 2)) ∧
      ((∀ d ∈ deps, d.toNat % 8 = 0) → s.barred p x.asid k = true → is (.barrierPacket p half q n) (k.result 1 8)) ∧
      ((∀ d ∈ deps, d.toNat % 8 = 0 ∧ s.unitBytes p (askPkt half q n) x.asid d.toNat 8 0 = (s, some (val d))) → s.barred p x.asid k = false →
        (live deps = [] → is (.barrierPacket p half q n) { k.result 0 0 with deps := deps }) ∧
        (live deps ≠ [] → is (.barrierPacket p half q n) { k with deps := live deps, stage := .started }))) ∧
    (c.queueAt half q = some x → x.pkt n = some k → k.type = 1 → k.stage = .started → s.NoAsk →
      (∀ d ∈ k.deps, s.unitBytes p (askPkt half q n) x.asid d.toNat 8 0 = (s, some (val d))) →
      (live k.deps = [] → is (.barrierRecheck p half q n) (k.result 0 0)) ∧
      (live k.deps ≠ [] → is (.barrierRecheck p half q n) { k with deps := live k.deps }))) ∧
  (∀ k ha u, s.hostSays ha = some u → u.Starts p half q n 2 x k →
    (k.arg 0 % 8 ≠ 0 → is (.signalPacket p half q n ha) (k.result 1 2)) ∧
    (k.arg 0 % 8 = 0 → c.offChip (k.arg 0) = true → is (.signalPacket p half q n ha) (k.result 1 7)) ∧
    (∀ tg bs, k.arg 0 % 8 = 0 → c.offChip (k.arg 0) = false → s.UnitAt p (askPkt half q n) x.asid (k.arg 0) .unitWrite none tg →
      let far := tg.onHost || c.csigHost x.asid k
      (far = true → ha = false → is (.signalPacket p half q n ha) (k.result 1 8)) ∧
      (far = false ∨ ha = true → s.readTgt p tg 8 = some bs → s.canWrite p tg 8 = true → ∃ t, exec (.signalPacket p half q n ha) s = .next t ∧
        t.HoldsBytes p tg (leBytes 8 (BitVec.ofNat 64 (ofLe bs) + k.payload.getD 1 0).toNat) ∧ s.SameBytesBut t (Target.Within p tg 8) ∧
        (t.chip p).queueAt half q = some (x.setPkt (k.result 0 0))))) ∧
  (∀ k, s.Starts p half q n 3 x k →
    let dst := k.arg 0
    let src := k.arg 1
    let len := k.arg 2
    (dst % 16 ≠ 0 ∨ src % 16 ≠ 0 ∨ len % 16 ≠ 0 ∨ len < 16 ∨ 2 ^ 32 < len → is (.copyPacket p half q n) (k.result 1 2)) ∧
    (dst % 16 = 0 → src % 16 = 0 → len % 16 = 0 → 16 ≤ len → len ≤ 2 ^ 32 →
      (c.rangeOff dst len = true ∨ c.rangeOff src len = true → is (.copyPacket p half q n) (k.result 1 7)) ∧
      (c.rangeOff dst len = false → c.rangeOff src len = false →
        (s.barred p x.asid k = true → is (.copyPacket p half q n) (k.result 1 8)) ∧
        (s.barred p x.asid k = false → ∃ t y r, exec (.copyPacket p half q n) s = .next t ∧ (t.chip p).queueAt half q = some y ∧ y.pkt n = some r ∧
          (r = k ∨ r = k.result 0 0 ∨ r = k.result 4 2) ∧ (t.chip p).waves = c.waves) ∧
        (∀ a b bs, len = 16 → s.barred p x.asid k = false → s.UnitAt p (askPkt half q n) x.asid src .unitRead none a →
          s.UnitAt p (askPkt half q n) x.asid dst .unitWrite none b → s.unitRead p 0 a 16 = .ok bs → s.canWrite p b 16 = true → ∃ t, exec (.copyPacket p half q n) s = .next t ∧ t.HoldsBytes p b bs ∧
            s.SameBytesBut t (Target.Within p b 16) ∧ (t.chip p).queueAt half q = some (x.setPkt (k.result 0 0)))))) ∧
  (∀ k ha a, (s.hostSays ha).isSome = true → c.queueAt half q = some x → x.pkt n = some k →
    c.offChip ((x.ring.toNat + 64 * (n % 2 ^ x.log2)) % 2 ^ 64) = false →
    s.UnitAt p (askPkt half q n) x.asid ((x.ring.toNat + 64 * (n % 2 ^ x.log2)) % 2 ^ 64) .unitWrite none (.dram a) → s.canWrite p (.dram a) 8 = true →
    let hdr := fun (code detail cause : Nat) =>
      leBytes 8 (code * 2 ^ 56 + detail % 256 * 2 ^ 48 + cause % 256 * 2 ^ 40 + 2 ^ 5 + fld k.hdr.toNat 1 4 * 2)
    let gone : Queue := { x with started := x.started.filter (fun j => j.n ≠ n), doneCnt := x.doneCnt + 1 }
    let slot := Target.Within p (.dram a) 8
    (k.stage = .resolved → k.type < 4 → k.code ≠ 2 → k.csig = 0 → ∃ t, exec (.packetRetire p half q n ha) s = .next t ∧
      t.HoldsBytes p (.dram a) (hdr k.code k.detail k.cause) ∧ s.SameBytesBut t slot ∧ (t.chip p).queueAt half q = some gone) ∧
    (4 ≤ k.type → k.code ≠ 4 → x.mayStart k = true → k.csig = 0 → ∃ t, exec (.packetRetire p half q n ha) s = .next t ∧
      t.HoldsBytes p (.dram a) (hdr 1 1 0) ∧ s.SameBytesBut t slot ∧ (t.chip p).queueAt half q = some gone) ∧
    (k.code = 4 → k.stage = .fetched → x.mayStart k = true → k.csig = 0 → ∃ t, exec (.packetRetire p half q n ha) s = .next t ∧
      t.HoldsBytes p (.dram a) (hdr 4 1 0) ∧ s.SameBytesBut t slot ∧ (t.chip p).queueAt half q = some gone) ∧
    (∀ b, k.stage = .resolved → k.type < 4 → k.csig ≠ 0 → c.offChip k.csig.toNat = false →
      s.UnitAt p (askPkt half q n) x.asid k.csig.toNat .unitWrite none (.host b) → ha = false → ∃ t, exec (.packetRetire p half q n ha) s = .next t ∧
        t.HoldsBytes p (.dram a) (if k.code = 1 then hdr 1 k.detail k.cause else hdr 1 8 0) ∧ s.SameBytesBut t slot ∧ (t.chip p).queueAt half q = some gone) ∧
    (∀ b bs, k.stage = .resolved → k.type < 4 → k.code ≠ 2 → k.csig ≠ 0 → c.offChip k.csig.toNat = false →
      s.UnitAt p (askPkt half q n) x.asid k.csig.toNat .unitWrite none (.dram b) → a + 8 ≤ b ∨ b + 8 ≤ a → s.readTgt p (.dram b) 8 = some bs →
      s.canWrite p (.dram b) 8 = true → ∃ t, exec (.packetRetire p half q n ha) s = .next t ∧ t.HoldsBytes p (.dram a) (hdr k.code k.detail k.cause) ∧
        t.HoldsBytes p (.dram b) (leBytes 8 (BitVec.ofNat 64 (ofLe bs) - 1).toNat) ∧
        s.SameBytesBut t (fun q' y => slot q' y ∨ Target.Within p (.dram b) 8 q' y) ∧ (t.chip p).queueAt half q = some gone))

/-- R428, R430, R431, R433: the queue engine. The cohort at the head of the latency list, and of the bulk list only where that is empty, is admitted where
it fits: block by block on the cores found for it, each with the words of its windows zero and its waves at the entry of their stage; one that does not
fit stays, and a gang stays whole. A borrower is vacated for a latency cohort that does not fit. An idle core asks another cluster for work, which gives the last of
its bulk list. -/
def Obligations.QueueEngine : Prop := ∀ (s : State) (p cl : Nat),
  let c := s.chip p
  let u := c.cluster cl
  (s.NoAsk → u.lat = [] → u.bulk = [] → exec (.cohortAdmit p cl) s = .next s) ∧
  (∀ id k, s.NoAsk → (u.lat ++ u.bulk).head? = some id → tfind c.cohorts id = some k →
    let gang := k.status = .pending ∧ k.node = none ∧ (c.grid? k.grow).any (fun g => g.kern.gang) = true
    (¬gang → c.fits cl k = none → exec (.cohortAdmit p cl) s = .next s) ∧
    (gang → ∀ j kj rest, c.rowPending k.grow k.rc = j :: rest → tfind c.cohorts j = some kj →
      c.gangCluster (j :: rest) kj ((c.grid? k.grow).any (fun g => g.kern.latency)) = none → exec (.cohortAdmit p cl) s = .next s) ∧
    (∀ cores g r m, ¬gang → c.fits cl k = some cores → c.grid? k.grow = some g → c.cohortNeed k = some (r, m) →
      k.node.isSome ∨ g.kern.nbin = 0 ∨ (∃ b ∈ u.bins, b.grow = k.grow) →
      ∃ t k', exec (.cohortAdmit p cl) s = .next t ∧ tfind (t.chip p).cohorts id = some k' ∧ k'.status = .resident ∧ k'.cluster = cl ∧
        ((t.chip p).cluster cl).lat = u.lat.filter (fun j => j ≠ id) ∧ ((t.chip p).cluster cl).bulk = u.bulk.filter (fun j => j ≠ id) ∧
        (k.status = .pending → k'.blocks.length = cores.length ∧ ∀ i < cores.length, ∃ b,
          tfind (t.chip p).blocks (k'.blocks.getD i 0) = some b ∧ b.block = k.first + i ∧ b.crank = i ∧ b.core = cores.getD i 0 ∧
          (∀ w ∈ r.wins, w.fol = false ∨ r.tandem = true →
            t.HoldsBytes p (.loc (k'.blocks.getD i 0) w.fol w.off) (List.replicate (16 + 8 * w.nslot) 0)) ∧
          b.waves.length = (wavePlan r).length ∧ ∀ j st, (wavePlan r)[j]? = some st → ∃ w, t.wave? p (b.waves.getD j 0) = some w ∧
            w.core = cores.getD i 0 ∧ w.stage = st.1 ∧ w.swave = st.2.1 ∧ w.wno = j ∧ w.L = st.2.2.L ∧ w.slotB = none ∧
            w.slotA = some { pc := BitVec.ofNat 64 st.2.2.entry, mask := 0xFFFFFFFF, wbase := st.2.2.D, fresh := false, wait := .none }))) ∧
  (∀ hd head id k, u.lat.head? = some hd → tfind c.cohorts hd = some head → c.fits cl head = none → c.borrower cl = some (id, k) →
    let live := k.blocks.filter (fun i => (tfind c.blocks i).any (fun b => !c.blockOver i b))
    (live.map (fun i => ((tfind c.blocks i).map (fun b => b.cores.length)).getD 0)).sum ≤ c.freeSlots.length →
    (∀ e ∈ c.clusters, ∀ q ∈ e.2.fit.queue, ∀ i ∈ live, ∀ b, tfind c.blocks i = some b → q.wid ∉ b.waves) →
    (∀ a ∈ c.pend, ∀ i ∈ live, (∀ b, tfind c.blocks i = some b → a.wid ∉ b.waves) ∧ ∀ f o, a.tgt ≠ .loc i f o) →
    ∃ t, exec (.cohortVacate p cl) s = .next t ∧ tfind (t.chip p).cohorts id = some { k with status := .vacated } ∧
      ((t.chip p).cluster cl).bulk = id :: u.bulk ∧ ((t.chip p).cluster cl).lat = u.lat ∧
      ∀ i ∈ live, ∃ b, tfind (t.chip p).blocks i = some b ∧ b.saved.isSome = true) ∧
  (∀ core, clusterOf core = cl → core < 512 → (c.core core).retired = false → c.coreBlocks core = [] → u.lat = [] → u.bulk = [] →
    (∀ r ∈ c.steals, r.core ≠ core) →
    let v := (c.core core).lfsr
    let v' := if v.getLsbD 0 then v >>> 1 ^^^ 0xB400 else v >>> 1
    ∃ t, exec (.stealRequest p core) s = .next t ∧ ((t.chip p).core core).lfsr = v' ∧
      (t.chip p).steals = c.steals ++ [{ core := core, victim := (cl + 1 + v'.toNat % 15) % 16 }] ∧ s.SameBytes t) ∧
  (∀ idx r, c.steals[idx]? = some r → clusterOf r.core = cl →
    (c.stealable r.victim cl = none → Becomes (.stealAnswer p idx) s p { c with steals := c.steals.eraseIdx idx }) ∧
      (∀ id k cores g, s.NoAsk → r.victim ≠ cl → c.stealable r.victim cl = some (id, k, cores) → c.grid? k.grow = some g → g.kern.nbin = 0 →
        ∃ t k', exec (.stealAnswer p idx) s = .next t ∧ tfind (t.chip p).cohorts id = some k' ∧ k'.status = .resident ∧ k'.cluster = cl ∧
          (t.chip p).steals = c.steals.eraseIdx idx ∧ id ∉ ((t.chip p).cluster r.victim).bulk ∧ id ∉ ((t.chip p).cluster r.victim).lat))

/-- R427, R434 to R437, R450: work-graph bins and the end of a grid's row. `qemit` writes its record at the tail of its bin's buffer, counts it, and launches a
batch where it is complete; a bin that is not there and one that is full answer REJECT. The timer of a bin launches what is pending. A row whose
blocks have ended, with empty bins, proposes FINISH once. -/
def Obligations.NodeRecords : Prop :=
  (∀ (o : Ops) (s : State) (x : Iss), issOf (formQemit o) o s = some x → x.calm s = true → x.go = true →
    ∀ a tg bs, x.localTargets [(x.low, (x.word .b x.low 0).toNat)] 64 64 = .ok [(a, tg)] → s.readTgt x.p tg 64 = some bs →
    let num := (x.word .a x.low 0).toNat % 256
    let cl := clusterOf x.w.core
    let bins := (x.c.cluster cl).bins
    let answers := fun (t : State) (v : Word) =>
      exec (.qemit o) s = .next t ∧ ∃ w, x.Through s t w ∧ x.Holds w 1 (fun _ _ => v) ∧ w.flags = x.w.flags
    ((∀ b ∈ bins, b.grow ≠ x.w.grow ∨ b.num ≠ num) →
      ∃ t, answers t (statusWord 4 0 x.c.chipId 2) ∧ ((t.chip x.p).cluster cl).bins = bins ∧ s.SameBytes t) ∧
    (∀ b, bins.find? (fun b => b.grow = x.w.grow && b.num = num) = some b →
      (1024 ≤ b.pending + b.held → ∃ t, answers t (statusWord 4 0 x.c.chipId 1) ∧ ((t.chip x.p).cluster cl).bins = bins ∧ s.SameBytes t) ∧
      (∀ g pa, b.pending + b.held < 1024 → x.arrayHolds false [(a, tg)] 64 = false →
        (∀ e ∈ x.c.pend, e.own x.wid x.q.mask = true → e.tgt.overlaps e.size tg 64 = false) → x.c.grid? x.w.grow = some g →
        x.c.offChip (b.buf.toNat + 64 * b.tail) = false → s.UnitAt x.p (askWave x.wid) g.asid (b.buf.toNat + 64 * b.tail) .unitWrite (some x.w) (.dram pa) →
        s.canWrite x.p (.dram pa) 64 = true →
        let b1 := { b with tail := (b.tail + 1) % 1024, pending := b.pending + 1, running := b.running || b.pending = 0 && b.timer ≠ 0 }
        ∃ t, answers t 0 ∧ t.HoldsBytes x.p (.dram pa) bs ∧ s.SameBytesBut t (Target.Within x.p (.dram pa) 64) ∧
          (b.pending + 1 ≠ b.cnt → ((t.chip x.p).cluster cl).bins = bins.map (fun y => if y.grow = b.grow ∧ y.num = b.num then b1 else y) ∧
            (t.chip x.p).cohorts = x.c.cohorts) ∧
          (b.pending + 1 = b.cnt → x.c.Batched (t.chip x.p) cl b1 b.cnt)))) ∧
  (∀ o : Ops, DoneBy (.qemit o) (formQemit o) o (fun x _ => x.go = false) (fun _ s => s)) ∧
  (∀ (s : State) (p cl n : Nat) (b : Bin),
    let c := s.chip p
    (c.cluster cl).bins[n]? = some b → b.running = true → b.pending ≠ 0 →
    ∃ t, exec (.binTimerExpiry p cl n) s = .next t ∧ c.Batched (t.chip p) cl b b.pending ∧ s.SameBytes t) ∧
  (∀ (s : State) (p grow rc : Nat) (g : GridRun),
    let c := s.chip p
    let row := tget PlaceRow.empty c.pel.rep.places (grow * 512 + rc)
    let mine := fun (k : Cohort) => k.grow = grow ∧ k.rc = rc
    let payload := rc * 2 ^ 44 + g.ggen.toNat * 2 ^ 12 + grow
    c.grid? grow = some g → row.state = .running → row.exec = c.chipId → (∃ e ∈ c.cohorts, mine e.2 ∧ e.2.status ≠ .finished) →
    (∀ e ∈ c.cohorts, mine e.2 → e.2.blocks ≠ [] ∧ ∀ i ∈ e.2.blocks, ∀ b, tfind c.blocks i = some b → b.ended = true ∧
      ∀ w ∈ b.waves, c.waveDrained w = true) →
    (∀ e ∈ c.cohorts, e.2.grow = grow → e.2.node.isSome = true → ∀ i ∈ e.2.blocks, ∀ b, tfind c.blocks i = some b → b.ended = true ∧
      ∀ w ∈ b.waves, c.waveDrained w = true) →
    (∀ e ∈ c.clusters, ∀ b ∈ e.2.bins, b.grow = grow → b.pending = 0 ∧ b.held = 0) → c.proposing 1 payload = false →
    Becomes (.gridChipFinish p grow rc) s p
      (({ c with cohorts := tmap c.cohorts (fun _ k => if k.grow = grow && k.rc = rc then { k with status := .finished } else k) } : Chip).propose 1 payload))

/-! ## Peloton -/

/-- R379, R440 to R443: proposals, sequencing and delivery. A chip sends a proposal and keeps it outstanding; the sequencer takes proposals of a
chip in the order of their PNUM, drops those that are past and those of chips out of the pod, numbers what it takes and sends it to every chip; a
chip delivers in the order of SEQ, and asks for the events it lacks; the standby takes over where it hears nothing, under a higher term; a heartbeat
goes out on every plane of its group, and a chip from which none comes is lost. That a proposal has its PNUM from the moment it is sent, and that a JOIN of a
chip out of the pod is taken at the last number or one below it (log entry 49), and the windows `ticked` and `heard` in which the standby and the sequencer
have heard something (log entry 64), are the model's choice. -/
def Obligations.PelotonService : Prop := ∀ (s : State),
  let w := s.sw
  let swOnly := fun (i : Instr) (x : Switch) => exec i s = .next { s with sw := x }
  (∀ p idx e, let c := s.chip p
    c.online = true → c.joined = true → c.pel.stuck = false → c.pel.rejoining = .none →
    (c.pel.props[idx]? = some e →
      let x := eventRec false (evOrigin e) (evType e) (c.pel.pnum + 1) 0 0 (evPay e 0 352)
      ∃ t, exec (.eventPropose p idx) s = .next t ∧ (t.chip p).pel.props = c.pel.props.eraseIdx idx ∧ (t.chip p).pel.pnum = c.pel.pnum + 1 ∧
        (t.chip p).pel.outstanding = c.pel.outstanding ++ [x] ∧ t.net = (s.emit p (s.pelPacket c 13 0 0 (leBytes 64 x.toNat))).net ∧ t.sw = w) ∧
    (c.pel.outstanding[idx]? = some e → ∃ t, exec (.proposalResend p idx) s = .next t ∧ (t.chip p).pel = c.pel ∧
      t.net = (s.emit p (s.pelPacket c 13 0 0 (leBytes 64 e.toNat))).net ∧ t.sw = w)) ∧
  (∀ net k, s.SwitchGets net 13 k → let e : EventRec := BitVec.ofNat 512 (ofLe k.data)
    exec (.evp net) s = .next { s with net := s.net.eraseIdx net, sw := if e ∈ w.inbox then w else { w with inbox := w.inbox ++ [e] } }) ∧
  (∀ idx e rest, w.emit = e :: rest → ∃ t, exec (.sequenceEvent idx) s = .next t ∧
    s.Sequenced t (eventRec (evWit e) (evOrigin e) (evType e) (evPnum e) w.term w.nextSeq (evPay e 0 352))) ∧
  (∀ idx e, w.emit = [] → w.inbox[idx]? = some e →
    let st := (w.witness.chip (evOrigin e)).state
    let last := tget 0 w.lastPnum (evOrigin e)
    let taken := ∃ t, exec (.sequenceEvent idx) s = .next t ∧
      s.Sequenced t (eventRec (evWit e) (evOrigin e) (evType e) (evPnum e) w.term w.nextSeq (evPay e 0 352)) ∧
      (evWit e = false → tget 0 t.sw.lastPnum (evOrigin e) = evPnum e)
    let dropped := swOnly (.sequenceEvent idx)
      { w with inbox := w.inbox.eraseIdx idx, lastPnum := tset w.lastPnum (evOrigin e) (Nat.max (evPnum e) last) }
    (evWit e = true → taken) ∧
    (evWit e = false → evPnum e ≤ last → evType e ≠ 6 ∨ st = .alive ∨ st = .joining → dropped) ∧
    (evWit e = false → evPnum e ≤ last → evType e = 6 → st = .absent ∨ st = .fenced → taken) ∧
    (evWit e = false → last < evPnum e → evType e = 6 → taken) ∧
    (evWit e = false → last < evPnum e → evType e ≠ 6 → st = .absent ∨ st = .fenced → dropped) ∧
    (evWit e = false → evPnum e = last + 1 → evType e ≠ 6 → st = .alive ∨ st = .joining → taken) ∧
    (evWit e = false → last + 1 < evPnum e → evType e ≠ 6 → st = .alive ∨ st = .joining → exec (.sequenceEvent idx) s = .next s)) ∧
  (∀ p net k, s.ChipGets p net 14 k → (s.chip p).joined = true → let e : EventRec := BitVec.ofNat 512 (ofLe k.data)
    ∃ t, exec (.ev p net) s = .next t ∧ t.net = s.net.eraseIdx net ∧ t.sw = w ∧
      (t.chip p).pel = if e ∈ (s.chip p).pel.inbuf then (s.chip p).pel else { (s.chip p).pel with inbuf := (s.chip p).pel.inbuf ++ [e] }) ∧
  (∀ p, let c := s.chip p
    let x := c.pel
    let next := x.rep.seq + x.apply.length + 1
    c.online = true → x.stuck = false → x.rejoining = .none →
    (∀ e, e ∈ x.inbuf → evSeq e = next → x.topTerm ≤ evTerm e → (∀ e' ∈ x.inbuf, evSeq e' = next → e' = e) →
      ∃ t, exec (.eventDeliver p) s = .next t ∧ (t.chip p).pel.apply = x.apply ++ [e] ∧ (t.chip p).pel.rep = x.rep ∧
        (t.chip p).pel.outstanding = x.outstanding.filter (fun r => evWit e || evOrigin e ≠ c.chipId || evPnum r ≠ evPnum e) ∧
        (t.chip p).pel.kept.getLast? = some e ∧ s.SameBytes t) ∧
    ((∀ e ∈ x.inbuf, evSeq e = next → evTerm e < x.topTerm) → ∃ t, exec (.eventDeliver p) s = .next t ∧ (t.chip p).pel.apply = x.apply ∧
      (t.chip p).pel.inbuf = x.inbuf.filter (fun e => decide (next ≤ evSeq e) && decide (x.topTerm ≤ evTerm e))) ∧
    (∀ e0, e0 ∈ x.inbuf → next < evSeq e0 → (∀ e ∈ x.inbuf, evSeq e ≠ next ∧ (next < evSeq e → evSeq e0 ≤ evSeq e)) →
      (∀ k ∈ s.net, k.ptype ≠ 16 ∨ k.dstSw = false ∨ k.src ≠ c.chipId) → ∃ t, exec (.gapRequest p) s = .next t ∧ (t.chip p).pel = x ∧
        t.net = (s.emit p (s.pelPacket c 16 (Nat.min 65536 (evSeq e0 - next)) next [])).net)) ∧
  (∀ net k, s.SwitchGets net 16 k →
    let l := w.retrans.filter (fun e => decide (k.addr.toNat ≤ evSeq e) && decide (evSeq e < k.addr.toNat + k.opw.toNat))
    ((∃ e ∈ l, evSeq e = k.addr.toNat) → exec (.rtq net) s = .next { s with net := s.net.eraseIdx net ++ l.map (fun e =>
      { Packet.blank with ptype := 14, srcSw := true, src := w.plane, dst := k.src, len := 64, data := leBytes 64 e.toNat, plane := k.plane }) }) ∧
    (∀ q, (∀ e ∈ l, evSeq e ≠ k.addr.toNat) → s.pkgOf k.src = some q → ∃ t, exec (.rtq net) s = .next t ∧ (t.chip q).pel.stuck = true)) ∧
  swOnly .standbyTick { w with ticked := true } ∧
  (w.ticked = true → swOnly .standbyTakeover { w with ticked := false }) ∧
  (w.ticked = false → swOnly .standbyTakeover
    { w with term := w.term + 1, pos := (w.pos + 1) % 48, witness := w.standby, inbox := w.inbox.filter evWit, ticked := true }) ∧
  (∀ p g n, (s.chip p).online = true → (s.chip p).pel.stuck = false → (let x := ((s.chip p).pel.rep.chip (s.chip p).chipId).state
      x = .alive ∨ x = .joining) → n < 48 → n % 4 = g % 4 → ((s.chip p).link n).OpenFor 2 1 →
    ∃ t, exec (.heartbeatSend p g) s = .next t ∧ (t.chip p).pel = (s.chip p).pel ∧ t.sw = w ∧
      { Packet.blank with ptype := 15, src := (s.chip p).chipId, dstSw := true, opw := BitVec.ofNat 32 (g % 4), plane := n } ∈ t.net) ∧
  (∀ net k, s.SwitchGets net 15 k → ∃ t, exec (.hb net) s = .next t ∧ t.net = s.net.eraseIdx net ∧ t.chips = s.chips ∧
    ∀ n, n ∈ t.sw.heard ↔ n ∈ w.heard ∨ n = k.src) ∧
  (∀ chip, (chip ∈ w.heard → swOnly (.heartbeatTimeout chip) { w with heard := w.heard.filter (fun n => n ≠ chip) }) ∧
    (chip ∉ w.heard → (w.witness.chip chip).state = .alive ∨ (w.witness.chip chip).state = .joining → (∀ e ∈ w.emit, evType e ≠ 4 ∨ evPay e 0 9 ≠ chip) →
      swOnly (.heartbeatTimeout chip) { w with emit := w.emit ++ [eventRec true 0 4 0 0 0 chip] }))

/-- R449 to R452: the events that grids stand under, as a chip applies them. SUBMIT takes the lowest FREE row; placed on one chip, that chip fetches the launch
record from LREC and hands the cohorts to its clusters; with no row free it is ignored. FINISH of a row's last chip, and FAULT, end the grid: its rows are cleared, its
waves end, and its packet resolves. BLOCKED replaces a chip's capacities. -/
def Obligations.ApplyScheduling : Prop := ∀ (s : State) (p : Nat) (e : EventRec),
  let c := s.chip p
  let r := c.pel.rep
  let me := c.chipId
  let gone := fun (t : State) (g : Nat) => ((t.chip p).pel.rep.grid g).state = .free ∧ ∀ k < 512, ((t.chip p).pel.rep.place g k).state = .empty
  let sameTables := fun (t : State) => (t.chip p).pel.rep.grids = r.grids ∧ (t.chip p).pel.rep.places = r.places
  (c.Applies e 0 →
    (∀ g, g < 4096 → (r.grid g).state = .free → (∀ h < g, (r.grid h).state ≠ .free) →
      ∃ t, exec (.applySubmit p) s = .next t ∧ s.Applied t p e ∧
        let y := (t.chip p).pel.rep.grid g
        y.state ≠ .free ∧ y.ggen = (r.grid g).ggen + 1 ∧ y.sseq = BitVec.ofNat 64 (evSeq e) ∧ y.origin = evOrigin e ∧
        y.lrec = BitVec.ofNat 64 (evPay e 0 64) ∧ y.asid = evPay e 64 16 ∧ y.nbm1 = evPay e 80 24 ∧ y.csm1 = evPay e 104 5 ∧ y.kc = evPay e 109 6 ∧
        y.cls = evPay e 115 2 ∧ y.restart = decide (evPay e 118 1 = 1) ∧ y.fgear = decide (evPay e 119 1 = 1) ∧
        y.gang = (decide (evPay e 117 1 = 1) || decide (evPay e 119 1 = 1)) ∧ y.qtag = BitVec.ofNat 32 (evPay e 120 32) ∧
        ∀ a f, r.eligible (evPay e 115 2) (evPay e 109 6) = [(a, f)] → (∀ h, (r.grid h).state ≠ .waiting) → a < 512 →
          (∀ k ∈ r.places, k.1 / 512 = g → k.2.state = .empty) → evPay e 117 1 = 0 → evPay e 119 1 = 0 →
          let n := evPay e 104 5 + 1
          let nb := evPay e 80 24 + 1
          let m := (nb + n - 1) / n
          y.state = .running ∧
          (t.chip p).pel.rep.place g a = { state := .running, first := 0, count := nb, cores := m * evPay e 109 6, exec := a } ∧
          ∀ q kern, a = me → c.grid? g = none → s.pkgOf (evPay e 0 64 / 2 ^ 48) = some q →
            (s.chip q).recordAt (evPay e 64 16) (evPay e 0 64 % 2 ^ 48) = some kern → kern.gang = false →
            (∃ run, (t.chip p).grid? g = some run ∧ run.kern = kern ∧ run.ggen = (r.grid g).ggen + 1 ∧ run.asid = evPay e 64 16) ∧
            ∀ i < m, ∃ id h, tfind (t.chip p).cohorts id = some h ∧ h.grow = g ∧ h.rc = me ∧ h.first = i * n ∧ h.count = Nat.min n (nb - i * n)) ∧
    ((∀ h < 4096, (r.grid h).state ≠ .free) → ∃ t, exec (.applySubmit p) s = .next t ∧ s.Applied t p e ∧ sameTables t ∧
      (evOrigin e = me → c.LaunchesBecome (t.chip p) (BitVec.ofNat 32 (evPay e 120 32)) (fun k => { k with stage := .waiting })))) ∧
  (c.Applies e 1 →
    let g := evPay e 0 12
    let rc := evPay e 44 9
    let row := r.place g rc
    ((r.grid g).ggen.toNat ≠ evPay e 12 32 ∨ row.state ≠ .running ∨ row.exec ≠ evOrigin e →
      ∃ t, exec (.applyFinish p) s = .next t ∧ s.Applied t p e ∧ sameTables t) ∧
    ((r.grid g).ggen.toNat = evPay e 12 32 → row.state = .running → row.exec = evOrigin e →
      ((∃ k < 512, k ≠ rc ∧ (r.place g k).state = .running) → ∃ t, exec (.applyFinish p) s = .next t ∧ s.Applied t p e ∧
        (t.chip p).pel.rep.place g rc = { row with state := .finished } ∧ (t.chip p).pel.rep.grids = r.grids) ∧
      ((∀ k < 512, k ≠ rc → (r.place g k).state ≠ .running) → ∃ t, exec (.applyFinish p) s = .next t ∧ s.Applied t p e ∧ gone t g ∧
        ((r.grid g).origin = me → c.LaunchesBecome (t.chip p) (r.grid g).qtag (fun k => { k with stage := .resolved, code := 0, detail := 0, cause := 0, faultId := 0 }))))) ∧
  (c.Applies e 2 → (r.chip (evOrigin e)).state = .alive ∨ (r.chip (evOrigin e)).state = .joining →
    ∃ t, exec (.applyBlocked p) s = .next t ∧ s.Applied t p e ∧ ((t.chip p).pel.rep.chip (evOrigin e)).capl = evPay e 0 10 ∧
      ((t.chip p).pel.rep.chip (evOrigin e)).capb = evPay e 10 10 ∧ ((t.chip p).pel.rep.chip (evOrigin e)).capp = evPay e 20 10) ∧
  (c.Applies e 3 →
    let g := evPay e 0 12
    let row := r.grid g
    (row.ggen.toNat ≠ evPay e 12 32 ∨ row.state ≠ .running → ∃ t, exec (.applyFault p) s = .next t ∧ s.Applied t p e ∧ sameTables t) ∧
    (row.ggen.toNat = evPay e 12 32 → row.state = .running → ∃ t, exec (.applyFault p) s = .next t ∧ s.Applied t p e ∧ gone t g ∧
      (row.origin = me → c.LaunchesBecome (t.chip p) row.qtag (fun k =>
        { k with stage := .resolved, code := 2, detail := 0, cause := evPay e 44 8, faultId := BitVec.ofNat 64 (evPay e 64 32) })) ∧
      (∀ run i v, c.grid? g = some run → i < c.next → s.wave? p i = some v → v.grow = g → ∃ v', t.wave? p i = some v' ∧ v'.ended = true)))

/-- R450, R451, R453 to R457: the events that chips stand under, as a chip applies them. CHIP_LOSS fences a chip with no capacity and ends the grids it
submitted and those that cannot be restarted; FENCE resets the chip that it names, as CHIP_LOSS
does (that one by the model's choice, log entry 51); JOIN takes a chip in, with its capacities, and opens a
point; the last report of a point forms its verdict, with which JOINING chips become ALIVE. A participant reports its digest of a point. -/
def Obligations.ApplyMembership : Prop := ∀ (s : State) (p : Nat) (e : EventRec),
  let c := s.chip p
  let r := c.pel.rep
  (c.Applies e 4 → let x := evPay e 0 9
    (x = c.chipId → ∃ t, exec (.applyChipLoss p) s = .next t ∧ (t.chip p).waves = [] ∧ (t.chip p).blocks = [] ∧ (t.chip p).chipId = c.chipId) ∧
    (x ≠ c.chipId → ∃ t, exec (.applyChipLoss p) s = .next t ∧ s.Applied t p e ∧
      (t.chip p).pel.rep.chip x = { state := .fenced, capl := 0, capb := 0, capp := 0 } ∧ tget 0 (t.chip p).pel.rep.caps x = 0 ∧
      (∀ g, (r.grid g).state ≠ .free → (r.grid g).origin = x → ((t.chip p).pel.rep.grid g).state = .free) ∧
      (∀ g, (r.grid g).state ≠ .free → (r.grid g).restart = false → (∃ k < 512, (r.place g k).state = .running ∧ (r.place g k).exec = x) →
        ((t.chip p).pel.rep.grid g).state = .free ∧ ∀ k < 512, ((t.chip p).pel.rep.place g k).state = .empty))) ∧
  (c.Applies e 5 → let x := evPay e 0 9
    (r.chip x).state ≠ .absent →
    (x ≠ c.chipId → ∃ t, exec (.applyFence p) s = .next t ∧ s.Applied t p e ∧ ((t.chip p).pel.rep.chip x).state = .fenced) ∧
    (x = c.chipId → ∃ t, exec (.applyFence p) s = .next t ∧ (t.chip p).waves = [] ∧ (t.chip p).blocks = [] ∧ (t.chip p).pend = [] ∧
      (t.chip p).chipId = c.chipId ∧ (t.chip p).joined = c.joined ∧ (c.joined = true → (t.chip p).pel.rejoining = .start))) ∧
  (c.Applies e 6 → let x := evOrigin e
    (r.chip x).state = .absent ∨ (r.chip x).state = .fenced → (∀ y ∈ r.points, y.verdict.isSome = true) →
    ∃ t, exec (.applyJoin p) s = .next t ∧ s.Applied t p e ∧
      (t.chip p).pel.rep.chip x = { state := .joining, capl := evPay e 128 10, capb := evPay e 138 10, capp := evPay e 148 10 } ∧
      tget 0 (t.chip p).pel.rep.caps x = BitVec.ofNat 64 (evPay e 64 64) ∧
      ∃ y ∈ (t.chip p).pel.rep.points, y.seq = evSeq e ∧ x ∈ y.parts ∧ y.reports = [] ∧ y.verdict = none) ∧
  (c.Applies e 7 → ∀ y, r.points.find? (fun y => y.seq = evPay e 0 64 && y.verdict.isNone) = some y → evWit e = false → evOrigin e ∈ y.parts →
    (∀ z ∈ y.reports, z.1 ≠ some (evOrigin e)) → evSeq e < y.seq + 65536 →
    let v := BitVec.ofNat 128 (evPay e 64 128)
    let all := y.reports ++ [(some (evOrigin e), v)]
    ((∃ k ∈ y.parts, ∀ z ∈ all, z.1 ≠ some k) ∨ (∀ z ∈ all, z.1 ≠ none) →
      ∃ t, exec (.applyDigest p) s = .next t ∧ s.Applied t p e ∧ { y with reports := all } ∈ (t.chip p).pel.rep.points) ∧
    ((∀ k ∈ y.parts, ∃ z ∈ all, z.1 = some k) → (∃ z ∈ all, z.1 = none) → (∀ z ∈ y.reports, z.2 = v) →
      ∃ t, exec (.applyDigest p) s = .next t ∧ s.Applied t p e ∧ { y with reports := all, verdict := some v } ∈ (t.chip p).pel.rep.points ∧
        ∀ k ∈ y.parts, (r.chip k).state = .joining → ((t.chip p).pel.rep.chip k).state = .alive)) ∧
  (∀ point x, r.points.find? (fun x => x.seq = point) = some x → point ∈ c.pel.due →
    Becomes (.digestPropose p point) s p
      (({ c with pel := { c.pel with due := c.pel.due.filter (fun n => n ≠ point) } } : Chip).propose 7 (point + x.own.toNat * 2 ^ 64)))

/-- R379, R441, R456 to R458: rejoining. A chip out of the pod resets, asks its neighbour for a snapshot, then for the events behind it, replays them and
proposes JOIN; it starts again from the reset where the digest of the snapshot is not its verdict, an event is missing, or the neighbour is lost. One whose
missing events have left the buffer comes to it once it is sent a FENCE or CHIP_LOSS that names it (log entry 49). An ALIVE chip answers with its snapshot or its
events, in packets of at most 512 bytes, and a repeated request from its record. The tables of one replica may diverge with no event. That the fields which the
image lacks come with it from the snapshot that was sent (log entry 48), and that the count of proposals outlives the reset (log entry 67), are the model's
choice. -/
def Obligations.Rejoining : Prop := ∀ (s : State) (p : Nat),
  let c := s.chip p
  let x := c.pel
  let asks := fun (nb kind seq : Nat) (st : RejoinStage) (rep : Replica) => ∃ t k, exec (.rejoin p) s = .next t ∧ t.net = (s.emit p k).net ∧
    k.ptype = 17 ∧ k.src = c.chipId ∧ k.dst = nb ∧ k.opw.toNat = kind ∧ k.addr.toNat = seq ∧ k ∈ (t.chip p).requests ∧
    (t.chip p).pel.rejoining = st ∧ (t.chip p).pel.pieces = [] ∧ (t.chip p).pel.rep = rep
  let again := ∃ t, exec (.rejoin p) s = .next t ∧ (t.chip p).waves = [] ∧ (t.chip p).blocks = [] ∧ (t.chip p).requests = [] ∧
    (t.chip p).pel.rep = Replica.formation ∧ (t.chip p).pel.inbuf = [] ∧ (t.chip p).pel.rejoining = .start ∧ (t.chip p).chipId = c.chipId ∧
    (t.chip p).joined = true ∧ (t.chip p).pel.pnum = x.pnum
  let out := (x.rep.chip c.chipId).state = .absent ∨ (x.rep.chip c.chipId).state = .fenced
  let lost := ∃ k ∈ c.requests, k.ptype = 17 ∧ (s.sw.witness.chip k.dst).state ≠ .alive
  let free := fun (nb : Nat) => c.mayAsk nb = true ∧ ∀ r ∈ c.askWait, r.dst ≠ nb
  (c.online = true → c.joined = true → c.recovery = false →
    (x.stuck = true → (∃ e ∈ x.inbuf, (evType e = 4 ∨ evType e = 5) ∧ evPay e 0 9 = c.chipId ∧ x.rep.seq < evSeq e) → again) ∧
    (x.stuck = true → (∀ e ∈ x.inbuf, evType e ≠ 4 ∧ evType e ≠ 5) → exec (.rejoin p) s = .next s) ∧
    (x.stuck = false →
      (x.rejoining = .none → out → again) ∧ (x.rejoining = .none → ¬out → exec (.rejoin p) s = .next s) ∧
      (∀ nb, x.rejoining = .start → s.neighbour c.chipId = some nb → free nb → asks nb 0 0 .snapshot x.rep) ∧
      (x.rejoining = .start → s.neighbour c.chipId = none → Becomes (.rejoin p) s p
        (({ c with pel := { x with rejoining := .proposed } } : Chip).propose 6 (c.joinPayload 0))) ∧
      (x.rejoining = .snapshot ∨ x.rejoining = .tail → lost → again) ∧
      (¬lost →
        (∀ bs nb, x.rejoining = .snapshot → x.received = some bs → s.neighbour c.chipId = some nb →
          let src := x.src.getD Replica.formation
          (replicaOf bs src = none → again) ∧
          (∀ rep v, replicaOf bs src = some (rep, v) →
            (rep.pointDigest = v → rep.seq < 2 ^ 64 → free nb → asks nb 1 rep.seq .tail rep) ∧ (rep.pointDigest ≠ v → again))) ∧
        (∀ bs, x.rejoining = .tail → x.received = some bs →
          let tail := (pieces 64 (bs.length / 64) bs).map (fun b => BitVec.ofNat 512 (ofLe b))
          let buf := seriesFrom x.inbuf x.inbuf.length (x.rep.seq + 1 + tail.length)
          let rep := (tail ++ buf).foldl (fun r e => (r.applyEvent e).rep) x.rep
          (inSeries (x.rep.seq + 1) tail = false ∨ (∃ y ∈ rep.points, ∃ v, y.verdict = some v ∧ v ≠ y.own) → again) ∧
          (inSeries (x.rep.seq + 1) tail = true → (∀ y ∈ rep.points, ∀ v, y.verdict = some v → v = y.own) →
            ∃ t, exec (.rejoin p) s = .next t ∧ (t.chip p).pel.rep = rep ∧ (t.chip p).pel.rejoining = .proposed ∧
              (t.chip p).pel.props = x.props ++ [eventRec false c.chipId 6 0 0 0 (c.joinPayload x.rep.seq)]))))) ∧
  (∀ net k, s.ChipGets p net 17 k → (x.rep.chip c.chipId).state = .alive → x.rejoining = .none →
    let bytes := match c.snSent.find? (fun a => a.1 = k.src && a.2.1 = k.tid) with
      | some a => a.2.2.1
      | none => if k.opw = 0 then (x.snap.map Replica.image).getD []
        else (x.kept.filter (fun e => decide (k.addr.toNat < evSeq e))).flatMap (fun e => leBytes 64 e.toNat)
    ∃ t, ∃ l : List Packet, exec (.snq p net) s = .next t ∧ t.net = (l.foldl (fun u k' => u.emit p k') (s.dropNet net)).net ∧ l.flatMap Packet.data = bytes ∧
      (∀ k' ∈ l, k'.ptype = 18 ∧ k'.dst = k.src ∧ k'.tid = k.tid ∧ k'.len = k'.data.length ∧ k'.len ≤ 512) ∧
      (∀ i k', l[i]? = some k' → k'.addr.toNat = 512 * i % 2 ^ 64 ∧ (nbit k'.opw.toNat 31 = true ↔ i + 1 = l.length))) ∧
  (∀ net k rq, s.ChipGets p net 18 k → c.requests.find? (fun r => r.ptype = 17 && r.dst = k.src && r.tid = k.tid) = some rq →
    ∃ t, exec (.snd p net) s = .next t ∧ t.net = s.net.eraseIdx net ∧
      (t.chip p).pel.pieces = tset x.pieces (k.addr.toNat / 512) k.data ∧
      (t.chip p).pel.pieceCount = (if nbit k.opw.toNat 31 then some (k.addr.toNat / 512 + 1) else x.pieceCount) ∧
      (t.chip p).requests = if (t.chip p).pel.pieceCount = some (t.chip p).pel.pieces.length then c.requests.erase rq else c.requests) ∧
  (∀ u, exec (.schedulerDivergence none u) s = .next { s with sw := { s.sw with witness := s.sw.witness.upset u } } ∧
    Becomes (.schedulerDivergence (some p) u) s p { c with pel := { x with rep := x.rep.upset u } })

/-! ## Between chips -/

/-- R106, R238 to R241, R372, R378, R382: the packets of remote operations. A request is performed once and answered; a repeated one is answered from the
record of its response. WR writes its unit, RD reads, AT performs its group and answers the old values, TK takes a ticket, TKW waits for its
turn, TKA advances SERVING; a response reaches the command or the lanes that await it, and lets
the next request go that waits for a place among the 32,768 to its chip. The element type that a packet carries beside its word, which has no bit for its
sign, is the model's choice (log entry 55). -/
def Obligations.RemotePackets : Prop := ∀ (s : State) (p net : Nat) (k : Packet),
  let c := s.chip p
  (∀ ty i a, (ty, i) ∈ [(1, Instr.wr p net), (3, .rd p net), (7, .tk p net), (9, .tkw p net), (11, .tka p net)] → s.NoAsk → s.ChipGets p net ty k →
    c.pel.rejoining = .none → (c.pel.rep.chip c.chipId).state = .alive → c.answered.find? (fun a => a.1 = k.src && a.2.1 = k.tid) = some a →
    ∃ t, exec i s = .next t ∧ t.net = ((s.dropNet net).emit p { a.2.2 with plane := c.planeFor k.plane }).net ∧ s.SameBytes t ∧ t.sw = s.sw) ∧
  (∀ tg old, s.Serves p net 1 k →
    let red := if nbit k.opw.toNat 0 then some (fld k.opw.toNat 1 2, (Ty.ofCode (fld k.opw.toNat 3 5)).getD .i32) else none
    let new := match red with
      | none => k.data
      | some (rop, ty) => redBytes rop ty k.data old
    (∀ rop ty, red = some (rop, ty) → c.unable (capTypeBit ty) = false ∧ c.unable (capRopBit rop) = false) →
    s.ReqAt p k (writeKind red) tg → s.readTgt p tg k.data.length = some old → new.length = k.data.length → k.data ≠ [] →
    s.canWrite p tg k.data.length = true → ∃ t m, exec (.wr p net) s = .next t ∧ s.Answered t p net k m ∧ m.ptype = 2 ∧ m.opw = 0 ∧
      t.HoldsBytes p tg new ∧ s.SameBytesBut t (Target.Within p tg k.data.length)) ∧
  (∀ cause level, s.Serves p net 1 k → nbit k.opw.toNat 0 = false → s.NoAsk →
    let own := ((s.starter k).filter (fun e => e.1 = p)).map (·.2.2)
    let off := k.addr.toNat % 2 ^ 48
    c.unitLook { kind := .unitWrite, cluster := unitCluster own k.asid off, who := askReq k } k.asid off = some (.error (cause, level)) →
    ∃ t m, exec (.wr p net) s = .next t ∧ s.Answered t p net k m ∧ m.ptype = 2 ∧ m.opw = statusWord (causeCode cause) 3 c.chipId 0) ∧
  (∀ tg bs, s.Serves p net 3 k → s.ReqAt p k .unitRead tg → (∀ pa, tg ≠ .aperture pa) → s.readTgt p tg k.len = some bs →
    ∃ t m, exec (.rd p net) s = .next t ∧ s.Answered t p net k m ∧ m.ptype = 4 ∧ m.opw = 0 ∧ m.data = bs ∧ s.SameBytes t) ∧
  (∀ tg bs, s.Serves p net 5 k → nbit k.opw.toNat 5 = false → fld k.opw.toNat 8 8 = 1 → k.ty.width = (if nbit k.opw.toNat 4 then 64 else 32) →
    k.data.length = k.ty.width / 8 → c.unable (capAopBit (fld k.opw.toNat 0 4)) = false → s.ReqAt p k .atomic tg →
    s.readTgt p tg (k.ty.width / 8) = some bs → s.canWrite p tg (k.ty.width / 8) = true →
    ∃ t m, exec (.atReq p net) s = .next t ∧ s.Answered t p net k m ∧ m.ptype = 6 ∧ m.opw = 0 ∧ m.data = leBytes (k.ty.width / 8) (ofLe bs) ∧
      t.HoldsBytes p tg (leBytes (k.ty.width / 8) (aopNew (fld k.opw.toNat 0 4) k.ty (ofLe bs) (ofLe k.data) 0)) ∧
      s.SameBytesBut t (Target.Within p tg (k.ty.width / 8))) ∧
  (s.Serves p net 7 k → c.unable capInc = false → let n := fld k.opw.toNat 0 8
    ∃ t m, exec (.tk p net) s = .next t ∧ s.Answered t p net k m ∧ m.ptype = 8 ∧ m.opw = BitVec.ofNat 32 (c.incastAt n).1.toNat ∧
      (t.chip p).incastAt n = ((c.incastAt n).1 + 1, (c.incastAt n).2) ∧ s.SameBytes t) ∧
  (s.Serves p net 9 k → c.unable capInc = false →
    ((c.incastAt (fld k.opw.toNat 24 8)).2.toNat = fld k.opw.toNat 0 24 →
      ∃ t m, exec (.tkw p net) s = .next t ∧ s.Answered t p net k m ∧ m.ptype = 10 ∧ s.SameBytes t) ∧
    ((c.incastAt (fld k.opw.toNat 24 8)).2.toNat ≠ fld k.opw.toNat 0 24 → (∀ r ∈ c.tkWait, r.src ≠ k.src ∨ r.tid ≠ k.tid) →
      ∃ t, exec (.tkw p net) s = .next t ∧ (t.chip p).tkWait = c.tkWait ++ [k] ∧ t.net = s.net.eraseIdx net ∧ s.SameBytes t)) ∧
  (s.Serves p net 7 k ∨ s.Serves p net 9 k → c.unable capInc = true → ∀ i, (s.Serves p net 7 k → i = .tk p net) →
    (s.Serves p net 9 k → i = .tkw p net) → ∃ t m, exec i s = .next t ∧ s.Answered t p net k m ∧ m.ptype = 2 ∧
      m.opw = statusWord 4 3 c.chipId 1 ∧ s.SameBytes t) ∧
  (s.Serves p net 11 k → let n := fld k.opw.toNat 0 8
    ∃ t m, exec (.tka p net) s = .next t ∧ (k.src, k.tid, m) ∈ (t.chip p).answered ∧ m.ptype = 2 ∧ m.dst = k.src ∧ m.tid = k.tid ∧
      (t.chip p).incastAt n = ((c.incastAt n).1, (c.incastAt n).2 + 1) ∧ s.SameBytes t ∧
      (∀ r ∈ c.tkWait, fld r.opw.toNat 24 8 = n → fld r.opw.toNat 0 24 = ((c.incastAt n).2 + 1).toNat →
        ∃ m', (r.src, r.tid, m') ∈ (t.chip p).answered ∧ m'.ptype = 10 ∧ m'.dst = r.src ∧ m'.tid = r.tid)) ∧
  (∀ rq cmd, s.Hears p net 2 k rq → rq.ptype = 1 ∨ rq.ptype = 9 → c.copy? rq.ctx = some cmd → ∃ t, exec (.ack p net) s = .next t ∧
    s.Heard t p net rq ∧ s.SameBytes t ∧
    (rq.ptype = 1 → (t.chip p).copy? rq.ctx = some { cmd with
      finished := cmd.finished ++ [rq.unit], wrote := if k.opw = 0 then cmd.wrote + 1 else cmd.wrote,
      failed := if cmd.failed = none ∧ k.opw ≠ 0 then some k.opw else cmd.failed }) ∧
    (rq.ptype = 9 → (t.chip p).copy? rq.ctx = some { cmd with failed := some k.opw })) ∧
  (∀ rq cmd, s.Hears p net 4 k rq → c.copy? rq.ctx = some cmd →
    (k.opw ≠ 0 → s.NoAsk → cmd.failed = none → ∃ t, exec (.rdd p net) s = .next t ∧ s.Heard t p net rq ∧ s.SameBytes t ∧
      (t.chip p).copy? rq.ctx = some { cmd with finished := cmd.finished ++ [rq.unit], failed := some k.opw }) ∧
    (∀ dst old, k.opw = 0 → k.data.length = 16 → s.NoAsk →
      (if cmd.dl then c.localAt cmd.blk (cmd.dstAt rq.unit) 16 = some dst
        else s.UnitAt p (askCopy cmd.id) cmd.asid (cmd.dstAt rq.unit) (writeKind cmd.red) (s.wave? p cmd.wid) dst) →
      s.readTgt p dst 16 = some old → s.canWrite p dst 16 = true →
      let new := match cmd.red with
        | none => k.data
        | some (rop, ty) => redBytes rop ty k.data old
      new.length = 16 → ∃ t, exec (.rdd p net) s = .next t ∧ s.Heard t p net rq ∧ t.HoldsBytes p dst new ∧
        s.SameBytesBut t (Target.Within p dst 16) ∧
        (t.chip p).copy? rq.ctx = some { cmd with finished := cmd.finished ++ [rq.unit], wrote := cmd.wrote + 1 })) ∧
  (∀ rq, s.Hears p net 6 k rq → ∃ t, exec (.atr p net) s = .next t ∧ s.Heard t p net rq ∧ s.SameBytes t ∧
    (t.chip p).got = c.got ++ [{ rq with ptype := 6, tid := k.opw, data := k.data }]) ∧
  (∀ rq pr, s.Hears p net 8 k rq → tfind c.prods rq.ctx = some pr → ∃ t, exec (.tkr p net) s = .next t ∧ s.Heard t p net rq ∧ s.SameBytes t ∧
    tfind (t.chip p).prods rq.ctx = some { pr with res := pr.res ++ [(rq.unit, .ok [BitVec.ofNat 32 (fld k.opw.toNat 0 24)])] }) ∧
  (∀ rq cmd, s.Hears p net 10 k rq → c.copy? rq.ctx = some cmd → ∃ t, exec (.tkg p net) s = .next t ∧ s.Heard t p net rq ∧ s.SameBytes t ∧
    (t.chip p).copy? rq.ctx = some { cmd with granted := true }) ∧
  (∀ rq r, s.ChipGets p net 10 k → c.requests.find? (fun r => r.dst = k.src && r.tid = k.tid) = some rq →
    c.askWait.find? (fun r => r.dst = k.src) = some r → (c.requests.filter (fun r => r.dst = k.src)).length ≤ 32768 →
    ∃ t m, exec (.tkg p net) s = .next t ∧ (t.chip p).askWait = c.askWait.erase r ∧ (t.chip p).requests = c.requests.erase rq ++ [m] ∧
      m.ptype = r.ptype ∧ m.dst = r.dst ∧ m.addr = r.addr ∧ m.data = r.data)

/-- R372, R376 to R378, R496: a link. A flit with a good CRC and the next LSEQ is accepted, and with the last of its packet the packet arrives; a bad
one, and one out of order, are answered with a replay request, which resends every flit kept behind its LACK. A packet travels once its last flit has left,
which credits and the replay buffer allow. A link that goes down stops being used and what was asked over it is sent again over another plane. That the
far end takes flits and gives credits back in steps of its own, and a packet travels whole with its last flit (log entry 41), and what becomes of the traffic of
a plane that is lost (log entry 62), are the model's choice. -/
def Obligations.Links : Prop := ∀ (s : State) (p plane : Nat),
  let c := s.chip p
  let l := c.link plane
  let after := fun (t : State) => (t.chip p).link plane
  (l.up = true → c.online = true → l.failed ≤ 16 →
    (∀ f, flitGood f = true → flitKind f = 1 → flitSeq f = l.accepted + 1 →
      let got := (if flitSop f then [] else tget [] l.bodies (flitVc f)) ++ [flitBody f]
      ∃ t sent, exec (.flitReceive p plane f) s = .next t ∧ (after t).accepted = flitSeq f ∧ (after t).up = true ∧
        tget [] (after t).bodies (flitVc f) = (if flitEop f then [] else got) ∧
        t.net = s.net ++ (if flitEop f then (packetOf plane got).toList else []) ++ sent ∧ (∀ k ∈ sent, k ∈ l.parcels) ∧
        (l.waiting = [] → sent = []) ∧ t.sw = s.sw) ∧
    (∀ f, flitGood f = false ∨ flitKind f = 1 ∧ flitSeq f ≠ l.accepted + 1 →
      ∃ t x, exec (.flitReceive p plane f) s = .next t ∧ (after t).accepted = l.accepted ∧ (after t).bodies = l.bodies ∧ t.net = s.net ∧
        (after t).credits = l.credits ∧ (after t).replay = l.replay ∧ (after t).out = [x] ∧ flitGood x = true ∧ flitKind x = 2 ∧ flitAck x = l.accepted) ∧
    (∃ t x, exec (.idleFlit p plane) s = .next t ∧ (after t).out = [x] ∧ flitGood x = true ∧ flitKind x = 0 ∧ flitSeq x = l.lseq ∧
      flitAck x = l.accepted ∧ t.net = s.net) ∧
    (∀ lack : Byte, l.failed < 16 → ∃ t, exec (.replayRequest p plane lack) s = .next t ∧ t.net = s.net ∧
      (after t).replay = l.replay.filter (fun e => decide (128 ≤ (lack - e.1).toNat)) ∧ (after t).out = (after t).replay.map (fun e =>
        flit (flitSeq e.2) l.accepted 1 (flitVc e.2) (flitSop e.2) (flitEop e.2) 0 0 (flitBody e.2))) ∧
    (∀ lack : Byte, (∀ e ∈ l.replay, (lack - e.1).toNat < 128) → ∃ t, exec (.replayRequest p plane lack) s = .next t ∧ t.net = s.net ∧
      (after t).up = true ∧ (after t).failed = 0 ∧ (after t).replay = [])) ∧
  (plane < 48 → l.up = true → let alt := (c.setLink plane { l with up := false }).planeFor plane
    ∃ t, exec (.linkDown p plane) s = .next t ∧ (after t).up = false ∧ t.sw = s.sw ∧
      (alt ≠ plane → ∀ r ∈ c.requests, r.plane = plane → r.dst ≠ c.chipId → { r with plane := alt } ∈ (t.chip p).requests ∧
        ({ r with plane := alt } ∈ t.net ∨ { r with plane := alt } ∈ ((t.chip p).link alt).parcels))) ∧
  (∀ k : Packet, k.plane = plane →
    (l.OpenFor (vcOf k.ptype) k.bodies.length → (s.emit p k).net = s.net ++ [k]) ∧
    (l.up = false → (s.emit p k).net = s.net ∧ k ∈ (after (s.emit p k)).parcels)) ∧
  (l.up = false → (∃ t, exec (.linkRetrain p plane true) s = .next t ∧ (after t).up = true ∧ (after t).accepted = 0) ∧
    (l.waiting = [] → Becomes (.linkRetrain p plane true) s p (c.setLink plane { Link.trained with parcels := l.parcels }))) ∧
  exec (.linkRetrain p plane false) s = .next s

/-! ## Memory management and reliability -/

/-- R350, R464, R470, R471, R473 to R475, R478, R496, R499, R503: walkers, the fault queue, invalidation and detected errors. A walk that succeeds fills the TLB
of each core that asked and stands ready for each unit; one that fails holds the word that asked, with a record. A record is written at the queue's head while that has
room; its answer is kept with the page. An invalidation removes every entry that matches. An uncorrectable error poisons its line, spoils its word of
local memory, which the first consumer logs, or ends its stream context. What a damaged word or context does (log entries 30, 38), what the record of a poisoned
line has for STATUS (log entry 84), and that a record for a disabled log is counted (log entry 80), are the model's choice or reading. -/
def Obligations.MemoryManagement : Prop := ∀ (s : State) (p : Nat),
  let c := s.chip p
  (∀ vault v x, c.walkerNext vault = some (v, x) → (v ≠ vault → Becomes (.pageWalk p vault) s p c) ∧ v / 4 = vault / 4 ∧
    (tget [] c.walks v).head? = some x ∧ ∀ u y, u / 4 = vault / 4 → (tget [] c.walks u).head? = some y → x.age ≤ y.age) ∧
  (∀ vault x rest, tget [] c.walks vault = x :: rest → c.walkerNext vault = some (vault, x) →
    (∀ e, (∀ r ∈ x.reqs, walkTable c x.asid (x.page * 4096) r.kind = .ok e) →
      (∀ q ∈ x.units, walkTable c x.asid (x.page * 4096) q.kind = .ok e) → ∃ t, exec (.pageWalk p vault) s = .next t ∧ tget [] (t.chip p).walks vault = rest ∧
      (∀ r ∈ x.reqs, e ∈ ((t.chip p).core r.core).tlb ∧ e ∈ ((t.chip p).cluster (clusterOf r.core)).l2tlb) ∧ s.SameBytes t ∧
      (∀ q ∈ x.units, e ∈ ((t.chip p).cluster q.cluster).l2tlb ∧ ∃ y ∈ (t.chip p).unitWalks, y.asid = x.asid ∧ y.page = x.page ∧ y.req = q ∧
        y.entry = some e) ∧
      (t.chip p).waves = c.waves) ∧
    (∀ cause level r w, x.reqs = [r] → walkTable c x.asid (x.page * 4096) r.kind = .fail cause level → s.wave? p r.wid = some w →
      w.ended = false → w.saved = none → (∃ q, w.path? r.slot = some q ∧ q.pc = r.pc ∧ q.mask &&& r.lanes ≠ 0) →
      (∀ h ∈ w.held r.slot, h.page ≠ BitVec.ofNat 64 (r.addr / 4096 * 4096)) →
      ∃ t w' h, exec (.pageWalk p vault) s = .next t ∧ tget [] (t.chip p).walks vault = rest ∧ t.wave? p r.wid = some w' ∧
        w'.held r.slot = w.held r.slot ++ [h] ∧ h.token = c.nextToken ∧ h.page = BitVec.ofNat 64 (r.addr / 4096 * 4096) ∧ h.lanes = r.lanes ∧
        h.status = statusWord (causeCode cause) 0 c.chipId 0 ∧ h.written = false ∧ h.answer = (if c.fqSz = 0 then some true else none) ∧
        (t.chip p).nextToken = (if c.nextToken + 1 = 0 then 1 else c.nextToken + 1) ∧ s.SameBytes t ∧
        (c.fqSz ≠ 0 → ∃ f, (t.chip p).pendFaults = c.pendFaults ++ [f] ∧ f.token = c.nextToken))) ∧
  (∀ idx f, c.pendFaults[idx]? = some f →
    (c.fqRoom = false → Becomes (.faultRecordWrite p idx) s p c) ∧
    (let a := fld c.fqbase.toNat 12 40 * 4096 + 32 * (c.fqhead.toNat % 2 ^ c.fqSz)
     c.fqRoom = true → s.canWrite p (.dram a) 32 = true → ∃ t, exec (.faultRecordWrite p idx) s = .next t ∧
      t.HoldsBytes p (.dram a) (leBytes 32 (f.record.toNat + b2n (nbit c.fqhead.toNat c.fqSz))) ∧ s.SameBytesBut t (Target.Within p (.dram a) 32) ∧
      (t.chip p).fqhead = c.fqhead + 1 ∧ (t.chip p).pendFaults = c.pendFaults.eraseIdx idx ∧
      ∀ i w, s.wave? p i = some w → ∃ w', t.wave? p i = some w' ∧ ∀ sl, w'.held sl =
        (w.held sl).map (fun h => if h.token = f.token then { h with written := true } else h))) ∧
  (c.accepts = true → ∀ v : DWord, ∃ t, exec (.fqansWrite p v) s = .next t ∧ s.SameBytes t ∧ ∀ i w, s.wave? p i = some w → ∃ w', t.wave? p i = some w' ∧
    ∀ sl, w'.held sl = (w.held sl).map (fun h => if h.token = lo32 v ∧ h.written = true ∧ h.answer = none then { h with answer := some (v.getLsbD 32) } else h)) ∧
  (∀ (asid : BitVec 16) (page : BitVec 36),
    (c.tlbBusy = true → Becomes (.tlbinvPage p asid page) s p c ∧ Becomes (.tlbinvAsid p asid) s p c ∧ Becomes (.tlbinvAll p) s p c) ∧
    (c.tlbBusy = false → c.accepts = true →
      Becomes (.tlbinvPage p asid page) s p { c with tlbBusy := true, tlbScope := some (0, asid.toNat, page.toNat * 4096) } ∧
      Becomes (.tlbinvAsid p asid) s p { c with tlbBusy := true, tlbScope := some (1, asid.toNat, 0) } ∧
      Becomes (.tlbinvAll p) s p { c with tlbBusy := true, tlbScope := some (2, 0, 0) })) ∧
  (∀ x, c.tlbScope = some x → c.tlbBusy = true → c.accessesDone = true → ∃ t, exec (.tlbinvDone p) s = .next t ∧ (t.chip p).tlbBusy = false ∧
    (∀ n, ((t.chip p).core n).tlb = (c.core n).tlb.filter (fun e => !e.hit x)) ∧
    (∀ n, ((t.chip p).cluster n).l2tlb = (c.cluster n).l2tlb.filter (fun e => !e.hit x)) ∧
    (x.1 = 2 → ∀ n b k y, (n, b) ∈ c.bindings → tfind ((t.chip p).cluster k).fit.regions n = some y → y.state = 0) ∧ s.SameBytes t) ∧
  (c.accepts = true → ∀ v : DWord, let base := fld v.toNat 19 33 * 2 ^ 19
    (v.getLsbD 0 = true → 2 ^ 38 + 2 ^ 37 ≤ base → exec (.astbaseWrite p v) s = .next s) ∧
    (v.getLsbD 0 = false ∨ base < 2 ^ 38 + 2 ^ 37 →
      Becomes (.astbaseWrite p v) s p { c with astbase := BitVec.ofNat 64 (base + b2n (v.getLsbD 0)) })) ∧
  (∀ line, line < 3 * 2 ^ 30 →
    let poisoned := fun (t : State) (cls : Nat) (st : Word) => s.Logged t p cls 1 (lineVault line) (line * 128) st ∧
      (∀ l, l ∈ (t.chip p).poison ↔ l ∈ c.poison ∨ l = line) ∧ ∀ a, a / 128 = line → t.byteAt p (.dram a) = none
    (∃ t, exec (.linePoison p line) s = .next t ∧ poisoned t 2 (c.poisonStatus 0)) ∧
    (∃ t, exec (.patrolScrub p line .uncorrectable) s = .next t ∧ poisoned t 2 0) ∧
    (∃ t, exec (.lineCrcResend p line true) s = .next t ∧ poisoned t 14 (c.poisonStatus 0)) ∧
    (∃ t, exec (.lineCrcResend p line false) s = .next t ∧ s.Logged t p 14 0 (lineVault line) (line * 128) 0 ∧ (t.chip p).poison = c.poison) ∧
    Becomes (.patrolScrub p line .clean) s p c ∧
    (∃ t, exec (.patrolScrub p line .corrected) s = .next t ∧ (t.chip p).poison = c.poison ∧
      (t.chip p).cecntD = if c.cecntD = 0xFFFFFFFF then c.cecntD else c.cecntD + 1)) ∧
  (∀ loc, (∃ t, exec (.correctedError p 1 loc) s = .next t ∧ (t.chip p).cecntD = if c.cecntD = 0xFFFFFFFF then c.cecntD else c.cecntD + 1) ∧
    (∃ t, exec (.correctedError p 3 loc) s = .next t ∧ (t.chip p).cecntS = if c.cecntS = 0xFFFFFFFF then c.cecntS else c.cecntS + 1) ∧
    (∃ t, exec (.correctedError p 7 loc) s = .next t ∧ (t.chip p).cecntD = c.cecntD ∧ (t.chip p).cecntS = c.cecntS) ∧
    (∀ cls, cls ≠ 1 → cls ≠ 3 → cls ≠ 7 → exec (.correctedError p cls loc) s = .next s)) ∧
  (∀ blk b fol off, tfind c.blocks blk = some b → off < b.lsize → (fol = true → b.tandem = true) →
    let t := s.damage p (.word blk fol off)
    (t.chip p).elhead = c.elhead ∧ (∀ a, a / 4 = off / 4 → t.byteAt p (.loc blk fol a) = none) ∧
      s.SameBytesBut t (Target.Within p (.loc blk fol (off / 4 * 4)) 4)) ∧
  (∀ blk b fol n st, tfind c.blocks blk = some b → b.bad = [(fol, n)] → b.met = [] → let t := s.sense p (.loc blk fol (4 * n)) 4 st
    s.Logged t p 4 1 ((b.core + b2n fol) % 2 ^ 12) 0 st ∧
      ((t.sense p (.loc blk fol (4 * n)) 4 st).chip p).elhead = (t.chip p).elhead ∧ t.SameBytes (t.sense p (.loc blk fol (4 * n)) 4 st)) ∧
  (∀ v k, ((c.engine v).context k).busy = true → ((c.engine v).context k).ending = none → let t := s.damage p (.context v k)
    (((t.chip p).engine v).context k).ending = some (statusWord 1 2 c.chipId 0) ∧
      s.Logged t p 4 1 (2 * 2 ^ 12 + v % 2 ^ 12) 0 (statusWord 1 2 c.chipId 0))

/-! ## Management -/

/-- R310, R411 to R413, R486 to R495: the management window. The semaphore goes to the port that reads it free; a controlled write by a port that does not own
it is ignored and sets DENIED. RESETCTL, power-on and a fence reset the chip; PCAP takes 600 to 2,400; an image is verified and goes to the
other bank; a join takes an identifier and a plane order; attestation uses up one index. A host port reads and writes device
memory, adds to a trigger counter, and starts no context. That an identifier which another package in service has is refused and all device memory is
mapped to the ports (log entries 52, 53), how a report is laid out (log entry 68), what power and heat change (log entry 69), and that a record for a disabled
log is counted (log entry 80), are the model's choice or reading. -/
def Obligations.Management : Prop := ∀ (s : State) (p port : Nat),
  let c := s.chip p
  let denied : Chip := { c with denied := c.denied.set port true }
  let fresh := fun (d : Chip) => d.waves = [] ∧ d.blocks = [] ∧ d.queues = [] ∧ d.pend = [] ∧ d.poison = [] ∧ d.semOwner = 0 ∧ d.astbase = 0 ∧
    d.fqbase = 0 ∧ d.elbase = 0 ∧ d.fqhead = 0 ∧ d.elhead = 0 ∧ d.powered = true ∧ d.stopped = false
  (c.powered = true → Becomes (.semtasRead p port) s p
    { c with portRead := c.portRead.set port (BitVec.ofNat 64 (c.semOwner + 4 * b2n (c.denied.getD port false))),
             semOwner := if c.semOwner = 0 then port + 1 else c.semOwner }) ∧
  (c.powered = false → Becomes (.semtasRead p port) s p c) ∧
  (c.powered = true → c.semOwner = 0 → ((s.semBoth p).chip p).semOwner = c.semTie % 2 + 1 ∧ ((s.semBoth p).chip p).semTie = 1 - c.semTie % 2) ∧
  (c.semOwner = port + 1 → Becomes (.semrelWrite p port) s p { c with semOwner := 0 } ∧ Becomes (.hostLinkDown p port) s p { c with semOwner := 0 }) ∧
  (c.semOwner ≠ port + 1 → Becomes (.semrelWrite p port) s p c ∧ Becomes (.hostLinkDown p port) s p c) ∧
  (∀ off v, (off ∈ [0x40, 0x48, 0x50, 0x60] → c.semOwner ≠ port + 1 → Becomes (.controlledWriteDenied p port off v) s p denied) ∧
    (off ∉ [0x40, 0x48, 0x50, 0x60] ∨ c.semOwner = port + 1 → Becomes (.controlledWriteDenied p port off v) s p c)) ∧
  (c.online = true → c.semOwner ≠ port + 1 → ∀ v, Becomes (.fwupGo p port v) s p denied ∧
    (c.recovery = false → Becomes (.chipReset p port .resetctl) s p denied ∧ Becomes (.pcapWrite p port v) s p denied ∧
      Becomes (.joinctlGo p port v) s p denied)) ∧
  (c.recovery = true → ∀ v, Becomes (.chipReset p port .resetctl) s p c ∧ Becomes (.pcapWrite p port v) s p c ∧ Becomes (.joinctlGo p port v) s p c) ∧
  (c.owns port →
    (c.recovery = false → ∃ t, exec (.chipReset p port .resetctl) s = .next t ∧ fresh (t.chip p) ∧ (t.chip p).pcap = c.pcap ∧ (t.chip p).joined = false ∧
      ∀ q, q ≠ p → t.chip q = s.chip q) ∧
    (∀ v : DWord,
      (c.recovery = false → 600 ≤ fld v.toNat 0 12 → fld v.toNat 0 12 ≤ 2400 → Becomes (.pcapWrite p port v) s p { c with pcap := BitVec.ofNat 12 (fld v.toNat 0 12) }) ∧
      (fld v.toNat 0 12 < 600 ∨ 2400 < fld v.toNat 0 12 → Becomes (.pcapWrite p port v) s p c) ∧
      (v.getLsbD 0 = true → c.fwState ≠ 1 → Becomes (.fwupGo p port v) s p
        { c with fwState := 1, fwBase := BitVec.ofNat 64 (fld v.toNat 6 46 * 64), fwSram := some (Config.fwImage c.dram (fld v.toNat 6 46 * 64)) }) ∧
      (∀ order, let id := fld v.toNat 0 9
        v.getLsbD 63 = true → c.recovery = false → s.readTgt p (.dram (fld v.toNat 12 40 * 4096)) 48 = some order →
        (∀ n < 48, BitVec.ofNat 8 n ∈ order) → order.length = 48 → (s.sw.witness.chip id).state ≠ .alive →
        (∀ e ∈ s.chips, e.1 ≠ p → e.2.joined = true → e.2.online = true → e.2.chipId ≠ id) → ∃ t, exec (.joinctlGo p port v) s = .next t ∧ (t.chip p).planeOrder = order ∧ (t.chip p).chipId = id ∧ (t.chip p).joined = true ∧
          (t.chip p).pel.rejoining = .start ∧ (t.chip p).incast = [] ∧ t.sw.order = if s.sw.order = [] then order else s.sw.order))) ∧
  (c.powered = false → ∃ t, exec (.powerOn p) s = .next t ∧ fresh (t.chip p) ∧ (t.chip p).pcap = 2400) ∧
  (c.powered = false → ∃ t, exec (.chipReset p port .powerOn) s = .next t ∧ fresh (t.chip p)) ∧
  (c.powered = true → (c.pel.rep.chip c.chipId).state = .fenced → ∃ t, exec (.chipReset p port .fence) s = .next t ∧ fresh (t.chip p) ∧
    (t.chip p).chipId = c.chipId ∧ (t.chip p).joined = c.joined ∧ (t.chip p).rejoin = true) ∧
  Becomes (.powerLoss p) s p { c with powered := false } ∧
  (∀ half, Becomes (.thermalShutdown p half) s p { c with stopped := true } ∧
    ∃ t, exec (.thermalThrottle p half) s = .next t ∧ s.Logged t p 12 0 half 0 0 ∧ (t.chip p).waves = c.waves) ∧
  exec (.powerCapWithhold p) s = .next s ∧
  (∀ image : FwImage, c.fwState = 1 → c.fwSram ≠ some image → Becomes (.fwVerifyDone p image) s p c) ∧
  (∀ image : FwImage, c.fwState = 1 → c.online = true → c.fwSram = some image →
    let good := image.readable = true ∧ image.headerOk = true ∧ image.ecdsaOk = true ∧ image.lmsOk = true ∧ c.fwMin ≤ image.svn
    (good → Becomes (.fwVerifyDone p image) s p { c with fwState := 2, fwBanks := c.fwBanks.set (1 - c.fwBank) image }) ∧
    (¬ good → Becomes (.fwVerifyDone p image) s p { c with fwState := 3, fwFail := if image.headerOk = false then 1
      else if image.ecdsaOk = false then 2 else if image.lmsOk = false then 3 else if image.svn < c.fwMin then 4 else 5 })) ∧
  (∀ v : DWord, c.online = true → c.attState ≠ 1 → let buf := fld v.toNat 6 46 * 64
    (c.attLeft = 0 → Becomes (.attreqWrite p v) s p { c with attState := 3 }) ∧
    (c.attLeft ≠ 0 → (∀ nonce, s.readTgt p (.dram buf) 48 = some nonce →
        Becomes (.attreqWrite p v) s p { c with attState := 1, attBuf := BitVec.ofNat 64 buf, attNonce := nonce }) ∧
      (s.readTgt p (.dram buf) 48 = none → Becomes (.attreqWrite p v) s p { c with attState := 3 }))) ∧
  (c.attState = 1 → c.online = true → c.poison = [] → c.attBuf.toNat + 4096 ≤ dramBytes → c.attNonce.length = 48 → ∃ t, exec (.attestationDone p) s = .next t ∧
    (t.chip p).attState = 2 ∧ (t.chip p).attLeft = c.attLeft - 1 ∧ t.HoldsBytes p (.dram (c.attBuf.toNat + 64)) c.attNonce ∧
    t.HoldsBytes p (.dram (c.attBuf.toNat + 112)) ((List.range 48).map (Config.imageDigest c.fwRun)) ∧
    t.HoldsBytes p (.dram (c.attBuf.toNat + 160)) (leBytes 1 c.fwRun.svn ++ leBytes 1 (fld c.ownCap.toNat 56 8) ++ leBytes 2 c.chipId)) ∧
  (c.online = true →
    (∀ pa n bs, portDram pa n = true → s.readTgt p (.dram pa) n = some bs →
      s.hostRead p port pa n = s.setChip p { c with portRead := c.portRead.set port (BitVec.ofNat 64 (ofLe bs)) }) ∧
    (∀ pa bs, portDram pa bs.length = true → s.canWrite p (.dram pa) bs.length = true → (s.hostWrite p port pa bs).HoldsBytes p (.dram pa) bs ∧
      s.SameBytesBut (s.hostWrite p port pa bs) (Target.Within p (.dram pa) bs.length)) ∧
    (∀ v n x cmp, v < 128 → n < 64 → (c.engine v).isBad n = false → let t := s.hostAtomic p port (0x8000000000 + v * 4096 + n * 4) 0 .b32 x cmp
      ((t.chip p).engine v).counter n = (c.engine v).counter n + lo32 x ∧
      (t.chip p).portRead = c.portRead.set port (((c.engine v).counter n).setWidth 64)) ∧
    (∀ v x cmp, v < 128 → s.hostAtomic p port (0x8000000000 + v * 4096 + 0x100) 6 .b64 x cmp =
      s.setChip p { c with portRead := c.portRead.set port ((statusWord codeReject 2 c.chipId 12).setWidth 64) }))

/-- R7, R293 to R295, R429, R478, R484, R485, R493, R494: the mailbox, the other registers of the window, and the debug interface. A command record
is performed or refused as a whole, with its result byte written. A register takes its RW fields and clears its W1C ones, and a read returns it, with zero
for what is only written. DBGCTL sets its fields in the
waves that DBGSEL names, and stops, resumes or saves them. What an offset that names no register reads (log entry 47), and the corners of the debug interface
(log entry 66), are the model's choice. -/
def Obligations.MailboxRegistersAndDebug : Prop := ∀ (s : State) (p : Nat),
  let c := s.chip p
  (∀ cmd r, s.MboxReads p cmd r →
    let b := fun (i n : Nat) => fld r (8 * i) (8 * n)
    let sent := fun (d : Chip) => d.capacity ≠ c.capacity → d.pel.props = c.pel.props ++
      [eventRec false c.chipId 2 0 0 0 (d.capacity.1 + d.capacity.2.1 * 2 ^ 10 + d.capacity.2.2 * 2 ^ 20)]
    (c.mboxOk r = true →
      (b 0 1 = 1 → MboxDone (.mboxBindRegion p cmd) s p cmd (fun d =>
        (∃ x, tfind d.bindings (b 2 1) = some x ∧ x.home = b 3 1 ∧ x.asid = b 6 2 ∧ x.first = b 8 8 ∧ x.last = b 16 8) ∧
        ∀ k < 16, k = b 3 1 ∨ nbit (b 4 2) k = true → tfind (d.cluster k).fit.regions (b 2 1) = some (RegionCopy.bound (k = b 3 1)))) ∧
      (b 0 1 = 2 → MboxDone (.mboxWithdrawRegion p cmd) s p cmd (fun d => tfind d.bindings (b 2 1) = none ∧
        ∀ k, tfind (d.cluster k).fit.regions (b 2 1) = none)) ∧
      (b 0 1 = 3 → MboxDone (.mboxSetLres p cmd) s p cmd (fun d => (d.cluster (b 2 1)).lres = b 3 1 ∧ sent d)) ∧
      (b 0 1 = 4 → MboxDone (.mboxSetPartition p cmd) s p cmd (fun d => (d.cluster (b 2 1)).part = b 3 1 ∧ sent d)) ∧
      (b 0 1 = 5 → MboxDone (.mboxClearPoison p cmd) s p cmd (fun d => (∀ l, l ∈ d.poison ↔ l ∈ c.poison ∧ l ≠ b 8 8 / 128) ∧
        (∀ l, l = b 8 8 / 128 → memBytes d.dram (l * 128) 128 = List.replicate 128 0))) ∧
      (b 0 1 = 6 → MboxDone (.mboxCreateQueue p cmd) s p cmd (fun d => d.queueAt (b 2 1) (b 4 2) = some
        { ring := BitVec.ofNat 64 (b 8 8), log2 := b 3 1, asid := b 6 2, notify := 0, fetch := 0, doneCnt := 0, stall := false, started := [] })) ∧
      (b 0 1 = 7 → MboxDone (.mboxRemoveQueue p cmd) s p cmd (fun d => d.queueAt (b 2 1) (b 4 2) = none))) ∧
    (b 0 1 = 0 ∨ 7 < b 0 1 ∨ b 0 1 = 2 ∧ tfind c.bindings (b 2 1) = none ∨ b 0 1 = 3 ∧ 32 < b 3 1 + (c.cluster (b 2 1)).part ∨
      b 0 1 = 4 ∧ 32 < b 3 1 + (c.cluster (b 2 1)).lres ∨ b 0 1 = 5 ∧ dramBytes ≤ b 8 8 ∨
      b 0 1 = 6 ∧ (c.queueAt (b 2 1) (b 4 2) ≠ none ∨ c.offChip (b 8 8) = true) ∨ (b 0 1 = 6 ∨ b 0 1 = 7) ∧ 512 ≤ b 4 2 ∨ b 0 1 = 7 ∧ c.queueAt (b 2 1) (b 4 2) = none → c.mboxOk r = false) ∧
    (c.mboxOk r = false → let a := Target.dram (fld cmd.toNat 6 46 * 64 + 1)
      ∃ t, exec (.mboxRefused p cmd) s = .next t ∧ t.HoldsBytes p a [1] ∧ s.SameBytesBut t (Target.Within p a 1) ∧
        (t.chip p).bindings = c.bindings ∧ (t.chip p).queues = c.queues ∧ (t.chip p).poison = c.poison ∧ (t.chip p).pel = c.pel)) ∧
  (∀ port v, let n := v.toNat
    let w := fun (off : Nat) (d : Chip) => Becomes (.registerWrite p port off v) s p d
    (c.powered = true → c.recovery = false →
      w 0x118 { c with fqtail := v } ∧ w 0x150 { c with eltail := v } ∧ w 0x100 { c with fqovf := c.fqovf &&& ~~~(lo32 v) } ∧
      w 0x158 { c with elovf := c.elovf &&& ~~~(lo32 v) } ∧ w 0x138 { c with savepool := BitVec.ofNat 64 (fld n 21 31 * 2 ^ 21 + fld n 0 10) } ∧
      w 0x200 { c with dbgsel := BitVec.ofNat 64 (fld n 20 37 * 2 ^ 20 + fld n 0 5) } ∧ w 0x218 { c with dbgbuf := BitVec.ofNat 64 (fld n 6 46 * 2 ^ 6) } ∧
      (7 ≤ fld n 0 5 → fld n 0 5 ≤ 16 → w 0x108 { c with fqbase := BitVec.ofNat 64 (fld n 12 40 * 2 ^ 12 + fld n 0 5) } ∧
        w 0x140 { c with elbase := BitVec.ofNat 64 (fld n 12 40 * 2 ^ 12 + fld n 0 5) }) ∧
      (v.getLsbD 2 = true → w 0 { c with denied := c.denied.set port false }) ∧
      (∀ off, off ∉ [0, 0x100, 0x108, 0x118, 0x138, 0x140, 0x150, 0x158, 0x200, 0x218] → w off c)) ∧
    (c.powered = true → c.recovery = true → ∀ off, off ≠ 0 → w off c)) ∧
  (∀ port, c.powered = true →
    let reads := fun (off x : Nat) =>
      s.regRead p port off = s.setChip p { c with portRead := c.portRead.set port (BitVec.ofNat 64 x) }
    reads 0 (c.semOwner + 4 * b2n (c.denied.getD port false)) ∧ reads 0x048 c.pcap.toNat ∧ reads 0x088 c.astbase.toNat ∧
    reads 0x100 c.fqovf.toNat ∧ reads 0x108 c.fqbase.toNat ∧ reads 0x110 c.fqhead.toNat ∧ reads 0x118 c.fqtail.toNat ∧
    reads 0x130 (b2n c.tlbBusy) ∧ reads 0x138 c.savepool.toNat ∧ reads 0x140 c.elbase.toNat ∧ reads 0x148 c.elhead.toNat ∧ reads 0x150 c.eltail.toNat ∧
    reads 0x158 c.elovf.toNat ∧ reads 0x160 (c.cecntD.toNat * 2 ^ 32 + c.cecntS.toNat) ∧ reads 0x200 c.dbgsel.toNat ∧ reads 0x218 c.dbgbuf.toNat ∧
    reads 0x040 0 ∧ reads 0x120 0 ∧ reads 0x208 0) ∧
  (c.accepts = true → ∀ (v : Word) i w port, i ∈ c.dbgWaves → s.wave? p i = some w → w.saved = none →
    let dbg := w.dbg &&& ~~~(0x1F0E : Word) ||| v &&& 0x1F0E
    let act := fld v.toNat 6 2
    let leaves := fun (ins : Instr) (w' : Wave) => ∃ t, exec ins s = .next t ∧ t.wave? p i = some w' ∧
      (∀ q, q ≠ p → t.chip q = s.chip q) ∧ (act ≠ 1 → ∀ j, j ∉ c.dbgWaves → t.wave? p j = s.wave? p j)
    (act = 0 → leaves (.dbgctlNone p port v) { w with dbg := dbg }) ∧
    (act = 1 → w.dbg.getLsbD 0 = false →
      leaves (.dbgStop p port v) { w with dbg := dbg ||| 1, cause := w.cause &&& 0xFFFFFF00, stepping := .none }) ∧
    (act = 1 → w.dbg.getLsbD 0 = true → leaves (.dbgStop p port v) { w with dbg := dbg }) ∧
    (act = 2 → w.dbg.getLsbD 0 = true → v.getLsbD 5 = false ∨ c.dbgEvery = true →
      leaves (.dbgResume p port v) { w with dbg := dbg &&& ~~~(1 : Word), stepping := if v.getLsbD 3 then .armed else .none }) ∧
    (act = 2 → w.dbg.getLsbD 0 = false → leaves (.dbgResume p port v) { w with dbg := dbg }) ∧
    (act = 3 → c.dbgWaves = [i] → c.poison = [] → fld c.dbgbuf.toNat 6 46 * 64 + 8192 + 136 * w.L ≤ dramBytes → w.dbg.getLsbD 0 = true → c.dbgEvery = false → ∃ t, exec (.dbgSnapshot p port v) s = .next t ∧
      t.wave? p i = some { w with dbg := dbg } ∧ (t.chip p).dbgstat = 2 ∧ t.HoldsBytes p (.dram (fld c.dbgbuf.toNat 6 46 * 64))
        (Wave.snapshot { w with dbg := dbg } (Wave.stalled (s.cpOf p w) (c.fgear w.grow) { w with dbg := dbg }))) ∧
    (act ≠ 0 → exec (.dbgctlNone p port v) s = .next s)) ∧
  (∀ i w, s.wave? p i = some w → w.ended = false → w.stepping = .issued → w.dbg.getLsbD 2 = false →
    Becomes (.stepStop p i) s p (c.setWave i { w with dbg := w.dbg ||| 1, cause := (w.cause &&& 0xFFFFFF00) ||| 0x32, stepping := .none }))

/-! ## Decoding, stepping, reset and the invariant -/

/-- R135, R139, R141, R148, R321, R322 on the worked words of the spec: what each word of an encoding stands for, and words that are no instruction. -/
def Obligations.DecodeWords : Prop :=
  decodeWave 0x010700100100B00400000000 = .ok (.add (opsOn (.lane 4) (.lane 1) (.lane 2) .none .i32 0)) ∧
  decodeWave 0x4007001803C0300A00000000 = .ok (.rcp (opsOn (.lane 6) (.lane 3) .none .none .f32 0)) ∧
  decodeWave 0x0307080400C0700420000010 = .ok (.cmp (opsOn (.pred 1) (.lane 0) (.imm .v32) .none .i32 0x20000010)) ∧
  decodeWave 0x413704100280F00A60000000 = .ok (.redW (opsOn (.unif 4) (.lane 2) (.pred 3) .none .f32 0x60000000)) ∧
  decodeWave 0x88070C01084250A000200F00 = .ok (.mma (opsOn .none (.unif 8) (.unif 9) (.unif 10) .b32 0x00200F00)) ∧
  decodeWave 0xC1070C0300C030000000002A = .ok (.trap (opsOn .none .none .none .none .b32 42)) ∧
  decodeWave 0xC12704124FC0300000000000 = .ok (.getsr (opsOn (.unif 4) (.sreg .einfo1) .none .none .b32 0)) ∧
  decodeWave 0x80470C010043000100000001 = .ok (.st (opsOn .none (.unif 0) (.unif 12) (.bits 0) .b64 1)) ∧
  decodeWave 0xC0570C0300C0300000000000 = .ok (.exit (opsOn .none .none .none .none .b32 0)) ∧
  decodeCmd 0x2078000000000060 = .ok (.ldq 1 14 96) ∧
  decodeCmd 0x5000040000000000 = .ok (.fetchs false 0 0 0 1) ∧
  decodeCmd 0x89000000FFFFFFFE = .ok (.loop 4 0xFFFFFFFE) ∧
  decodeCmd 0xBC00000000000000 = .ok (.halt true) ∧
  decodeCmd 0xC000000000000000 = .error .noOpcode ∧
  decodeCmd 0xBC00000000000001 = .error .illegalCommand ∧
  decodeWave 0x060700100100B00400000000 = .error .noOpcode ∧ decodeWave 0 = .error .noOpcode ∧
  decodeWave 0xC0078C0300C0300000000000 = .error .illegalField ∧ decodeWave 0x010700100100B00410000000 = .error .illegalField

/-- R135, R139 to R143, R321, R322: encoding and decoding agree. Every well-formed instruction that has an encoding is what its words decode
to, with every field at the value it had; a wave instruction takes 96 bits and a stream command 64. -/
def Obligations.EncodeDecode : Prop := ∀ (i : Instr) (w : Nat), i.wf = true → encode i = some w →
  ((opsOf i).isSome = true → w < 2 ^ 96 ∧ decodeWave w = .ok i ∧ decodeTableWord 96 w = some i) ∧
  ((opsOf i).isSome = false → w < 2 ^ 64 ∧ decodeCmd w = .ok i ∧ decodeTableWord 64 w = some i)

/-- R138 to R143, R322: words decode to well-formed instructions only, and each word has one meaning: what it decodes to encodes as that word. -/
def Obligations.DecodeEncode : Prop := ∀ (w : Nat) (i : Instr),
  (w < 2 ^ 96 → decodeWave w = .ok i → i.wf = true ∧ encode i = some w) ∧ (decodeCmd w = .ok i → i.wf = true ∧ encode i = some w)

/-- R7, R13, R39, R40, R128 to R133, R144, R146, R147, R321, R379, R411, R450: what one step runs. An input from outside comes first: an event is performed as it
is; a slot that may issue runs the operation that the word at its PC decodes to, unless a lane would go to an illegal target, or both operations of a pair, the
second reading the registers from before; an issue port takes the first of its candidates; a context runs the command at its pointer; a packet and a delivered
event do what their type says; a host port's access and an error do what they do. With no input a step performs one of the things that may happen, or nothing
but the passing of time. The model's own in it: the passing of time and the inputs (log entries 4 and 5), and the fetch at an address that no rule
speaks of (log entry 28). -/
def Obligations.StepRuns : Prop := ∀ (s : State) (rest : List Input),
  let u : State := { s.passTime with inputs := rest }
  (∀ i, s.inputs = .ev i :: rest → step s = exec i u) ∧
  (∀ c w q l t, s.inputs = .issue c :: rest → u.MayIssue c w q → (∀ half scope val, q.wait ≠ .freed half scope val) → u.Fetches c w q l t →
    let bits := lineSlot l (pcSlot q.pc)
    (∀ i, pairedAt l q.pc = false → decodeWave bits = .ok i → q.waiting = true ∨ t.targetTrap c q q.pc bits = none →
      step s = exec i { t with cur := { c with half := .single } }) ∧
    (∀ i s1 tr, pairedAt l q.pc = false → decodeWave bits = .ok i → q.wait = .none → t.targetTrap c q q.pc bits = some tr →
      exec i { t with cur := { c with half := .single } } = .next s1 → s1.last ≠ .notReady → step s = .next (t.trapWord c q tr 0 1)) ∧
    (∀ i j s1 t2 s2, pairedAt l q.pc = true → q.wait = .none → t.targetTrap c q q.pc bits = none →
      t.targetTrap c q (pcNext q.pc 1) (lineSlot l (pcSlot q.pc + 1)) = none → decodeWave (lineSlot l (pcSlot q.pc)) = .ok i →
      decodeWave (lineSlot l (pcSlot q.pc + 1)) = .ok j → pairOk i j = true → exec i { t with cur := { c with half := .first } } = .next s1 →
      s1.last = .completed → exec j { t with cur := { c with half := .second } } = .next t2 → t2.last = .completed →
      exec j { s1 with cur := { c with half := .second }, pairSrc := t.wave? c.pkg c.wid } = .next s2 → s2.last = .completed →
      step s = .next { s2.turnOver c j with pairSrc := none })) ∧
  (∀ p core x l t, s.inputs = .port p core :: rest → u.portList p core = x :: l → (((u.chip p).core core).chosenNow (u.chip p).cycle).length < 2 →
    let c : Cursor := { pkg := p, wid := x.wid, slot := x.slot, half := .single }
    issueWord exec u c = .next t → t.notIssued c = false →
    ∃ k, (x.slot = .A ∨ t.raised = none ∨ u.chosenAt p core ≠ [] → step s = .next (t.choose p core x.wid x.slot k)) ∧
      (x.slot = .B → t.raised ≠ none → u.chosenAt p core = [] → step s = u.trapOrder exec (t.choose p core x.wid x.slot k) p core x.wid k)) ∧
  (∀ p port pa n, s.inputs = .hostRead p port pa n :: rest → step s = .next (u.hostRead p port pa n)) ∧
  (∀ p port pa bs, s.inputs = .hostWrite p port pa bs :: rest → step s = .next (u.hostWrite p port pa bs)) ∧
  (∀ p port pa op ty v cmp, s.inputs = .hostAtomic p port pa op ty v cmp :: rest → step s = .next (u.hostAtomic p port pa op ty v cmp)) ∧
  (∀ p port off, s.inputs = .regRead p port off :: rest → step s = .next (u.regRead p port off)) ∧
  (∀ p, s.inputs = .semBoth p :: rest → step s = .next (u.semBoth p)) ∧
  (∀ p d, s.inputs = .damage p d :: rest → step s = .next (u.damage p d)) ∧
  (∀ p v k i, let r := u.streamRead p (askCtx v k) (((u.chip p).engine v).context k) (((u.chip p).engine v).context k).ptr.toNat 8
    s.inputs = .stream p v k :: rest → u.ctxRuns p v k = true → r.s.asks = [] → r.off = false → r.status = 0 → decodeCmd (ofLe r.bytes) = .ok i →
    step s = exec i { u.unitStep r.s with scur := (p, v, k) }) ∧
  (∀ p img, s.inputs = .verify p :: rest → (u.chip p).fwSram = some img → step s = exec (.fwVerifyDone p img) u) ∧
  (∀ p plane, s.inputs = .ack p plane :: rest → step s = .next (u.serveLink p plane)) ∧
  (∀ p n k i, s.inputs = .packet p n :: rest → u.net[n]? = some k → (k.ptype = 12 → k.dstSw = false) → ArrivalOf k.ptype (fld k.opw.toNat 0 4) p n i → step s = exec i u) ∧
  (∀ p e i, s.inputs = .apply p :: rest → (u.chip p).pel.apply.head? = some e → ApplicationOf (evType e) p i → step s = exec i u) ∧
  (s.inputs = [] → agenda s ≠ [] → ∃ x ∈ agenda s, step s = perform exec s.passTime x) ∧
  (s.inputs = [] → agenda s = [] → step s = .next s.passTime)

/-- The reset state (R7, R487) as the model takes it (log entry 3 for host memory, log entry 5 for the inputs): no byte listed in host memory or in the DRAM of a package, no wave, block, grid, queue or
context of a package present, no trigger counter but at zero, nothing in the fabric; its memories are in canonical form. What reset leaves of registers for which the spec
names no value is the model's choice (log entry 2) and is not stated here. -/
def Obligations.ResetState : Prop :=
  State.reset.MemoriesWf ∧ State.reset.host = [] ∧ State.reset.net = [] ∧ State.reset.inputs = [] ∧
  ∀ p, (State.reset.chip p).dram = [] ∧ (State.reset.chip p).waves = [] ∧ (State.reset.chip p).blocks = [] ∧
    (State.reset.chip p).grids = [] ∧ (State.reset.chip p).queues = [] ∧ (State.reset.chip p).copies = [] ∧ (State.reset.chip p).pend = [] ∧
    (∀ v n, ((State.reset.chip p).engine v).counter n = 0) ∧ (∀ v k, (((State.reset.chip p).engine v).context k).busy = false)

/-- The memories keep their canonical form, with which equal memories are equal data: host memory, the DRAM of each package, both parts of the
allocation of each block, and the tiles of the array banks, of cores and of saved array parts: whatever a step does, of whichever instruction, command, packet
or event, from whichever state that has the form. -/
def Obligations.MemoriesKept : Prop := ∀ s t : State, s.MemoriesWf → step s = .next t → t.MemoriesWf
end

