-- ==== Sys2Proof/Laws/Table.lean ====
section
/-! SUPPORT. What a table and a memory hold after each of their operations: read after write, and the canonical form of memory. -/

namespace Sys2Proof.Machine

open Sys2Proof

/-! ## Tables -/

@[simp] theorem tfind_tset_self {α : Type} (t : Tbl α) (k : Nat) (v : α) : tfind (tset t k v) k = some v := by
  induction t with
  | nil => simp [tset, tfind]
  | cons e r ih =>
    obtain ⟨j, u⟩ := e
    simp only [tset]
    split
    · rename_i h
      simp [tfind, ih, Nat.ne_of_lt h]
    · split <;> simp_all [tfind]

theorem tfind_tset_of_ne {α : Type} (t : Tbl α) {k j : Nat} (v : α) (h : j ≠ k) : tfind (tset t k v) j = tfind t j := by
  induction t with
  | nil => simp [tset, tfind, Ne.symm h]
  | cons e r ih =>
    obtain ⟨i, u⟩ := e
    simp only [tset]
    split
    · simp [tfind, ih]
    · split
      · rename_i h1
        subst h1
        simp [tfind, Ne.symm h]
      · simp [tfind, Ne.symm h]

theorem tfind_tset {α : Type} (t : Tbl α) (k j : Nat) (v : α) :
    tfind (tset t k v) j = if j = k then some v else tfind t j := by
  by_cases h : j = k
  · subst h; simp
  · simp [h, tfind_tset_of_ne t v h]

@[simp] theorem tget_tset_self {α : Type} (d : α) (t : Tbl α) (k : Nat) (v : α) : tget d (tset t k v) k = v := by
  simp [tget]

theorem tget_tset_of_ne {α : Type} (d : α) (t : Tbl α) {k j : Nat} (v : α) (h : j ≠ k) :
    tget d (tset t k v) j = tget d t j := by
  simp [tget, tfind_tset_of_ne t v h]

theorem tdel_cons {α : Type} (i : Nat) (u : α) (r : Tbl α) (k : Nat) :
    tdel ((i, u) :: r) k = if i = k then tdel r k else (i, u) :: tdel r k := by
  by_cases h : i = k <;> simp [tdel, h]

theorem tfind_tdel_self {α : Type} (t : Tbl α) (k : Nat) : tfind (tdel t k) k = none := by
  induction t with
  | nil => rfl
  | cons e r ih =>
    obtain ⟨i, u⟩ := e
    rw [tdel_cons]
    split
    · exact ih
    · rename_i h
      simp [tfind, h, ih]

theorem tfind_tdel_of_ne {α : Type} (t : Tbl α) {k j : Nat} (h : j ≠ k) : tfind (tdel t k) j = tfind t j := by
  induction t with
  | nil => rfl
  | cons e r ih =>
    obtain ⟨i, u⟩ := e
    rw [tdel_cons]
    split
    · rename_i h1
      subst h1
      simp [tfind, Ne.symm h, ih]
    · simp [tfind, ih]

theorem tfind_tmod_self {α : Type} (t : Tbl α) (k : Nat) (f : α → α) : tfind (tmod t k f) k = (tfind t k).map f := by
  unfold tmod
  cases h : tfind t k <;> simp [h]

theorem tfind_tmod_of_ne {α : Type} (t : Tbl α) {k j : Nat} (f : α → α) (h : j ≠ k) : tfind (tmod t k f) j = tfind t j := by
  unfold tmod
  cases tfind t k <;> simp [tfind_tset_of_ne _ _ h]

theorem tfind_tmap {α : Type} (t : Tbl α) (f : Nat → α → α) (k : Nat) : tfind (tmap t f) k = (tfind t k).map (f k) := by
  induction t with
  | nil => rfl
  | cons e r ih =>
    obtain ⟨i, u⟩ := e
    simp only [tmap] at ih
    by_cases h : i = k
    · subst h; simp [tmap, tfind]
    · simp [tmap, tfind, h, ih]

theorem mem_tset {α : Type} {t : Tbl α} {k : Nat} {v : α} {e : Nat × α} (h : e ∈ tset t k v) : e = (k, v) ∨ e ∈ t := by
  induction t with
  | nil => simpa [tset] using h
  | cons x r ih =>
    obtain ⟨j, u⟩ := x
    simp only [tset] at h
    split at h
    · rcases List.mem_cons.mp h with h | h
      · simp [h]
      · rcases ih h with h | h <;> simp [h]
    · split at h
      · rcases List.mem_cons.mp h with h | h <;> simp [h]
      · rcases List.mem_cons.mp h with h | h
        · exact .inl h
        · exact .inr h

theorem Sorted.tset {α : Type} {t : Tbl α} (h : Sorted t) (k : Nat) (v : α) : Sorted (tset t k v) := by
  induction t with
  | nil => simp [Sorted, Machine.tset]
  | cons x r ih =>
    obtain ⟨j, u⟩ := x
    obtain ⟨h1, h2⟩ := List.pairwise_cons.mp h
    simp only [Machine.tset]
    split
    · rename_i hj
      refine List.pairwise_cons.mpr ⟨fun e he => ?_, ih h2⟩
      rcases mem_tset he with rfl | he
      · exact hj
      · exact h1 e he
    · split
      · rename_i hj
        subst hj
        exact List.pairwise_cons.mpr ⟨h1, h2⟩
      · rename_i h3 h4
        have hk : k < j := by omega
        refine List.pairwise_cons.mpr ⟨fun e he => ?_, h⟩
        rcases List.mem_cons.mp he with rfl | he
        · exact hk
        · exact lt_trans hk (h1 e he)

theorem Sorted.tdel {α : Type} {t : Tbl α} (h : Sorted t) (k : Nat) : Sorted (tdel t k) := List.Pairwise.filter _ h

theorem Sorted.tmod {α : Type} {t : Tbl α} (h : Sorted t) (k : Nat) (f : α → α) : Sorted (tmod t k f) := by
  unfold Machine.tmod
  split
  · exact h
  · exact h.tset _ _

/-! ## Memory -/

theorem Memory.wf_nil : Memory.wf [] := ⟨List.Pairwise.nil, by simp⟩

theorem Memory.wf_memWrite {m : List (Nat × Byte)} (h : Memory.wf m) (a : Nat) (b : Byte) : Memory.wf (memWrite m a b) := by
  unfold memWrite
  split
  · exact ⟨Sorted.tdel h.1 a, fun x hx => h.2 x (List.mem_of_mem_filter hx)⟩
  · rename_i hb
    refine ⟨Sorted.tset h.1 a b, fun x hx => ?_⟩
    rcases mem_tset hx with rfl | hx
    · exact hb
    · exact h.2 x hx

/-- Every write of bytes keeps the canonical form of memory. -/
theorem Memory.wf_memPut {m : List (Nat × Byte)} (h : Memory.wf m) (a : Nat) (bs : List Byte) : Memory.wf (memPut m a bs) := by
  induction bs generalizing m a with
  | nil => exact h
  | cons b r ih => exact ih (Memory.wf_memWrite h a b) (a + 1)

@[simp] theorem memRead_memWrite_self (m : List (Nat × Byte)) (a : Nat) (b : Byte) : memRead (memWrite m a b) a = b := by
  unfold memRead memWrite
  split
  · rename_i h; simp [tfind_tdel_self, h]
  · simp

theorem memRead_memWrite_of_ne (m : List (Nat × Byte)) {a c : Nat} (b : Byte) (h : c ≠ a) :
    memRead (memWrite m a b) c = memRead m c := by
  unfold memRead memWrite
  split
  · simp [tfind_tdel_of_ne m h]
  · simp [tfind_tset_of_ne m b h]

/-- Outside the written bytes every byte reads as before. -/
theorem memRead_memPut_outside (m : List (Nat × Byte)) (a : Nat) (bs : List Byte) (c : Nat)
    (h : c < a ∨ a + bs.length ≤ c) : memRead (memPut m a bs) c = memRead m c := by
  induction bs generalizing m a with
  | nil => rfl
  | cons b r ih =>
    simp only [List.length_cons] at h
    rw [memPut, ih _ _ (by omega), memRead_memWrite_of_ne _ _ (by omega)]

/-- A written byte reads as written. -/
theorem memRead_memPut_inside (m : List (Nat × Byte)) (a : Nat) (bs : List Byte) (i : Nat) (h : i < bs.length) :
    memRead (memPut m a bs) (a + i) = bs[i] := by
  induction bs generalizing m a i with
  | nil => simp at h
  | cons b r ih =>
    cases i with
    | zero =>
      rw [memPut, memRead_memPut_outside _ _ _ _ (by omega)]
      simp
    | succ i =>
      simp only [List.length_cons] at h
      have h1 := ih (memWrite m a b) (a + 1) i (by omega)
      rw [memPut, show a + (i + 1) = a + 1 + i by omega, h1]
      simp

/-- Reading back the bytes that were written. -/
theorem memBytes_memPut (m : List (Nat × Byte)) (a : Nat) (bs : List Byte) : memBytes (memPut m a bs) a bs.length = bs := by
  apply List.ext_getElem
  · simp [memBytes]
  · intro i h1 h2
    simp only [memBytes, List.getElem_map, List.getElem_range]
    exact memRead_memPut_inside m a bs i h2

end Sys2Proof.Machine
end

