-- ==== Sys2Proof/Laws/State.lean ====
section
/-! SUPPORT. What every update of the state, of a package and of a wave leaves in each field, so that no proof unfolds a record update. -/

namespace Sys2Proof.Machine

open Sys2Proof

/-! ## Updates of the state -/

@[simp] theorem State.setChip_chip_self (s : State) (p : Nat) (c : Chip) : (s.setChip p c).chip p = c := by
  simp [State.setChip, State.chip]

theorem State.setChip_chip_of_ne (s : State) {p q : Nat} (c : Chip) (h : q ≠ p) : (s.setChip p c).chip q = s.chip q := by
  simp [State.setChip, State.chip, tget_tset_of_ne _ _ _ h]

@[simp] theorem State.modChip_chip_self (s : State) (p : Nat) (f : Chip → Chip) : (s.modChip p f).chip p = f (s.chip p) := by
  simp [State.modChip]

theorem State.modChip_chip_of_ne (s : State) {p q : Nat} (f : Chip → Chip) (h : q ≠ p) : (s.modChip p f).chip q = s.chip q :=
  s.setChip_chip_of_ne (f (s.chip p)) h

/-- What a package holds after a change of one package. -/
theorem State.modChip_chip (s : State) (p q : Nat) (f : Chip → Chip) :
    (s.modChip p f).chip q = if q = p then f (s.chip p) else s.chip q := by
  by_cases h : q = p
  · subst h; simp
  · simp [h, State.modChip_chip_of_ne s f h]

@[simp] theorem State.setChip_sw (s : State) (p : Nat) (c : Chip) : (s.setChip p c).sw = s.sw := rfl
@[simp] theorem State.modChip_sw (s : State) (p : Nat) (f : Chip → Chip) : (s.modChip p f).sw = s.sw := rfl
@[simp] theorem State.setChip_net (s : State) (p : Nat) (c : Chip) : (s.setChip p c).net = s.net := rfl
@[simp] theorem State.modChip_net (s : State) (p : Nat) (f : Chip → Chip) : (s.modChip p f).net = s.net := rfl
@[simp] theorem State.setChip_host (s : State) (p : Nat) (c : Chip) : (s.setChip p c).host = s.host := rfl
@[simp] theorem State.modChip_host (s : State) (p : Nat) (f : Chip → Chip) : (s.modChip p f).host = s.host := rfl
@[simp] theorem State.setChip_inputs (s : State) (p : Nat) (c : Chip) : (s.setChip p c).inputs = s.inputs := rfl
@[simp] theorem State.modChip_inputs (s : State) (p : Nat) (f : Chip → Chip) : (s.modChip p f).inputs = s.inputs := rfl
@[simp] theorem State.setChip_tick (s : State) (p : Nat) (c : Chip) : (s.setChip p c).tick = s.tick := rfl
@[simp] theorem State.modChip_tick (s : State) (p : Nat) (f : Chip → Chip) : (s.modChip p f).tick = s.tick := rfl
@[simp] theorem State.setChip_cur (s : State) (p : Nat) (c : Chip) : (s.setChip p c).cur = s.cur := rfl
@[simp] theorem State.modChip_cur (s : State) (p : Nat) (f : Chip → Chip) : (s.modChip p f).cur = s.cur := rfl
@[simp] theorem State.setChip_scur (s : State) (p : Nat) (c : Chip) : (s.setChip p c).scur = s.scur := rfl
@[simp] theorem State.modChip_scur (s : State) (p : Nat) (f : Chip → Chip) : (s.modChip p f).scur = s.scur := rfl
@[simp] theorem State.setChip_last (s : State) (p : Nat) (c : Chip) : (s.setChip p c).last = s.last := rfl
@[simp] theorem State.modChip_last (s : State) (p : Nat) (f : Chip → Chip) : (s.modChip p f).last = s.last := rfl
@[simp] theorem State.setChip_lastWord (s : State) (p : Nat) (c : Chip) : (s.setChip p c).lastWord = s.lastWord := rfl
@[simp] theorem State.modChip_lastWord (s : State) (p : Nat) (f : Chip → Chip) : (s.modChip p f).lastWord = s.lastWord := rfl
@[simp] theorem State.setChip_pairSrc (s : State) (p : Nat) (c : Chip) : (s.setChip p c).pairSrc = s.pairSrc := rfl
@[simp] theorem State.modChip_pairSrc (s : State) (p : Nat) (f : Chip → Chip) : (s.modChip p f).pairSrc = s.pairSrc := rfl
@[simp] theorem State.setChip_asks (s : State) (p : Nat) (c : Chip) : (s.setChip p c).asks = s.asks := rfl
@[simp] theorem State.modChip_asks (s : State) (p : Nat) (f : Chip → Chip) : (s.modChip p f).asks = s.asks := rfl
@[simp] theorem State.setChip_taken (s : State) (p : Nat) (c : Chip) : (s.setChip p c).taken = s.taken := rfl
@[simp] theorem State.modChip_taken (s : State) (p : Nat) (f : Chip → Chip) : (s.modChip p f).taken = s.taken := rfl
@[simp] theorem State.setChip_hostAtomics (s : State) (p : Nat) (c : Chip) : (s.setChip p c).hostAtomics = s.hostAtomics := rfl
@[simp] theorem State.modChip_hostAtomics (s : State) (p : Nat) (f : Chip → Chip) : (s.modChip p f).hostAtomics = s.hostAtomics := rfl

/-! ## Updates of a package -/

@[simp] theorem Chip.setWave_dram (c : Chip) (i : Nat) (w : Wave) : (c.setWave i w).dram = c.dram := rfl
@[simp] theorem Chip.setWave_poison (c : Chip) (i : Nat) (w : Wave) : (c.setWave i w).poison = c.poison := rfl
@[simp] theorem Chip.setWave_lineOld (c : Chip) (i : Nat) (w : Wave) : (c.setWave i w).lineOld = c.lineOld := rfl
@[simp] theorem Chip.setWave_srcs (c : Chip) (i : Nat) (w : Wave) : (c.setWave i w).srcs = c.srcs := rfl
@[simp] theorem Chip.setWave_blocks (c : Chip) (i : Nat) (w : Wave) : (c.setWave i w).blocks = c.blocks := rfl
@[simp] theorem Chip.setWave_cohorts (c : Chip) (i : Nat) (w : Wave) : (c.setWave i w).cohorts = c.cohorts := rfl
@[simp] theorem Chip.setWave_grids (c : Chip) (i : Nat) (w : Wave) : (c.setWave i w).grids = c.grids := rfl
@[simp] theorem Chip.setWave_cores (c : Chip) (i : Nat) (w : Wave) : (c.setWave i w).cores = c.cores := rfl
@[simp] theorem Chip.setWave_clusters (c : Chip) (i : Nat) (w : Wave) : (c.setWave i w).clusters = c.clusters := rfl
@[simp] theorem Chip.setWave_engines (c : Chip) (i : Nat) (w : Wave) : (c.setWave i w).engines = c.engines := rfl
@[simp] theorem Chip.setWave_recOut (c : Chip) (i : Nat) (w : Wave) : (c.setWave i w).recOut = c.recOut := rfl
@[simp] theorem Chip.setWave_prods (c : Chip) (i : Nat) (w : Wave) : (c.setWave i w).prods = c.prods := rfl
@[simp] theorem Chip.setWave_pend (c : Chip) (i : Nat) (w : Wave) : (c.setWave i w).pend = c.pend := rfl
@[simp] theorem Chip.setWave_copies (c : Chip) (i : Nat) (w : Wave) : (c.setWave i w).copies = c.copies := rfl
@[simp] theorem Chip.setWave_colls (c : Chip) (i : Nat) (w : Wave) : (c.setWave i w).colls = c.colls := rfl
@[simp] theorem Chip.setWave_coords (c : Chip) (i : Nat) (w : Wave) : (c.setWave i w).coords = c.coords := rfl
@[simp] theorem Chip.setWave_res (c : Chip) (i : Nat) (w : Wave) : (c.setWave i w).res = c.res := rfl
@[simp] theorem Chip.setWave_incast (c : Chip) (i : Nat) (w : Wave) : (c.setWave i w).incast = c.incast := rfl
@[simp] theorem Chip.setWave_bindings (c : Chip) (i : Nat) (w : Wave) : (c.setWave i w).bindings = c.bindings := rfl
@[simp] theorem Chip.setWave_apxOps (c : Chip) (i : Nat) (w : Wave) : (c.setWave i w).apxOps = c.apxOps := rfl
@[simp] theorem Chip.setWave_steals (c : Chip) (i : Nat) (w : Wave) : (c.setWave i w).steals = c.steals := rfl
@[simp] theorem Chip.setWave_queues (c : Chip) (i : Nat) (w : Wave) : (c.setWave i w).queues = c.queues := rfl
@[simp] theorem Chip.setWave_lrecs (c : Chip) (i : Nat) (w : Wave) : (c.setWave i w).lrecs = c.lrecs := rfl
@[simp] theorem Chip.setWave_walks (c : Chip) (i : Nat) (w : Wave) : (c.setWave i w).walks = c.walks := rfl
@[simp] theorem Chip.setWave_pendFaults (c : Chip) (i : Nat) (w : Wave) : (c.setWave i w).pendFaults = c.pendFaults := rfl
@[simp] theorem Chip.setWave_nextToken (c : Chip) (i : Nat) (w : Wave) : (c.setWave i w).nextToken = c.nextToken := rfl
@[simp] theorem Chip.setWave_savedParts (c : Chip) (i : Nat) (w : Wave) : (c.setWave i w).savedParts = c.savedParts := rfl
@[simp] theorem Chip.setWave_links (c : Chip) (i : Nat) (w : Wave) : (c.setWave i w).links = c.links := rfl
@[simp] theorem Chip.setWave_tids (c : Chip) (i : Nat) (w : Wave) : (c.setWave i w).tids = c.tids := rfl
@[simp] theorem Chip.setWave_requests (c : Chip) (i : Nat) (w : Wave) : (c.setWave i w).requests = c.requests := rfl
@[simp] theorem Chip.setWave_askWait (c : Chip) (i : Nat) (w : Wave) : (c.setWave i w).askWait = c.askWait := rfl
@[simp] theorem Chip.setWave_answered (c : Chip) (i : Nat) (w : Wave) : (c.setWave i w).answered = c.answered := rfl
@[simp] theorem Chip.setWave_snSent (c : Chip) (i : Nat) (w : Wave) : (c.setWave i w).snSent = c.snSent := rfl
@[simp] theorem Chip.setWave_tkWait (c : Chip) (i : Nat) (w : Wave) : (c.setWave i w).tkWait = c.tkWait := rfl
@[simp] theorem Chip.setWave_got (c : Chip) (i : Nat) (w : Wave) : (c.setWave i w).got = c.got := rfl
@[simp] theorem Chip.setWave_ownCap (c : Chip) (i : Nat) (w : Wave) : (c.setWave i w).ownCap = c.ownCap := rfl
@[simp] theorem Chip.setWave_pel (c : Chip) (i : Nat) (w : Wave) : (c.setWave i w).pel = c.pel := rfl
@[simp] theorem Chip.setWave_cycle (c : Chip) (i : Nat) (w : Wave) : (c.setWave i w).cycle = c.cycle := rfl
@[simp] theorem Chip.setWave_next (c : Chip) (i : Nat) (w : Wave) : (c.setWave i w).next = c.next := rfl
@[simp] theorem Chip.setWave_semOwner (c : Chip) (i : Nat) (w : Wave) : (c.setWave i w).semOwner = c.semOwner := rfl
@[simp] theorem Chip.setWave_semTie (c : Chip) (i : Nat) (w : Wave) : (c.setWave i w).semTie = c.semTie := rfl
@[simp] theorem Chip.setWave_denied (c : Chip) (i : Nat) (w : Wave) : (c.setWave i w).denied = c.denied := rfl
@[simp] theorem Chip.setWave_portRead (c : Chip) (i : Nat) (w : Wave) : (c.setWave i w).portRead = c.portRead := rfl
@[simp] theorem Chip.setWave_astbase (c : Chip) (i : Nat) (w : Wave) : (c.setWave i w).astbase = c.astbase := rfl
@[simp] theorem Chip.setWave_fqbase (c : Chip) (i : Nat) (w : Wave) : (c.setWave i w).fqbase = c.fqbase := rfl
@[simp] theorem Chip.setWave_fqhead (c : Chip) (i : Nat) (w : Wave) : (c.setWave i w).fqhead = c.fqhead := rfl
@[simp] theorem Chip.setWave_fqtail (c : Chip) (i : Nat) (w : Wave) : (c.setWave i w).fqtail = c.fqtail := rfl
@[simp] theorem Chip.setWave_fqovf (c : Chip) (i : Nat) (w : Wave) : (c.setWave i w).fqovf = c.fqovf := rfl
@[simp] theorem Chip.setWave_tlbBusy (c : Chip) (i : Nat) (w : Wave) : (c.setWave i w).tlbBusy = c.tlbBusy := rfl
@[simp] theorem Chip.setWave_tlbScope (c : Chip) (i : Nat) (w : Wave) : (c.setWave i w).tlbScope = c.tlbScope := rfl
@[simp] theorem Chip.setWave_savepool (c : Chip) (i : Nat) (w : Wave) : (c.setWave i w).savepool = c.savepool := rfl
@[simp] theorem Chip.setWave_dbgsel (c : Chip) (i : Nat) (w : Wave) : (c.setWave i w).dbgsel = c.dbgsel := rfl
@[simp] theorem Chip.setWave_dbgstat (c : Chip) (i : Nat) (w : Wave) : (c.setWave i w).dbgstat = c.dbgstat := rfl
@[simp] theorem Chip.setWave_dbgbuf (c : Chip) (i : Nat) (w : Wave) : (c.setWave i w).dbgbuf = c.dbgbuf := rfl
@[simp] theorem Chip.setWave_dbgAll (c : Chip) (i : Nat) (w : Wave) : (c.setWave i w).dbgAll = c.dbgAll := rfl
@[simp] theorem Chip.setWave_pcap (c : Chip) (i : Nat) (w : Wave) : (c.setWave i w).pcap = c.pcap := rfl
@[simp] theorem Chip.setWave_fwState (c : Chip) (i : Nat) (w : Wave) : (c.setWave i w).fwState = c.fwState := rfl
@[simp] theorem Chip.setWave_fwFail (c : Chip) (i : Nat) (w : Wave) : (c.setWave i w).fwFail = c.fwFail := rfl
@[simp] theorem Chip.setWave_fwBank (c : Chip) (i : Nat) (w : Wave) : (c.setWave i w).fwBank = c.fwBank := rfl
@[simp] theorem Chip.setWave_fwBanks (c : Chip) (i : Nat) (w : Wave) : (c.setWave i w).fwBanks = c.fwBanks := rfl
@[simp] theorem Chip.setWave_fwRun (c : Chip) (i : Nat) (w : Wave) : (c.setWave i w).fwRun = c.fwRun := rfl
@[simp] theorem Chip.setWave_recovery (c : Chip) (i : Nat) (w : Wave) : (c.setWave i w).recovery = c.recovery := rfl
@[simp] theorem Chip.setWave_fwBase (c : Chip) (i : Nat) (w : Wave) : (c.setWave i w).fwBase = c.fwBase := rfl
@[simp] theorem Chip.setWave_fwSram (c : Chip) (i : Nat) (w : Wave) : (c.setWave i w).fwSram = c.fwSram := rfl
@[simp] theorem Chip.setWave_secret (c : Chip) (i : Nat) (w : Wave) : (c.setWave i w).secret = c.secret := rfl
@[simp] theorem Chip.setWave_certs (c : Chip) (i : Nat) (w : Wave) : (c.setWave i w).certs = c.certs := rfl
@[simp] theorem Chip.setWave_keyImage (c : Chip) (i : Nat) (w : Wave) : (c.setWave i w).keyImage = c.keyImage := rfl
@[simp] theorem Chip.setWave_attNonce (c : Chip) (i : Nat) (w : Wave) : (c.setWave i w).attNonce = c.attNonce := rfl
@[simp] theorem Chip.setWave_fwMin (c : Chip) (i : Nat) (w : Wave) : (c.setWave i w).fwMin = c.fwMin := rfl
@[simp] theorem Chip.setWave_attState (c : Chip) (i : Nat) (w : Wave) : (c.setWave i w).attState = c.attState := rfl
@[simp] theorem Chip.setWave_attLeft (c : Chip) (i : Nat) (w : Wave) : (c.setWave i w).attLeft = c.attLeft := rfl
@[simp] theorem Chip.setWave_attBuf (c : Chip) (i : Nat) (w : Wave) : (c.setWave i w).attBuf = c.attBuf := rfl
@[simp] theorem Chip.setWave_rejoin (c : Chip) (i : Nat) (w : Wave) : (c.setWave i w).rejoin = c.rejoin := rfl
@[simp] theorem Chip.setWave_chipId (c : Chip) (i : Nat) (w : Wave) : (c.setWave i w).chipId = c.chipId := rfl
@[simp] theorem Chip.setWave_joined (c : Chip) (i : Nat) (w : Wave) : (c.setWave i w).joined = c.joined := rfl
@[simp] theorem Chip.setWave_planeOrder (c : Chip) (i : Nat) (w : Wave) : (c.setWave i w).planeOrder = c.planeOrder := rfl
@[simp] theorem Chip.setWave_elbase (c : Chip) (i : Nat) (w : Wave) : (c.setWave i w).elbase = c.elbase := rfl
@[simp] theorem Chip.setWave_elhead (c : Chip) (i : Nat) (w : Wave) : (c.setWave i w).elhead = c.elhead := rfl
@[simp] theorem Chip.setWave_eltail (c : Chip) (i : Nat) (w : Wave) : (c.setWave i w).eltail = c.eltail := rfl
@[simp] theorem Chip.setWave_elovf (c : Chip) (i : Nat) (w : Wave) : (c.setWave i w).elovf = c.elovf := rfl
@[simp] theorem Chip.setWave_cecntD (c : Chip) (i : Nat) (w : Wave) : (c.setWave i w).cecntD = c.cecntD := rfl
@[simp] theorem Chip.setWave_cecntS (c : Chip) (i : Nat) (w : Wave) : (c.setWave i w).cecntS = c.cecntS := rfl
@[simp] theorem Chip.setWave_logRates (c : Chip) (i : Nat) (w : Wave) : (c.setWave i w).logRates = c.logRates := rfl
@[simp] theorem Chip.setWave_stopped (c : Chip) (i : Nat) (w : Wave) : (c.setWave i w).stopped = c.stopped := rfl
@[simp] theorem Chip.setWave_powered (c : Chip) (i : Nat) (w : Wave) : (c.setWave i w).powered = c.powered := rfl
@[simp] theorem Chip.setWave_unitWalks (c : Chip) (i : Nat) (w : Wave) : (c.setWave i w).unitWalks = c.unitWalks := rfl
@[simp] theorem Chip.modWave_dram (c : Chip) (i : Nat) (f : Wave → Wave) : (c.modWave i f).dram = c.dram := rfl
@[simp] theorem Chip.modWave_poison (c : Chip) (i : Nat) (f : Wave → Wave) : (c.modWave i f).poison = c.poison := rfl
@[simp] theorem Chip.modWave_lineOld (c : Chip) (i : Nat) (f : Wave → Wave) : (c.modWave i f).lineOld = c.lineOld := rfl
@[simp] theorem Chip.modWave_srcs (c : Chip) (i : Nat) (f : Wave → Wave) : (c.modWave i f).srcs = c.srcs := rfl
@[simp] theorem Chip.modWave_blocks (c : Chip) (i : Nat) (f : Wave → Wave) : (c.modWave i f).blocks = c.blocks := rfl
@[simp] theorem Chip.modWave_cohorts (c : Chip) (i : Nat) (f : Wave → Wave) : (c.modWave i f).cohorts = c.cohorts := rfl
@[simp] theorem Chip.modWave_grids (c : Chip) (i : Nat) (f : Wave → Wave) : (c.modWave i f).grids = c.grids := rfl
@[simp] theorem Chip.modWave_cores (c : Chip) (i : Nat) (f : Wave → Wave) : (c.modWave i f).cores = c.cores := rfl
@[simp] theorem Chip.modWave_clusters (c : Chip) (i : Nat) (f : Wave → Wave) : (c.modWave i f).clusters = c.clusters := rfl
@[simp] theorem Chip.modWave_engines (c : Chip) (i : Nat) (f : Wave → Wave) : (c.modWave i f).engines = c.engines := rfl
@[simp] theorem Chip.modWave_recOut (c : Chip) (i : Nat) (f : Wave → Wave) : (c.modWave i f).recOut = c.recOut := rfl
@[simp] theorem Chip.modWave_prods (c : Chip) (i : Nat) (f : Wave → Wave) : (c.modWave i f).prods = c.prods := rfl
@[simp] theorem Chip.modWave_pend (c : Chip) (i : Nat) (f : Wave → Wave) : (c.modWave i f).pend = c.pend := rfl
@[simp] theorem Chip.modWave_copies (c : Chip) (i : Nat) (f : Wave → Wave) : (c.modWave i f).copies = c.copies := rfl
@[simp] theorem Chip.modWave_colls (c : Chip) (i : Nat) (f : Wave → Wave) : (c.modWave i f).colls = c.colls := rfl
@[simp] theorem Chip.modWave_coords (c : Chip) (i : Nat) (f : Wave → Wave) : (c.modWave i f).coords = c.coords := rfl
@[simp] theorem Chip.modWave_res (c : Chip) (i : Nat) (f : Wave → Wave) : (c.modWave i f).res = c.res := rfl
@[simp] theorem Chip.modWave_incast (c : Chip) (i : Nat) (f : Wave → Wave) : (c.modWave i f).incast = c.incast := rfl
@[simp] theorem Chip.modWave_bindings (c : Chip) (i : Nat) (f : Wave → Wave) : (c.modWave i f).bindings = c.bindings := rfl
@[simp] theorem Chip.modWave_apxOps (c : Chip) (i : Nat) (f : Wave → Wave) : (c.modWave i f).apxOps = c.apxOps := rfl
@[simp] theorem Chip.modWave_steals (c : Chip) (i : Nat) (f : Wave → Wave) : (c.modWave i f).steals = c.steals := rfl
@[simp] theorem Chip.modWave_queues (c : Chip) (i : Nat) (f : Wave → Wave) : (c.modWave i f).queues = c.queues := rfl
@[simp] theorem Chip.modWave_lrecs (c : Chip) (i : Nat) (f : Wave → Wave) : (c.modWave i f).lrecs = c.lrecs := rfl
@[simp] theorem Chip.modWave_walks (c : Chip) (i : Nat) (f : Wave → Wave) : (c.modWave i f).walks = c.walks := rfl
@[simp] theorem Chip.modWave_pendFaults (c : Chip) (i : Nat) (f : Wave → Wave) : (c.modWave i f).pendFaults = c.pendFaults := rfl
@[simp] theorem Chip.modWave_nextToken (c : Chip) (i : Nat) (f : Wave → Wave) : (c.modWave i f).nextToken = c.nextToken := rfl
@[simp] theorem Chip.modWave_savedParts (c : Chip) (i : Nat) (f : Wave → Wave) : (c.modWave i f).savedParts = c.savedParts := rfl
@[simp] theorem Chip.modWave_links (c : Chip) (i : Nat) (f : Wave → Wave) : (c.modWave i f).links = c.links := rfl
@[simp] theorem Chip.modWave_tids (c : Chip) (i : Nat) (f : Wave → Wave) : (c.modWave i f).tids = c.tids := rfl
@[simp] theorem Chip.modWave_requests (c : Chip) (i : Nat) (f : Wave → Wave) : (c.modWave i f).requests = c.requests := rfl
@[simp] theorem Chip.modWave_askWait (c : Chip) (i : Nat) (f : Wave → Wave) : (c.modWave i f).askWait = c.askWait := rfl
@[simp] theorem Chip.modWave_answered (c : Chip) (i : Nat) (f : Wave → Wave) : (c.modWave i f).answered = c.answered := rfl
@[simp] theorem Chip.modWave_snSent (c : Chip) (i : Nat) (f : Wave → Wave) : (c.modWave i f).snSent = c.snSent := rfl
@[simp] theorem Chip.modWave_tkWait (c : Chip) (i : Nat) (f : Wave → Wave) : (c.modWave i f).tkWait = c.tkWait := rfl
@[simp] theorem Chip.modWave_got (c : Chip) (i : Nat) (f : Wave → Wave) : (c.modWave i f).got = c.got := rfl
@[simp] theorem Chip.modWave_ownCap (c : Chip) (i : Nat) (f : Wave → Wave) : (c.modWave i f).ownCap = c.ownCap := rfl
@[simp] theorem Chip.modWave_pel (c : Chip) (i : Nat) (f : Wave → Wave) : (c.modWave i f).pel = c.pel := rfl
@[simp] theorem Chip.modWave_cycle (c : Chip) (i : Nat) (f : Wave → Wave) : (c.modWave i f).cycle = c.cycle := rfl
@[simp] theorem Chip.modWave_next (c : Chip) (i : Nat) (f : Wave → Wave) : (c.modWave i f).next = c.next := rfl
@[simp] theorem Chip.modWave_semOwner (c : Chip) (i : Nat) (f : Wave → Wave) : (c.modWave i f).semOwner = c.semOwner := rfl
@[simp] theorem Chip.modWave_semTie (c : Chip) (i : Nat) (f : Wave → Wave) : (c.modWave i f).semTie = c.semTie := rfl
@[simp] theorem Chip.modWave_denied (c : Chip) (i : Nat) (f : Wave → Wave) : (c.modWave i f).denied = c.denied := rfl
@[simp] theorem Chip.modWave_portRead (c : Chip) (i : Nat) (f : Wave → Wave) : (c.modWave i f).portRead = c.portRead := rfl
@[simp] theorem Chip.modWave_astbase (c : Chip) (i : Nat) (f : Wave → Wave) : (c.modWave i f).astbase = c.astbase := rfl
@[simp] theorem Chip.modWave_fqbase (c : Chip) (i : Nat) (f : Wave → Wave) : (c.modWave i f).fqbase = c.fqbase := rfl
@[simp] theorem Chip.modWave_fqhead (c : Chip) (i : Nat) (f : Wave → Wave) : (c.modWave i f).fqhead = c.fqhead := rfl
@[simp] theorem Chip.modWave_fqtail (c : Chip) (i : Nat) (f : Wave → Wave) : (c.modWave i f).fqtail = c.fqtail := rfl
@[simp] theorem Chip.modWave_fqovf (c : Chip) (i : Nat) (f : Wave → Wave) : (c.modWave i f).fqovf = c.fqovf := rfl
@[simp] theorem Chip.modWave_tlbBusy (c : Chip) (i : Nat) (f : Wave → Wave) : (c.modWave i f).tlbBusy = c.tlbBusy := rfl
@[simp] theorem Chip.modWave_tlbScope (c : Chip) (i : Nat) (f : Wave → Wave) : (c.modWave i f).tlbScope = c.tlbScope := rfl
@[simp] theorem Chip.modWave_savepool (c : Chip) (i : Nat) (f : Wave → Wave) : (c.modWave i f).savepool = c.savepool := rfl
@[simp] theorem Chip.modWave_dbgsel (c : Chip) (i : Nat) (f : Wave → Wave) : (c.modWave i f).dbgsel = c.dbgsel := rfl
@[simp] theorem Chip.modWave_dbgstat (c : Chip) (i : Nat) (f : Wave → Wave) : (c.modWave i f).dbgstat = c.dbgstat := rfl
@[simp] theorem Chip.modWave_dbgbuf (c : Chip) (i : Nat) (f : Wave → Wave) : (c.modWave i f).dbgbuf = c.dbgbuf := rfl
@[simp] theorem Chip.modWave_dbgAll (c : Chip) (i : Nat) (f : Wave → Wave) : (c.modWave i f).dbgAll = c.dbgAll := rfl
@[simp] theorem Chip.modWave_pcap (c : Chip) (i : Nat) (f : Wave → Wave) : (c.modWave i f).pcap = c.pcap := rfl
@[simp] theorem Chip.modWave_fwState (c : Chip) (i : Nat) (f : Wave → Wave) : (c.modWave i f).fwState = c.fwState := rfl
@[simp] theorem Chip.modWave_fwFail (c : Chip) (i : Nat) (f : Wave → Wave) : (c.modWave i f).fwFail = c.fwFail := rfl
@[simp] theorem Chip.modWave_fwBank (c : Chip) (i : Nat) (f : Wave → Wave) : (c.modWave i f).fwBank = c.fwBank := rfl
@[simp] theorem Chip.modWave_fwBanks (c : Chip) (i : Nat) (f : Wave → Wave) : (c.modWave i f).fwBanks = c.fwBanks := rfl
@[simp] theorem Chip.modWave_fwRun (c : Chip) (i : Nat) (f : Wave → Wave) : (c.modWave i f).fwRun = c.fwRun := rfl
@[simp] theorem Chip.modWave_recovery (c : Chip) (i : Nat) (f : Wave → Wave) : (c.modWave i f).recovery = c.recovery := rfl
@[simp] theorem Chip.modWave_fwBase (c : Chip) (i : Nat) (f : Wave → Wave) : (c.modWave i f).fwBase = c.fwBase := rfl
@[simp] theorem Chip.modWave_fwSram (c : Chip) (i : Nat) (f : Wave → Wave) : (c.modWave i f).fwSram = c.fwSram := rfl
@[simp] theorem Chip.modWave_secret (c : Chip) (i : Nat) (f : Wave → Wave) : (c.modWave i f).secret = c.secret := rfl
@[simp] theorem Chip.modWave_certs (c : Chip) (i : Nat) (f : Wave → Wave) : (c.modWave i f).certs = c.certs := rfl
@[simp] theorem Chip.modWave_keyImage (c : Chip) (i : Nat) (f : Wave → Wave) : (c.modWave i f).keyImage = c.keyImage := rfl
@[simp] theorem Chip.modWave_attNonce (c : Chip) (i : Nat) (f : Wave → Wave) : (c.modWave i f).attNonce = c.attNonce := rfl
@[simp] theorem Chip.modWave_fwMin (c : Chip) (i : Nat) (f : Wave → Wave) : (c.modWave i f).fwMin = c.fwMin := rfl
@[simp] theorem Chip.modWave_attState (c : Chip) (i : Nat) (f : Wave → Wave) : (c.modWave i f).attState = c.attState := rfl
@[simp] theorem Chip.modWave_attLeft (c : Chip) (i : Nat) (f : Wave → Wave) : (c.modWave i f).attLeft = c.attLeft := rfl
@[simp] theorem Chip.modWave_attBuf (c : Chip) (i : Nat) (f : Wave → Wave) : (c.modWave i f).attBuf = c.attBuf := rfl
@[simp] theorem Chip.modWave_rejoin (c : Chip) (i : Nat) (f : Wave → Wave) : (c.modWave i f).rejoin = c.rejoin := rfl
@[simp] theorem Chip.modWave_chipId (c : Chip) (i : Nat) (f : Wave → Wave) : (c.modWave i f).chipId = c.chipId := rfl
@[simp] theorem Chip.modWave_joined (c : Chip) (i : Nat) (f : Wave → Wave) : (c.modWave i f).joined = c.joined := rfl
@[simp] theorem Chip.modWave_planeOrder (c : Chip) (i : Nat) (f : Wave → Wave) : (c.modWave i f).planeOrder = c.planeOrder := rfl
@[simp] theorem Chip.modWave_elbase (c : Chip) (i : Nat) (f : Wave → Wave) : (c.modWave i f).elbase = c.elbase := rfl
@[simp] theorem Chip.modWave_elhead (c : Chip) (i : Nat) (f : Wave → Wave) : (c.modWave i f).elhead = c.elhead := rfl
@[simp] theorem Chip.modWave_eltail (c : Chip) (i : Nat) (f : Wave → Wave) : (c.modWave i f).eltail = c.eltail := rfl
@[simp] theorem Chip.modWave_elovf (c : Chip) (i : Nat) (f : Wave → Wave) : (c.modWave i f).elovf = c.elovf := rfl
@[simp] theorem Chip.modWave_cecntD (c : Chip) (i : Nat) (f : Wave → Wave) : (c.modWave i f).cecntD = c.cecntD := rfl
@[simp] theorem Chip.modWave_cecntS (c : Chip) (i : Nat) (f : Wave → Wave) : (c.modWave i f).cecntS = c.cecntS := rfl
@[simp] theorem Chip.modWave_logRates (c : Chip) (i : Nat) (f : Wave → Wave) : (c.modWave i f).logRates = c.logRates := rfl
@[simp] theorem Chip.modWave_stopped (c : Chip) (i : Nat) (f : Wave → Wave) : (c.modWave i f).stopped = c.stopped := rfl
@[simp] theorem Chip.modWave_powered (c : Chip) (i : Nat) (f : Wave → Wave) : (c.modWave i f).powered = c.powered := rfl
@[simp] theorem Chip.modWave_unitWalks (c : Chip) (i : Nat) (f : Wave → Wave) : (c.modWave i f).unitWalks = c.unitWalks := rfl
@[simp] theorem Chip.setCore_dram (c : Chip) (n : Nat) (k : Core) : (c.setCore n k).dram = c.dram := rfl
@[simp] theorem Chip.setCore_poison (c : Chip) (n : Nat) (k : Core) : (c.setCore n k).poison = c.poison := rfl
@[simp] theorem Chip.setCore_lineOld (c : Chip) (n : Nat) (k : Core) : (c.setCore n k).lineOld = c.lineOld := rfl
@[simp] theorem Chip.setCore_waves (c : Chip) (n : Nat) (k : Core) : (c.setCore n k).waves = c.waves := rfl
@[simp] theorem Chip.setCore_srcs (c : Chip) (n : Nat) (k : Core) : (c.setCore n k).srcs = c.srcs := rfl
@[simp] theorem Chip.setCore_blocks (c : Chip) (n : Nat) (k : Core) : (c.setCore n k).blocks = c.blocks := rfl
@[simp] theorem Chip.setCore_cohorts (c : Chip) (n : Nat) (k : Core) : (c.setCore n k).cohorts = c.cohorts := rfl
@[simp] theorem Chip.setCore_grids (c : Chip) (n : Nat) (k : Core) : (c.setCore n k).grids = c.grids := rfl
@[simp] theorem Chip.setCore_clusters (c : Chip) (n : Nat) (k : Core) : (c.setCore n k).clusters = c.clusters := rfl
@[simp] theorem Chip.setCore_engines (c : Chip) (n : Nat) (k : Core) : (c.setCore n k).engines = c.engines := rfl
@[simp] theorem Chip.setCore_recOut (c : Chip) (n : Nat) (k : Core) : (c.setCore n k).recOut = c.recOut := rfl
@[simp] theorem Chip.setCore_prods (c : Chip) (n : Nat) (k : Core) : (c.setCore n k).prods = c.prods := rfl
@[simp] theorem Chip.setCore_pend (c : Chip) (n : Nat) (k : Core) : (c.setCore n k).pend = c.pend := rfl
@[simp] theorem Chip.setCore_copies (c : Chip) (n : Nat) (k : Core) : (c.setCore n k).copies = c.copies := rfl
@[simp] theorem Chip.setCore_colls (c : Chip) (n : Nat) (k : Core) : (c.setCore n k).colls = c.colls := rfl
@[simp] theorem Chip.setCore_coords (c : Chip) (n : Nat) (k : Core) : (c.setCore n k).coords = c.coords := rfl
@[simp] theorem Chip.setCore_res (c : Chip) (n : Nat) (k : Core) : (c.setCore n k).res = c.res := rfl
@[simp] theorem Chip.setCore_incast (c : Chip) (n : Nat) (k : Core) : (c.setCore n k).incast = c.incast := rfl
@[simp] theorem Chip.setCore_bindings (c : Chip) (n : Nat) (k : Core) : (c.setCore n k).bindings = c.bindings := rfl
@[simp] theorem Chip.setCore_apxOps (c : Chip) (n : Nat) (k : Core) : (c.setCore n k).apxOps = c.apxOps := rfl
@[simp] theorem Chip.setCore_steals (c : Chip) (n : Nat) (k : Core) : (c.setCore n k).steals = c.steals := rfl
@[simp] theorem Chip.setCore_queues (c : Chip) (n : Nat) (k : Core) : (c.setCore n k).queues = c.queues := rfl
@[simp] theorem Chip.setCore_lrecs (c : Chip) (n : Nat) (k : Core) : (c.setCore n k).lrecs = c.lrecs := rfl
@[simp] theorem Chip.setCore_walks (c : Chip) (n : Nat) (k : Core) : (c.setCore n k).walks = c.walks := rfl
@[simp] theorem Chip.setCore_pendFaults (c : Chip) (n : Nat) (k : Core) : (c.setCore n k).pendFaults = c.pendFaults := rfl
@[simp] theorem Chip.setCore_nextToken (c : Chip) (n : Nat) (k : Core) : (c.setCore n k).nextToken = c.nextToken := rfl
@[simp] theorem Chip.setCore_savedParts (c : Chip) (n : Nat) (k : Core) : (c.setCore n k).savedParts = c.savedParts := rfl
@[simp] theorem Chip.setCore_links (c : Chip) (n : Nat) (k : Core) : (c.setCore n k).links = c.links := rfl
@[simp] theorem Chip.setCore_tids (c : Chip) (n : Nat) (k : Core) : (c.setCore n k).tids = c.tids := rfl
@[simp] theorem Chip.setCore_requests (c : Chip) (n : Nat) (k : Core) : (c.setCore n k).requests = c.requests := rfl
@[simp] theorem Chip.setCore_askWait (c : Chip) (n : Nat) (k : Core) : (c.setCore n k).askWait = c.askWait := rfl
@[simp] theorem Chip.setCore_answered (c : Chip) (n : Nat) (k : Core) : (c.setCore n k).answered = c.answered := rfl
@[simp] theorem Chip.setCore_snSent (c : Chip) (n : Nat) (k : Core) : (c.setCore n k).snSent = c.snSent := rfl
@[simp] theorem Chip.setCore_tkWait (c : Chip) (n : Nat) (k : Core) : (c.setCore n k).tkWait = c.tkWait := rfl
@[simp] theorem Chip.setCore_got (c : Chip) (n : Nat) (k : Core) : (c.setCore n k).got = c.got := rfl
@[simp] theorem Chip.setCore_ownCap (c : Chip) (n : Nat) (k : Core) : (c.setCore n k).ownCap = c.ownCap := rfl
@[simp] theorem Chip.setCore_pel (c : Chip) (n : Nat) (k : Core) : (c.setCore n k).pel = c.pel := rfl
@[simp] theorem Chip.setCore_cycle (c : Chip) (n : Nat) (k : Core) : (c.setCore n k).cycle = c.cycle := rfl
@[simp] theorem Chip.setCore_next (c : Chip) (n : Nat) (k : Core) : (c.setCore n k).next = c.next := rfl
@[simp] theorem Chip.setCore_semOwner (c : Chip) (n : Nat) (k : Core) : (c.setCore n k).semOwner = c.semOwner := rfl
@[simp] theorem Chip.setCore_semTie (c : Chip) (n : Nat) (k : Core) : (c.setCore n k).semTie = c.semTie := rfl
@[simp] theorem Chip.setCore_denied (c : Chip) (n : Nat) (k : Core) : (c.setCore n k).denied = c.denied := rfl
@[simp] theorem Chip.setCore_portRead (c : Chip) (n : Nat) (k : Core) : (c.setCore n k).portRead = c.portRead := rfl
@[simp] theorem Chip.setCore_astbase (c : Chip) (n : Nat) (k : Core) : (c.setCore n k).astbase = c.astbase := rfl
@[simp] theorem Chip.setCore_fqbase (c : Chip) (n : Nat) (k : Core) : (c.setCore n k).fqbase = c.fqbase := rfl
@[simp] theorem Chip.setCore_fqhead (c : Chip) (n : Nat) (k : Core) : (c.setCore n k).fqhead = c.fqhead := rfl
@[simp] theorem Chip.setCore_fqtail (c : Chip) (n : Nat) (k : Core) : (c.setCore n k).fqtail = c.fqtail := rfl
@[simp] theorem Chip.setCore_fqovf (c : Chip) (n : Nat) (k : Core) : (c.setCore n k).fqovf = c.fqovf := rfl
@[simp] theorem Chip.setCore_tlbBusy (c : Chip) (n : Nat) (k : Core) : (c.setCore n k).tlbBusy = c.tlbBusy := rfl
@[simp] theorem Chip.setCore_tlbScope (c : Chip) (n : Nat) (k : Core) : (c.setCore n k).tlbScope = c.tlbScope := rfl
@[simp] theorem Chip.setCore_savepool (c : Chip) (n : Nat) (k : Core) : (c.setCore n k).savepool = c.savepool := rfl
@[simp] theorem Chip.setCore_dbgsel (c : Chip) (n : Nat) (k : Core) : (c.setCore n k).dbgsel = c.dbgsel := rfl
@[simp] theorem Chip.setCore_dbgstat (c : Chip) (n : Nat) (k : Core) : (c.setCore n k).dbgstat = c.dbgstat := rfl
@[simp] theorem Chip.setCore_dbgbuf (c : Chip) (n : Nat) (k : Core) : (c.setCore n k).dbgbuf = c.dbgbuf := rfl
@[simp] theorem Chip.setCore_dbgAll (c : Chip) (n : Nat) (k : Core) : (c.setCore n k).dbgAll = c.dbgAll := rfl
@[simp] theorem Chip.setCore_pcap (c : Chip) (n : Nat) (k : Core) : (c.setCore n k).pcap = c.pcap := rfl
@[simp] theorem Chip.setCore_fwState (c : Chip) (n : Nat) (k : Core) : (c.setCore n k).fwState = c.fwState := rfl
@[simp] theorem Chip.setCore_fwFail (c : Chip) (n : Nat) (k : Core) : (c.setCore n k).fwFail = c.fwFail := rfl
@[simp] theorem Chip.setCore_fwBank (c : Chip) (n : Nat) (k : Core) : (c.setCore n k).fwBank = c.fwBank := rfl
@[simp] theorem Chip.setCore_fwBanks (c : Chip) (n : Nat) (k : Core) : (c.setCore n k).fwBanks = c.fwBanks := rfl
@[simp] theorem Chip.setCore_fwRun (c : Chip) (n : Nat) (k : Core) : (c.setCore n k).fwRun = c.fwRun := rfl
@[simp] theorem Chip.setCore_recovery (c : Chip) (n : Nat) (k : Core) : (c.setCore n k).recovery = c.recovery := rfl
@[simp] theorem Chip.setCore_fwBase (c : Chip) (n : Nat) (k : Core) : (c.setCore n k).fwBase = c.fwBase := rfl
@[simp] theorem Chip.setCore_fwSram (c : Chip) (n : Nat) (k : Core) : (c.setCore n k).fwSram = c.fwSram := rfl
@[simp] theorem Chip.setCore_secret (c : Chip) (n : Nat) (k : Core) : (c.setCore n k).secret = c.secret := rfl
@[simp] theorem Chip.setCore_certs (c : Chip) (n : Nat) (k : Core) : (c.setCore n k).certs = c.certs := rfl
@[simp] theorem Chip.setCore_keyImage (c : Chip) (n : Nat) (k : Core) : (c.setCore n k).keyImage = c.keyImage := rfl
@[simp] theorem Chip.setCore_attNonce (c : Chip) (n : Nat) (k : Core) : (c.setCore n k).attNonce = c.attNonce := rfl
@[simp] theorem Chip.setCore_fwMin (c : Chip) (n : Nat) (k : Core) : (c.setCore n k).fwMin = c.fwMin := rfl
@[simp] theorem Chip.setCore_attState (c : Chip) (n : Nat) (k : Core) : (c.setCore n k).attState = c.attState := rfl
@[simp] theorem Chip.setCore_attLeft (c : Chip) (n : Nat) (k : Core) : (c.setCore n k).attLeft = c.attLeft := rfl
@[simp] theorem Chip.setCore_attBuf (c : Chip) (n : Nat) (k : Core) : (c.setCore n k).attBuf = c.attBuf := rfl
@[simp] theorem Chip.setCore_rejoin (c : Chip) (n : Nat) (k : Core) : (c.setCore n k).rejoin = c.rejoin := rfl
@[simp] theorem Chip.setCore_chipId (c : Chip) (n : Nat) (k : Core) : (c.setCore n k).chipId = c.chipId := rfl
@[simp] theorem Chip.setCore_joined (c : Chip) (n : Nat) (k : Core) : (c.setCore n k).joined = c.joined := rfl
@[simp] theorem Chip.setCore_planeOrder (c : Chip) (n : Nat) (k : Core) : (c.setCore n k).planeOrder = c.planeOrder := rfl
@[simp] theorem Chip.setCore_elbase (c : Chip) (n : Nat) (k : Core) : (c.setCore n k).elbase = c.elbase := rfl
@[simp] theorem Chip.setCore_elhead (c : Chip) (n : Nat) (k : Core) : (c.setCore n k).elhead = c.elhead := rfl
@[simp] theorem Chip.setCore_eltail (c : Chip) (n : Nat) (k : Core) : (c.setCore n k).eltail = c.eltail := rfl
@[simp] theorem Chip.setCore_elovf (c : Chip) (n : Nat) (k : Core) : (c.setCore n k).elovf = c.elovf := rfl
@[simp] theorem Chip.setCore_cecntD (c : Chip) (n : Nat) (k : Core) : (c.setCore n k).cecntD = c.cecntD := rfl
@[simp] theorem Chip.setCore_cecntS (c : Chip) (n : Nat) (k : Core) : (c.setCore n k).cecntS = c.cecntS := rfl
@[simp] theorem Chip.setCore_logRates (c : Chip) (n : Nat) (k : Core) : (c.setCore n k).logRates = c.logRates := rfl
@[simp] theorem Chip.setCore_stopped (c : Chip) (n : Nat) (k : Core) : (c.setCore n k).stopped = c.stopped := rfl
@[simp] theorem Chip.setCore_powered (c : Chip) (n : Nat) (k : Core) : (c.setCore n k).powered = c.powered := rfl
@[simp] theorem Chip.setCore_unitWalks (c : Chip) (n : Nat) (k : Core) : (c.setCore n k).unitWalks = c.unitWalks := rfl
@[simp] theorem Chip.setCluster_dram (c : Chip) (n : Nat) (k : Cluster) : (c.setCluster n k).dram = c.dram := rfl
@[simp] theorem Chip.setCluster_poison (c : Chip) (n : Nat) (k : Cluster) : (c.setCluster n k).poison = c.poison := rfl
@[simp] theorem Chip.setCluster_lineOld (c : Chip) (n : Nat) (k : Cluster) : (c.setCluster n k).lineOld = c.lineOld := rfl
@[simp] theorem Chip.setCluster_waves (c : Chip) (n : Nat) (k : Cluster) : (c.setCluster n k).waves = c.waves := rfl
@[simp] theorem Chip.setCluster_srcs (c : Chip) (n : Nat) (k : Cluster) : (c.setCluster n k).srcs = c.srcs := rfl
@[simp] theorem Chip.setCluster_blocks (c : Chip) (n : Nat) (k : Cluster) : (c.setCluster n k).blocks = c.blocks := rfl
@[simp] theorem Chip.setCluster_cohorts (c : Chip) (n : Nat) (k : Cluster) : (c.setCluster n k).cohorts = c.cohorts := rfl
@[simp] theorem Chip.setCluster_grids (c : Chip) (n : Nat) (k : Cluster) : (c.setCluster n k).grids = c.grids := rfl
@[simp] theorem Chip.setCluster_cores (c : Chip) (n : Nat) (k : Cluster) : (c.setCluster n k).cores = c.cores := rfl
@[simp] theorem Chip.setCluster_engines (c : Chip) (n : Nat) (k : Cluster) : (c.setCluster n k).engines = c.engines := rfl
@[simp] theorem Chip.setCluster_recOut (c : Chip) (n : Nat) (k : Cluster) : (c.setCluster n k).recOut = c.recOut := rfl
@[simp] theorem Chip.setCluster_prods (c : Chip) (n : Nat) (k : Cluster) : (c.setCluster n k).prods = c.prods := rfl
@[simp] theorem Chip.setCluster_pend (c : Chip) (n : Nat) (k : Cluster) : (c.setCluster n k).pend = c.pend := rfl
@[simp] theorem Chip.setCluster_copies (c : Chip) (n : Nat) (k : Cluster) : (c.setCluster n k).copies = c.copies := rfl
@[simp] theorem Chip.setCluster_colls (c : Chip) (n : Nat) (k : Cluster) : (c.setCluster n k).colls = c.colls := rfl
@[simp] theorem Chip.setCluster_coords (c : Chip) (n : Nat) (k : Cluster) : (c.setCluster n k).coords = c.coords := rfl
@[simp] theorem Chip.setCluster_res (c : Chip) (n : Nat) (k : Cluster) : (c.setCluster n k).res = c.res := rfl
@[simp] theorem Chip.setCluster_incast (c : Chip) (n : Nat) (k : Cluster) : (c.setCluster n k).incast = c.incast := rfl
@[simp] theorem Chip.setCluster_bindings (c : Chip) (n : Nat) (k : Cluster) : (c.setCluster n k).bindings = c.bindings := rfl
@[simp] theorem Chip.setCluster_apxOps (c : Chip) (n : Nat) (k : Cluster) : (c.setCluster n k).apxOps = c.apxOps := rfl
@[simp] theorem Chip.setCluster_steals (c : Chip) (n : Nat) (k : Cluster) : (c.setCluster n k).steals = c.steals := rfl
@[simp] theorem Chip.setCluster_queues (c : Chip) (n : Nat) (k : Cluster) : (c.setCluster n k).queues = c.queues := rfl
@[simp] theorem Chip.setCluster_lrecs (c : Chip) (n : Nat) (k : Cluster) : (c.setCluster n k).lrecs = c.lrecs := rfl
@[simp] theorem Chip.setCluster_walks (c : Chip) (n : Nat) (k : Cluster) : (c.setCluster n k).walks = c.walks := rfl
@[simp] theorem Chip.setCluster_pendFaults (c : Chip) (n : Nat) (k : Cluster) : (c.setCluster n k).pendFaults = c.pendFaults := rfl
@[simp] theorem Chip.setCluster_nextToken (c : Chip) (n : Nat) (k : Cluster) : (c.setCluster n k).nextToken = c.nextToken := rfl
@[simp] theorem Chip.setCluster_savedParts (c : Chip) (n : Nat) (k : Cluster) : (c.setCluster n k).savedParts = c.savedParts := rfl
@[simp] theorem Chip.setCluster_links (c : Chip) (n : Nat) (k : Cluster) : (c.setCluster n k).links = c.links := rfl
@[simp] theorem Chip.setCluster_tids (c : Chip) (n : Nat) (k : Cluster) : (c.setCluster n k).tids = c.tids := rfl
@[simp] theorem Chip.setCluster_requests (c : Chip) (n : Nat) (k : Cluster) : (c.setCluster n k).requests = c.requests := rfl
@[simp] theorem Chip.setCluster_askWait (c : Chip) (n : Nat) (k : Cluster) : (c.setCluster n k).askWait = c.askWait := rfl
@[simp] theorem Chip.setCluster_answered (c : Chip) (n : Nat) (k : Cluster) : (c.setCluster n k).answered = c.answered := rfl
@[simp] theorem Chip.setCluster_snSent (c : Chip) (n : Nat) (k : Cluster) : (c.setCluster n k).snSent = c.snSent := rfl
@[simp] theorem Chip.setCluster_tkWait (c : Chip) (n : Nat) (k : Cluster) : (c.setCluster n k).tkWait = c.tkWait := rfl
@[simp] theorem Chip.setCluster_got (c : Chip) (n : Nat) (k : Cluster) : (c.setCluster n k).got = c.got := rfl
@[simp] theorem Chip.setCluster_ownCap (c : Chip) (n : Nat) (k : Cluster) : (c.setCluster n k).ownCap = c.ownCap := rfl
@[simp] theorem Chip.setCluster_pel (c : Chip) (n : Nat) (k : Cluster) : (c.setCluster n k).pel = c.pel := rfl
@[simp] theorem Chip.setCluster_cycle (c : Chip) (n : Nat) (k : Cluster) : (c.setCluster n k).cycle = c.cycle := rfl
@[simp] theorem Chip.setCluster_next (c : Chip) (n : Nat) (k : Cluster) : (c.setCluster n k).next = c.next := rfl
@[simp] theorem Chip.setCluster_semOwner (c : Chip) (n : Nat) (k : Cluster) : (c.setCluster n k).semOwner = c.semOwner := rfl
@[simp] theorem Chip.setCluster_semTie (c : Chip) (n : Nat) (k : Cluster) : (c.setCluster n k).semTie = c.semTie := rfl
@[simp] theorem Chip.setCluster_denied (c : Chip) (n : Nat) (k : Cluster) : (c.setCluster n k).denied = c.denied := rfl
@[simp] theorem Chip.setCluster_portRead (c : Chip) (n : Nat) (k : Cluster) : (c.setCluster n k).portRead = c.portRead := rfl
@[simp] theorem Chip.setCluster_astbase (c : Chip) (n : Nat) (k : Cluster) : (c.setCluster n k).astbase = c.astbase := rfl
@[simp] theorem Chip.setCluster_fqbase (c : Chip) (n : Nat) (k : Cluster) : (c.setCluster n k).fqbase = c.fqbase := rfl
@[simp] theorem Chip.setCluster_fqhead (c : Chip) (n : Nat) (k : Cluster) : (c.setCluster n k).fqhead = c.fqhead := rfl
@[simp] theorem Chip.setCluster_fqtail (c : Chip) (n : Nat) (k : Cluster) : (c.setCluster n k).fqtail = c.fqtail := rfl
@[simp] theorem Chip.setCluster_fqovf (c : Chip) (n : Nat) (k : Cluster) : (c.setCluster n k).fqovf = c.fqovf := rfl
@[simp] theorem Chip.setCluster_tlbBusy (c : Chip) (n : Nat) (k : Cluster) : (c.setCluster n k).tlbBusy = c.tlbBusy := rfl
@[simp] theorem Chip.setCluster_tlbScope (c : Chip) (n : Nat) (k : Cluster) : (c.setCluster n k).tlbScope = c.tlbScope := rfl
@[simp] theorem Chip.setCluster_savepool (c : Chip) (n : Nat) (k : Cluster) : (c.setCluster n k).savepool = c.savepool := rfl
@[simp] theorem Chip.setCluster_dbgsel (c : Chip) (n : Nat) (k : Cluster) : (c.setCluster n k).dbgsel = c.dbgsel := rfl
@[simp] theorem Chip.setCluster_dbgstat (c : Chip) (n : Nat) (k : Cluster) : (c.setCluster n k).dbgstat = c.dbgstat := rfl
@[simp] theorem Chip.setCluster_dbgbuf (c : Chip) (n : Nat) (k : Cluster) : (c.setCluster n k).dbgbuf = c.dbgbuf := rfl
@[simp] theorem Chip.setCluster_dbgAll (c : Chip) (n : Nat) (k : Cluster) : (c.setCluster n k).dbgAll = c.dbgAll := rfl
@[simp] theorem Chip.setCluster_pcap (c : Chip) (n : Nat) (k : Cluster) : (c.setCluster n k).pcap = c.pcap := rfl
@[simp] theorem Chip.setCluster_fwState (c : Chip) (n : Nat) (k : Cluster) : (c.setCluster n k).fwState = c.fwState := rfl
@[simp] theorem Chip.setCluster_fwFail (c : Chip) (n : Nat) (k : Cluster) : (c.setCluster n k).fwFail = c.fwFail := rfl
@[simp] theorem Chip.setCluster_fwBank (c : Chip) (n : Nat) (k : Cluster) : (c.setCluster n k).fwBank = c.fwBank := rfl
@[simp] theorem Chip.setCluster_fwBanks (c : Chip) (n : Nat) (k : Cluster) : (c.setCluster n k).fwBanks = c.fwBanks := rfl
@[simp] theorem Chip.setCluster_fwRun (c : Chip) (n : Nat) (k : Cluster) : (c.setCluster n k).fwRun = c.fwRun := rfl
@[simp] theorem Chip.setCluster_recovery (c : Chip) (n : Nat) (k : Cluster) : (c.setCluster n k).recovery = c.recovery := rfl
@[simp] theorem Chip.setCluster_fwBase (c : Chip) (n : Nat) (k : Cluster) : (c.setCluster n k).fwBase = c.fwBase := rfl
@[simp] theorem Chip.setCluster_fwSram (c : Chip) (n : Nat) (k : Cluster) : (c.setCluster n k).fwSram = c.fwSram := rfl
@[simp] theorem Chip.setCluster_secret (c : Chip) (n : Nat) (k : Cluster) : (c.setCluster n k).secret = c.secret := rfl
@[simp] theorem Chip.setCluster_certs (c : Chip) (n : Nat) (k : Cluster) : (c.setCluster n k).certs = c.certs := rfl
@[simp] theorem Chip.setCluster_keyImage (c : Chip) (n : Nat) (k : Cluster) : (c.setCluster n k).keyImage = c.keyImage := rfl
@[simp] theorem Chip.setCluster_attNonce (c : Chip) (n : Nat) (k : Cluster) : (c.setCluster n k).attNonce = c.attNonce := rfl
@[simp] theorem Chip.setCluster_fwMin (c : Chip) (n : Nat) (k : Cluster) : (c.setCluster n k).fwMin = c.fwMin := rfl
@[simp] theorem Chip.setCluster_attState (c : Chip) (n : Nat) (k : Cluster) : (c.setCluster n k).attState = c.attState := rfl
@[simp] theorem Chip.setCluster_attLeft (c : Chip) (n : Nat) (k : Cluster) : (c.setCluster n k).attLeft = c.attLeft := rfl
@[simp] theorem Chip.setCluster_attBuf (c : Chip) (n : Nat) (k : Cluster) : (c.setCluster n k).attBuf = c.attBuf := rfl
@[simp] theorem Chip.setCluster_rejoin (c : Chip) (n : Nat) (k : Cluster) : (c.setCluster n k).rejoin = c.rejoin := rfl
@[simp] theorem Chip.setCluster_chipId (c : Chip) (n : Nat) (k : Cluster) : (c.setCluster n k).chipId = c.chipId := rfl
@[simp] theorem Chip.setCluster_joined (c : Chip) (n : Nat) (k : Cluster) : (c.setCluster n k).joined = c.joined := rfl
@[simp] theorem Chip.setCluster_planeOrder (c : Chip) (n : Nat) (k : Cluster) : (c.setCluster n k).planeOrder = c.planeOrder := rfl
@[simp] theorem Chip.setCluster_elbase (c : Chip) (n : Nat) (k : Cluster) : (c.setCluster n k).elbase = c.elbase := rfl
@[simp] theorem Chip.setCluster_elhead (c : Chip) (n : Nat) (k : Cluster) : (c.setCluster n k).elhead = c.elhead := rfl
@[simp] theorem Chip.setCluster_eltail (c : Chip) (n : Nat) (k : Cluster) : (c.setCluster n k).eltail = c.eltail := rfl
@[simp] theorem Chip.setCluster_elovf (c : Chip) (n : Nat) (k : Cluster) : (c.setCluster n k).elovf = c.elovf := rfl
@[simp] theorem Chip.setCluster_cecntD (c : Chip) (n : Nat) (k : Cluster) : (c.setCluster n k).cecntD = c.cecntD := rfl
@[simp] theorem Chip.setCluster_cecntS (c : Chip) (n : Nat) (k : Cluster) : (c.setCluster n k).cecntS = c.cecntS := rfl
@[simp] theorem Chip.setCluster_logRates (c : Chip) (n : Nat) (k : Cluster) : (c.setCluster n k).logRates = c.logRates := rfl
@[simp] theorem Chip.setCluster_stopped (c : Chip) (n : Nat) (k : Cluster) : (c.setCluster n k).stopped = c.stopped := rfl
@[simp] theorem Chip.setCluster_powered (c : Chip) (n : Nat) (k : Cluster) : (c.setCluster n k).powered = c.powered := rfl
@[simp] theorem Chip.setCluster_unitWalks (c : Chip) (n : Nat) (k : Cluster) : (c.setCluster n k).unitWalks = c.unitWalks := rfl
@[simp] theorem Chip.setEngine_dram (c : Chip) (n : Nat) (k : Engine) : (c.setEngine n k).dram = c.dram := rfl
@[simp] theorem Chip.setEngine_poison (c : Chip) (n : Nat) (k : Engine) : (c.setEngine n k).poison = c.poison := rfl
@[simp] theorem Chip.setEngine_lineOld (c : Chip) (n : Nat) (k : Engine) : (c.setEngine n k).lineOld = c.lineOld := rfl
@[simp] theorem Chip.setEngine_waves (c : Chip) (n : Nat) (k : Engine) : (c.setEngine n k).waves = c.waves := rfl
@[simp] theorem Chip.setEngine_srcs (c : Chip) (n : Nat) (k : Engine) : (c.setEngine n k).srcs = c.srcs := rfl
@[simp] theorem Chip.setEngine_blocks (c : Chip) (n : Nat) (k : Engine) : (c.setEngine n k).blocks = c.blocks := rfl
@[simp] theorem Chip.setEngine_cohorts (c : Chip) (n : Nat) (k : Engine) : (c.setEngine n k).cohorts = c.cohorts := rfl
@[simp] theorem Chip.setEngine_grids (c : Chip) (n : Nat) (k : Engine) : (c.setEngine n k).grids = c.grids := rfl
@[simp] theorem Chip.setEngine_cores (c : Chip) (n : Nat) (k : Engine) : (c.setEngine n k).cores = c.cores := rfl
@[simp] theorem Chip.setEngine_clusters (c : Chip) (n : Nat) (k : Engine) : (c.setEngine n k).clusters = c.clusters := rfl
@[simp] theorem Chip.setEngine_recOut (c : Chip) (n : Nat) (k : Engine) : (c.setEngine n k).recOut = c.recOut := rfl
@[simp] theorem Chip.setEngine_prods (c : Chip) (n : Nat) (k : Engine) : (c.setEngine n k).prods = c.prods := rfl
@[simp] theorem Chip.setEngine_pend (c : Chip) (n : Nat) (k : Engine) : (c.setEngine n k).pend = c.pend := rfl
@[simp] theorem Chip.setEngine_copies (c : Chip) (n : Nat) (k : Engine) : (c.setEngine n k).copies = c.copies := rfl
@[simp] theorem Chip.setEngine_colls (c : Chip) (n : Nat) (k : Engine) : (c.setEngine n k).colls = c.colls := rfl
@[simp] theorem Chip.setEngine_coords (c : Chip) (n : Nat) (k : Engine) : (c.setEngine n k).coords = c.coords := rfl
@[simp] theorem Chip.setEngine_res (c : Chip) (n : Nat) (k : Engine) : (c.setEngine n k).res = c.res := rfl
@[simp] theorem Chip.setEngine_incast (c : Chip) (n : Nat) (k : Engine) : (c.setEngine n k).incast = c.incast := rfl
@[simp] theorem Chip.setEngine_bindings (c : Chip) (n : Nat) (k : Engine) : (c.setEngine n k).bindings = c.bindings := rfl
@[simp] theorem Chip.setEngine_apxOps (c : Chip) (n : Nat) (k : Engine) : (c.setEngine n k).apxOps = c.apxOps := rfl
@[simp] theorem Chip.setEngine_steals (c : Chip) (n : Nat) (k : Engine) : (c.setEngine n k).steals = c.steals := rfl
@[simp] theorem Chip.setEngine_queues (c : Chip) (n : Nat) (k : Engine) : (c.setEngine n k).queues = c.queues := rfl
@[simp] theorem Chip.setEngine_lrecs (c : Chip) (n : Nat) (k : Engine) : (c.setEngine n k).lrecs = c.lrecs := rfl
@[simp] theorem Chip.setEngine_walks (c : Chip) (n : Nat) (k : Engine) : (c.setEngine n k).walks = c.walks := rfl
@[simp] theorem Chip.setEngine_pendFaults (c : Chip) (n : Nat) (k : Engine) : (c.setEngine n k).pendFaults = c.pendFaults := rfl
@[simp] theorem Chip.setEngine_nextToken (c : Chip) (n : Nat) (k : Engine) : (c.setEngine n k).nextToken = c.nextToken := rfl
@[simp] theorem Chip.setEngine_savedParts (c : Chip) (n : Nat) (k : Engine) : (c.setEngine n k).savedParts = c.savedParts := rfl
@[simp] theorem Chip.setEngine_links (c : Chip) (n : Nat) (k : Engine) : (c.setEngine n k).links = c.links := rfl
@[simp] theorem Chip.setEngine_tids (c : Chip) (n : Nat) (k : Engine) : (c.setEngine n k).tids = c.tids := rfl
@[simp] theorem Chip.setEngine_requests (c : Chip) (n : Nat) (k : Engine) : (c.setEngine n k).requests = c.requests := rfl
@[simp] theorem Chip.setEngine_askWait (c : Chip) (n : Nat) (k : Engine) : (c.setEngine n k).askWait = c.askWait := rfl
@[simp] theorem Chip.setEngine_answered (c : Chip) (n : Nat) (k : Engine) : (c.setEngine n k).answered = c.answered := rfl
@[simp] theorem Chip.setEngine_snSent (c : Chip) (n : Nat) (k : Engine) : (c.setEngine n k).snSent = c.snSent := rfl
@[simp] theorem Chip.setEngine_tkWait (c : Chip) (n : Nat) (k : Engine) : (c.setEngine n k).tkWait = c.tkWait := rfl
@[simp] theorem Chip.setEngine_got (c : Chip) (n : Nat) (k : Engine) : (c.setEngine n k).got = c.got := rfl
@[simp] theorem Chip.setEngine_ownCap (c : Chip) (n : Nat) (k : Engine) : (c.setEngine n k).ownCap = c.ownCap := rfl
@[simp] theorem Chip.setEngine_pel (c : Chip) (n : Nat) (k : Engine) : (c.setEngine n k).pel = c.pel := rfl
@[simp] theorem Chip.setEngine_cycle (c : Chip) (n : Nat) (k : Engine) : (c.setEngine n k).cycle = c.cycle := rfl
@[simp] theorem Chip.setEngine_next (c : Chip) (n : Nat) (k : Engine) : (c.setEngine n k).next = c.next := rfl
@[simp] theorem Chip.setEngine_semOwner (c : Chip) (n : Nat) (k : Engine) : (c.setEngine n k).semOwner = c.semOwner := rfl
@[simp] theorem Chip.setEngine_semTie (c : Chip) (n : Nat) (k : Engine) : (c.setEngine n k).semTie = c.semTie := rfl
@[simp] theorem Chip.setEngine_denied (c : Chip) (n : Nat) (k : Engine) : (c.setEngine n k).denied = c.denied := rfl
@[simp] theorem Chip.setEngine_portRead (c : Chip) (n : Nat) (k : Engine) : (c.setEngine n k).portRead = c.portRead := rfl
@[simp] theorem Chip.setEngine_astbase (c : Chip) (n : Nat) (k : Engine) : (c.setEngine n k).astbase = c.astbase := rfl
@[simp] theorem Chip.setEngine_fqbase (c : Chip) (n : Nat) (k : Engine) : (c.setEngine n k).fqbase = c.fqbase := rfl
@[simp] theorem Chip.setEngine_fqhead (c : Chip) (n : Nat) (k : Engine) : (c.setEngine n k).fqhead = c.fqhead := rfl
@[simp] theorem Chip.setEngine_fqtail (c : Chip) (n : Nat) (k : Engine) : (c.setEngine n k).fqtail = c.fqtail := rfl
@[simp] theorem Chip.setEngine_fqovf (c : Chip) (n : Nat) (k : Engine) : (c.setEngine n k).fqovf = c.fqovf := rfl
@[simp] theorem Chip.setEngine_tlbBusy (c : Chip) (n : Nat) (k : Engine) : (c.setEngine n k).tlbBusy = c.tlbBusy := rfl
@[simp] theorem Chip.setEngine_tlbScope (c : Chip) (n : Nat) (k : Engine) : (c.setEngine n k).tlbScope = c.tlbScope := rfl
@[simp] theorem Chip.setEngine_savepool (c : Chip) (n : Nat) (k : Engine) : (c.setEngine n k).savepool = c.savepool := rfl
@[simp] theorem Chip.setEngine_dbgsel (c : Chip) (n : Nat) (k : Engine) : (c.setEngine n k).dbgsel = c.dbgsel := rfl
@[simp] theorem Chip.setEngine_dbgstat (c : Chip) (n : Nat) (k : Engine) : (c.setEngine n k).dbgstat = c.dbgstat := rfl
@[simp] theorem Chip.setEngine_dbgbuf (c : Chip) (n : Nat) (k : Engine) : (c.setEngine n k).dbgbuf = c.dbgbuf := rfl
@[simp] theorem Chip.setEngine_dbgAll (c : Chip) (n : Nat) (k : Engine) : (c.setEngine n k).dbgAll = c.dbgAll := rfl
@[simp] theorem Chip.setEngine_pcap (c : Chip) (n : Nat) (k : Engine) : (c.setEngine n k).pcap = c.pcap := rfl
@[simp] theorem Chip.setEngine_fwState (c : Chip) (n : Nat) (k : Engine) : (c.setEngine n k).fwState = c.fwState := rfl
@[simp] theorem Chip.setEngine_fwFail (c : Chip) (n : Nat) (k : Engine) : (c.setEngine n k).fwFail = c.fwFail := rfl
@[simp] theorem Chip.setEngine_fwBank (c : Chip) (n : Nat) (k : Engine) : (c.setEngine n k).fwBank = c.fwBank := rfl
@[simp] theorem Chip.setEngine_fwBanks (c : Chip) (n : Nat) (k : Engine) : (c.setEngine n k).fwBanks = c.fwBanks := rfl
@[simp] theorem Chip.setEngine_fwRun (c : Chip) (n : Nat) (k : Engine) : (c.setEngine n k).fwRun = c.fwRun := rfl
@[simp] theorem Chip.setEngine_recovery (c : Chip) (n : Nat) (k : Engine) : (c.setEngine n k).recovery = c.recovery := rfl
@[simp] theorem Chip.setEngine_fwBase (c : Chip) (n : Nat) (k : Engine) : (c.setEngine n k).fwBase = c.fwBase := rfl
@[simp] theorem Chip.setEngine_fwSram (c : Chip) (n : Nat) (k : Engine) : (c.setEngine n k).fwSram = c.fwSram := rfl
@[simp] theorem Chip.setEngine_secret (c : Chip) (n : Nat) (k : Engine) : (c.setEngine n k).secret = c.secret := rfl
@[simp] theorem Chip.setEngine_certs (c : Chip) (n : Nat) (k : Engine) : (c.setEngine n k).certs = c.certs := rfl
@[simp] theorem Chip.setEngine_keyImage (c : Chip) (n : Nat) (k : Engine) : (c.setEngine n k).keyImage = c.keyImage := rfl
@[simp] theorem Chip.setEngine_attNonce (c : Chip) (n : Nat) (k : Engine) : (c.setEngine n k).attNonce = c.attNonce := rfl
@[simp] theorem Chip.setEngine_fwMin (c : Chip) (n : Nat) (k : Engine) : (c.setEngine n k).fwMin = c.fwMin := rfl
@[simp] theorem Chip.setEngine_attState (c : Chip) (n : Nat) (k : Engine) : (c.setEngine n k).attState = c.attState := rfl
@[simp] theorem Chip.setEngine_attLeft (c : Chip) (n : Nat) (k : Engine) : (c.setEngine n k).attLeft = c.attLeft := rfl
@[simp] theorem Chip.setEngine_attBuf (c : Chip) (n : Nat) (k : Engine) : (c.setEngine n k).attBuf = c.attBuf := rfl
@[simp] theorem Chip.setEngine_rejoin (c : Chip) (n : Nat) (k : Engine) : (c.setEngine n k).rejoin = c.rejoin := rfl
@[simp] theorem Chip.setEngine_chipId (c : Chip) (n : Nat) (k : Engine) : (c.setEngine n k).chipId = c.chipId := rfl
@[simp] theorem Chip.setEngine_joined (c : Chip) (n : Nat) (k : Engine) : (c.setEngine n k).joined = c.joined := rfl
@[simp] theorem Chip.setEngine_planeOrder (c : Chip) (n : Nat) (k : Engine) : (c.setEngine n k).planeOrder = c.planeOrder := rfl
@[simp] theorem Chip.setEngine_elbase (c : Chip) (n : Nat) (k : Engine) : (c.setEngine n k).elbase = c.elbase := rfl
@[simp] theorem Chip.setEngine_elhead (c : Chip) (n : Nat) (k : Engine) : (c.setEngine n k).elhead = c.elhead := rfl
@[simp] theorem Chip.setEngine_eltail (c : Chip) (n : Nat) (k : Engine) : (c.setEngine n k).eltail = c.eltail := rfl
@[simp] theorem Chip.setEngine_elovf (c : Chip) (n : Nat) (k : Engine) : (c.setEngine n k).elovf = c.elovf := rfl
@[simp] theorem Chip.setEngine_cecntD (c : Chip) (n : Nat) (k : Engine) : (c.setEngine n k).cecntD = c.cecntD := rfl
@[simp] theorem Chip.setEngine_cecntS (c : Chip) (n : Nat) (k : Engine) : (c.setEngine n k).cecntS = c.cecntS := rfl
@[simp] theorem Chip.setEngine_logRates (c : Chip) (n : Nat) (k : Engine) : (c.setEngine n k).logRates = c.logRates := rfl
@[simp] theorem Chip.setEngine_stopped (c : Chip) (n : Nat) (k : Engine) : (c.setEngine n k).stopped = c.stopped := rfl
@[simp] theorem Chip.setEngine_powered (c : Chip) (n : Nat) (k : Engine) : (c.setEngine n k).powered = c.powered := rfl
@[simp] theorem Chip.setEngine_unitWalks (c : Chip) (n : Nat) (k : Engine) : (c.setEngine n k).unitWalks = c.unitWalks := rfl
@[simp] theorem Chip.setCtx_dram (c : Chip) (v x : Nat) (k : Ctx) : (c.setCtx v x k).dram = c.dram := rfl
@[simp] theorem Chip.setCtx_poison (c : Chip) (v x : Nat) (k : Ctx) : (c.setCtx v x k).poison = c.poison := rfl
@[simp] theorem Chip.setCtx_lineOld (c : Chip) (v x : Nat) (k : Ctx) : (c.setCtx v x k).lineOld = c.lineOld := rfl
@[simp] theorem Chip.setCtx_waves (c : Chip) (v x : Nat) (k : Ctx) : (c.setCtx v x k).waves = c.waves := rfl
@[simp] theorem Chip.setCtx_srcs (c : Chip) (v x : Nat) (k : Ctx) : (c.setCtx v x k).srcs = c.srcs := rfl
@[simp] theorem Chip.setCtx_blocks (c : Chip) (v x : Nat) (k : Ctx) : (c.setCtx v x k).blocks = c.blocks := rfl
@[simp] theorem Chip.setCtx_cohorts (c : Chip) (v x : Nat) (k : Ctx) : (c.setCtx v x k).cohorts = c.cohorts := rfl
@[simp] theorem Chip.setCtx_grids (c : Chip) (v x : Nat) (k : Ctx) : (c.setCtx v x k).grids = c.grids := rfl
@[simp] theorem Chip.setCtx_cores (c : Chip) (v x : Nat) (k : Ctx) : (c.setCtx v x k).cores = c.cores := rfl
@[simp] theorem Chip.setCtx_clusters (c : Chip) (v x : Nat) (k : Ctx) : (c.setCtx v x k).clusters = c.clusters := rfl
@[simp] theorem Chip.setCtx_recOut (c : Chip) (v x : Nat) (k : Ctx) : (c.setCtx v x k).recOut = c.recOut := rfl
@[simp] theorem Chip.setCtx_prods (c : Chip) (v x : Nat) (k : Ctx) : (c.setCtx v x k).prods = c.prods := rfl
@[simp] theorem Chip.setCtx_pend (c : Chip) (v x : Nat) (k : Ctx) : (c.setCtx v x k).pend = c.pend := rfl
@[simp] theorem Chip.setCtx_copies (c : Chip) (v x : Nat) (k : Ctx) : (c.setCtx v x k).copies = c.copies := rfl
@[simp] theorem Chip.setCtx_colls (c : Chip) (v x : Nat) (k : Ctx) : (c.setCtx v x k).colls = c.colls := rfl
@[simp] theorem Chip.setCtx_coords (c : Chip) (v x : Nat) (k : Ctx) : (c.setCtx v x k).coords = c.coords := rfl
@[simp] theorem Chip.setCtx_res (c : Chip) (v x : Nat) (k : Ctx) : (c.setCtx v x k).res = c.res := rfl
@[simp] theorem Chip.setCtx_incast (c : Chip) (v x : Nat) (k : Ctx) : (c.setCtx v x k).incast = c.incast := rfl
@[simp] theorem Chip.setCtx_bindings (c : Chip) (v x : Nat) (k : Ctx) : (c.setCtx v x k).bindings = c.bindings := rfl
@[simp] theorem Chip.setCtx_apxOps (c : Chip) (v x : Nat) (k : Ctx) : (c.setCtx v x k).apxOps = c.apxOps := rfl
@[simp] theorem Chip.setCtx_steals (c : Chip) (v x : Nat) (k : Ctx) : (c.setCtx v x k).steals = c.steals := rfl
@[simp] theorem Chip.setCtx_queues (c : Chip) (v x : Nat) (k : Ctx) : (c.setCtx v x k).queues = c.queues := rfl
@[simp] theorem Chip.setCtx_lrecs (c : Chip) (v x : Nat) (k : Ctx) : (c.setCtx v x k).lrecs = c.lrecs := rfl
@[simp] theorem Chip.setCtx_walks (c : Chip) (v x : Nat) (k : Ctx) : (c.setCtx v x k).walks = c.walks := rfl
@[simp] theorem Chip.setCtx_pendFaults (c : Chip) (v x : Nat) (k : Ctx) : (c.setCtx v x k).pendFaults = c.pendFaults := rfl
@[simp] theorem Chip.setCtx_nextToken (c : Chip) (v x : Nat) (k : Ctx) : (c.setCtx v x k).nextToken = c.nextToken := rfl
@[simp] theorem Chip.setCtx_savedParts (c : Chip) (v x : Nat) (k : Ctx) : (c.setCtx v x k).savedParts = c.savedParts := rfl
@[simp] theorem Chip.setCtx_links (c : Chip) (v x : Nat) (k : Ctx) : (c.setCtx v x k).links = c.links := rfl
@[simp] theorem Chip.setCtx_tids (c : Chip) (v x : Nat) (k : Ctx) : (c.setCtx v x k).tids = c.tids := rfl
@[simp] theorem Chip.setCtx_requests (c : Chip) (v x : Nat) (k : Ctx) : (c.setCtx v x k).requests = c.requests := rfl
@[simp] theorem Chip.setCtx_askWait (c : Chip) (v x : Nat) (k : Ctx) : (c.setCtx v x k).askWait = c.askWait := rfl
@[simp] theorem Chip.setCtx_answered (c : Chip) (v x : Nat) (k : Ctx) : (c.setCtx v x k).answered = c.answered := rfl
@[simp] theorem Chip.setCtx_snSent (c : Chip) (v x : Nat) (k : Ctx) : (c.setCtx v x k).snSent = c.snSent := rfl
@[simp] theorem Chip.setCtx_tkWait (c : Chip) (v x : Nat) (k : Ctx) : (c.setCtx v x k).tkWait = c.tkWait := rfl
@[simp] theorem Chip.setCtx_got (c : Chip) (v x : Nat) (k : Ctx) : (c.setCtx v x k).got = c.got := rfl
@[simp] theorem Chip.setCtx_ownCap (c : Chip) (v x : Nat) (k : Ctx) : (c.setCtx v x k).ownCap = c.ownCap := rfl
@[simp] theorem Chip.setCtx_pel (c : Chip) (v x : Nat) (k : Ctx) : (c.setCtx v x k).pel = c.pel := rfl
@[simp] theorem Chip.setCtx_cycle (c : Chip) (v x : Nat) (k : Ctx) : (c.setCtx v x k).cycle = c.cycle := rfl
@[simp] theorem Chip.setCtx_next (c : Chip) (v x : Nat) (k : Ctx) : (c.setCtx v x k).next = c.next := rfl
@[simp] theorem Chip.setCtx_semOwner (c : Chip) (v x : Nat) (k : Ctx) : (c.setCtx v x k).semOwner = c.semOwner := rfl
@[simp] theorem Chip.setCtx_semTie (c : Chip) (v x : Nat) (k : Ctx) : (c.setCtx v x k).semTie = c.semTie := rfl
@[simp] theorem Chip.setCtx_denied (c : Chip) (v x : Nat) (k : Ctx) : (c.setCtx v x k).denied = c.denied := rfl
@[simp] theorem Chip.setCtx_portRead (c : Chip) (v x : Nat) (k : Ctx) : (c.setCtx v x k).portRead = c.portRead := rfl
@[simp] theorem Chip.setCtx_astbase (c : Chip) (v x : Nat) (k : Ctx) : (c.setCtx v x k).astbase = c.astbase := rfl
@[simp] theorem Chip.setCtx_fqbase (c : Chip) (v x : Nat) (k : Ctx) : (c.setCtx v x k).fqbase = c.fqbase := rfl
@[simp] theorem Chip.setCtx_fqhead (c : Chip) (v x : Nat) (k : Ctx) : (c.setCtx v x k).fqhead = c.fqhead := rfl
@[simp] theorem Chip.setCtx_fqtail (c : Chip) (v x : Nat) (k : Ctx) : (c.setCtx v x k).fqtail = c.fqtail := rfl
@[simp] theorem Chip.setCtx_fqovf (c : Chip) (v x : Nat) (k : Ctx) : (c.setCtx v x k).fqovf = c.fqovf := rfl
@[simp] theorem Chip.setCtx_tlbBusy (c : Chip) (v x : Nat) (k : Ctx) : (c.setCtx v x k).tlbBusy = c.tlbBusy := rfl
@[simp] theorem Chip.setCtx_tlbScope (c : Chip) (v x : Nat) (k : Ctx) : (c.setCtx v x k).tlbScope = c.tlbScope := rfl
@[simp] theorem Chip.setCtx_savepool (c : Chip) (v x : Nat) (k : Ctx) : (c.setCtx v x k).savepool = c.savepool := rfl
@[simp] theorem Chip.setCtx_dbgsel (c : Chip) (v x : Nat) (k : Ctx) : (c.setCtx v x k).dbgsel = c.dbgsel := rfl
@[simp] theorem Chip.setCtx_dbgstat (c : Chip) (v x : Nat) (k : Ctx) : (c.setCtx v x k).dbgstat = c.dbgstat := rfl
@[simp] theorem Chip.setCtx_dbgbuf (c : Chip) (v x : Nat) (k : Ctx) : (c.setCtx v x k).dbgbuf = c.dbgbuf := rfl
@[simp] theorem Chip.setCtx_dbgAll (c : Chip) (v x : Nat) (k : Ctx) : (c.setCtx v x k).dbgAll = c.dbgAll := rfl
@[simp] theorem Chip.setCtx_pcap (c : Chip) (v x : Nat) (k : Ctx) : (c.setCtx v x k).pcap = c.pcap := rfl
@[simp] theorem Chip.setCtx_fwState (c : Chip) (v x : Nat) (k : Ctx) : (c.setCtx v x k).fwState = c.fwState := rfl
@[simp] theorem Chip.setCtx_fwFail (c : Chip) (v x : Nat) (k : Ctx) : (c.setCtx v x k).fwFail = c.fwFail := rfl
@[simp] theorem Chip.setCtx_fwBank (c : Chip) (v x : Nat) (k : Ctx) : (c.setCtx v x k).fwBank = c.fwBank := rfl
@[simp] theorem Chip.setCtx_fwBanks (c : Chip) (v x : Nat) (k : Ctx) : (c.setCtx v x k).fwBanks = c.fwBanks := rfl
@[simp] theorem Chip.setCtx_fwRun (c : Chip) (v x : Nat) (k : Ctx) : (c.setCtx v x k).fwRun = c.fwRun := rfl
@[simp] theorem Chip.setCtx_recovery (c : Chip) (v x : Nat) (k : Ctx) : (c.setCtx v x k).recovery = c.recovery := rfl
@[simp] theorem Chip.setCtx_fwBase (c : Chip) (v x : Nat) (k : Ctx) : (c.setCtx v x k).fwBase = c.fwBase := rfl
@[simp] theorem Chip.setCtx_fwSram (c : Chip) (v x : Nat) (k : Ctx) : (c.setCtx v x k).fwSram = c.fwSram := rfl
@[simp] theorem Chip.setCtx_secret (c : Chip) (v x : Nat) (k : Ctx) : (c.setCtx v x k).secret = c.secret := rfl
@[simp] theorem Chip.setCtx_certs (c : Chip) (v x : Nat) (k : Ctx) : (c.setCtx v x k).certs = c.certs := rfl
@[simp] theorem Chip.setCtx_keyImage (c : Chip) (v x : Nat) (k : Ctx) : (c.setCtx v x k).keyImage = c.keyImage := rfl
@[simp] theorem Chip.setCtx_attNonce (c : Chip) (v x : Nat) (k : Ctx) : (c.setCtx v x k).attNonce = c.attNonce := rfl
@[simp] theorem Chip.setCtx_fwMin (c : Chip) (v x : Nat) (k : Ctx) : (c.setCtx v x k).fwMin = c.fwMin := rfl
@[simp] theorem Chip.setCtx_attState (c : Chip) (v x : Nat) (k : Ctx) : (c.setCtx v x k).attState = c.attState := rfl
@[simp] theorem Chip.setCtx_attLeft (c : Chip) (v x : Nat) (k : Ctx) : (c.setCtx v x k).attLeft = c.attLeft := rfl
@[simp] theorem Chip.setCtx_attBuf (c : Chip) (v x : Nat) (k : Ctx) : (c.setCtx v x k).attBuf = c.attBuf := rfl
@[simp] theorem Chip.setCtx_rejoin (c : Chip) (v x : Nat) (k : Ctx) : (c.setCtx v x k).rejoin = c.rejoin := rfl
@[simp] theorem Chip.setCtx_chipId (c : Chip) (v x : Nat) (k : Ctx) : (c.setCtx v x k).chipId = c.chipId := rfl
@[simp] theorem Chip.setCtx_joined (c : Chip) (v x : Nat) (k : Ctx) : (c.setCtx v x k).joined = c.joined := rfl
@[simp] theorem Chip.setCtx_planeOrder (c : Chip) (v x : Nat) (k : Ctx) : (c.setCtx v x k).planeOrder = c.planeOrder := rfl
@[simp] theorem Chip.setCtx_elbase (c : Chip) (v x : Nat) (k : Ctx) : (c.setCtx v x k).elbase = c.elbase := rfl
@[simp] theorem Chip.setCtx_elhead (c : Chip) (v x : Nat) (k : Ctx) : (c.setCtx v x k).elhead = c.elhead := rfl
@[simp] theorem Chip.setCtx_eltail (c : Chip) (v x : Nat) (k : Ctx) : (c.setCtx v x k).eltail = c.eltail := rfl
@[simp] theorem Chip.setCtx_elovf (c : Chip) (v x : Nat) (k : Ctx) : (c.setCtx v x k).elovf = c.elovf := rfl
@[simp] theorem Chip.setCtx_cecntD (c : Chip) (v x : Nat) (k : Ctx) : (c.setCtx v x k).cecntD = c.cecntD := rfl
@[simp] theorem Chip.setCtx_cecntS (c : Chip) (v x : Nat) (k : Ctx) : (c.setCtx v x k).cecntS = c.cecntS := rfl
@[simp] theorem Chip.setCtx_logRates (c : Chip) (v x : Nat) (k : Ctx) : (c.setCtx v x k).logRates = c.logRates := rfl
@[simp] theorem Chip.setCtx_stopped (c : Chip) (v x : Nat) (k : Ctx) : (c.setCtx v x k).stopped = c.stopped := rfl
@[simp] theorem Chip.setCtx_powered (c : Chip) (v x : Nat) (k : Ctx) : (c.setCtx v x k).powered = c.powered := rfl
@[simp] theorem Chip.setCtx_unitWalks (c : Chip) (v x : Nat) (k : Ctx) : (c.setCtx v x k).unitWalks = c.unitWalks := rfl
@[simp] theorem Chip.setBlock_dram (c : Chip) (i : Nat) (b : Block) : (c.setBlock i b).dram = c.dram := rfl
@[simp] theorem Chip.setBlock_poison (c : Chip) (i : Nat) (b : Block) : (c.setBlock i b).poison = c.poison := rfl
@[simp] theorem Chip.setBlock_lineOld (c : Chip) (i : Nat) (b : Block) : (c.setBlock i b).lineOld = c.lineOld := rfl
@[simp] theorem Chip.setBlock_waves (c : Chip) (i : Nat) (b : Block) : (c.setBlock i b).waves = c.waves := rfl
@[simp] theorem Chip.setBlock_srcs (c : Chip) (i : Nat) (b : Block) : (c.setBlock i b).srcs = c.srcs := rfl
@[simp] theorem Chip.setBlock_cohorts (c : Chip) (i : Nat) (b : Block) : (c.setBlock i b).cohorts = c.cohorts := rfl
@[simp] theorem Chip.setBlock_grids (c : Chip) (i : Nat) (b : Block) : (c.setBlock i b).grids = c.grids := rfl
@[simp] theorem Chip.setBlock_cores (c : Chip) (i : Nat) (b : Block) : (c.setBlock i b).cores = c.cores := rfl
@[simp] theorem Chip.setBlock_clusters (c : Chip) (i : Nat) (b : Block) : (c.setBlock i b).clusters = c.clusters := rfl
@[simp] theorem Chip.setBlock_engines (c : Chip) (i : Nat) (b : Block) : (c.setBlock i b).engines = c.engines := rfl
@[simp] theorem Chip.setBlock_recOut (c : Chip) (i : Nat) (b : Block) : (c.setBlock i b).recOut = c.recOut := rfl
@[simp] theorem Chip.setBlock_prods (c : Chip) (i : Nat) (b : Block) : (c.setBlock i b).prods = c.prods := rfl
@[simp] theorem Chip.setBlock_pend (c : Chip) (i : Nat) (b : Block) : (c.setBlock i b).pend = c.pend := rfl
@[simp] theorem Chip.setBlock_copies (c : Chip) (i : Nat) (b : Block) : (c.setBlock i b).copies = c.copies := rfl
@[simp] theorem Chip.setBlock_colls (c : Chip) (i : Nat) (b : Block) : (c.setBlock i b).colls = c.colls := rfl
@[simp] theorem Chip.setBlock_coords (c : Chip) (i : Nat) (b : Block) : (c.setBlock i b).coords = c.coords := rfl
@[simp] theorem Chip.setBlock_res (c : Chip) (i : Nat) (b : Block) : (c.setBlock i b).res = c.res := rfl
@[simp] theorem Chip.setBlock_incast (c : Chip) (i : Nat) (b : Block) : (c.setBlock i b).incast = c.incast := rfl
@[simp] theorem Chip.setBlock_bindings (c : Chip) (i : Nat) (b : Block) : (c.setBlock i b).bindings = c.bindings := rfl
@[simp] theorem Chip.setBlock_apxOps (c : Chip) (i : Nat) (b : Block) : (c.setBlock i b).apxOps = c.apxOps := rfl
@[simp] theorem Chip.setBlock_steals (c : Chip) (i : Nat) (b : Block) : (c.setBlock i b).steals = c.steals := rfl
@[simp] theorem Chip.setBlock_queues (c : Chip) (i : Nat) (b : Block) : (c.setBlock i b).queues = c.queues := rfl
@[simp] theorem Chip.setBlock_lrecs (c : Chip) (i : Nat) (b : Block) : (c.setBlock i b).lrecs = c.lrecs := rfl
@[simp] theorem Chip.setBlock_walks (c : Chip) (i : Nat) (b : Block) : (c.setBlock i b).walks = c.walks := rfl
@[simp] theorem Chip.setBlock_pendFaults (c : Chip) (i : Nat) (b : Block) : (c.setBlock i b).pendFaults = c.pendFaults := rfl
@[simp] theorem Chip.setBlock_nextToken (c : Chip) (i : Nat) (b : Block) : (c.setBlock i b).nextToken = c.nextToken := rfl
@[simp] theorem Chip.setBlock_savedParts (c : Chip) (i : Nat) (b : Block) : (c.setBlock i b).savedParts = c.savedParts := rfl
@[simp] theorem Chip.setBlock_links (c : Chip) (i : Nat) (b : Block) : (c.setBlock i b).links = c.links := rfl
@[simp] theorem Chip.setBlock_tids (c : Chip) (i : Nat) (b : Block) : (c.setBlock i b).tids = c.tids := rfl
@[simp] theorem Chip.setBlock_requests (c : Chip) (i : Nat) (b : Block) : (c.setBlock i b).requests = c.requests := rfl
@[simp] theorem Chip.setBlock_askWait (c : Chip) (i : Nat) (b : Block) : (c.setBlock i b).askWait = c.askWait := rfl
@[simp] theorem Chip.setBlock_answered (c : Chip) (i : Nat) (b : Block) : (c.setBlock i b).answered = c.answered := rfl
@[simp] theorem Chip.setBlock_snSent (c : Chip) (i : Nat) (b : Block) : (c.setBlock i b).snSent = c.snSent := rfl
@[simp] theorem Chip.setBlock_tkWait (c : Chip) (i : Nat) (b : Block) : (c.setBlock i b).tkWait = c.tkWait := rfl
@[simp] theorem Chip.setBlock_got (c : Chip) (i : Nat) (b : Block) : (c.setBlock i b).got = c.got := rfl
@[simp] theorem Chip.setBlock_ownCap (c : Chip) (i : Nat) (b : Block) : (c.setBlock i b).ownCap = c.ownCap := rfl
@[simp] theorem Chip.setBlock_pel (c : Chip) (i : Nat) (b : Block) : (c.setBlock i b).pel = c.pel := rfl
@[simp] theorem Chip.setBlock_cycle (c : Chip) (i : Nat) (b : Block) : (c.setBlock i b).cycle = c.cycle := rfl
@[simp] theorem Chip.setBlock_next (c : Chip) (i : Nat) (b : Block) : (c.setBlock i b).next = c.next := rfl
@[simp] theorem Chip.setBlock_semOwner (c : Chip) (i : Nat) (b : Block) : (c.setBlock i b).semOwner = c.semOwner := rfl
@[simp] theorem Chip.setBlock_semTie (c : Chip) (i : Nat) (b : Block) : (c.setBlock i b).semTie = c.semTie := rfl
@[simp] theorem Chip.setBlock_denied (c : Chip) (i : Nat) (b : Block) : (c.setBlock i b).denied = c.denied := rfl
@[simp] theorem Chip.setBlock_portRead (c : Chip) (i : Nat) (b : Block) : (c.setBlock i b).portRead = c.portRead := rfl
@[simp] theorem Chip.setBlock_astbase (c : Chip) (i : Nat) (b : Block) : (c.setBlock i b).astbase = c.astbase := rfl
@[simp] theorem Chip.setBlock_fqbase (c : Chip) (i : Nat) (b : Block) : (c.setBlock i b).fqbase = c.fqbase := rfl
@[simp] theorem Chip.setBlock_fqhead (c : Chip) (i : Nat) (b : Block) : (c.setBlock i b).fqhead = c.fqhead := rfl
@[simp] theorem Chip.setBlock_fqtail (c : Chip) (i : Nat) (b : Block) : (c.setBlock i b).fqtail = c.fqtail := rfl
@[simp] theorem Chip.setBlock_fqovf (c : Chip) (i : Nat) (b : Block) : (c.setBlock i b).fqovf = c.fqovf := rfl
@[simp] theorem Chip.setBlock_tlbBusy (c : Chip) (i : Nat) (b : Block) : (c.setBlock i b).tlbBusy = c.tlbBusy := rfl
@[simp] theorem Chip.setBlock_tlbScope (c : Chip) (i : Nat) (b : Block) : (c.setBlock i b).tlbScope = c.tlbScope := rfl
@[simp] theorem Chip.setBlock_savepool (c : Chip) (i : Nat) (b : Block) : (c.setBlock i b).savepool = c.savepool := rfl
@[simp] theorem Chip.setBlock_dbgsel (c : Chip) (i : Nat) (b : Block) : (c.setBlock i b).dbgsel = c.dbgsel := rfl
@[simp] theorem Chip.setBlock_dbgstat (c : Chip) (i : Nat) (b : Block) : (c.setBlock i b).dbgstat = c.dbgstat := rfl
@[simp] theorem Chip.setBlock_dbgbuf (c : Chip) (i : Nat) (b : Block) : (c.setBlock i b).dbgbuf = c.dbgbuf := rfl
@[simp] theorem Chip.setBlock_dbgAll (c : Chip) (i : Nat) (b : Block) : (c.setBlock i b).dbgAll = c.dbgAll := rfl
@[simp] theorem Chip.setBlock_pcap (c : Chip) (i : Nat) (b : Block) : (c.setBlock i b).pcap = c.pcap := rfl
@[simp] theorem Chip.setBlock_fwState (c : Chip) (i : Nat) (b : Block) : (c.setBlock i b).fwState = c.fwState := rfl
@[simp] theorem Chip.setBlock_fwFail (c : Chip) (i : Nat) (b : Block) : (c.setBlock i b).fwFail = c.fwFail := rfl
@[simp] theorem Chip.setBlock_fwBank (c : Chip) (i : Nat) (b : Block) : (c.setBlock i b).fwBank = c.fwBank := rfl
@[simp] theorem Chip.setBlock_fwBanks (c : Chip) (i : Nat) (b : Block) : (c.setBlock i b).fwBanks = c.fwBanks := rfl
@[simp] theorem Chip.setBlock_fwRun (c : Chip) (i : Nat) (b : Block) : (c.setBlock i b).fwRun = c.fwRun := rfl
@[simp] theorem Chip.setBlock_recovery (c : Chip) (i : Nat) (b : Block) : (c.setBlock i b).recovery = c.recovery := rfl
@[simp] theorem Chip.setBlock_fwBase (c : Chip) (i : Nat) (b : Block) : (c.setBlock i b).fwBase = c.fwBase := rfl
@[simp] theorem Chip.setBlock_fwSram (c : Chip) (i : Nat) (b : Block) : (c.setBlock i b).fwSram = c.fwSram := rfl
@[simp] theorem Chip.setBlock_secret (c : Chip) (i : Nat) (b : Block) : (c.setBlock i b).secret = c.secret := rfl
@[simp] theorem Chip.setBlock_certs (c : Chip) (i : Nat) (b : Block) : (c.setBlock i b).certs = c.certs := rfl
@[simp] theorem Chip.setBlock_keyImage (c : Chip) (i : Nat) (b : Block) : (c.setBlock i b).keyImage = c.keyImage := rfl
@[simp] theorem Chip.setBlock_attNonce (c : Chip) (i : Nat) (b : Block) : (c.setBlock i b).attNonce = c.attNonce := rfl
@[simp] theorem Chip.setBlock_fwMin (c : Chip) (i : Nat) (b : Block) : (c.setBlock i b).fwMin = c.fwMin := rfl
@[simp] theorem Chip.setBlock_attState (c : Chip) (i : Nat) (b : Block) : (c.setBlock i b).attState = c.attState := rfl
@[simp] theorem Chip.setBlock_attLeft (c : Chip) (i : Nat) (b : Block) : (c.setBlock i b).attLeft = c.attLeft := rfl
@[simp] theorem Chip.setBlock_attBuf (c : Chip) (i : Nat) (b : Block) : (c.setBlock i b).attBuf = c.attBuf := rfl
@[simp] theorem Chip.setBlock_rejoin (c : Chip) (i : Nat) (b : Block) : (c.setBlock i b).rejoin = c.rejoin := rfl
@[simp] theorem Chip.setBlock_chipId (c : Chip) (i : Nat) (b : Block) : (c.setBlock i b).chipId = c.chipId := rfl
@[simp] theorem Chip.setBlock_joined (c : Chip) (i : Nat) (b : Block) : (c.setBlock i b).joined = c.joined := rfl
@[simp] theorem Chip.setBlock_planeOrder (c : Chip) (i : Nat) (b : Block) : (c.setBlock i b).planeOrder = c.planeOrder := rfl
@[simp] theorem Chip.setBlock_elbase (c : Chip) (i : Nat) (b : Block) : (c.setBlock i b).elbase = c.elbase := rfl
@[simp] theorem Chip.setBlock_elhead (c : Chip) (i : Nat) (b : Block) : (c.setBlock i b).elhead = c.elhead := rfl
@[simp] theorem Chip.setBlock_eltail (c : Chip) (i : Nat) (b : Block) : (c.setBlock i b).eltail = c.eltail := rfl
@[simp] theorem Chip.setBlock_elovf (c : Chip) (i : Nat) (b : Block) : (c.setBlock i b).elovf = c.elovf := rfl
@[simp] theorem Chip.setBlock_cecntD (c : Chip) (i : Nat) (b : Block) : (c.setBlock i b).cecntD = c.cecntD := rfl
@[simp] theorem Chip.setBlock_cecntS (c : Chip) (i : Nat) (b : Block) : (c.setBlock i b).cecntS = c.cecntS := rfl
@[simp] theorem Chip.setBlock_logRates (c : Chip) (i : Nat) (b : Block) : (c.setBlock i b).logRates = c.logRates := rfl
@[simp] theorem Chip.setBlock_stopped (c : Chip) (i : Nat) (b : Block) : (c.setBlock i b).stopped = c.stopped := rfl
@[simp] theorem Chip.setBlock_powered (c : Chip) (i : Nat) (b : Block) : (c.setBlock i b).powered = c.powered := rfl
@[simp] theorem Chip.setBlock_unitWalks (c : Chip) (i : Nat) (b : Block) : (c.setBlock i b).unitWalks = c.unitWalks := rfl
@[simp] theorem Chip.setCore_core_self (c : Chip) (n : Nat) (k : Core) : (c.setCore n k).core n = k := by simp [Chip.setCore, Chip.core]
theorem Chip.setCore_core_of_ne (c : Chip) {n m : Nat} (k : Core) (h : m ≠ n) : (c.setCore n k).core m = c.core m := by
  by_cases hm : n = m
  · exact absurd hm.symm h
  · simp [Chip.setCore, Chip.core, tget, tfind_tset_of_ne _ _ h]
@[simp] theorem Chip.setCluster_cluster_self (c : Chip) (n : Nat) (k : Cluster) : (c.setCluster n k).cluster n = k := by simp [Chip.setCluster, Chip.cluster]
theorem Chip.setCluster_cluster_of_ne (c : Chip) {n m : Nat} (k : Cluster) (h : m ≠ n) : (c.setCluster n k).cluster m = c.cluster m := by
  by_cases hm : n = m
  · exact absurd hm.symm h
  · simp [Chip.setCluster, Chip.cluster, tget, tfind_tset_of_ne _ _ h]
@[simp] theorem Chip.setEngine_engine_self (c : Chip) (n : Nat) (k : Engine) : (c.setEngine n k).engine n = k := by simp [Chip.setEngine, Chip.engine]
theorem Chip.setEngine_engine_of_ne (c : Chip) {n m : Nat} (k : Engine) (h : m ≠ n) : (c.setEngine n k).engine m = c.engine m := by
  by_cases hm : n = m
  · exact absurd hm.symm h
  · simp [Chip.setEngine, Chip.engine, tget, tfind_tset_of_ne _ _ h]
@[simp] theorem Chip.setWave_core (c : Chip) (i : Nat) (w : Wave) (m : Nat) : (c.setWave i w).core m = c.core m := rfl
@[simp] theorem Chip.modWave_core (c : Chip) (i : Nat) (f : Wave → Wave) (m : Nat) : (c.modWave i f).core m = c.core m := rfl
@[simp] theorem Chip.setCluster_core (c : Chip) (n : Nat) (k : Cluster) (m : Nat) : (c.setCluster n k).core m = c.core m := rfl
@[simp] theorem Chip.setEngine_core (c : Chip) (n : Nat) (k : Engine) (m : Nat) : (c.setEngine n k).core m = c.core m := rfl
@[simp] theorem Chip.setCtx_core (c : Chip) (v x : Nat) (k : Ctx) (m : Nat) : (c.setCtx v x k).core m = c.core m := rfl
@[simp] theorem Chip.setBlock_core (c : Chip) (i : Nat) (b : Block) (m : Nat) : (c.setBlock i b).core m = c.core m := rfl
@[simp] theorem Chip.setWave_cluster (c : Chip) (i : Nat) (w : Wave) (m : Nat) : (c.setWave i w).cluster m = c.cluster m := rfl
@[simp] theorem Chip.modWave_cluster (c : Chip) (i : Nat) (f : Wave → Wave) (m : Nat) : (c.modWave i f).cluster m = c.cluster m := rfl
@[simp] theorem Chip.setCore_cluster (c : Chip) (n : Nat) (k : Core) (m : Nat) : (c.setCore n k).cluster m = c.cluster m := rfl
@[simp] theorem Chip.setEngine_cluster (c : Chip) (n : Nat) (k : Engine) (m : Nat) : (c.setEngine n k).cluster m = c.cluster m := rfl
@[simp] theorem Chip.setCtx_cluster (c : Chip) (v x : Nat) (k : Ctx) (m : Nat) : (c.setCtx v x k).cluster m = c.cluster m := rfl
@[simp] theorem Chip.setBlock_cluster (c : Chip) (i : Nat) (b : Block) (m : Nat) : (c.setBlock i b).cluster m = c.cluster m := rfl
@[simp] theorem Chip.setWave_engine (c : Chip) (i : Nat) (w : Wave) (m : Nat) : (c.setWave i w).engine m = c.engine m := rfl
@[simp] theorem Chip.modWave_engine (c : Chip) (i : Nat) (f : Wave → Wave) (m : Nat) : (c.modWave i f).engine m = c.engine m := rfl
@[simp] theorem Chip.setCore_engine (c : Chip) (n : Nat) (k : Core) (m : Nat) : (c.setCore n k).engine m = c.engine m := rfl
@[simp] theorem Chip.setCluster_engine (c : Chip) (n : Nat) (k : Cluster) (m : Nat) : (c.setCluster n k).engine m = c.engine m := rfl
@[simp] theorem Chip.setBlock_engine (c : Chip) (i : Nat) (b : Block) (m : Nat) : (c.setBlock i b).engine m = c.engine m := rfl

/-! ## Updates of a wave -/

@[simp] theorem Wave.mendSoft_grow (w : Wave) (r : SoftReg) (m : Word) : (w.mendSoft r m).grow = w.grow := rfl
@[simp] theorem Wave.mendSoft_blk (w : Wave) (r : SoftReg) (m : Word) : (w.mendSoft r m).blk = w.blk := rfl
@[simp] theorem Wave.mendSoft_core (w : Wave) (r : SoftReg) (m : Word) : (w.mendSoft r m).core = w.core := rfl
@[simp] theorem Wave.mendSoft_stage (w : Wave) (r : SoftReg) (m : Word) : (w.mendSoft r m).stage = w.stage := rfl
@[simp] theorem Wave.mendSoft_swave (w : Wave) (r : SoftReg) (m : Word) : (w.mendSoft r m).swave = w.swave := rfl
@[simp] theorem Wave.mendSoft_wno (w : Wave) (r : SoftReg) (m : Word) : (w.mendSoft r m).wno = w.wno := rfl
@[simp] theorem Wave.mendSoft_L (w : Wave) (r : SoftReg) (m : Word) : (w.mendSoft r m).L = w.L := rfl
@[simp] theorem Wave.mendSoft_D (w : Wave) (r : SoftReg) (m : Word) : (w.mendSoft r m).D = w.D := rfl
@[simp] theorem Wave.mendSoft_U (w : Wave) (r : SoftReg) (m : Word) : (w.mendSoft r m).U = w.U := rfl
@[simp] theorem Wave.mendSoft_prio (w : Wave) (r : SoftReg) (m : Word) : (w.mendSoft r m).prio = w.prio := rfl
@[simp] theorem Wave.mendSoft_heapDepth (w : Wave) (r : SoftReg) (m : Word) : (w.mendSoft r m).heapDepth = w.heapDepth := rfl
@[simp] theorem Wave.mendSoft_slotA (w : Wave) (r : SoftReg) (m : Word) : (w.mendSoft r m).slotA = w.slotA := rfl
@[simp] theorem Wave.mendSoft_slotB (w : Wave) (r : SoftReg) (m : Word) : (w.mendSoft r m).slotB = w.slotB := rfl
@[simp] theorem Wave.mendSoft_heap (w : Wave) (r : SoftReg) (m : Word) : (w.mendSoft r m).heap = w.heap := rfl
@[simp] theorem Wave.mendSoft_heapRes (w : Wave) (r : SoftReg) (m : Word) : (w.mendSoft r m).heapRes = w.heapRes := rfl
@[simp] theorem Wave.mendSoft_issueA (w : Wave) (r : SoftReg) (m : Word) : (w.mendSoft r m).issueA = w.issueA := rfl
@[simp] theorem Wave.mendSoft_issueB (w : Wave) (r : SoftReg) (m : Word) : (w.mendSoft r m).issueB = w.issueB := rfl
@[simp] theorem Wave.mendSoft_vbase (w : Wave) (r : SoftReg) (m : Word) : (w.mendSoft r m).vbase = w.vbase := rfl
@[simp] theorem Wave.mendSoft_v (w : Wave) (r : SoftReg) (m : Word) : (w.mendSoft r m).v = w.v := rfl
@[simp] theorem Wave.mendSoft_s (w : Wave) (r : SoftReg) (m : Word) : (w.mendSoft r m).s = w.s := rfl
@[simp] theorem Wave.mendSoft_p (w : Wave) (r : SoftReg) (m : Word) : (w.mendSoft r m).p = w.p := rfl
@[simp] theorem Wave.mendSoft_i (w : Wave) (r : SoftReg) (m : Word) : (w.mendSoft r m).i = w.i := rfl
@[simp] theorem Wave.mendSoft_h (w : Wave) (r : SoftReg) (m : Word) : (w.mendSoft r m).h = w.h := rfl
@[simp] theorem Wave.mendSoft_flags (w : Wave) (r : SoftReg) (m : Word) : (w.mendSoft r m).flags = w.flags := rfl
@[simp] theorem Wave.mendSoft_cause (w : Wave) (r : SoftReg) (m : Word) : (w.mendSoft r m).cause = w.cause := rfl
@[simp] theorem Wave.mendSoft_epc (w : Wave) (r : SoftReg) (m : Word) : (w.mendSoft r m).epc = w.epc := rfl
@[simp] theorem Wave.mendSoft_emask (w : Wave) (r : SoftReg) (m : Word) : (w.mendSoft r m).emask = w.emask := rfl
@[simp] theorem Wave.mendSoft_einfo0 (w : Wave) (r : SoftReg) (m : Word) : (w.mendSoft r m).einfo0 = w.einfo0 := rfl
@[simp] theorem Wave.mendSoft_einfo1 (w : Wave) (r : SoftReg) (m : Word) : (w.mendSoft r m).einfo1 = w.einfo1 := rfl
@[simp] theorem Wave.mendSoft_einfo2 (w : Wave) (r : SoftReg) (m : Word) : (w.mendSoft r m).einfo2 = w.einfo2 := rfl
@[simp] theorem Wave.mendSoft_dbg (w : Wave) (r : SoftReg) (m : Word) : (w.mendSoft r m).dbg = w.dbg := rfl
@[simp] theorem Wave.mendSoft_hslot (w : Wave) (r : SoftReg) (m : Word) : (w.mendSoft r m).hslot = w.hslot := rfl
@[simp] theorem Wave.mendSoft_clock (w : Wave) (r : SoftReg) (m : Word) : (w.mendSoft r m).clock = w.clock := rfl
@[simp] theorem Wave.mendSoft_turn (w : Wave) (r : SoftReg) (m : Word) : (w.mendSoft r m).turn = w.turn := rfl
@[simp] theorem Wave.mendSoft_buf (w : Wave) (r : SoftReg) (m : Word) : (w.mendSoft r m).buf = w.buf := rfl
@[simp] theorem Wave.mendSoft_inv (w : Wave) (r : SoftReg) (m : Word) : (w.mendSoft r m).inv = w.inv := rfl
@[simp] theorem Wave.mendSoft_region (w : Wave) (r : SoftReg) (m : Word) : (w.mendSoft r m).region = w.region := rfl
@[simp] theorem Wave.mendSoft_ordSeq (w : Wave) (r : SoftReg) (m : Word) : (w.mendSoft r m).ordSeq = w.ordSeq := rfl
@[simp] theorem Wave.mendSoft_score (w : Wave) (r : SoftReg) (m : Word) : (w.mendSoft r m).score = w.score := rfl
@[simp] theorem Wave.mendSoft_vtags (w : Wave) (r : SoftReg) (m : Word) : (w.mendSoft r m).vtags = w.vtags := rfl
@[simp] theorem Wave.mendSoft_stepping (w : Wave) (r : SoftReg) (m : Word) : (w.mendSoft r m).stepping = w.stepping := rfl
@[simp] theorem Wave.mendSoft_arrayTrap (w : Wave) (r : SoftReg) (m : Word) : (w.mendSoft r m).arrayTrap = w.arrayTrap := rfl
@[simp] theorem Wave.mendSoft_saved (w : Wave) (r : SoftReg) (m : Word) : (w.mendSoft r m).saved = w.saved := rfl
@[simp] theorem Wave.mendSoft_ended (w : Wave) (r : SoftReg) (m : Word) : (w.mendSoft r m).ended = w.ended := rfl
@[simp] theorem Wave.mendSoft_quant (w : Wave) (r : SoftReg) (m : Word) : (w.mendSoft r m).quant = w.quant := rfl
@[simp] theorem Wave.mendSoft_raised (w : Wave) (r : SoftReg) (m : Word) : (w.mendSoft r m).raised = w.raised := rfl
@[simp] theorem Wave.mendSoft_sick (w : Wave) (r : SoftReg) (m : Word) : (w.mendSoft r m).sick = w.sick := rfl
@[simp] theorem Wave.putV_grow (w : Wave) (x : Nat) (m : Word) (f : Nat → Word) : (w.putV x m f).grow = w.grow := rfl
@[simp] theorem Wave.putV_blk (w : Wave) (x : Nat) (m : Word) (f : Nat → Word) : (w.putV x m f).blk = w.blk := rfl
@[simp] theorem Wave.putV_core (w : Wave) (x : Nat) (m : Word) (f : Nat → Word) : (w.putV x m f).core = w.core := rfl
@[simp] theorem Wave.putV_stage (w : Wave) (x : Nat) (m : Word) (f : Nat → Word) : (w.putV x m f).stage = w.stage := rfl
@[simp] theorem Wave.putV_swave (w : Wave) (x : Nat) (m : Word) (f : Nat → Word) : (w.putV x m f).swave = w.swave := rfl
@[simp] theorem Wave.putV_wno (w : Wave) (x : Nat) (m : Word) (f : Nat → Word) : (w.putV x m f).wno = w.wno := rfl
@[simp] theorem Wave.putV_L (w : Wave) (x : Nat) (m : Word) (f : Nat → Word) : (w.putV x m f).L = w.L := rfl
@[simp] theorem Wave.putV_D (w : Wave) (x : Nat) (m : Word) (f : Nat → Word) : (w.putV x m f).D = w.D := rfl
@[simp] theorem Wave.putV_U (w : Wave) (x : Nat) (m : Word) (f : Nat → Word) : (w.putV x m f).U = w.U := rfl
@[simp] theorem Wave.putV_prio (w : Wave) (x : Nat) (m : Word) (f : Nat → Word) : (w.putV x m f).prio = w.prio := rfl
@[simp] theorem Wave.putV_heapDepth (w : Wave) (x : Nat) (m : Word) (f : Nat → Word) : (w.putV x m f).heapDepth = w.heapDepth := rfl
@[simp] theorem Wave.putV_slotA (w : Wave) (x : Nat) (m : Word) (f : Nat → Word) : (w.putV x m f).slotA = w.slotA := rfl
@[simp] theorem Wave.putV_slotB (w : Wave) (x : Nat) (m : Word) (f : Nat → Word) : (w.putV x m f).slotB = w.slotB := rfl
@[simp] theorem Wave.putV_heap (w : Wave) (x : Nat) (m : Word) (f : Nat → Word) : (w.putV x m f).heap = w.heap := rfl
@[simp] theorem Wave.putV_heapRes (w : Wave) (x : Nat) (m : Word) (f : Nat → Word) : (w.putV x m f).heapRes = w.heapRes := rfl
@[simp] theorem Wave.putV_issueA (w : Wave) (x : Nat) (m : Word) (f : Nat → Word) : (w.putV x m f).issueA = w.issueA := rfl
@[simp] theorem Wave.putV_issueB (w : Wave) (x : Nat) (m : Word) (f : Nat → Word) : (w.putV x m f).issueB = w.issueB := rfl
@[simp] theorem Wave.putV_vbase (w : Wave) (x : Nat) (m : Word) (f : Nat → Word) : (w.putV x m f).vbase = w.vbase := rfl
@[simp] theorem Wave.putV_s (w : Wave) (x : Nat) (m : Word) (f : Nat → Word) : (w.putV x m f).s = w.s := rfl
@[simp] theorem Wave.putV_p (w : Wave) (x : Nat) (m : Word) (f : Nat → Word) : (w.putV x m f).p = w.p := rfl
@[simp] theorem Wave.putV_i (w : Wave) (x : Nat) (m : Word) (f : Nat → Word) : (w.putV x m f).i = w.i := rfl
@[simp] theorem Wave.putV_h (w : Wave) (x : Nat) (m : Word) (f : Nat → Word) : (w.putV x m f).h = w.h := rfl
@[simp] theorem Wave.putV_flags (w : Wave) (x : Nat) (m : Word) (f : Nat → Word) : (w.putV x m f).flags = w.flags := rfl
@[simp] theorem Wave.putV_cause (w : Wave) (x : Nat) (m : Word) (f : Nat → Word) : (w.putV x m f).cause = w.cause := rfl
@[simp] theorem Wave.putV_epc (w : Wave) (x : Nat) (m : Word) (f : Nat → Word) : (w.putV x m f).epc = w.epc := rfl
@[simp] theorem Wave.putV_emask (w : Wave) (x : Nat) (m : Word) (f : Nat → Word) : (w.putV x m f).emask = w.emask := rfl
@[simp] theorem Wave.putV_einfo0 (w : Wave) (x : Nat) (m : Word) (f : Nat → Word) : (w.putV x m f).einfo0 = w.einfo0 := rfl
@[simp] theorem Wave.putV_einfo1 (w : Wave) (x : Nat) (m : Word) (f : Nat → Word) : (w.putV x m f).einfo1 = w.einfo1 := rfl
@[simp] theorem Wave.putV_einfo2 (w : Wave) (x : Nat) (m : Word) (f : Nat → Word) : (w.putV x m f).einfo2 = w.einfo2 := rfl
@[simp] theorem Wave.putV_dbg (w : Wave) (x : Nat) (m : Word) (f : Nat → Word) : (w.putV x m f).dbg = w.dbg := rfl
@[simp] theorem Wave.putV_hslot (w : Wave) (x : Nat) (m : Word) (f : Nat → Word) : (w.putV x m f).hslot = w.hslot := rfl
@[simp] theorem Wave.putV_clock (w : Wave) (x : Nat) (m : Word) (f : Nat → Word) : (w.putV x m f).clock = w.clock := rfl
@[simp] theorem Wave.putV_turn (w : Wave) (x : Nat) (m : Word) (f : Nat → Word) : (w.putV x m f).turn = w.turn := rfl
@[simp] theorem Wave.putV_buf (w : Wave) (x : Nat) (m : Word) (f : Nat → Word) : (w.putV x m f).buf = w.buf := rfl
@[simp] theorem Wave.putV_inv (w : Wave) (x : Nat) (m : Word) (f : Nat → Word) : (w.putV x m f).inv = w.inv := rfl
@[simp] theorem Wave.putV_region (w : Wave) (x : Nat) (m : Word) (f : Nat → Word) : (w.putV x m f).region = w.region := rfl
@[simp] theorem Wave.putV_ordSeq (w : Wave) (x : Nat) (m : Word) (f : Nat → Word) : (w.putV x m f).ordSeq = w.ordSeq := rfl
@[simp] theorem Wave.putV_score (w : Wave) (x : Nat) (m : Word) (f : Nat → Word) : (w.putV x m f).score = w.score := rfl
@[simp] theorem Wave.putV_vtags (w : Wave) (x : Nat) (m : Word) (f : Nat → Word) : (w.putV x m f).vtags = w.vtags := rfl
@[simp] theorem Wave.putV_stepping (w : Wave) (x : Nat) (m : Word) (f : Nat → Word) : (w.putV x m f).stepping = w.stepping := rfl
@[simp] theorem Wave.putV_arrayTrap (w : Wave) (x : Nat) (m : Word) (f : Nat → Word) : (w.putV x m f).arrayTrap = w.arrayTrap := rfl
@[simp] theorem Wave.putV_saved (w : Wave) (x : Nat) (m : Word) (f : Nat → Word) : (w.putV x m f).saved = w.saved := rfl
@[simp] theorem Wave.putV_ended (w : Wave) (x : Nat) (m : Word) (f : Nat → Word) : (w.putV x m f).ended = w.ended := rfl
@[simp] theorem Wave.putV_quant (w : Wave) (x : Nat) (m : Word) (f : Nat → Word) : (w.putV x m f).quant = w.quant := rfl
@[simp] theorem Wave.putV_raised (w : Wave) (x : Nat) (m : Word) (f : Nat → Word) : (w.putV x m f).raised = w.raised := rfl
@[simp] theorem Wave.putV_sick (w : Wave) (x : Nat) (m : Word) (f : Nat → Word) : (w.putV x m f).sick = w.sick := rfl
@[simp] theorem Wave.putV_soft (w : Wave) (x : Nat) (m : Word) (f : Nat → Word) : (w.putV x m f).soft = w.soft := rfl
@[simp] theorem Wave.putS_grow (w : Wave) (n : Nat) (x : Word) : (w.putS n x).grow = w.grow := rfl
@[simp] theorem Wave.putS_blk (w : Wave) (n : Nat) (x : Word) : (w.putS n x).blk = w.blk := rfl
@[simp] theorem Wave.putS_core (w : Wave) (n : Nat) (x : Word) : (w.putS n x).core = w.core := rfl
@[simp] theorem Wave.putS_stage (w : Wave) (n : Nat) (x : Word) : (w.putS n x).stage = w.stage := rfl
@[simp] theorem Wave.putS_swave (w : Wave) (n : Nat) (x : Word) : (w.putS n x).swave = w.swave := rfl
@[simp] theorem Wave.putS_wno (w : Wave) (n : Nat) (x : Word) : (w.putS n x).wno = w.wno := rfl
@[simp] theorem Wave.putS_L (w : Wave) (n : Nat) (x : Word) : (w.putS n x).L = w.L := rfl
@[simp] theorem Wave.putS_D (w : Wave) (n : Nat) (x : Word) : (w.putS n x).D = w.D := rfl
@[simp] theorem Wave.putS_U (w : Wave) (n : Nat) (x : Word) : (w.putS n x).U = w.U := rfl
@[simp] theorem Wave.putS_prio (w : Wave) (n : Nat) (x : Word) : (w.putS n x).prio = w.prio := rfl
@[simp] theorem Wave.putS_heapDepth (w : Wave) (n : Nat) (x : Word) : (w.putS n x).heapDepth = w.heapDepth := rfl
@[simp] theorem Wave.putS_slotA (w : Wave) (n : Nat) (x : Word) : (w.putS n x).slotA = w.slotA := rfl
@[simp] theorem Wave.putS_slotB (w : Wave) (n : Nat) (x : Word) : (w.putS n x).slotB = w.slotB := rfl
@[simp] theorem Wave.putS_heap (w : Wave) (n : Nat) (x : Word) : (w.putS n x).heap = w.heap := rfl
@[simp] theorem Wave.putS_heapRes (w : Wave) (n : Nat) (x : Word) : (w.putS n x).heapRes = w.heapRes := rfl
@[simp] theorem Wave.putS_issueA (w : Wave) (n : Nat) (x : Word) : (w.putS n x).issueA = w.issueA := rfl
@[simp] theorem Wave.putS_issueB (w : Wave) (n : Nat) (x : Word) : (w.putS n x).issueB = w.issueB := rfl
@[simp] theorem Wave.putS_vbase (w : Wave) (n : Nat) (x : Word) : (w.putS n x).vbase = w.vbase := rfl
@[simp] theorem Wave.putS_v (w : Wave) (n : Nat) (x : Word) : (w.putS n x).v = w.v := rfl
@[simp] theorem Wave.putS_p (w : Wave) (n : Nat) (x : Word) : (w.putS n x).p = w.p := rfl
@[simp] theorem Wave.putS_i (w : Wave) (n : Nat) (x : Word) : (w.putS n x).i = w.i := rfl
@[simp] theorem Wave.putS_h (w : Wave) (n : Nat) (x : Word) : (w.putS n x).h = w.h := rfl
@[simp] theorem Wave.putS_flags (w : Wave) (n : Nat) (x : Word) : (w.putS n x).flags = w.flags := rfl
@[simp] theorem Wave.putS_cause (w : Wave) (n : Nat) (x : Word) : (w.putS n x).cause = w.cause := rfl
@[simp] theorem Wave.putS_epc (w : Wave) (n : Nat) (x : Word) : (w.putS n x).epc = w.epc := rfl
@[simp] theorem Wave.putS_emask (w : Wave) (n : Nat) (x : Word) : (w.putS n x).emask = w.emask := rfl
@[simp] theorem Wave.putS_einfo0 (w : Wave) (n : Nat) (x : Word) : (w.putS n x).einfo0 = w.einfo0 := rfl
@[simp] theorem Wave.putS_einfo1 (w : Wave) (n : Nat) (x : Word) : (w.putS n x).einfo1 = w.einfo1 := rfl
@[simp] theorem Wave.putS_einfo2 (w : Wave) (n : Nat) (x : Word) : (w.putS n x).einfo2 = w.einfo2 := rfl
@[simp] theorem Wave.putS_dbg (w : Wave) (n : Nat) (x : Word) : (w.putS n x).dbg = w.dbg := rfl
@[simp] theorem Wave.putS_hslot (w : Wave) (n : Nat) (x : Word) : (w.putS n x).hslot = w.hslot := rfl
@[simp] theorem Wave.putS_clock (w : Wave) (n : Nat) (x : Word) : (w.putS n x).clock = w.clock := rfl
@[simp] theorem Wave.putS_turn (w : Wave) (n : Nat) (x : Word) : (w.putS n x).turn = w.turn := rfl
@[simp] theorem Wave.putS_buf (w : Wave) (n : Nat) (x : Word) : (w.putS n x).buf = w.buf := rfl
@[simp] theorem Wave.putS_inv (w : Wave) (n : Nat) (x : Word) : (w.putS n x).inv = w.inv := rfl
@[simp] theorem Wave.putS_region (w : Wave) (n : Nat) (x : Word) : (w.putS n x).region = w.region := rfl
@[simp] theorem Wave.putS_ordSeq (w : Wave) (n : Nat) (x : Word) : (w.putS n x).ordSeq = w.ordSeq := rfl
@[simp] theorem Wave.putS_score (w : Wave) (n : Nat) (x : Word) : (w.putS n x).score = w.score := rfl
@[simp] theorem Wave.putS_vtags (w : Wave) (n : Nat) (x : Word) : (w.putS n x).vtags = w.vtags := rfl
@[simp] theorem Wave.putS_stepping (w : Wave) (n : Nat) (x : Word) : (w.putS n x).stepping = w.stepping := rfl
@[simp] theorem Wave.putS_arrayTrap (w : Wave) (n : Nat) (x : Word) : (w.putS n x).arrayTrap = w.arrayTrap := rfl
@[simp] theorem Wave.putS_saved (w : Wave) (n : Nat) (x : Word) : (w.putS n x).saved = w.saved := rfl
@[simp] theorem Wave.putS_ended (w : Wave) (n : Nat) (x : Word) : (w.putS n x).ended = w.ended := rfl
@[simp] theorem Wave.putS_quant (w : Wave) (n : Nat) (x : Word) : (w.putS n x).quant = w.quant := rfl
@[simp] theorem Wave.putS_raised (w : Wave) (n : Nat) (x : Word) : (w.putS n x).raised = w.raised := rfl
@[simp] theorem Wave.putS_sick (w : Wave) (n : Nat) (x : Word) : (w.putS n x).sick = w.sick := rfl
@[simp] theorem Wave.putS_soft (w : Wave) (n : Nat) (x : Word) : (w.putS n x).soft = w.soft := rfl
@[simp] theorem Wave.putP_grow (w : Wave) (n : Nat) (m : Word) (f : Nat → Bool) : (w.putP n m f).grow = w.grow := by unfold Wave.putP; split <;> rfl
@[simp] theorem Wave.putP_blk (w : Wave) (n : Nat) (m : Word) (f : Nat → Bool) : (w.putP n m f).blk = w.blk := by unfold Wave.putP; split <;> rfl
@[simp] theorem Wave.putP_core (w : Wave) (n : Nat) (m : Word) (f : Nat → Bool) : (w.putP n m f).core = w.core := by unfold Wave.putP; split <;> rfl
@[simp] theorem Wave.putP_stage (w : Wave) (n : Nat) (m : Word) (f : Nat → Bool) : (w.putP n m f).stage = w.stage := by unfold Wave.putP; split <;> rfl
@[simp] theorem Wave.putP_swave (w : Wave) (n : Nat) (m : Word) (f : Nat → Bool) : (w.putP n m f).swave = w.swave := by unfold Wave.putP; split <;> rfl
@[simp] theorem Wave.putP_wno (w : Wave) (n : Nat) (m : Word) (f : Nat → Bool) : (w.putP n m f).wno = w.wno := by unfold Wave.putP; split <;> rfl
@[simp] theorem Wave.putP_L (w : Wave) (n : Nat) (m : Word) (f : Nat → Bool) : (w.putP n m f).L = w.L := by unfold Wave.putP; split <;> rfl
@[simp] theorem Wave.putP_D (w : Wave) (n : Nat) (m : Word) (f : Nat → Bool) : (w.putP n m f).D = w.D := by unfold Wave.putP; split <;> rfl
@[simp] theorem Wave.putP_U (w : Wave) (n : Nat) (m : Word) (f : Nat → Bool) : (w.putP n m f).U = w.U := by unfold Wave.putP; split <;> rfl
@[simp] theorem Wave.putP_prio (w : Wave) (n : Nat) (m : Word) (f : Nat → Bool) : (w.putP n m f).prio = w.prio := by unfold Wave.putP; split <;> rfl
@[simp] theorem Wave.putP_heapDepth (w : Wave) (n : Nat) (m : Word) (f : Nat → Bool) : (w.putP n m f).heapDepth = w.heapDepth := by unfold Wave.putP; split <;> rfl
@[simp] theorem Wave.putP_slotA (w : Wave) (n : Nat) (m : Word) (f : Nat → Bool) : (w.putP n m f).slotA = w.slotA := by unfold Wave.putP; split <;> rfl
@[simp] theorem Wave.putP_slotB (w : Wave) (n : Nat) (m : Word) (f : Nat → Bool) : (w.putP n m f).slotB = w.slotB := by unfold Wave.putP; split <;> rfl
@[simp] theorem Wave.putP_heap (w : Wave) (n : Nat) (m : Word) (f : Nat → Bool) : (w.putP n m f).heap = w.heap := by unfold Wave.putP; split <;> rfl
@[simp] theorem Wave.putP_heapRes (w : Wave) (n : Nat) (m : Word) (f : Nat → Bool) : (w.putP n m f).heapRes = w.heapRes := by unfold Wave.putP; split <;> rfl
@[simp] theorem Wave.putP_issueA (w : Wave) (n : Nat) (m : Word) (f : Nat → Bool) : (w.putP n m f).issueA = w.issueA := by unfold Wave.putP; split <;> rfl
@[simp] theorem Wave.putP_issueB (w : Wave) (n : Nat) (m : Word) (f : Nat → Bool) : (w.putP n m f).issueB = w.issueB := by unfold Wave.putP; split <;> rfl
@[simp] theorem Wave.putP_vbase (w : Wave) (n : Nat) (m : Word) (f : Nat → Bool) : (w.putP n m f).vbase = w.vbase := by unfold Wave.putP; split <;> rfl
@[simp] theorem Wave.putP_v (w : Wave) (n : Nat) (m : Word) (f : Nat → Bool) : (w.putP n m f).v = w.v := by unfold Wave.putP; split <;> rfl
@[simp] theorem Wave.putP_s (w : Wave) (n : Nat) (m : Word) (f : Nat → Bool) : (w.putP n m f).s = w.s := by unfold Wave.putP; split <;> rfl
@[simp] theorem Wave.putP_i (w : Wave) (n : Nat) (m : Word) (f : Nat → Bool) : (w.putP n m f).i = w.i := by unfold Wave.putP; split <;> rfl
@[simp] theorem Wave.putP_h (w : Wave) (n : Nat) (m : Word) (f : Nat → Bool) : (w.putP n m f).h = w.h := by unfold Wave.putP; split <;> rfl
@[simp] theorem Wave.putP_flags (w : Wave) (n : Nat) (m : Word) (f : Nat → Bool) : (w.putP n m f).flags = w.flags := by unfold Wave.putP; split <;> rfl
@[simp] theorem Wave.putP_cause (w : Wave) (n : Nat) (m : Word) (f : Nat → Bool) : (w.putP n m f).cause = w.cause := by unfold Wave.putP; split <;> rfl
@[simp] theorem Wave.putP_epc (w : Wave) (n : Nat) (m : Word) (f : Nat → Bool) : (w.putP n m f).epc = w.epc := by unfold Wave.putP; split <;> rfl
@[simp] theorem Wave.putP_emask (w : Wave) (n : Nat) (m : Word) (f : Nat → Bool) : (w.putP n m f).emask = w.emask := by unfold Wave.putP; split <;> rfl
@[simp] theorem Wave.putP_einfo0 (w : Wave) (n : Nat) (m : Word) (f : Nat → Bool) : (w.putP n m f).einfo0 = w.einfo0 := by unfold Wave.putP; split <;> rfl
@[simp] theorem Wave.putP_einfo1 (w : Wave) (n : Nat) (m : Word) (f : Nat → Bool) : (w.putP n m f).einfo1 = w.einfo1 := by unfold Wave.putP; split <;> rfl
@[simp] theorem Wave.putP_einfo2 (w : Wave) (n : Nat) (m : Word) (f : Nat → Bool) : (w.putP n m f).einfo2 = w.einfo2 := by unfold Wave.putP; split <;> rfl
@[simp] theorem Wave.putP_dbg (w : Wave) (n : Nat) (m : Word) (f : Nat → Bool) : (w.putP n m f).dbg = w.dbg := by unfold Wave.putP; split <;> rfl
@[simp] theorem Wave.putP_hslot (w : Wave) (n : Nat) (m : Word) (f : Nat → Bool) : (w.putP n m f).hslot = w.hslot := by unfold Wave.putP; split <;> rfl
@[simp] theorem Wave.putP_clock (w : Wave) (n : Nat) (m : Word) (f : Nat → Bool) : (w.putP n m f).clock = w.clock := by unfold Wave.putP; split <;> rfl
@[simp] theorem Wave.putP_turn (w : Wave) (n : Nat) (m : Word) (f : Nat → Bool) : (w.putP n m f).turn = w.turn := by unfold Wave.putP; split <;> rfl
@[simp] theorem Wave.putP_buf (w : Wave) (n : Nat) (m : Word) (f : Nat → Bool) : (w.putP n m f).buf = w.buf := by unfold Wave.putP; split <;> rfl
@[simp] theorem Wave.putP_inv (w : Wave) (n : Nat) (m : Word) (f : Nat → Bool) : (w.putP n m f).inv = w.inv := by unfold Wave.putP; split <;> rfl
@[simp] theorem Wave.putP_region (w : Wave) (n : Nat) (m : Word) (f : Nat → Bool) : (w.putP n m f).region = w.region := by unfold Wave.putP; split <;> rfl
@[simp] theorem Wave.putP_ordSeq (w : Wave) (n : Nat) (m : Word) (f : Nat → Bool) : (w.putP n m f).ordSeq = w.ordSeq := by unfold Wave.putP; split <;> rfl
@[simp] theorem Wave.putP_score (w : Wave) (n : Nat) (m : Word) (f : Nat → Bool) : (w.putP n m f).score = w.score := by unfold Wave.putP; split <;> rfl
@[simp] theorem Wave.putP_vtags (w : Wave) (n : Nat) (m : Word) (f : Nat → Bool) : (w.putP n m f).vtags = w.vtags := by unfold Wave.putP; split <;> rfl
@[simp] theorem Wave.putP_stepping (w : Wave) (n : Nat) (m : Word) (f : Nat → Bool) : (w.putP n m f).stepping = w.stepping := by unfold Wave.putP; split <;> rfl
@[simp] theorem Wave.putP_arrayTrap (w : Wave) (n : Nat) (m : Word) (f : Nat → Bool) : (w.putP n m f).arrayTrap = w.arrayTrap := by unfold Wave.putP; split <;> rfl
@[simp] theorem Wave.putP_saved (w : Wave) (n : Nat) (m : Word) (f : Nat → Bool) : (w.putP n m f).saved = w.saved := by unfold Wave.putP; split <;> rfl
@[simp] theorem Wave.putP_ended (w : Wave) (n : Nat) (m : Word) (f : Nat → Bool) : (w.putP n m f).ended = w.ended := by unfold Wave.putP; split <;> rfl
@[simp] theorem Wave.putP_quant (w : Wave) (n : Nat) (m : Word) (f : Nat → Bool) : (w.putP n m f).quant = w.quant := by unfold Wave.putP; split <;> rfl
@[simp] theorem Wave.putP_raised (w : Wave) (n : Nat) (m : Word) (f : Nat → Bool) : (w.putP n m f).raised = w.raised := by unfold Wave.putP; split <;> rfl
@[simp] theorem Wave.putP_sick (w : Wave) (n : Nat) (m : Word) (f : Nat → Bool) : (w.putP n m f).sick = w.sick := by unfold Wave.putP; split <;> rfl
@[simp] theorem Wave.putI_grow (w : Wave) (n : Nat) (m : Word) (f : Nat → Word) : (w.putI n m f).grow = w.grow := rfl
@[simp] theorem Wave.putI_blk (w : Wave) (n : Nat) (m : Word) (f : Nat → Word) : (w.putI n m f).blk = w.blk := rfl
@[simp] theorem Wave.putI_core (w : Wave) (n : Nat) (m : Word) (f : Nat → Word) : (w.putI n m f).core = w.core := rfl
@[simp] theorem Wave.putI_stage (w : Wave) (n : Nat) (m : Word) (f : Nat → Word) : (w.putI n m f).stage = w.stage := rfl
@[simp] theorem Wave.putI_swave (w : Wave) (n : Nat) (m : Word) (f : Nat → Word) : (w.putI n m f).swave = w.swave := rfl
@[simp] theorem Wave.putI_wno (w : Wave) (n : Nat) (m : Word) (f : Nat → Word) : (w.putI n m f).wno = w.wno := rfl
@[simp] theorem Wave.putI_L (w : Wave) (n : Nat) (m : Word) (f : Nat → Word) : (w.putI n m f).L = w.L := rfl
@[simp] theorem Wave.putI_D (w : Wave) (n : Nat) (m : Word) (f : Nat → Word) : (w.putI n m f).D = w.D := rfl
@[simp] theorem Wave.putI_U (w : Wave) (n : Nat) (m : Word) (f : Nat → Word) : (w.putI n m f).U = w.U := rfl
@[simp] theorem Wave.putI_prio (w : Wave) (n : Nat) (m : Word) (f : Nat → Word) : (w.putI n m f).prio = w.prio := rfl
@[simp] theorem Wave.putI_heapDepth (w : Wave) (n : Nat) (m : Word) (f : Nat → Word) : (w.putI n m f).heapDepth = w.heapDepth := rfl
@[simp] theorem Wave.putI_slotA (w : Wave) (n : Nat) (m : Word) (f : Nat → Word) : (w.putI n m f).slotA = w.slotA := rfl
@[simp] theorem Wave.putI_slotB (w : Wave) (n : Nat) (m : Word) (f : Nat → Word) : (w.putI n m f).slotB = w.slotB := rfl
@[simp] theorem Wave.putI_heap (w : Wave) (n : Nat) (m : Word) (f : Nat → Word) : (w.putI n m f).heap = w.heap := rfl
@[simp] theorem Wave.putI_heapRes (w : Wave) (n : Nat) (m : Word) (f : Nat → Word) : (w.putI n m f).heapRes = w.heapRes := rfl
@[simp] theorem Wave.putI_issueA (w : Wave) (n : Nat) (m : Word) (f : Nat → Word) : (w.putI n m f).issueA = w.issueA := rfl
@[simp] theorem Wave.putI_issueB (w : Wave) (n : Nat) (m : Word) (f : Nat → Word) : (w.putI n m f).issueB = w.issueB := rfl
@[simp] theorem Wave.putI_vbase (w : Wave) (n : Nat) (m : Word) (f : Nat → Word) : (w.putI n m f).vbase = w.vbase := rfl
@[simp] theorem Wave.putI_v (w : Wave) (n : Nat) (m : Word) (f : Nat → Word) : (w.putI n m f).v = w.v := rfl
@[simp] theorem Wave.putI_s (w : Wave) (n : Nat) (m : Word) (f : Nat → Word) : (w.putI n m f).s = w.s := rfl
@[simp] theorem Wave.putI_p (w : Wave) (n : Nat) (m : Word) (f : Nat → Word) : (w.putI n m f).p = w.p := rfl
@[simp] theorem Wave.putI_h (w : Wave) (n : Nat) (m : Word) (f : Nat → Word) : (w.putI n m f).h = w.h := rfl
@[simp] theorem Wave.putI_flags (w : Wave) (n : Nat) (m : Word) (f : Nat → Word) : (w.putI n m f).flags = w.flags := rfl
@[simp] theorem Wave.putI_cause (w : Wave) (n : Nat) (m : Word) (f : Nat → Word) : (w.putI n m f).cause = w.cause := rfl
@[simp] theorem Wave.putI_epc (w : Wave) (n : Nat) (m : Word) (f : Nat → Word) : (w.putI n m f).epc = w.epc := rfl
@[simp] theorem Wave.putI_emask (w : Wave) (n : Nat) (m : Word) (f : Nat → Word) : (w.putI n m f).emask = w.emask := rfl
@[simp] theorem Wave.putI_einfo0 (w : Wave) (n : Nat) (m : Word) (f : Nat → Word) : (w.putI n m f).einfo0 = w.einfo0 := rfl
@[simp] theorem Wave.putI_einfo1 (w : Wave) (n : Nat) (m : Word) (f : Nat → Word) : (w.putI n m f).einfo1 = w.einfo1 := rfl
@[simp] theorem Wave.putI_einfo2 (w : Wave) (n : Nat) (m : Word) (f : Nat → Word) : (w.putI n m f).einfo2 = w.einfo2 := rfl
@[simp] theorem Wave.putI_dbg (w : Wave) (n : Nat) (m : Word) (f : Nat → Word) : (w.putI n m f).dbg = w.dbg := rfl
@[simp] theorem Wave.putI_hslot (w : Wave) (n : Nat) (m : Word) (f : Nat → Word) : (w.putI n m f).hslot = w.hslot := rfl
@[simp] theorem Wave.putI_clock (w : Wave) (n : Nat) (m : Word) (f : Nat → Word) : (w.putI n m f).clock = w.clock := rfl
@[simp] theorem Wave.putI_turn (w : Wave) (n : Nat) (m : Word) (f : Nat → Word) : (w.putI n m f).turn = w.turn := rfl
@[simp] theorem Wave.putI_buf (w : Wave) (n : Nat) (m : Word) (f : Nat → Word) : (w.putI n m f).buf = w.buf := rfl
@[simp] theorem Wave.putI_inv (w : Wave) (n : Nat) (m : Word) (f : Nat → Word) : (w.putI n m f).inv = w.inv := rfl
@[simp] theorem Wave.putI_region (w : Wave) (n : Nat) (m : Word) (f : Nat → Word) : (w.putI n m f).region = w.region := rfl
@[simp] theorem Wave.putI_ordSeq (w : Wave) (n : Nat) (m : Word) (f : Nat → Word) : (w.putI n m f).ordSeq = w.ordSeq := rfl
@[simp] theorem Wave.putI_score (w : Wave) (n : Nat) (m : Word) (f : Nat → Word) : (w.putI n m f).score = w.score := rfl
@[simp] theorem Wave.putI_vtags (w : Wave) (n : Nat) (m : Word) (f : Nat → Word) : (w.putI n m f).vtags = w.vtags := rfl
@[simp] theorem Wave.putI_stepping (w : Wave) (n : Nat) (m : Word) (f : Nat → Word) : (w.putI n m f).stepping = w.stepping := rfl
@[simp] theorem Wave.putI_arrayTrap (w : Wave) (n : Nat) (m : Word) (f : Nat → Word) : (w.putI n m f).arrayTrap = w.arrayTrap := rfl
@[simp] theorem Wave.putI_saved (w : Wave) (n : Nat) (m : Word) (f : Nat → Word) : (w.putI n m f).saved = w.saved := rfl
@[simp] theorem Wave.putI_ended (w : Wave) (n : Nat) (m : Word) (f : Nat → Word) : (w.putI n m f).ended = w.ended := rfl
@[simp] theorem Wave.putI_quant (w : Wave) (n : Nat) (m : Word) (f : Nat → Word) : (w.putI n m f).quant = w.quant := rfl
@[simp] theorem Wave.putI_raised (w : Wave) (n : Nat) (m : Word) (f : Nat → Word) : (w.putI n m f).raised = w.raised := rfl
@[simp] theorem Wave.putI_sick (w : Wave) (n : Nat) (m : Word) (f : Nat → Word) : (w.putI n m f).sick = w.sick := rfl
@[simp] theorem Wave.putH_grow (w : Wave) (n : Nat) (x : DWord) : (w.putH n x).grow = w.grow := rfl
@[simp] theorem Wave.putH_blk (w : Wave) (n : Nat) (x : DWord) : (w.putH n x).blk = w.blk := rfl
@[simp] theorem Wave.putH_core (w : Wave) (n : Nat) (x : DWord) : (w.putH n x).core = w.core := rfl
@[simp] theorem Wave.putH_stage (w : Wave) (n : Nat) (x : DWord) : (w.putH n x).stage = w.stage := rfl
@[simp] theorem Wave.putH_swave (w : Wave) (n : Nat) (x : DWord) : (w.putH n x).swave = w.swave := rfl
@[simp] theorem Wave.putH_wno (w : Wave) (n : Nat) (x : DWord) : (w.putH n x).wno = w.wno := rfl
@[simp] theorem Wave.putH_L (w : Wave) (n : Nat) (x : DWord) : (w.putH n x).L = w.L := rfl
@[simp] theorem Wave.putH_D (w : Wave) (n : Nat) (x : DWord) : (w.putH n x).D = w.D := rfl
@[simp] theorem Wave.putH_U (w : Wave) (n : Nat) (x : DWord) : (w.putH n x).U = w.U := rfl
@[simp] theorem Wave.putH_prio (w : Wave) (n : Nat) (x : DWord) : (w.putH n x).prio = w.prio := rfl
@[simp] theorem Wave.putH_heapDepth (w : Wave) (n : Nat) (x : DWord) : (w.putH n x).heapDepth = w.heapDepth := rfl
@[simp] theorem Wave.putH_slotA (w : Wave) (n : Nat) (x : DWord) : (w.putH n x).slotA = w.slotA := rfl
@[simp] theorem Wave.putH_slotB (w : Wave) (n : Nat) (x : DWord) : (w.putH n x).slotB = w.slotB := rfl
@[simp] theorem Wave.putH_heap (w : Wave) (n : Nat) (x : DWord) : (w.putH n x).heap = w.heap := rfl
@[simp] theorem Wave.putH_heapRes (w : Wave) (n : Nat) (x : DWord) : (w.putH n x).heapRes = w.heapRes := rfl
@[simp] theorem Wave.putH_issueA (w : Wave) (n : Nat) (x : DWord) : (w.putH n x).issueA = w.issueA := rfl
@[simp] theorem Wave.putH_issueB (w : Wave) (n : Nat) (x : DWord) : (w.putH n x).issueB = w.issueB := rfl
@[simp] theorem Wave.putH_vbase (w : Wave) (n : Nat) (x : DWord) : (w.putH n x).vbase = w.vbase := rfl
@[simp] theorem Wave.putH_v (w : Wave) (n : Nat) (x : DWord) : (w.putH n x).v = w.v := rfl
@[simp] theorem Wave.putH_s (w : Wave) (n : Nat) (x : DWord) : (w.putH n x).s = w.s := rfl
@[simp] theorem Wave.putH_p (w : Wave) (n : Nat) (x : DWord) : (w.putH n x).p = w.p := rfl
@[simp] theorem Wave.putH_i (w : Wave) (n : Nat) (x : DWord) : (w.putH n x).i = w.i := rfl
@[simp] theorem Wave.putH_flags (w : Wave) (n : Nat) (x : DWord) : (w.putH n x).flags = w.flags := rfl
@[simp] theorem Wave.putH_cause (w : Wave) (n : Nat) (x : DWord) : (w.putH n x).cause = w.cause := rfl
@[simp] theorem Wave.putH_epc (w : Wave) (n : Nat) (x : DWord) : (w.putH n x).epc = w.epc := rfl
@[simp] theorem Wave.putH_emask (w : Wave) (n : Nat) (x : DWord) : (w.putH n x).emask = w.emask := rfl
@[simp] theorem Wave.putH_einfo0 (w : Wave) (n : Nat) (x : DWord) : (w.putH n x).einfo0 = w.einfo0 := rfl
@[simp] theorem Wave.putH_einfo1 (w : Wave) (n : Nat) (x : DWord) : (w.putH n x).einfo1 = w.einfo1 := rfl
@[simp] theorem Wave.putH_einfo2 (w : Wave) (n : Nat) (x : DWord) : (w.putH n x).einfo2 = w.einfo2 := rfl
@[simp] theorem Wave.putH_dbg (w : Wave) (n : Nat) (x : DWord) : (w.putH n x).dbg = w.dbg := rfl
@[simp] theorem Wave.putH_hslot (w : Wave) (n : Nat) (x : DWord) : (w.putH n x).hslot = w.hslot := rfl
@[simp] theorem Wave.putH_clock (w : Wave) (n : Nat) (x : DWord) : (w.putH n x).clock = w.clock := rfl
@[simp] theorem Wave.putH_turn (w : Wave) (n : Nat) (x : DWord) : (w.putH n x).turn = w.turn := rfl
@[simp] theorem Wave.putH_buf (w : Wave) (n : Nat) (x : DWord) : (w.putH n x).buf = w.buf := rfl
@[simp] theorem Wave.putH_inv (w : Wave) (n : Nat) (x : DWord) : (w.putH n x).inv = w.inv := rfl
@[simp] theorem Wave.putH_region (w : Wave) (n : Nat) (x : DWord) : (w.putH n x).region = w.region := rfl
@[simp] theorem Wave.putH_ordSeq (w : Wave) (n : Nat) (x : DWord) : (w.putH n x).ordSeq = w.ordSeq := rfl
@[simp] theorem Wave.putH_score (w : Wave) (n : Nat) (x : DWord) : (w.putH n x).score = w.score := rfl
@[simp] theorem Wave.putH_vtags (w : Wave) (n : Nat) (x : DWord) : (w.putH n x).vtags = w.vtags := rfl
@[simp] theorem Wave.putH_stepping (w : Wave) (n : Nat) (x : DWord) : (w.putH n x).stepping = w.stepping := rfl
@[simp] theorem Wave.putH_arrayTrap (w : Wave) (n : Nat) (x : DWord) : (w.putH n x).arrayTrap = w.arrayTrap := rfl
@[simp] theorem Wave.putH_saved (w : Wave) (n : Nat) (x : DWord) : (w.putH n x).saved = w.saved := rfl
@[simp] theorem Wave.putH_ended (w : Wave) (n : Nat) (x : DWord) : (w.putH n x).ended = w.ended := rfl
@[simp] theorem Wave.putH_quant (w : Wave) (n : Nat) (x : DWord) : (w.putH n x).quant = w.quant := rfl
@[simp] theorem Wave.putH_raised (w : Wave) (n : Nat) (x : DWord) : (w.putH n x).raised = w.raised := rfl
@[simp] theorem Wave.putH_sick (w : Wave) (n : Nat) (x : DWord) : (w.putH n x).sick = w.sick := rfl
@[simp] theorem Wave.markEmpty_grow (w : Wave) (r : RegRef) : (w.markEmpty r).grow = w.grow := by cases r <;> rfl
@[simp] theorem Wave.markEmpty_blk (w : Wave) (r : RegRef) : (w.markEmpty r).blk = w.blk := by cases r <;> rfl
@[simp] theorem Wave.markEmpty_core (w : Wave) (r : RegRef) : (w.markEmpty r).core = w.core := by cases r <;> rfl
@[simp] theorem Wave.markEmpty_stage (w : Wave) (r : RegRef) : (w.markEmpty r).stage = w.stage := by cases r <;> rfl
@[simp] theorem Wave.markEmpty_swave (w : Wave) (r : RegRef) : (w.markEmpty r).swave = w.swave := by cases r <;> rfl
@[simp] theorem Wave.markEmpty_wno (w : Wave) (r : RegRef) : (w.markEmpty r).wno = w.wno := by cases r <;> rfl
@[simp] theorem Wave.markEmpty_L (w : Wave) (r : RegRef) : (w.markEmpty r).L = w.L := by cases r <;> rfl
@[simp] theorem Wave.markEmpty_D (w : Wave) (r : RegRef) : (w.markEmpty r).D = w.D := by cases r <;> rfl
@[simp] theorem Wave.markEmpty_U (w : Wave) (r : RegRef) : (w.markEmpty r).U = w.U := by cases r <;> rfl
@[simp] theorem Wave.markEmpty_prio (w : Wave) (r : RegRef) : (w.markEmpty r).prio = w.prio := by cases r <;> rfl
@[simp] theorem Wave.markEmpty_heapDepth (w : Wave) (r : RegRef) : (w.markEmpty r).heapDepth = w.heapDepth := by cases r <;> rfl
@[simp] theorem Wave.markEmpty_slotA (w : Wave) (r : RegRef) : (w.markEmpty r).slotA = w.slotA := by cases r <;> rfl
@[simp] theorem Wave.markEmpty_slotB (w : Wave) (r : RegRef) : (w.markEmpty r).slotB = w.slotB := by cases r <;> rfl
@[simp] theorem Wave.markEmpty_heap (w : Wave) (r : RegRef) : (w.markEmpty r).heap = w.heap := by cases r <;> rfl
@[simp] theorem Wave.markEmpty_heapRes (w : Wave) (r : RegRef) : (w.markEmpty r).heapRes = w.heapRes := by cases r <;> rfl
@[simp] theorem Wave.markEmpty_issueA (w : Wave) (r : RegRef) : (w.markEmpty r).issueA = w.issueA := by cases r <;> rfl
@[simp] theorem Wave.markEmpty_issueB (w : Wave) (r : RegRef) : (w.markEmpty r).issueB = w.issueB := by cases r <;> rfl
@[simp] theorem Wave.markEmpty_vbase (w : Wave) (r : RegRef) : (w.markEmpty r).vbase = w.vbase := by cases r <;> rfl
@[simp] theorem Wave.markEmpty_p (w : Wave) (r : RegRef) : (w.markEmpty r).p = w.p := by cases r <;> rfl
@[simp] theorem Wave.markEmpty_i (w : Wave) (r : RegRef) : (w.markEmpty r).i = w.i := by cases r <;> rfl
@[simp] theorem Wave.markEmpty_h (w : Wave) (r : RegRef) : (w.markEmpty r).h = w.h := by cases r <;> rfl
@[simp] theorem Wave.markEmpty_flags (w : Wave) (r : RegRef) : (w.markEmpty r).flags = w.flags := by cases r <;> rfl
@[simp] theorem Wave.markEmpty_cause (w : Wave) (r : RegRef) : (w.markEmpty r).cause = w.cause := by cases r <;> rfl
@[simp] theorem Wave.markEmpty_epc (w : Wave) (r : RegRef) : (w.markEmpty r).epc = w.epc := by cases r <;> rfl
@[simp] theorem Wave.markEmpty_emask (w : Wave) (r : RegRef) : (w.markEmpty r).emask = w.emask := by cases r <;> rfl
@[simp] theorem Wave.markEmpty_einfo0 (w : Wave) (r : RegRef) : (w.markEmpty r).einfo0 = w.einfo0 := by cases r <;> rfl
@[simp] theorem Wave.markEmpty_einfo1 (w : Wave) (r : RegRef) : (w.markEmpty r).einfo1 = w.einfo1 := by cases r <;> rfl
@[simp] theorem Wave.markEmpty_einfo2 (w : Wave) (r : RegRef) : (w.markEmpty r).einfo2 = w.einfo2 := by cases r <;> rfl
@[simp] theorem Wave.markEmpty_dbg (w : Wave) (r : RegRef) : (w.markEmpty r).dbg = w.dbg := by cases r <;> rfl
@[simp] theorem Wave.markEmpty_hslot (w : Wave) (r : RegRef) : (w.markEmpty r).hslot = w.hslot := by cases r <;> rfl
@[simp] theorem Wave.markEmpty_clock (w : Wave) (r : RegRef) : (w.markEmpty r).clock = w.clock := by cases r <;> rfl
@[simp] theorem Wave.markEmpty_turn (w : Wave) (r : RegRef) : (w.markEmpty r).turn = w.turn := by cases r <;> rfl
@[simp] theorem Wave.markEmpty_buf (w : Wave) (r : RegRef) : (w.markEmpty r).buf = w.buf := by cases r <;> rfl
@[simp] theorem Wave.markEmpty_inv (w : Wave) (r : RegRef) : (w.markEmpty r).inv = w.inv := by cases r <;> rfl
@[simp] theorem Wave.markEmpty_region (w : Wave) (r : RegRef) : (w.markEmpty r).region = w.region := by cases r <;> rfl
@[simp] theorem Wave.markEmpty_ordSeq (w : Wave) (r : RegRef) : (w.markEmpty r).ordSeq = w.ordSeq := by cases r <;> rfl
@[simp] theorem Wave.markEmpty_score (w : Wave) (r : RegRef) : (w.markEmpty r).score = w.score := by cases r <;> rfl
@[simp] theorem Wave.markEmpty_vtags (w : Wave) (r : RegRef) : (w.markEmpty r).vtags = w.vtags := by cases r <;> rfl
@[simp] theorem Wave.markEmpty_stepping (w : Wave) (r : RegRef) : (w.markEmpty r).stepping = w.stepping := by cases r <;> rfl
@[simp] theorem Wave.markEmpty_arrayTrap (w : Wave) (r : RegRef) : (w.markEmpty r).arrayTrap = w.arrayTrap := by cases r <;> rfl
@[simp] theorem Wave.markEmpty_saved (w : Wave) (r : RegRef) : (w.markEmpty r).saved = w.saved := by cases r <;> rfl
@[simp] theorem Wave.markEmpty_ended (w : Wave) (r : RegRef) : (w.markEmpty r).ended = w.ended := by cases r <;> rfl
@[simp] theorem Wave.markEmpty_quant (w : Wave) (r : RegRef) : (w.markEmpty r).quant = w.quant := by cases r <;> rfl
@[simp] theorem Wave.markEmpty_raised (w : Wave) (r : RegRef) : (w.markEmpty r).raised = w.raised := by cases r <;> rfl
@[simp] theorem Wave.markEmpty_soft (w : Wave) (r : RegRef) : (w.markEmpty r).soft = w.soft := by cases r <;> rfl
@[simp] theorem Wave.setPath_grow (w : Wave) (sl : Slot) (q : Option Path) : (w.setPath sl q).grow = w.grow := by cases sl <;> rfl
@[simp] theorem Wave.setPath_blk (w : Wave) (sl : Slot) (q : Option Path) : (w.setPath sl q).blk = w.blk := by cases sl <;> rfl
@[simp] theorem Wave.setPath_core (w : Wave) (sl : Slot) (q : Option Path) : (w.setPath sl q).core = w.core := by cases sl <;> rfl
@[simp] theorem Wave.setPath_stage (w : Wave) (sl : Slot) (q : Option Path) : (w.setPath sl q).stage = w.stage := by cases sl <;> rfl
@[simp] theorem Wave.setPath_swave (w : Wave) (sl : Slot) (q : Option Path) : (w.setPath sl q).swave = w.swave := by cases sl <;> rfl
@[simp] theorem Wave.setPath_wno (w : Wave) (sl : Slot) (q : Option Path) : (w.setPath sl q).wno = w.wno := by cases sl <;> rfl
@[simp] theorem Wave.setPath_L (w : Wave) (sl : Slot) (q : Option Path) : (w.setPath sl q).L = w.L := by cases sl <;> rfl
@[simp] theorem Wave.setPath_D (w : Wave) (sl : Slot) (q : Option Path) : (w.setPath sl q).D = w.D := by cases sl <;> rfl
@[simp] theorem Wave.setPath_U (w : Wave) (sl : Slot) (q : Option Path) : (w.setPath sl q).U = w.U := by cases sl <;> rfl
@[simp] theorem Wave.setPath_prio (w : Wave) (sl : Slot) (q : Option Path) : (w.setPath sl q).prio = w.prio := by cases sl <;> rfl
@[simp] theorem Wave.setPath_heapDepth (w : Wave) (sl : Slot) (q : Option Path) : (w.setPath sl q).heapDepth = w.heapDepth := by cases sl <;> rfl
@[simp] theorem Wave.setPath_heap (w : Wave) (sl : Slot) (q : Option Path) : (w.setPath sl q).heap = w.heap := by cases sl <;> rfl
@[simp] theorem Wave.setPath_heapRes (w : Wave) (sl : Slot) (q : Option Path) : (w.setPath sl q).heapRes = w.heapRes := by cases sl <;> rfl
@[simp] theorem Wave.setPath_issueA (w : Wave) (sl : Slot) (q : Option Path) : (w.setPath sl q).issueA = w.issueA := by cases sl <;> rfl
@[simp] theorem Wave.setPath_issueB (w : Wave) (sl : Slot) (q : Option Path) : (w.setPath sl q).issueB = w.issueB := by cases sl <;> rfl
@[simp] theorem Wave.setPath_vbase (w : Wave) (sl : Slot) (q : Option Path) : (w.setPath sl q).vbase = w.vbase := by cases sl <;> rfl
@[simp] theorem Wave.setPath_v (w : Wave) (sl : Slot) (q : Option Path) : (w.setPath sl q).v = w.v := by cases sl <;> rfl
@[simp] theorem Wave.setPath_s (w : Wave) (sl : Slot) (q : Option Path) : (w.setPath sl q).s = w.s := by cases sl <;> rfl
@[simp] theorem Wave.setPath_p (w : Wave) (sl : Slot) (q : Option Path) : (w.setPath sl q).p = w.p := by cases sl <;> rfl
@[simp] theorem Wave.setPath_i (w : Wave) (sl : Slot) (q : Option Path) : (w.setPath sl q).i = w.i := by cases sl <;> rfl
@[simp] theorem Wave.setPath_h (w : Wave) (sl : Slot) (q : Option Path) : (w.setPath sl q).h = w.h := by cases sl <;> rfl
@[simp] theorem Wave.setPath_flags (w : Wave) (sl : Slot) (q : Option Path) : (w.setPath sl q).flags = w.flags := by cases sl <;> rfl
@[simp] theorem Wave.setPath_cause (w : Wave) (sl : Slot) (q : Option Path) : (w.setPath sl q).cause = w.cause := by cases sl <;> rfl
@[simp] theorem Wave.setPath_epc (w : Wave) (sl : Slot) (q : Option Path) : (w.setPath sl q).epc = w.epc := by cases sl <;> rfl
@[simp] theorem Wave.setPath_emask (w : Wave) (sl : Slot) (q : Option Path) : (w.setPath sl q).emask = w.emask := by cases sl <;> rfl
@[simp] theorem Wave.setPath_einfo0 (w : Wave) (sl : Slot) (q : Option Path) : (w.setPath sl q).einfo0 = w.einfo0 := by cases sl <;> rfl
@[simp] theorem Wave.setPath_einfo1 (w : Wave) (sl : Slot) (q : Option Path) : (w.setPath sl q).einfo1 = w.einfo1 := by cases sl <;> rfl
@[simp] theorem Wave.setPath_einfo2 (w : Wave) (sl : Slot) (q : Option Path) : (w.setPath sl q).einfo2 = w.einfo2 := by cases sl <;> rfl
@[simp] theorem Wave.setPath_dbg (w : Wave) (sl : Slot) (q : Option Path) : (w.setPath sl q).dbg = w.dbg := by cases sl <;> rfl
@[simp] theorem Wave.setPath_hslot (w : Wave) (sl : Slot) (q : Option Path) : (w.setPath sl q).hslot = w.hslot := by cases sl <;> rfl
@[simp] theorem Wave.setPath_clock (w : Wave) (sl : Slot) (q : Option Path) : (w.setPath sl q).clock = w.clock := by cases sl <;> rfl
@[simp] theorem Wave.setPath_turn (w : Wave) (sl : Slot) (q : Option Path) : (w.setPath sl q).turn = w.turn := by cases sl <;> rfl
@[simp] theorem Wave.setPath_buf (w : Wave) (sl : Slot) (q : Option Path) : (w.setPath sl q).buf = w.buf := by cases sl <;> rfl
@[simp] theorem Wave.setPath_inv (w : Wave) (sl : Slot) (q : Option Path) : (w.setPath sl q).inv = w.inv := by cases sl <;> rfl
@[simp] theorem Wave.setPath_region (w : Wave) (sl : Slot) (q : Option Path) : (w.setPath sl q).region = w.region := by cases sl <;> rfl
@[simp] theorem Wave.setPath_ordSeq (w : Wave) (sl : Slot) (q : Option Path) : (w.setPath sl q).ordSeq = w.ordSeq := by cases sl <;> rfl
@[simp] theorem Wave.setPath_score (w : Wave) (sl : Slot) (q : Option Path) : (w.setPath sl q).score = w.score := by cases sl <;> rfl
@[simp] theorem Wave.setPath_vtags (w : Wave) (sl : Slot) (q : Option Path) : (w.setPath sl q).vtags = w.vtags := by cases sl <;> rfl
@[simp] theorem Wave.setPath_stepping (w : Wave) (sl : Slot) (q : Option Path) : (w.setPath sl q).stepping = w.stepping := by cases sl <;> rfl
@[simp] theorem Wave.setPath_arrayTrap (w : Wave) (sl : Slot) (q : Option Path) : (w.setPath sl q).arrayTrap = w.arrayTrap := by cases sl <;> rfl
@[simp] theorem Wave.setPath_saved (w : Wave) (sl : Slot) (q : Option Path) : (w.setPath sl q).saved = w.saved := by cases sl <;> rfl
@[simp] theorem Wave.setPath_ended (w : Wave) (sl : Slot) (q : Option Path) : (w.setPath sl q).ended = w.ended := by cases sl <;> rfl
@[simp] theorem Wave.setPath_quant (w : Wave) (sl : Slot) (q : Option Path) : (w.setPath sl q).quant = w.quant := by cases sl <;> rfl
@[simp] theorem Wave.setPath_raised (w : Wave) (sl : Slot) (q : Option Path) : (w.setPath sl q).raised = w.raised := by cases sl <;> rfl
@[simp] theorem Wave.setPath_sick (w : Wave) (sl : Slot) (q : Option Path) : (w.setPath sl q).sick = w.sick := by cases sl <;> rfl
@[simp] theorem Wave.setPath_soft (w : Wave) (sl : Slot) (q : Option Path) : (w.setPath sl q).soft = w.soft := by cases sl <;> rfl
@[simp] theorem Wave.setHeld_grow (w : Wave) (sl : Slot) (l : List HeldPage) : (w.setHeld sl l).grow = w.grow := by cases sl <;> rfl
@[simp] theorem Wave.setHeld_blk (w : Wave) (sl : Slot) (l : List HeldPage) : (w.setHeld sl l).blk = w.blk := by cases sl <;> rfl
@[simp] theorem Wave.setHeld_core (w : Wave) (sl : Slot) (l : List HeldPage) : (w.setHeld sl l).core = w.core := by cases sl <;> rfl
@[simp] theorem Wave.setHeld_stage (w : Wave) (sl : Slot) (l : List HeldPage) : (w.setHeld sl l).stage = w.stage := by cases sl <;> rfl
@[simp] theorem Wave.setHeld_swave (w : Wave) (sl : Slot) (l : List HeldPage) : (w.setHeld sl l).swave = w.swave := by cases sl <;> rfl
@[simp] theorem Wave.setHeld_wno (w : Wave) (sl : Slot) (l : List HeldPage) : (w.setHeld sl l).wno = w.wno := by cases sl <;> rfl
@[simp] theorem Wave.setHeld_L (w : Wave) (sl : Slot) (l : List HeldPage) : (w.setHeld sl l).L = w.L := by cases sl <;> rfl
@[simp] theorem Wave.setHeld_D (w : Wave) (sl : Slot) (l : List HeldPage) : (w.setHeld sl l).D = w.D := by cases sl <;> rfl
@[simp] theorem Wave.setHeld_U (w : Wave) (sl : Slot) (l : List HeldPage) : (w.setHeld sl l).U = w.U := by cases sl <;> rfl
@[simp] theorem Wave.setHeld_prio (w : Wave) (sl : Slot) (l : List HeldPage) : (w.setHeld sl l).prio = w.prio := by cases sl <;> rfl
@[simp] theorem Wave.setHeld_heapDepth (w : Wave) (sl : Slot) (l : List HeldPage) : (w.setHeld sl l).heapDepth = w.heapDepth := by cases sl <;> rfl
@[simp] theorem Wave.setHeld_heap (w : Wave) (sl : Slot) (l : List HeldPage) : (w.setHeld sl l).heap = w.heap := by cases sl <;> rfl
@[simp] theorem Wave.setHeld_heapRes (w : Wave) (sl : Slot) (l : List HeldPage) : (w.setHeld sl l).heapRes = w.heapRes := by cases sl <;> rfl
@[simp] theorem Wave.setHeld_issueA (w : Wave) (sl : Slot) (l : List HeldPage) : (w.setHeld sl l).issueA = w.issueA := by cases sl <;> rfl
@[simp] theorem Wave.setHeld_issueB (w : Wave) (sl : Slot) (l : List HeldPage) : (w.setHeld sl l).issueB = w.issueB := by cases sl <;> rfl
@[simp] theorem Wave.setHeld_vbase (w : Wave) (sl : Slot) (l : List HeldPage) : (w.setHeld sl l).vbase = w.vbase := by cases sl <;> rfl
@[simp] theorem Wave.setHeld_v (w : Wave) (sl : Slot) (l : List HeldPage) : (w.setHeld sl l).v = w.v := by cases sl <;> rfl
@[simp] theorem Wave.setHeld_s (w : Wave) (sl : Slot) (l : List HeldPage) : (w.setHeld sl l).s = w.s := by cases sl <;> rfl
@[simp] theorem Wave.setHeld_p (w : Wave) (sl : Slot) (l : List HeldPage) : (w.setHeld sl l).p = w.p := by cases sl <;> rfl
@[simp] theorem Wave.setHeld_i (w : Wave) (sl : Slot) (l : List HeldPage) : (w.setHeld sl l).i = w.i := by cases sl <;> rfl
@[simp] theorem Wave.setHeld_h (w : Wave) (sl : Slot) (l : List HeldPage) : (w.setHeld sl l).h = w.h := by cases sl <;> rfl
@[simp] theorem Wave.setHeld_flags (w : Wave) (sl : Slot) (l : List HeldPage) : (w.setHeld sl l).flags = w.flags := by cases sl <;> rfl
@[simp] theorem Wave.setHeld_cause (w : Wave) (sl : Slot) (l : List HeldPage) : (w.setHeld sl l).cause = w.cause := by cases sl <;> rfl
@[simp] theorem Wave.setHeld_epc (w : Wave) (sl : Slot) (l : List HeldPage) : (w.setHeld sl l).epc = w.epc := by cases sl <;> rfl
@[simp] theorem Wave.setHeld_emask (w : Wave) (sl : Slot) (l : List HeldPage) : (w.setHeld sl l).emask = w.emask := by cases sl <;> rfl
@[simp] theorem Wave.setHeld_einfo0 (w : Wave) (sl : Slot) (l : List HeldPage) : (w.setHeld sl l).einfo0 = w.einfo0 := by cases sl <;> rfl
@[simp] theorem Wave.setHeld_einfo1 (w : Wave) (sl : Slot) (l : List HeldPage) : (w.setHeld sl l).einfo1 = w.einfo1 := by cases sl <;> rfl
@[simp] theorem Wave.setHeld_einfo2 (w : Wave) (sl : Slot) (l : List HeldPage) : (w.setHeld sl l).einfo2 = w.einfo2 := by cases sl <;> rfl
@[simp] theorem Wave.setHeld_dbg (w : Wave) (sl : Slot) (l : List HeldPage) : (w.setHeld sl l).dbg = w.dbg := by cases sl <;> rfl
@[simp] theorem Wave.setHeld_hslot (w : Wave) (sl : Slot) (l : List HeldPage) : (w.setHeld sl l).hslot = w.hslot := by cases sl <;> rfl
@[simp] theorem Wave.setHeld_clock (w : Wave) (sl : Slot) (l : List HeldPage) : (w.setHeld sl l).clock = w.clock := by cases sl <;> rfl
@[simp] theorem Wave.setHeld_turn (w : Wave) (sl : Slot) (l : List HeldPage) : (w.setHeld sl l).turn = w.turn := by cases sl <;> rfl
@[simp] theorem Wave.setHeld_buf (w : Wave) (sl : Slot) (l : List HeldPage) : (w.setHeld sl l).buf = w.buf := by cases sl <;> rfl
@[simp] theorem Wave.setHeld_inv (w : Wave) (sl : Slot) (l : List HeldPage) : (w.setHeld sl l).inv = w.inv := by cases sl <;> rfl
@[simp] theorem Wave.setHeld_region (w : Wave) (sl : Slot) (l : List HeldPage) : (w.setHeld sl l).region = w.region := by cases sl <;> rfl
@[simp] theorem Wave.setHeld_ordSeq (w : Wave) (sl : Slot) (l : List HeldPage) : (w.setHeld sl l).ordSeq = w.ordSeq := by cases sl <;> rfl
@[simp] theorem Wave.setHeld_score (w : Wave) (sl : Slot) (l : List HeldPage) : (w.setHeld sl l).score = w.score := by cases sl <;> rfl
@[simp] theorem Wave.setHeld_vtags (w : Wave) (sl : Slot) (l : List HeldPage) : (w.setHeld sl l).vtags = w.vtags := by cases sl <;> rfl
@[simp] theorem Wave.setHeld_stepping (w : Wave) (sl : Slot) (l : List HeldPage) : (w.setHeld sl l).stepping = w.stepping := by cases sl <;> rfl
@[simp] theorem Wave.setHeld_arrayTrap (w : Wave) (sl : Slot) (l : List HeldPage) : (w.setHeld sl l).arrayTrap = w.arrayTrap := by cases sl <;> rfl
@[simp] theorem Wave.setHeld_saved (w : Wave) (sl : Slot) (l : List HeldPage) : (w.setHeld sl l).saved = w.saved := by cases sl <;> rfl
@[simp] theorem Wave.setHeld_ended (w : Wave) (sl : Slot) (l : List HeldPage) : (w.setHeld sl l).ended = w.ended := by cases sl <;> rfl
@[simp] theorem Wave.setHeld_quant (w : Wave) (sl : Slot) (l : List HeldPage) : (w.setHeld sl l).quant = w.quant := by cases sl <;> rfl
@[simp] theorem Wave.setHeld_raised (w : Wave) (sl : Slot) (l : List HeldPage) : (w.setHeld sl l).raised = w.raised := by cases sl <;> rfl
@[simp] theorem Wave.setHeld_sick (w : Wave) (sl : Slot) (l : List HeldPage) : (w.setHeld sl l).sick = w.sick := by cases sl <;> rfl
@[simp] theorem Wave.setHeld_soft (w : Wave) (sl : Slot) (l : List HeldPage) : (w.setHeld sl l).soft = w.soft := by cases sl <;> rfl
@[simp] theorem Wave.setIssue_grow (w : Wave) (sl : Slot) (i : SlotIssue) : (w.setIssue sl i).grow = w.grow := by cases sl <;> rfl
@[simp] theorem Wave.setIssue_blk (w : Wave) (sl : Slot) (i : SlotIssue) : (w.setIssue sl i).blk = w.blk := by cases sl <;> rfl
@[simp] theorem Wave.setIssue_core (w : Wave) (sl : Slot) (i : SlotIssue) : (w.setIssue sl i).core = w.core := by cases sl <;> rfl
@[simp] theorem Wave.setIssue_stage (w : Wave) (sl : Slot) (i : SlotIssue) : (w.setIssue sl i).stage = w.stage := by cases sl <;> rfl
@[simp] theorem Wave.setIssue_swave (w : Wave) (sl : Slot) (i : SlotIssue) : (w.setIssue sl i).swave = w.swave := by cases sl <;> rfl
@[simp] theorem Wave.setIssue_wno (w : Wave) (sl : Slot) (i : SlotIssue) : (w.setIssue sl i).wno = w.wno := by cases sl <;> rfl
@[simp] theorem Wave.setIssue_L (w : Wave) (sl : Slot) (i : SlotIssue) : (w.setIssue sl i).L = w.L := by cases sl <;> rfl
@[simp] theorem Wave.setIssue_D (w : Wave) (sl : Slot) (i : SlotIssue) : (w.setIssue sl i).D = w.D := by cases sl <;> rfl
@[simp] theorem Wave.setIssue_U (w : Wave) (sl : Slot) (i : SlotIssue) : (w.setIssue sl i).U = w.U := by cases sl <;> rfl
@[simp] theorem Wave.setIssue_prio (w : Wave) (sl : Slot) (i : SlotIssue) : (w.setIssue sl i).prio = w.prio := by cases sl <;> rfl
@[simp] theorem Wave.setIssue_heapDepth (w : Wave) (sl : Slot) (i : SlotIssue) : (w.setIssue sl i).heapDepth = w.heapDepth := by cases sl <;> rfl
@[simp] theorem Wave.setIssue_slotA (w : Wave) (sl : Slot) (i : SlotIssue) : (w.setIssue sl i).slotA = w.slotA := by cases sl <;> rfl
@[simp] theorem Wave.setIssue_slotB (w : Wave) (sl : Slot) (i : SlotIssue) : (w.setIssue sl i).slotB = w.slotB := by cases sl <;> rfl
@[simp] theorem Wave.setIssue_heap (w : Wave) (sl : Slot) (i : SlotIssue) : (w.setIssue sl i).heap = w.heap := by cases sl <;> rfl
@[simp] theorem Wave.setIssue_heapRes (w : Wave) (sl : Slot) (i : SlotIssue) : (w.setIssue sl i).heapRes = w.heapRes := by cases sl <;> rfl
@[simp] theorem Wave.setIssue_vbase (w : Wave) (sl : Slot) (i : SlotIssue) : (w.setIssue sl i).vbase = w.vbase := by cases sl <;> rfl
@[simp] theorem Wave.setIssue_v (w : Wave) (sl : Slot) (i : SlotIssue) : (w.setIssue sl i).v = w.v := by cases sl <;> rfl
@[simp] theorem Wave.setIssue_s (w : Wave) (sl : Slot) (i : SlotIssue) : (w.setIssue sl i).s = w.s := by cases sl <;> rfl
@[simp] theorem Wave.setIssue_p (w : Wave) (sl : Slot) (i : SlotIssue) : (w.setIssue sl i).p = w.p := by cases sl <;> rfl
@[simp] theorem Wave.setIssue_i (w : Wave) (sl : Slot) (i : SlotIssue) : (w.setIssue sl i).i = w.i := by cases sl <;> rfl
@[simp] theorem Wave.setIssue_h (w : Wave) (sl : Slot) (i : SlotIssue) : (w.setIssue sl i).h = w.h := by cases sl <;> rfl
@[simp] theorem Wave.setIssue_flags (w : Wave) (sl : Slot) (i : SlotIssue) : (w.setIssue sl i).flags = w.flags := by cases sl <;> rfl
@[simp] theorem Wave.setIssue_cause (w : Wave) (sl : Slot) (i : SlotIssue) : (w.setIssue sl i).cause = w.cause := by cases sl <;> rfl
@[simp] theorem Wave.setIssue_epc (w : Wave) (sl : Slot) (i : SlotIssue) : (w.setIssue sl i).epc = w.epc := by cases sl <;> rfl
@[simp] theorem Wave.setIssue_emask (w : Wave) (sl : Slot) (i : SlotIssue) : (w.setIssue sl i).emask = w.emask := by cases sl <;> rfl
@[simp] theorem Wave.setIssue_einfo0 (w : Wave) (sl : Slot) (i : SlotIssue) : (w.setIssue sl i).einfo0 = w.einfo0 := by cases sl <;> rfl
@[simp] theorem Wave.setIssue_einfo1 (w : Wave) (sl : Slot) (i : SlotIssue) : (w.setIssue sl i).einfo1 = w.einfo1 := by cases sl <;> rfl
@[simp] theorem Wave.setIssue_einfo2 (w : Wave) (sl : Slot) (i : SlotIssue) : (w.setIssue sl i).einfo2 = w.einfo2 := by cases sl <;> rfl
@[simp] theorem Wave.setIssue_dbg (w : Wave) (sl : Slot) (i : SlotIssue) : (w.setIssue sl i).dbg = w.dbg := by cases sl <;> rfl
@[simp] theorem Wave.setIssue_hslot (w : Wave) (sl : Slot) (i : SlotIssue) : (w.setIssue sl i).hslot = w.hslot := by cases sl <;> rfl
@[simp] theorem Wave.setIssue_clock (w : Wave) (sl : Slot) (i : SlotIssue) : (w.setIssue sl i).clock = w.clock := by cases sl <;> rfl
@[simp] theorem Wave.setIssue_turn (w : Wave) (sl : Slot) (i : SlotIssue) : (w.setIssue sl i).turn = w.turn := by cases sl <;> rfl
@[simp] theorem Wave.setIssue_buf (w : Wave) (sl : Slot) (i : SlotIssue) : (w.setIssue sl i).buf = w.buf := by cases sl <;> rfl
@[simp] theorem Wave.setIssue_inv (w : Wave) (sl : Slot) (i : SlotIssue) : (w.setIssue sl i).inv = w.inv := by cases sl <;> rfl
@[simp] theorem Wave.setIssue_region (w : Wave) (sl : Slot) (i : SlotIssue) : (w.setIssue sl i).region = w.region := by cases sl <;> rfl
@[simp] theorem Wave.setIssue_ordSeq (w : Wave) (sl : Slot) (i : SlotIssue) : (w.setIssue sl i).ordSeq = w.ordSeq := by cases sl <;> rfl
@[simp] theorem Wave.setIssue_score (w : Wave) (sl : Slot) (i : SlotIssue) : (w.setIssue sl i).score = w.score := by cases sl <;> rfl
@[simp] theorem Wave.setIssue_vtags (w : Wave) (sl : Slot) (i : SlotIssue) : (w.setIssue sl i).vtags = w.vtags := by cases sl <;> rfl
@[simp] theorem Wave.setIssue_stepping (w : Wave) (sl : Slot) (i : SlotIssue) : (w.setIssue sl i).stepping = w.stepping := by cases sl <;> rfl
@[simp] theorem Wave.setIssue_arrayTrap (w : Wave) (sl : Slot) (i : SlotIssue) : (w.setIssue sl i).arrayTrap = w.arrayTrap := by cases sl <;> rfl
@[simp] theorem Wave.setIssue_saved (w : Wave) (sl : Slot) (i : SlotIssue) : (w.setIssue sl i).saved = w.saved := by cases sl <;> rfl
@[simp] theorem Wave.setIssue_ended (w : Wave) (sl : Slot) (i : SlotIssue) : (w.setIssue sl i).ended = w.ended := by cases sl <;> rfl
@[simp] theorem Wave.setIssue_quant (w : Wave) (sl : Slot) (i : SlotIssue) : (w.setIssue sl i).quant = w.quant := by cases sl <;> rfl
@[simp] theorem Wave.setIssue_raised (w : Wave) (sl : Slot) (i : SlotIssue) : (w.setIssue sl i).raised = w.raised := by cases sl <;> rfl
@[simp] theorem Wave.setIssue_sick (w : Wave) (sl : Slot) (i : SlotIssue) : (w.setIssue sl i).sick = w.sick := by cases sl <;> rfl
@[simp] theorem Wave.setIssue_soft (w : Wave) (sl : Slot) (i : SlotIssue) : (w.setIssue sl i).soft = w.soft := by cases sl <;> rfl
@[simp] theorem Wave.count_grow (w : Wave) (sl : Slot) (fg : Bool) : (w.count sl fg).grow = w.grow := by cases sl <;> rfl
@[simp] theorem Wave.count_blk (w : Wave) (sl : Slot) (fg : Bool) : (w.count sl fg).blk = w.blk := by cases sl <;> rfl
@[simp] theorem Wave.count_core (w : Wave) (sl : Slot) (fg : Bool) : (w.count sl fg).core = w.core := by cases sl <;> rfl
@[simp] theorem Wave.count_stage (w : Wave) (sl : Slot) (fg : Bool) : (w.count sl fg).stage = w.stage := by cases sl <;> rfl
@[simp] theorem Wave.count_swave (w : Wave) (sl : Slot) (fg : Bool) : (w.count sl fg).swave = w.swave := by cases sl <;> rfl
@[simp] theorem Wave.count_wno (w : Wave) (sl : Slot) (fg : Bool) : (w.count sl fg).wno = w.wno := by cases sl <;> rfl
@[simp] theorem Wave.count_L (w : Wave) (sl : Slot) (fg : Bool) : (w.count sl fg).L = w.L := by cases sl <;> rfl
@[simp] theorem Wave.count_D (w : Wave) (sl : Slot) (fg : Bool) : (w.count sl fg).D = w.D := by cases sl <;> rfl
@[simp] theorem Wave.count_U (w : Wave) (sl : Slot) (fg : Bool) : (w.count sl fg).U = w.U := by cases sl <;> rfl
@[simp] theorem Wave.count_prio (w : Wave) (sl : Slot) (fg : Bool) : (w.count sl fg).prio = w.prio := by cases sl <;> rfl
@[simp] theorem Wave.count_heapDepth (w : Wave) (sl : Slot) (fg : Bool) : (w.count sl fg).heapDepth = w.heapDepth := by cases sl <;> rfl
@[simp] theorem Wave.count_slotA (w : Wave) (sl : Slot) (fg : Bool) : (w.count sl fg).slotA = w.slotA := by cases sl <;> rfl
@[simp] theorem Wave.count_slotB (w : Wave) (sl : Slot) (fg : Bool) : (w.count sl fg).slotB = w.slotB := by cases sl <;> rfl
@[simp] theorem Wave.count_heap (w : Wave) (sl : Slot) (fg : Bool) : (w.count sl fg).heap = w.heap := by cases sl <;> rfl
@[simp] theorem Wave.count_heapRes (w : Wave) (sl : Slot) (fg : Bool) : (w.count sl fg).heapRes = w.heapRes := by cases sl <;> rfl
@[simp] theorem Wave.count_vbase (w : Wave) (sl : Slot) (fg : Bool) : (w.count sl fg).vbase = w.vbase := by cases sl <;> rfl
@[simp] theorem Wave.count_v (w : Wave) (sl : Slot) (fg : Bool) : (w.count sl fg).v = w.v := by cases sl <;> rfl
@[simp] theorem Wave.count_s (w : Wave) (sl : Slot) (fg : Bool) : (w.count sl fg).s = w.s := by cases sl <;> rfl
@[simp] theorem Wave.count_p (w : Wave) (sl : Slot) (fg : Bool) : (w.count sl fg).p = w.p := by cases sl <;> rfl
@[simp] theorem Wave.count_i (w : Wave) (sl : Slot) (fg : Bool) : (w.count sl fg).i = w.i := by cases sl <;> rfl
@[simp] theorem Wave.count_h (w : Wave) (sl : Slot) (fg : Bool) : (w.count sl fg).h = w.h := by cases sl <;> rfl
@[simp] theorem Wave.count_flags (w : Wave) (sl : Slot) (fg : Bool) : (w.count sl fg).flags = w.flags := by cases sl <;> rfl
@[simp] theorem Wave.count_cause (w : Wave) (sl : Slot) (fg : Bool) : (w.count sl fg).cause = w.cause := by cases sl <;> rfl
@[simp] theorem Wave.count_epc (w : Wave) (sl : Slot) (fg : Bool) : (w.count sl fg).epc = w.epc := by cases sl <;> rfl
@[simp] theorem Wave.count_emask (w : Wave) (sl : Slot) (fg : Bool) : (w.count sl fg).emask = w.emask := by cases sl <;> rfl
@[simp] theorem Wave.count_einfo0 (w : Wave) (sl : Slot) (fg : Bool) : (w.count sl fg).einfo0 = w.einfo0 := by cases sl <;> rfl
@[simp] theorem Wave.count_einfo1 (w : Wave) (sl : Slot) (fg : Bool) : (w.count sl fg).einfo1 = w.einfo1 := by cases sl <;> rfl
@[simp] theorem Wave.count_einfo2 (w : Wave) (sl : Slot) (fg : Bool) : (w.count sl fg).einfo2 = w.einfo2 := by cases sl <;> rfl
@[simp] theorem Wave.count_dbg (w : Wave) (sl : Slot) (fg : Bool) : (w.count sl fg).dbg = w.dbg := by cases sl <;> rfl
@[simp] theorem Wave.count_hslot (w : Wave) (sl : Slot) (fg : Bool) : (w.count sl fg).hslot = w.hslot := by cases sl <;> rfl
@[simp] theorem Wave.count_buf (w : Wave) (sl : Slot) (fg : Bool) : (w.count sl fg).buf = w.buf := by cases sl <;> rfl
@[simp] theorem Wave.count_inv (w : Wave) (sl : Slot) (fg : Bool) : (w.count sl fg).inv = w.inv := by cases sl <;> rfl
@[simp] theorem Wave.count_region (w : Wave) (sl : Slot) (fg : Bool) : (w.count sl fg).region = w.region := by cases sl <;> rfl
@[simp] theorem Wave.count_ordSeq (w : Wave) (sl : Slot) (fg : Bool) : (w.count sl fg).ordSeq = w.ordSeq := by cases sl <;> rfl
@[simp] theorem Wave.count_score (w : Wave) (sl : Slot) (fg : Bool) : (w.count sl fg).score = w.score := by cases sl <;> rfl
@[simp] theorem Wave.count_vtags (w : Wave) (sl : Slot) (fg : Bool) : (w.count sl fg).vtags = w.vtags := by cases sl <;> rfl
@[simp] theorem Wave.count_arrayTrap (w : Wave) (sl : Slot) (fg : Bool) : (w.count sl fg).arrayTrap = w.arrayTrap := by cases sl <;> rfl
@[simp] theorem Wave.count_saved (w : Wave) (sl : Slot) (fg : Bool) : (w.count sl fg).saved = w.saved := by cases sl <;> rfl
@[simp] theorem Wave.count_ended (w : Wave) (sl : Slot) (fg : Bool) : (w.count sl fg).ended = w.ended := by cases sl <;> rfl
@[simp] theorem Wave.count_quant (w : Wave) (sl : Slot) (fg : Bool) : (w.count sl fg).quant = w.quant := by cases sl <;> rfl
@[simp] theorem Wave.count_raised (w : Wave) (sl : Slot) (fg : Bool) : (w.count sl fg).raised = w.raised := by cases sl <;> rfl
@[simp] theorem Wave.count_sick (w : Wave) (sl : Slot) (fg : Bool) : (w.count sl fg).sick = w.sick := by cases sl <;> rfl
@[simp] theorem Wave.count_soft (w : Wave) (sl : Slot) (fg : Bool) : (w.count sl fg).soft = w.soft := by cases sl <;> rfl

@[simp] theorem Wave.setPath_path_self (w : Wave) (sl : Slot) (q : Option Path) : (w.setPath sl q).path? sl = q := by cases sl <;> rfl

@[simp] theorem Wave.setPath_path_other (w : Wave) (sl : Slot) (q : Option Path) : (w.setPath sl q).path? sl.other = w.path? sl.other := by
  cases sl <;> rfl

@[simp] theorem Wave.count_path (w : Wave) (sl t : Slot) (fg : Bool) : (w.count sl fg).path? t = w.path? t := by
  cases sl <;> cases t <;> rfl

@[simp] theorem Wave.setIssue_path (w : Wave) (sl t : Slot) (i : SlotIssue) : (w.setIssue sl i).path? t = w.path? t := by
  cases sl <;> cases t <;> rfl

@[simp] theorem Wave.mendSoft_path (w : Wave) (r : SoftReg) (m : Word) (t : Slot) : (w.mendSoft r m).path? t = w.path? t := by cases t <;> simp [Wave.path?]
@[simp] theorem Wave.putV_path (w : Wave) (x : Nat) (m : Word) (f : Nat → Word) (t : Slot) : (w.putV x m f).path? t = w.path? t := by cases t <;> simp [Wave.path?]
@[simp] theorem Wave.putS_path (w : Wave) (n : Nat) (x : Word) (t : Slot) : (w.putS n x).path? t = w.path? t := by cases t <;> simp [Wave.path?]
@[simp] theorem Wave.putP_path (w : Wave) (n : Nat) (m : Word) (f : Nat → Bool) (t : Slot) : (w.putP n m f).path? t = w.path? t := by cases t <;> simp [Wave.path?]
@[simp] theorem Wave.putI_path (w : Wave) (n : Nat) (m : Word) (f : Nat → Word) (t : Slot) : (w.putI n m f).path? t = w.path? t := by cases t <;> simp [Wave.path?]
@[simp] theorem Wave.putH_path (w : Wave) (n : Nat) (x : DWord) (t : Slot) : (w.putH n x).path? t = w.path? t := by cases t <;> simp [Wave.path?]
@[simp] theorem Wave.markEmpty_path (w : Wave) (r : RegRef) (t : Slot) : (w.markEmpty r).path? t = w.path? t := by cases t <;> simp [Wave.path?]

end Sys2Proof.Machine
end

