-- ==== Sys2Proof/Laws/Issue.lean ====
section
/-! SUPPORT. What the issue of an operation comes to, said once: `issue_onWave` for an operation whose whole effect is on its wave. -/

namespace Sys2Proof.Machine

open Sys2Proof

theorem tset_tset {α : Type} (t : Tbl α) (k : Nat) (u v : α) : tset (tset t k u) k v = tset t k v := by
  induction t with
  | nil => simp [tset]
  | cons e r ih =>
    obtain ⟨j, x⟩ := e
    by_cases h1 : j < k
    · simp [tset, h1, ih]
    · by_cases h2 : j = k
      · subst h2; simp [tset]
      · simp [tset, h1, h2]

/-- A table in which the entry at `k` is listed is what it is after listing it again. -/
theorem tmod_eq_tset {α : Type} {t : Tbl α} {k : Nat} {v : α} (h : tfind t k = some v) (f : α → α) : tmod t k f = tset t k (f v) := by
  simp [tmod, h]

theorem State.setChip_setChip (s : State) (p : Nat) (c d : Chip) : (s.setChip p c).setChip p d = s.setChip p d := by
  simp [State.setChip, tset_tset]

theorem Chip.modWave_setWave (c : Chip) (i : Nat) (w : Wave) (f : Wave → Wave) : (c.setWave i w).modWave i f = c.setWave i (f w) := by
  simp [Chip.modWave, Chip.setWave, tmod, tset_tset]

theorem Chip.setWave_setWave (c : Chip) (i : Nat) (w w' : Wave) : (c.setWave i w).setWave i w' = c.setWave i w' := by
  simp [Chip.setWave, tset_tset]

theorem Chip.modWave_modWave (c : Chip) (i : Nat) (f g : Wave → Wave) : (c.modWave i f).modWave i g = c.modWave i (fun w => g (f w)) := by
  unfold Chip.modWave
  cases h : tfind c.waves i with
  | none => simp [tmod, h]
  | some w => simp [tmod, h, tset_tset]

/-- A wave that is listed, changed, is the wave listed anew. -/
theorem Chip.modWave_some {c : Chip} {i : Nat} {w : Wave} (h : tfind c.waves i = some w) (f : Wave → Wave) :
    c.modWave i f = c.setWave i (f w) := by
  simp [Chip.modWave, Chip.setWave, tmod, h]

/-! ## Waves that differ in registers alone -/

/-- A look at the TLBs changes the cores of its package only. -/
theorem Chip.tlbTouch_cores (c : Chip) (core asid off : Nat) (k : AccessKind) : ∃ l, c.tlbTouch core asid off k = { c with cores := l } := by
  unfold Chip.tlbTouch
  split
  · exact ⟨_, rfl⟩
  · dsimp only
    split
    · exact ⟨_, rfl⟩
    · exact ⟨_, rfl⟩

theorem Iss.touchTlb_cores (x : Iss) (s : State) (k : AccessKind) (l : List (Nat × Nat)) :
    ∃ cs, x.touchTlb s k l = s.modChip x.p (fun c => { c with cores := cs }) := by
  have h : ∀ (l : List (Nat × Nat)) (c : Chip), ∃ cs,
      l.foldl (fun c e => c.tlbTouch x.w.core (c.asidOf x.w.grow) (e.2 % 2 ^ 48) k) c = { c with cores := cs } := by
    intro l
    induction l with
    | nil => intro c; exact ⟨_, rfl⟩
    | cons e l ih =>
      intro c
      obtain ⟨a, ha⟩ := c.tlbTouch_cores x.w.core (c.asidOf x.w.grow) (e.2 % 2 ^ 48) k
      obtain ⟨b, hb⟩ := ih { c with cores := a }
      exact ⟨b, by rw [List.foldl_cons, ha, hb]⟩
  obtain ⟨cs, hcs⟩ := h l (s.chip x.p)
  exact ⟨cs, congrArg (s.setChip x.p) hcs⟩

theorem Wave.RegOnly.refl (w : Wave) : w.RegOnly w := rfl

theorem Wave.RegOnly.trans {a b c : Wave} (h : a.RegOnly b) (k : b.RegOnly c) : a.RegOnly c := by
  unfold Wave.RegOnly at *
  rw [k, h]

theorem Wave.RegOnly.putV (w : Wave) (x : Nat) (m : Word) (f : Nat → Word) : w.RegOnly (w.putV x m f) := rfl
theorem Wave.RegOnly.putS (w : Wave) (n : Nat) (v : Word) : w.RegOnly (w.putS n v) := rfl
theorem Wave.RegOnly.putP (w : Wave) (n : Nat) (m : Word) (f : Nat → Bool) : w.RegOnly (w.putP n m f) := by
  unfold Wave.putP; split <;> rfl
theorem Wave.RegOnly.putI (w : Wave) (n : Nat) (m : Word) (f : Nat → Word) : w.RegOnly (w.putI n m f) := rfl
theorem Wave.RegOnly.putH (w : Wave) (n : Nat) (v : DWord) : w.RegOnly (w.putH n v) := rfl

theorem Wave.RegOnly.foldl {β : Type} (l : List β) (f : Wave → β → Wave) (hf : ∀ (w : Wave) (b : β), Wave.RegOnly w (f w b)) (w : Wave) :
    Wave.RegOnly w (l.foldl f w) := by
  induction l generalizing w with
  | nil => exact .refl w
  | cons b r ih => exact (hf w b).trans (ih (f w b))

theorem Wave.RegOnly.putIndexed (w : Wave) (wb : Nat) (num : Nat → Nat) (j : Nat) (m : Word) (f : Nat → Word) :
    Wave.RegOnly w (Machine.putIndexed w wb num j m f) :=
  Wave.RegOnly.foldl _ _ (fun (w : Wave) _ => Wave.RegOnly.putV w _ _ _) w

/-- Writing the destination changes registers alone, whatever its form. -/
theorem Iss.put_regOnly (x : Iss) (n : Nat) (f : Nat → Nat → Word) (w : Wave) : w.RegOnly (x.put n f w) := by
  unfold Iss.put
  split
  · exact Wave.RegOnly.foldl _ _ (fun (w : Wave) _ => Wave.RegOnly.putV w _ _ _) w
  · split
    · exact Wave.RegOnly.foldl _ _ (fun (w : Wave) _ => Wave.RegOnly.putS w _ _) w
    · exact .refl w
  · exact Wave.RegOnly.foldl _ _ (fun (w : Wave) _ => Wave.RegOnly.putIndexed w _ _ _ _ _) w
  · exact Wave.RegOnly.putP w _ _ _
  · exact Wave.RegOnly.putI w _ _ _
  · split
    · exact Wave.RegOnly.putH w _ _
    · exact .refl w
  · exact .refl w

theorem Iss.putPred_regOnly (x : Iss) (f : Nat → Bool) (w : Wave) : w.RegOnly (x.putPred f w) := by
  unfold Iss.putPred
  split
  · exact Wave.RegOnly.putP w _ _ _
  · exact .refl w

/-! ## The context of an operation -/

/-- What the context of an operation is: the wave and path at the cursor. -/
theorem issOf_some {f : Form} {o : Ops} {s : State} {x : Iss} (h : issOf f o s = some x) :
    x.p = s.cur.pkg ∧ x.wid = s.cur.wid ∧ x.sl = s.cur.slot ∧ x.half = s.cur.half ∧ x.tick = s.tick ∧ x.c = s.chip x.p ∧
    tfind (s.chip x.p).waves x.wid = some x.w ∧ x.w.path? x.sl = some x.q ∧ x.r = s.pairSrc.getD x.w ∧ x.o = o ∧ x.f = f := by
  unfold issOf at h
  dsimp only at h
  cases hw : tfind (s.chip s.cur.pkg).waves s.cur.wid with
  | none => rw [hw] at h; cases h
  | some w =>
    rw [hw] at h
    dsimp only at h
    cases hq : w.path? s.cur.slot with
    | none => rw [hq] at h; cases h
    | some q =>
      rw [hq] at h
      injection h with h
      subst h
      exact ⟨rfl, rfl, rfl, rfl, rfl, rfl, hw, hq, rfl, rfl, rfl⟩

/-- A writer's life does not depend on a wave but for its end. -/
theorem Chip.writerLives_setWave {c : Chip} {i : Nat} {v w : Wave} (h : tfind c.waves i = some v) (he : w.ended = v.ended) :
    (c.setWave i w).writerLives = c.writerLives := by
  funext n
  have hw : (tfind (c.setWave i w).waves (n / 2)).any (fun w => !w.ended) = (tfind c.waves (n / 2)).any (fun w => !w.ended) := by
    by_cases hn : n / 2 = i
    · rw [hn, h]; simp [Chip.setWave, he]
    · simp [Chip.setWave, tfind_tset_of_ne _ _ hn]
  simp only [Chip.writerLives, hw, Chip.setWave_pend, Chip.setWave_copies]

/-- Nor does the line that memory gives, or a core fetches. -/
theorem Chip.fetchLine_setWave {c : Chip} {i : Nat} {v w : Wave} (h : tfind c.waves i = some v) (he : w.ended = v.ended) (tick core pa : Nat) :
    (c.setWave i w).fetchLine tick core pa = c.fetchLine tick core pa := by
  have hm : (c.setWave i w).lineMem pa = c.lineMem pa := by
    unfold Chip.lineMem
    rw [Chip.writerLives_setWave h he]
    rfl
  unfold Chip.fetchLine
  rw [hm]
  rfl

/-- The check points that a wave sees do not depend on the waves but for their ends. -/
theorem State.cpOf_setWave (s : State) (p : Nat) {i : Nat} (w : Wave) {v w' : Wave} (h : tfind (s.chip p).waves i = some v) (he : w'.ended = v.ended) :
    (s.setChip p ((s.chip p).setWave i w')).cpOf p w = s.cpOf p w := by
  funext pc
  simp only [State.cpOf, State.setChip_chip_self, State.setChip_tick, Chip.checkPoint, Chip.viewLine, Chip.fetchLine_setWave h he]
  rfl

@[simp] theorem Wave.endTurn_heap (w : Wave) (sl : Slot) : (w.endTurn sl).heap = w.heap := by unfold Wave.endTurn; split <;> rfl
@[simp] theorem Wave.endTurn_heapRes (w : Wave) (sl : Slot) : (w.endTurn sl).heapRes = w.heapRes := by unfold Wave.endTurn; split <;> rfl
@[simp] theorem Iss.tally_heap (x : Iss) (fg : Bool) (w : Wave) : (x.tally fg w).heap = w.heap := by unfold Iss.tally; split <;> simp
@[simp] theorem Iss.tally_heapRes (x : Iss) (fg : Bool) (w : Wave) : (x.tally fg w).heapRes = w.heapRes := by unfold Iss.tally; split <;> simp

/-- A step to a PC that is no check point, or in handler mode, moves the path and nothing else (R26, R280). -/
theorem Wave.stepTo_quiet (cp : DWord → Bool) (w : Wave) (sl : Slot) (pc : DWord) (q : Path) (hq : w.path? sl = some q)
    (h : w.hmode = true ∨ cp pc = false) :
    w.stepTo cp sl pc = w.setPath sl (some (q.goTo pc)) := by
  unfold Wave.stepTo
  rw [hq]
  dsimp only
  split
  · rfl
  · rename_i hm
    rcases h with h | h
    · exact absurd h hm
    · have hp : cp (q.goTo pc).pc = false := h
      simp [Wave.arriveIf, hp]

theorem Wave.RegOnly.path {w w' : Wave} (h : w.RegOnly w') (sl : Slot) : w'.path? sl = w.path? sl := by rw [h]; cases sl <;> rfl
theorem Wave.RegOnly.heap {w w' : Wave} (h : w.RegOnly w') : w'.heap = w.heap := by rw [h]
theorem Wave.RegOnly.heapRes {w w' : Wave} (h : w.RegOnly w') : w'.heapRes = w.heapRes := by rw [h]
theorem Wave.RegOnly.cause {w w' : Wave} (h : w.RegOnly w') : w'.cause = w.cause := by rw [h]
theorem Wave.RegOnly.grow {w w' : Wave} (h : w.RegOnly w') : w'.grow = w.grow := by rw [h]
theorem Wave.RegOnly.ended {w w' : Wave} (h : w.RegOnly w') : w'.ended = w.ended := by rw [h]
theorem Wave.RegOnly.core {w w' : Wave} (h : w.RegOnly w') : w'.core = w.core := by rw [h]
theorem Wave.RegOnly.hmode {w w' : Wave} (h : w.RegOnly w') : w'.hmode = w.hmode := by unfold Wave.hmode; rw [h.cause]

/-- The path falls through (R28, R132). -/
theorem Iss.fall_set {s : State} {x : Iss} {w : Wave} (hc : x.calm s = true) (hfind : tfind (s.chip x.p).waves x.wid = some x.w)
    (hq : x.w.path? x.sl = some x.q) (hw : x.w.RegOnly w) :
    x.fall (x.set s w) = s.setChip x.p ((s.chip x.p).setWave x.wid (w.setPath x.sl (some x.onward))) := by
  have hpath : w.path? x.sl = some x.q := by rw [hw.path]; exact hq
  have hcpw : ∀ st : State, st.cpOf x.p w = st.cpOf x.p x.w := by intro st; unfold State.cpOf; rw [hw.core, hw.grow]
  have hset : x.set s w = s.setChip x.p ((s.chip x.p).setWave x.wid w) := rfl
  simp only [Iss.calm, Bool.and_eq_true, Bool.or_eq_true, decide_eq_true_eq, Bool.not_eq_true'] at hc
  have hcp := hc.2
  have hset' : (x.set s w).chip x.p = (s.chip x.p).setWave x.wid w := by rw [hset, State.setChip_chip_self]
  by_cases hf : x.ends = true
  · have ho : x.onward = x.q.goTo x.nextPc := if_pos hf
    have hstep : w.stepTo ((x.set s w).cpOf x.p w) x.sl x.nextPc = w.setPath x.sl (some x.onward) := by
      rw [ho]
      apply Wave.stepTo_quiet _ _ _ _ _ hpath
      rw [hw.hmode, hset, State.cpOf_setWave s x.p w hfind hw.ended, hcpw]
      rcases hcp with (h | h) | h
      · rw [hf] at h; cases h
      · exact .inl h
      · exact .inr h
    unfold Iss.fall
    rw [if_pos hf, State.modChip, hset', hset, State.setChip_setChip, Chip.modWave_setWave, ← hset, hstep]
  · have ho : x.onward = { x.q with wait := .none, ord := false } := if_neg hf
    unfold Iss.fall
    rw [if_neg hf, State.modChip, hset', hset, State.setChip_setChip, Chip.modWave_setWave, ho]
    simp [Wave.halfDone, hpath, hc.1.1.1.1]

/-- With no path in the heap, the heap settles as it is (R36). -/
theorem State.settleHeap_empty (s : State) (p i : Nat) (w : Wave) (h : tfind (s.chip p).waves i = some w) (hw : w.heap = []) (hr : w.heapRes = 0) :
    s.settleHeap p i [] 0 = .ok (s.setChip p ((s.chip p).setWave i w)) := by
  unfold State.settleHeap
  rw [h]
  have h2 : heapKeep w.heapDepth 0 0 w.heap.length = 0 := by simp [heapKeep, hw]
  have h3 : ({ w with heapRes := heapKeep w.heapDepth ([] : List Path).length 0 w.heap.length } : Wave) = w := by
    show ({ w with heapRes := heapKeep w.heapDepth 0 0 w.heap.length } : Wave) = w
    rw [h2, ← hr]
  dsimp only
  rw [h3]
  have h4 : ∀ k, spillTouched (List.drop 0 []) (w.heap.drop k) (heapKeep w.heapDepth ([] : List Path).length 0 w.heap.length - (w.heap.length - (([] : List Path).length - 0))) = [] := by
    intro k
    have h5 : heapKeep w.heapDepth ([] : List Path).length 0 w.heap.length = 0 := h2
    simp [spillTouched, hw, heapKeep]
  rw [h4]
  rfl

/-- What the end of a word does where its path was not waiting and no path is in the heap: the operation is counted. -/
theorem Iss.settle_quiet {s0 s : State} {x : Iss} {w : Wave} (hwait : x.q.waiting = false) (hh : x.w.heap = []) (hr : x.w.heapRes = 0)
    (h : tfind (s.chip x.p).waves x.wid = some w) (hw : w.heap = []) (hwr : w.heapRes = 0) :
    x.settle s0 s =
      { s.setChip x.p ((s.chip x.p).setWave x.wid (x.tally ((s.chip x.p).fgear w.grow) w)) with last := .completed } := by
  have h1 : s.modChip x.p (fun c => c.modWave x.wid (fun w =>
      let u := if x.q.waiting then w else w.count x.sl (c.fgear w.grow)
      if x.ends then u.endTurn x.sl else u)) =
      s.setChip x.p ((s.chip x.p).setWave x.wid (x.tally ((s.chip x.p).fgear w.grow) w)) := by
    rw [State.modChip, Chip.modWave_some h]
    simp only [hwait, Bool.false_eq_true, if_false]
    rfl
  unfold Iss.settle
  simp only [h1]
  simp only [hwait, Bool.false_and, Bool.false_eq_true, if_false]
  rw [hh, hr, State.settleHeap_empty (w := x.tally ((s.chip x.p).fgear w.grow) w)]
  · simp only [State.setChip_chip_self, Chip.setWave_setWave, State.setChip_setChip]
  · simp [Chip.setWave]
  · simp [hw]
  · simp [hwr]

/-- R39 to R157 for an operation whose whole effect is on registers: with nothing in its way it completes, and its wave is what the effect
gives. -/
theorem issue_done {f : Form} {o : Ops} {s : State} {x : Iss} {run : Iss → State → Eff} {w : Wave} (hx : issOf f o s = some x)
    (hc : x.calm s = true) (hr : run x s = .done (x.set s w)) (hw : x.w.RegOnly w) : issue f o s run = .next (x.after s w) := by
  obtain ⟨-, -, -, -, -, -, hfind, hpath, -, -, -⟩ := issOf_some hx
  have hfall := Iss.fall_set hc hfind hpath hw
  simp only [Iss.calm, Bool.and_eq_true, Bool.not_eq_true', decide_eq_true_eq, beq_iff_eq, List.isEmpty_iff] at hc
  obtain ⟨⟨⟨⟨hwait, hchk⟩, hheap⟩, hres⟩, -⟩ := hc
  have hiss : x.q.issued = false := by simp [Path.issued, hwait]
  unfold issue
  rw [hx]
  simp only [hiss, Bool.false_eq_true, if_false, hchk, hr, Iss.finish, hfall]
  rw [Iss.settle_quiet (w := w.setPath x.sl (some x.onward)) hwait hheap hres]
  · simp only [State.setChip_chip_self, State.setChip_setChip, Chip.setWave_setWave, Wave.setPath_grow, hw.grow]
    rfl
  · simp [Chip.setWave]
  · simp [hw.heap, hheap]
  · simp [hw.heapRes, hres]

/-- The same for an operation written with `onWave`. -/
theorem issue_onWave {f : Form} {o : Ops} {s : State} {x : Iss} {g : Iss → Wave} (hx : issOf f o s = some x) (hc : x.calm s = true)
    (hw : x.w.RegOnly (g x)) : issue f o s (onWave g) = .next (x.after s (g x)) := issue_done hx hc rfl hw

/-! ## An operation with any effect -/

/-- R39 to R157 for an operation with any effect: where its path stands as it stood, no path is in the heap and what follows is no check
point, it completes, and its path goes on. -/
theorem issue_onFrom {f : Form} {o : Ops} {s s' : State} {x : Iss} {run : Iss → State → Eff} (hx : issOf f o s = some x)
    (hrd : x.ready = true) (hr : run x s = .done s') (hc : x.calmAfter s' = true) : issue f o s run = .next (x.onFrom s' x.onward) := by
  simp only [Iss.ready, Bool.and_eq_true, Bool.not_eq_true', decide_eq_true_eq] at hrd
  obtain ⟨hwait, hchk⟩ := hrd
  unfold Iss.calmAfter at hc
  cases hw : s'.wave? x.p x.wid with
  | none => rw [hw] at hc; cases hc
  | some w =>
    rw [hw] at hc
    simp only [Bool.and_eq_true, Bool.or_eq_true, Bool.not_eq_true', decide_eq_true_eq, beq_iff_eq, List.isEmpty_iff] at hc
    obtain ⟨⟨⟨⟨⟨hpath, hheap⟩, hres⟩, hxheap⟩, hxres⟩, hcp⟩ := hc
    have hw' : tfind (s'.chip x.p).waves x.wid = some w := hw
    have hfall : x.fall s' = s'.setChip x.p ((s'.chip x.p).setWave x.wid (w.setPath x.sl (some x.onward))) := by
      by_cases hf : x.ends = true
      · have ho : x.onward = x.q.goTo x.nextPc := if_pos hf
        unfold Iss.fall
        rw [if_pos hf, State.modChip, Chip.modWave_some hw', ho, Wave.stepTo_quiet _ _ _ _ _ hpath]
        rcases hcp with (h | h) | h
        · rw [hf] at h; cases h
        · exact .inl h
        · exact .inr h
      · have ho : x.onward = { x.q with wait := .none, ord := false } := if_neg hf
        unfold Iss.fall
        rw [if_neg hf, State.modChip, Chip.modWave_some hw', ho]
        simp [Wave.halfDone, hpath, hwait]
    have hiss : x.q.issued = false := by simp [Path.issued, hwait]
    unfold issue
    rw [hx]
    simp only [hiss, Bool.false_eq_true, if_false, hchk, hr, Iss.finish, hfall]
    rw [Iss.settle_quiet (w := w.setPath x.sl (some x.onward)) hwait hxheap hxres]
    · rw [Iss.onFrom, State.modChip, Chip.modWave_some hw']
      simp only [State.setChip_chip_self, State.setChip_setChip, Chip.setWave_setWave, Wave.setPath_grow]
      rfl
    · simp [Chip.setWave]
    · simp [hheap]
    · simp [hres]

end Sys2Proof.Machine
end

