-- ==== Sys2Proof/Laws/Put.lean ====
section
/-! SUPPORT. What writing a destination operand leaves in every register, for every operand form (R52 to R65, R137, R157). -/

namespace Sys2Proof.Machine

open Sys2Proof

/-! ## Lanes -/

theorem mergeLanes_getD (old : Lanes) (m : Word) (f : Nat → Word) {k : Nat} (h : k < 32) :
    (mergeLanes old m f).getD k 0 = if laneOn m k then f k else old.getD k 0 := by
  unfold mergeLanes laneList
  rw [List.getD_eq_getElem?_getD, List.getElem?_map, List.getElem?_range h]
  rfl

theorem mem_lanesOf {m : Word} {k : Nat} : k ∈ lanesOf m ↔ k < 32 ∧ laneOn m k = true := by
  simp [lanesOf, laneList]

theorem foldr_mask_add (f : Nat → Bool) (l : List Nat) (a : Nat) :
    l.foldr (fun k acc => acc + (if f k then 2 ^ k else 0)) a = l.foldr (fun k acc => acc + (if f k then 2 ^ k else 0)) 0 + a := by
  induction l with
  | nil => simp
  | cons i l ih =>
    simp only [List.foldr_cons]
    rw [ih]
    omega

theorem mask_sum (f : Nat → Bool) (n : Nat) :
    (List.range n).foldr (fun k acc => acc + (if f k then 2 ^ k else 0)) 0 < 2 ^ n ∧
    ∀ k, Nat.testBit ((List.range n).foldr (fun k acc => acc + (if f k then 2 ^ k else 0)) 0) k = (decide (k < n) && f k) := by
  induction n with
  | zero => simp
  | succ n ih =>
    obtain ⟨h1, h2⟩ := ih
    rw [List.range_succ, List.foldr_append, foldr_mask_add]
    simp only [List.foldr_cons, List.foldr_nil, Nat.zero_add]
    generalize (List.range n).foldr (fun k acc => acc + (if f k then 2 ^ k else 0)) 0 = S at h1 h2
    by_cases hf : f n = true
    · simp only [hf, if_true]
      refine ⟨by rw [Nat.pow_succ]; omega, fun k => ?_⟩
      rw [Nat.add_comm]
      rcases Nat.lt_trichotomy k n with h | h | h
      · rw [Nat.testBit_two_pow_add_gt h, h2]
        simp [h, Nat.lt_succ_of_lt h]
      · subst h
        rw [Nat.testBit_two_pow_add_eq, h2]
        simp [hf]
      · have h3 : 2 ^ n + S < 2 ^ k := by
          have : 2 ^ (n + 1) ≤ 2 ^ k := Nat.pow_le_pow_right (by omega) h
          rw [Nat.pow_succ] at this
          omega
        rw [Nat.testBit_lt_two_pow h3]
        have : ¬ k < n + 1 := by omega
        simp [this]
    · simp only [hf]
      refine ⟨by rw [Nat.pow_succ]; simp; omega, fun k => ?_⟩
      simp only [Bool.false_eq_true, if_false, Nat.add_zero, h2]
      by_cases h : k = n
      · subst h; simp [hf]
      · have : decide (k < n) = decide (k < n + 1) := by simp only [decide_eq_decide]; omega
        rw [this]

theorem laneOn_maskOf (f : Nat → Bool) {k : Nat} (h : k < 32) : laneOn (maskOf f) k = f k := by
  unfold laneOn maskOf laneList
  rw [BitVec.getLsbD_ofNat, (mask_sum f 32).2]
  simp [h]

/-! ## One register -/

theorem Wave.putV_lreg (w : Wave) (y : Nat) (m : Word) (f : Nat → Word) (r : Nat) :
    (w.putV y m f).lreg r = if r = y then (w.lreg y).write m f else w.lreg r := by
  by_cases h : r = y
  · subst h; simp [Wave.putV, Wave.lreg]
  · simp [Wave.putV, Wave.lreg, tget_tset_of_ne _ _ _ h, h]

theorem Wave.putV_lane (w : Wave) (y : Nat) (m : Word) (f : Nat → Word) (r : Nat) {k : Nat} (hk : k < 32) :
    ((w.putV y m f).lreg r).vals.getD k 0 =
      if r = y ∧ laneOn m k = true then f k else (w.lreg r).vals.getD k 0 := by
  rw [Wave.putV_lreg]
  by_cases h : r = y
  · subst h
    simp only [if_true, LaneReg.write, mergeLanes_getD _ _ _ hk, true_and]
  · simp [h]

theorem Wave.putS_ureg (w : Wave) (y : Nat) (v : Word) (r : Nat) :
    (w.putS y v).ureg r = if r = y then { val := v, full := true, err := false, mask := 0 } else w.ureg r := by
  by_cases h : r = y
  · subst h; simp [Wave.putS, Wave.ureg]
  · simp [Wave.putS, Wave.ureg, tget_tset_of_ne _ _ _ h, h]

/-! ## Several registers -/

theorem putV_range_lane (w : Wave) (b n : Nat) (m : Word) (f : Nat → Nat → Word) (r : Nat) {k : Nat} (hk : k < 32) :
    (((List.range n).foldl (fun w j => w.putV (b + j) m (fun k => f k j)) w).lreg r).vals.getD k 0 =
      if (b ≤ r ∧ r < b + n) ∧ laneOn m k = true then f k (r - b) else (w.lreg r).vals.getD k 0 := by
  induction n with
  | zero =>
    simp
  | succ n ih =>
    rw [List.range_succ, List.foldl_append, List.foldl_cons, List.foldl_nil, Wave.putV_lane _ _ _ _ _ hk, ih]
    by_cases hm : laneOn m k = true
    · by_cases h : r = b + n
      · subst h; simp [hm]
      · simp only [h, hm, and_true, if_false]
        congr 1
        simp only [eq_iff_iff]
        omega
    · simp [hm]

theorem putS_range_ureg (w : Wave) (b n : Nat) (f : Nat → Word) (r : Nat) :
    ((List.range n).foldl (fun w j => w.putS (b + j) (f j)) w).ureg r =
      if b ≤ r ∧ r < b + n then { val := f (r - b), full := true, err := false, mask := 0 } else w.ureg r := by
  induction n with
  | zero =>
    simp
  | succ n ih =>
    rw [List.range_succ, List.foldl_append, List.foldl_cons, List.foldl_nil, Wave.putS_ureg, ih]
    by_cases h : r = b + n
    · subst h; simp
    · simp only [h, if_false]
      congr 1
      simp only [eq_iff_iff]
      omega

/-- One word of an indexed destination: each lane its own register. -/
theorem putIndexed_lane (w : Wave) (wb : Nat) (num : Nat → Nat) (j : Nat) (m : Word) (f : Nat → Word) (r : Nat) {k : Nat} (hk : k < 32) :
    ((Machine.putIndexed w wb num j m f).lreg r).vals.getD k 0 =
      if r = wb + num k + j ∧ laneOn m k = true then f k else (w.lreg r).vals.getD k 0 := by
  have key : ∀ (l : List Nat) (w : Wave), (∀ i ∈ l, i < 32) →
      ((l.foldl (fun w i => w.putV (wb + num i + j) (maskOf (· == i)) f) w).lreg r).vals.getD k 0 =
        if r = wb + num k + j ∧ k ∈ l then f k else (w.lreg r).vals.getD k 0 := by
    intro l
    induction l with
    | nil => intro w _; simp
    | cons i l ih =>
      intro w hl
      rw [List.foldl_cons, ih _ (fun a ha => hl a (List.mem_cons_of_mem _ ha)), Wave.putV_lane _ _ _ _ _ hk, laneOn_maskOf _ hk]
      by_cases hki : k = i
      · subst hki
        by_cases h1 : r = wb + num k + j <;> simp [h1]
      · simp [hki]
  unfold Machine.putIndexed
  rw [key _ _ (fun i hi => (mem_lanesOf.mp hi).1)]
  simp [mem_lanesOf, hk]

theorem putIndexed_range_lane (w : Wave) (wb : Nat) (num : Nat → Nat) (n : Nat) (m : Word) (f : Nat → Nat → Word) (r : Nat) {k : Nat}
    (hk : k < 32) :
    (((List.range n).foldl (fun w j => Machine.putIndexed w wb num j m (fun k => f k j)) w).lreg r).vals.getD k 0 =
      if (wb + num k ≤ r ∧ r < wb + num k + n) ∧ laneOn m k = true then f k (r - (wb + num k)) else (w.lreg r).vals.getD k 0 := by
  induction n with
  | zero =>
    simp
  | succ n ih =>
    rw [List.range_succ, List.foldl_append, List.foldl_cons, List.foldl_nil, putIndexed_lane _ _ _ _ _ _ _ hk, ih]
    by_cases hm : laneOn m k = true
    · by_cases h : r = wb + num k + n
      · subst h; simp [hm]
      · simp only [h, hm, and_true, if_false]
        congr 1
        simp only [eq_iff_iff]
        omega
    · simp [hm]

/-! ## The other classes -/

theorem Wave.putP_pbit (w : Wave) (n : Nat) (m : Word) (f : Nat → Bool) (r : Nat) {k : Nat} (hk : k < 32) :
    (w.putP n m f).pbit r k = if r = n ∧ n ≠ 7 ∧ laneOn m k = true then f k else w.pbit r k := by
  unfold Wave.putP Wave.pbit
  by_cases h7 : n = 7
  · simp [h7]
  · simp only [h7, if_false]
    by_cases h : r = n
    · subst h
      simp only [Wave.mendSoft_p, tget_tset_self, laneOn_maskOf _ hk]
      by_cases hm : laneOn m k = true <;> simp [hm, h7]
    · simp [tget_tset_of_ne _ _ _ h, h]

theorem Wave.putI_ireg (w : Wave) (n : Nat) (m : Word) (f : Nat → Word) (r : Nat) {k : Nat} (hk : k < 32) :
    (w.putI n m f).ireg r k = if r = n ∧ laneOn m k = true then f k else w.ireg r k := by
  unfold Wave.putI Wave.ireg
  by_cases h : r = n
  · subst h
    simp only [Wave.mendSoft_i, tget_tset_self, mergeLanes_getD _ _ _ hk, true_and]
  · simp [tget_tset_of_ne _ _ _ h, h]

theorem Wave.putH_hreg (w : Wave) (n : Nat) (v : DWord) (r : Nat) :
    (w.putH n v).hreg r = if r = n then v else w.hreg r := by
  unfold Wave.putH Wave.hreg
  by_cases h : r = n
  · subst h; simp
  · simp [tget_tset_of_ne _ _ _ h, h]

theorem lo32_dword (a b : Word) : lo32 (dword a b) = a := by
  unfold lo32 dword
  apply BitVec.eq_of_toNat_eq
  have ha := a.isLt
  have hb := b.isLt
  simp only [BitVec.toNat_ofNat]
  omega

theorem hi32_dword (a b : Word) : hi32 (dword a b) = b := by
  unfold hi32 dword
  apply BitVec.eq_of_toNat_eq
  have ha := a.isLt
  have hb := b.isLt
  simp only [BitVec.toNat_ofNat]
  omega

/-! ## The whole destination -/

theorem ofNat8_toNat (n : BitVec 3) {r : Nat} (h : n.toNat = r) : n = BitVec.ofNat 3 r := by subst h; simp

/-- What a wave holds after the destination was written and flags were raised, whatever the form of the destination. -/
theorem Iss.put_holds (x : Iss) (n : Nat) (val : Nat → Nat → Word) :
    (∀ k ∈ x.wroteLanes, ∀ j < x.destWords n, x.destWord (x.put n val x.w) k j = x.asHeld (val k j)) ∧
    (∀ r, ∀ k < 32, x.hitsLane n r k = false → ((x.put n val x.w).lreg r).vals.getD k 0 = (x.w.lreg r).vals.getD k 0) ∧
    (∀ r, x.hitsUnif n r = false → (x.put n val x.w).ureg r = x.w.ureg r) ∧
    (∀ r < 8, ∀ k < 32, x.o.d ≠ .pred (BitVec.ofNat 3 r) ∨ laneOn x.exe k = false → (x.put n val x.w).pbit r k = x.w.pbit r k) ∧
    (∀ r < 4, ∀ k < 32, x.o.d ≠ .idx (BitVec.ofNat 2 r) ∨ laneOn x.exe k = false → (x.put n val x.w).ireg r k = x.w.ireg r k) ∧
    (∀ r < 16, x.o.d ≠ .handle (BitVec.ofNat 4 r) ∨ x.go = false → (x.put n val x.w).hreg r = x.w.hreg r) := by
  cases hd : x.o.d with
  | lane d =>
    have hput : x.put n val x.w = (List.range n).foldl (fun w j => w.putV (x.q.wbase + d.toNat + j) x.exe (fun k => val k j)) x.w := by
      simp [Iss.put, hd]
    have hs : (x.put n val x.w).s = x.w.s ∧ (x.put n val x.w).p = x.w.p ∧ (x.put n val x.w).i = x.w.i ∧ (x.put n val x.w).h = x.w.h := by
      rw [hput]
      generalize x.w = w
      clear hput
      induction n generalizing w with
      | zero => simp
      | succ n ih =>
        rw [List.range_succ, List.foldl_append, List.foldl_cons, List.foldl_nil]
        exact ih w
    refine ⟨fun k hk j hj => ?_, fun r k hk hh => ?_, fun r _ => ?_, fun r _ k _ _ => ?_, fun r _ k _ _ => ?_, fun r _ _ => ?_⟩
    · simp only [Iss.wroteLanes, hd] at hk
      obtain ⟨hk, hm⟩ := mem_lanesOf.mp hk
      simp only [Iss.destWords, hd] at hj
      simp only [Iss.destWord, Iss.asHeld, hd]
      rw [hput, putV_range_lane _ _ _ _ _ _ hk, if_pos ⟨by omega, hm⟩]
      congr 1
      omega
    · rw [hput, putV_range_lane _ _ _ _ _ _ hk, if_neg]
      rintro ⟨h1, h2⟩
      simp [Iss.hitsLane, hd, h2] at hh
      omega
    · simp only [Wave.ureg, hs.1]
    · simp only [Wave.pbit, hs.2.1]
    · simp only [Wave.ireg, hs.2.2.1]
    · simp only [Wave.hreg, hs.2.2.2]
  | indexed i =>
    have hput : x.put n val x.w = (List.range n).foldl (fun w j => Machine.putIndexed w x.q.wbase
        (fun k => (x.r.ixNum i (x.o.disp .d) k).toNat) j x.exe (fun k => val k j)) x.w := by
      simp [Iss.put, hd]
    have hs : (x.put n val x.w).s = x.w.s ∧ (x.put n val x.w).p = x.w.p ∧ (x.put n val x.w).i = x.w.i ∧ (x.put n val x.w).h = x.w.h := by
      have h1 : ∀ (l : List Nat) (j : Nat) (w : Wave),
          (l.foldl (fun w k => w.putV (x.q.wbase + (x.r.ixNum i (x.o.disp .d) k).toNat + j) (maskOf (· == k)) (fun k => val k j)) w).s = w.s ∧
          (l.foldl (fun w k => w.putV (x.q.wbase + (x.r.ixNum i (x.o.disp .d) k).toNat + j) (maskOf (· == k)) (fun k => val k j)) w).p = w.p ∧
          (l.foldl (fun w k => w.putV (x.q.wbase + (x.r.ixNum i (x.o.disp .d) k).toNat + j) (maskOf (· == k)) (fun k => val k j)) w).i = w.i ∧
          (l.foldl (fun w k => w.putV (x.q.wbase + (x.r.ixNum i (x.o.disp .d) k).toNat + j) (maskOf (· == k)) (fun k => val k j)) w).h = w.h := by
        intro l j
        induction l with
        | nil => intro w; simp
        | cons a l ih => intro w; rw [List.foldl_cons]; exact ih _
      rw [hput]
      generalize x.w = w
      clear hput
      induction n generalizing w with
      | zero => simp
      | succ n ih =>
        rw [List.range_succ, List.foldl_append, List.foldl_cons, List.foldl_nil]
        obtain ⟨a, b, c, d⟩ := ih w
        obtain ⟨a', b', c', d'⟩ := h1 (lanesOf x.exe) n ((List.range n).foldl (fun w j => Machine.putIndexed w x.q.wbase
          (fun k => (x.r.ixNum i (x.o.disp .d) k).toNat) j x.exe (fun k => val k j)) w)
        exact ⟨a'.trans a, b'.trans b, c'.trans c, d'.trans d⟩
    refine ⟨fun k hk j hj => ?_, fun r k hk hh => ?_, fun r _ => ?_, fun r _ k _ _ => ?_, fun r _ k _ _ => ?_, fun r _ _ => ?_⟩
    · simp only [Iss.wroteLanes, hd] at hk
      obtain ⟨hk, hm⟩ := mem_lanesOf.mp hk
      simp only [Iss.destWords, hd] at hj
      simp only [Iss.destWord, Iss.asHeld, hd]
      rw [hput, putIndexed_range_lane _ _ _ _ _ _ _ hk, if_pos ⟨by omega, hm⟩]
      congr 1
      omega
    · rw [hput, putIndexed_range_lane _ _ _ _ _ _ _ hk, if_neg]
      rintro ⟨h1, h2⟩
      simp [Iss.hitsLane, hd, h2] at hh
      omega
    · simp only [Wave.ureg, hs.1]
    · simp only [Wave.pbit, hs.2.1]
    · simp only [Wave.ireg, hs.2.2.1]
    · simp only [Wave.hreg, hs.2.2.2]
  | unif d =>
    by_cases hg : x.go = true
    · have hput : x.put n val x.w = (List.range n).foldl (fun w j => w.putS (d.toNat + j) (val x.low j)) x.w := by
        simp [Iss.put, hd, hg]
      have hs : (x.put n val x.w).v = x.w.v ∧ (x.put n val x.w).p = x.w.p ∧ (x.put n val x.w).i = x.w.i ∧ (x.put n val x.w).h = x.w.h := by
        rw [hput]
        generalize x.w = w
        clear hput
        induction n generalizing w with
        | zero => simp
        | succ n ih =>
          rw [List.range_succ, List.foldl_append, List.foldl_cons, List.foldl_nil]
          exact ih w
      refine ⟨fun k hk j hj => ?_, fun r k hk hh => ?_, fun r hh => ?_, fun r _ k _ _ => ?_, fun r _ k _ _ => ?_, fun r _ _ => ?_⟩
      · simp only [Iss.wroteLanes, hd, hg, if_true, List.mem_singleton] at hk
        subst hk
        simp only [Iss.destWords, hd] at hj
        simp only [Iss.destWord, Iss.asHeld, hd]
        rw [hput, putS_range_ureg, if_pos (by omega)]
        simp
      · simp only [Wave.lreg, hs.1]
      · rw [hput, putS_range_ureg, if_neg]
        rintro h
        simp [Iss.hitsUnif, hd, hg] at hh
        omega
      · simp only [Wave.pbit, hs.2.1]
      · simp only [Wave.ireg, hs.2.2.1]
      · simp only [Wave.hreg, hs.2.2.2]
    · have hput : x.put n val x.w = x.w := by simp [Iss.put, hd, hg]
      refine ⟨fun k hk j hj => ?_, ?_⟩
      · simp [Iss.wroteLanes, hd, hg] at hk
      · simp [hput]
  | handle d =>
    by_cases hg : x.go = true
    · have hput : x.put n val x.w = x.w.putH d.toNat (Machine.dword (val x.low 0) (val x.low 1)) := by simp [Iss.put, hd, hg]
      refine ⟨fun k hk j hj => ?_, fun r k hk hh => ?_, fun r hh => ?_, fun r _ k _ _ => ?_, fun r _ k _ _ => ?_, fun r hr hh => ?_⟩
      · simp only [Iss.wroteLanes, hd, hg, if_true, List.mem_singleton] at hk
        subst hk
        simp only [Iss.destWords, hd] at hj
        simp only [Iss.destWord, Iss.asHeld, hd]
        rw [hput, Wave.putH_hreg, if_pos rfl, lo32_dword, hi32_dword]
        have : j < 2 := lt_of_lt_of_le hj (Nat.min_le_right _ _)
        rcases Nat.lt_or_ge j 1 with h | h
        · have : j = 0 := by omega
          subst this; simp
        · have : j = 1 := by omega
          subst this; simp
      · rw [hput]; rfl
      · rw [hput]; rfl
      · rw [hput]; rfl
      · rw [hput]; rfl
      · rw [hput, Wave.putH_hreg, if_neg]
        intro h
        rcases hh with hh | hh
        · apply hh
          rw [h]
          simp
        · rw [hg] at hh; cases hh
    · have hput : x.put n val x.w = x.w := by simp [Iss.put, hd, hg]
      refine ⟨fun k hk j hj => ?_, ?_⟩
      · simp [Iss.wroteLanes, hd, hg] at hk
      · simp [hput]
  | pred d =>
    have hput : x.put n val x.w = x.w.putP d.toNat x.exe (fun k => val k 0 ≠ 0) := by simp [Iss.put, hd]
    have hs : (x.put n val x.w).v = x.w.v ∧ (x.put n val x.w).s = x.w.s ∧ (x.put n val x.w).i = x.w.i ∧ (x.put n val x.w).h = x.w.h := by
      rw [hput]; unfold Wave.putP; split <;> simp
    refine ⟨fun k hk j hj => ?_, fun r k hk hh => ?_, fun r hh => ?_, fun r hr k hk hh => ?_, fun r _ k _ _ => ?_, fun r hr hh => ?_⟩
    · simp only [Iss.wroteLanes, hd] at hk
      simp only [Iss.destWords, hd] at hj
      have : j < 1 := lt_of_lt_of_le hj (Nat.min_le_right _ _)
      have : j = 0 := by omega
      subst this
      by_cases h7 : d = 7
      · simp [h7] at hk
      · rw [if_neg h7] at hk
        obtain ⟨hk, hm⟩ := mem_lanesOf.mp hk
        have h7' : d.toNat ≠ 7 := by
          intro h; apply h7; apply BitVec.eq_of_toNat_eq; simpa using h
        simp only [Iss.destWord, Iss.asHeld, hd]
        have hb : (x.w.putP d.toNat x.exe (fun k => decide (val k 0 ≠ 0))).pbit d.toNat k = decide (val k 0 ≠ 0) := by
          rw [Wave.putP_pbit _ _ _ _ _ hk]
          simp [h7', hm]
        rw [hput, hb]
        by_cases hv : val k 0 = 0
        · rw [if_pos hv, hv]; rfl
        · rw [if_neg hv, if_pos (decide_eq_true hv)]
    · simp only [Wave.lreg, hs.1]
    · simp only [Wave.ureg, hs.2.1]
    · rw [hput, Wave.putP_pbit _ _ _ _ _ hk, if_neg]
      rintro ⟨h1, -, h3⟩
      rcases hh with hh | hh
      · apply hh; rw [h1]; simp
      · rw [h3] at hh; cases hh
    · simp only [Wave.ireg, hs.2.2.1]
    · simp only [Wave.hreg, hs.2.2.2]
  | idx d =>
    have hput : x.put n val x.w = x.w.putI d.toNat x.exe (fun k => val k 0) := by simp [Iss.put, hd]
    refine ⟨fun k hk j hj => ?_, fun r k hk hh => ?_, fun r hh => ?_, fun r _ k _ _ => ?_, fun r hr k hk hh => ?_, fun r hr hh => ?_⟩
    · simp only [Iss.wroteLanes, hd] at hk
      simp only [Iss.destWords, hd] at hj
      have : j < 1 := lt_of_lt_of_le hj (Nat.min_le_right _ _)
      have : j = 0 := by omega
      subst this
      obtain ⟨hk, hm⟩ := mem_lanesOf.mp hk
      simp only [Iss.destWord, Iss.asHeld, hd]
      rw [hput, Wave.putI_ireg _ _ _ _ _ hk, if_pos ⟨rfl, hm⟩]
    · rw [hput]; rfl
    · rw [hput]; rfl
    · rw [hput]; rfl
    · rw [hput, Wave.putI_ireg _ _ _ _ _ hk, if_neg]
      rintro ⟨h1, h3⟩
      rcases hh with hh | hh
      · apply hh; rw [h1]; simp
      · rw [h3] at hh; cases hh
    · rw [hput]; rfl
  | _ =>
    have hput : x.put n val x.w = x.w := by simp [Iss.put, hd]
    refine ⟨fun k hk j hj => ?_, ?_⟩
    · simp [Iss.wroteLanes, hd] at hk
    · simp [hput]

theorem foldl_keeps {β γ : Type} (l : List β) (g : Wave → β → Wave) (φ : Wave → γ) (h : ∀ w b, φ (g w b) = φ w) (w : Wave) :
    φ (l.foldl g w) = φ w := by
  induction l generalizing w with
  | nil => rfl
  | cons b r ih => rw [List.foldl_cons, ih, h]

/-- A field that no write of a register changes is not changed by writing the destination. -/
theorem Iss.put_keeps {γ : Type} (φ : Wave → γ) (hv : ∀ w x m f, φ (Wave.putV w x m f) = φ w) (hs : ∀ w n v, φ (Wave.putS w n v) = φ w)
    (hp : ∀ w n m f, φ (Wave.putP w n m f) = φ w) (hi : ∀ w n m f, φ (Wave.putI w n m f) = φ w) (hh : ∀ w n v, φ (Wave.putH w n v) = φ w)
    (x : Iss) (n : Nat) (f : Nat → Nat → Word) (w : Wave) : φ (x.put n f w) = φ w := by
  unfold Iss.put
  split
  · exact foldl_keeps _ _ φ (fun w _ => hv w _ _ _) w
  · split
    · exact foldl_keeps _ _ φ (fun w _ => hs w _ _) w
    · rfl
  · exact foldl_keeps _ _ φ (fun w _ => foldl_keeps _ _ φ (fun w _ => hv w _ _ _) w) w
  · exact hp _ _ _ _
  · exact hi _ _ _ _
  · split
    · exact hh _ _ _
    · rfl
  · rfl

@[simp] theorem Iss.put_flags (x : Iss) (n : Nat) (f : Nat → Nat → Word) (w : Wave) : (x.put n f w).flags = w.flags :=
  Iss.put_keeps Wave.flags (by simp) (by simp) (by simp) (by simp) (by simp) x n f w

@[simp] theorem Iss.put_raised (x : Iss) (n : Nat) (f : Nat → Nat → Word) (w : Wave) : (x.put n f w).raised = w.raised :=
  Iss.put_keeps Wave.raised (by simp) (by simp) (by simp) (by simp) (by simp) x n f w

/-- New check bits for one predicate, index or handle register leave the others as they were. -/
theorem Wave.mendSoft_softBad (w : Wave) {r r' : SoftReg} (m m' : Word) (h : r' ≠ r) : (w.mendSoft r m).softBad r' m' = w.softBad r' m' := by
  unfold Wave.mendSoft Wave.softBad
  have key : ∀ l : List (SoftReg × Word × Bool),
      ((l.map (fun e => if e.1 = r then (e.1, e.2.1 &&& ~~~m, e.2.2) else e)).filter (fun e => e.1 ≠ r || e.2.1 ≠ 0)).find? (fun e => e.1 = r') =
        l.find? (fun e => e.1 = r') := by
    intro l
    induction l with
    | nil => rfl
    | cons e l ih =>
      rw [List.map_cons]
      by_cases he : e.1 = r
      · have hne : ¬e.1 = r' := fun h2 => h (h2.symm.trans he)
        have hne' : ¬r = r' := fun h2 => h h2.symm
        rw [if_pos he, List.find?_cons_of_neg (by simpa using hne), List.filter_cons]
        split
        · rw [List.find?_cons_of_neg (by simpa using hne), ih]
        · exact ih
      · rw [if_neg he, List.filter_cons_of_pos (by simp [he])]
        by_cases h2 : e.1 = r'
        · rw [List.find?_cons_of_pos (by simpa using h2), List.find?_cons_of_pos (by simpa using h2)]
        · rw [List.find?_cons_of_neg (by simpa using h2), List.find?_cons_of_neg (by simpa using h2), ih]
  rw [key]

theorem Wave.putV_softBad (w : Wave) (x : Nat) (m : Word) (f : Nat → Word) (r : SoftReg) (m' : Word) : (w.putV x m f).softBad r m' = w.softBad r m' := rfl
theorem Wave.putS_softBad (w : Wave) (n : Nat) (v : Word) (r : SoftReg) (m' : Word) : (w.putS n v).softBad r m' = w.softBad r m' := rfl

/-- Writing the destination leaves the check bits of every other predicate, index and handle register as they were. -/
theorem Iss.put_softBad (x : Iss) (n : Nat) (val : Nat → Nat → Word) (r : SoftReg) (m : Word) (h : softDest x.o.d ≠ some r) :
    (x.put n val x.w).softBad r m = x.w.softBad r m := by
  unfold Iss.put
  split
  · exact foldl_keeps _ _ (fun w => Wave.softBad w r m) (fun w _ => w.putV_softBad _ _ _ r m) _
  · split
    · exact foldl_keeps _ _ (fun w => Wave.softBad w r m) (fun w _ => w.putS_softBad _ _ r m) _
    · rfl
  · exact foldl_keeps _ _ (fun w => Wave.softBad w r m) (fun w _ => foldl_keeps _ _ (fun w => Wave.softBad w r m) (fun w _ => w.putV_softBad _ _ _ r m) w) _
  · rename_i d hd
    rw [hd] at h
    unfold Wave.putP
    split
    · rfl
    · rename_i h7
      have h7' : d ≠ 7#3 := by intro h2; subst h2; exact h7 rfl
      rw [Wave.mendSoft_softBad]
      · rfl
      · intro h2; apply h; simpa [softDest, softOf, h2] using h7'
  · rename_i d hd
    rw [hd] at h
    unfold Wave.putI
    rw [Wave.mendSoft_softBad]
    · rfl
    · intro h2; apply h; simp [softDest, softOf, h2]
  · rename_i d hd
    rw [hd] at h
    split
    · unfold Wave.putH
      rw [Wave.mendSoft_softBad]
      · rfl
      · intro h2; apply h; simp [softDest, softOf, h2]
    · rfl
  · rfl

theorem Wave.raiseIf_eq (w : Wave) (b : Bool) (m : Word) :
    w.raiseIf b m = { w with flags := w.flags ||| if b then m else 0, raised := w.raised ||| if b then m else 0 } := by
  unfold Wave.raiseIf Wave.raise
  cases b <;> simp

/-- The state after an operation that writes its destination and raises flags. -/
theorem Iss.wrote_put_flags (x : Iss) (s : State) (n : Nat) (val : Nat → Nat → Word) (fl : Word) :
    x.Wrote s (x.after s { x.put n val x.w with flags := x.w.flags ||| fl, raised := x.w.raised ||| fl }) n val fl := by
  obtain ⟨h1, h2, h3, h4, h5, h6⟩ := x.put_holds n val
  have hr := x.put_regOnly n val x.w
  refine ⟨{ x.put n val x.w with flags := x.w.flags ||| fl, raised := x.w.raised ||| fl }, rfl, ?_, rfl, rfl,
    ⟨h1, h2, h3, h4, h5, h6, x.put_softBad n val⟩⟩
  unfold Wave.RegOnly at *
  rw [hr]

/-- The state after an operation that writes its destination and raises no flag. -/
theorem Iss.wrote_put (x : Iss) (s : State) (n : Nat) (val : Nat → Nat → Word) : x.Wrote s (x.after s (x.put n val x.w)) n val 0 := by
  obtain ⟨h1, h2, h3, h4, h5, h6⟩ := x.put_holds n val
  exact ⟨x.put n val x.w, rfl, x.put_regOnly n val x.w, by simp, by simp, ⟨h1, h2, h3, h4, h5, h6, x.put_softBad n val⟩⟩

/-- An operation that writes its destination and nothing else: with nothing in its way it completes, with the words `val`. -/
theorem issue_put {f : Form} {o : Ops} {s : State} {x : Iss} {n : Nat} {val : Nat → Nat → Word} (hx : issOf f o s = some x)
    (hc : x.calm s = true) {g : Iss → Wave} (hg : g x = x.put n val x.w) :
    ∃ t, issue f o s (onWave g) = .next t ∧ x.Wrote s t n val 0 := by
  refine ⟨_, issue_onWave hx hc ?_, ?_⟩
  · rw [hg]; exact x.put_regOnly n val x.w
  · rw [hg]; exact x.wrote_put s n val

/-- The same for an operation that raises flags beside it. -/
theorem issue_put_flags {f : Form} {o : Ops} {s : State} {x : Iss} {n : Nat} {val : Nat → Nat → Word} {fl : Word}
    (hx : issOf f o s = some x) (hc : x.calm s = true) {g : Iss → Wave}
    (hg : g x = { x.put n val x.w with flags := x.w.flags ||| fl, raised := x.w.raised ||| fl }) :
    ∃ t, issue f o s (onWave g) = .next t ∧ x.Wrote s t n val fl := by
  refine ⟨_, issue_onWave hx hc ?_, ?_⟩
  · rw [hg]
    have hr := x.put_regOnly n val x.w
    unfold Wave.RegOnly at *
    rw [hr]
  · rw [hg]; exact x.wrote_put_flags s n val fl

/-! ## Issue under a turn or a queue -/

/-- At its turn a synchronising operation issues as any other (R359). -/
theorem issueSync_eq {f : Form} {o : Ops} {s : State} {x : Iss} {run : Iss → State → Eff} (hx : issOf f o s = some x) (ht : x.myTurn = true) :
    issueSync f o s run = issue f o s run := by
  have h : (x.c.fgear x.w.grow && !x.q.issued && !x.w.turn.any (fun t => t.1 = x.sl)) = false := by
    unfold Iss.myTurn Iss.fg at ht
    cases hf : x.c.fgear x.w.grow <;> cases ht' : x.w.turn.any (fun t => t.1 = x.sl) <;> simp_all
  simp only [issueSync, hx, Option.any_some, h, Bool.false_eq_true, if_false]

/-- Where its queue has room an array command issues as any other (R253). -/
theorem issueArray_eq {f : Form} {o : Ops} {s : State} {x : Iss} {run : Iss → State → Eff} (hx : issOf f o s = some x)
    (hr : ∀ b, tfind x.c.blocks x.w.blk = some b → (x.c.core b.core).aq.length < 8) : issueArray f o s run = issue f o s run := by
  have h : (tfind x.c.blocks x.w.blk).any (fun b => 8 ≤ (x.c.core b.core).aq.length) = false := by
    cases hb : tfind x.c.blocks x.w.blk with
    | none => rfl
    | some b => simpa using hr b hb
  simp only [issueArray, hx, Option.any_some, h, Bool.and_false, Bool.false_eq_true, if_false]

end Sys2Proof.Machine
end

