-- ==== Sys2Proof/Tests/Slice0.lean ====
section
/-! SUPPORT. Small tests: words that decode, fields that are refused, worked values of the spec, and for every statement of Obligations.lean that has
hypotheses a state and operands that meet them. -/

namespace Sys2Proof.Tests

open Sys2Proof Sys2Proof.Machine

set_option Elab.async false

/-! ## The state the tests start from -/

/-- A package on which one wave of a grid of one block stands at 0x10000, before a line of `nop`, in an address space whose first GiB is DRAM. -/
def chipT : Chip := Chip.reset.placed (leBytes 64 (lineOf nopWord))

/-- Package 0 is `c`, and slot A of wave 0 issues the first operation of a pair. -/
def onChip (c : Chip) : State :=
  { State.reset.setChip 0 c with cur := { pkg := 0, wid := 0, slot := .A, half := .first } }

/-- The same, of a word of one operation. -/
def alone (s : State) : State := { s with cur := { s.cur with half := .single } }

/-- See `onChip`. -/
def stateT : State := onChip chipT

/-- Wave 0 changed by `f`. -/
def onWave (f : Wave → Wave) : State := onChip (chipT.setWave 0 (f placedWave))

/-- The path of wave 0 changed by `f`. -/
def onPath (f : Path → Path) : State := onWave (fun w => { w with slotA := w.slotA.map f })

/-- A unit that waits for no walk finds a target in the L2 TLB it looks up: see `State.UnitAt`. -/
def unitFinds (s : State) (who asid addr : Nat) (k : AccessKind) (w : Option Wave) (tg : Target) : Bool :=
  let off := addr % 2 ^ 48
  s.asks.isEmpty && s.taken.isEmpty && (s.chip 0).unitWalks.all (fun x => x.req.who != who) &&
  (((s.chip 0).cluster (unitCluster w asid off)).l2tlb.find? (fun e => e.covers asid off && (e.refuse k).isNone)).map (fun e => e.target off) == some tg

/-- Every L2 TLB of a package translates as that of cluster 0 does. -/
def served (c : Chip) : Chip := (List.range 16).foldl (fun c k => c.setCluster k { c.cluster k with l2tlb := (chipT.cluster 0).l2tlb }) c

/-- Wave 0, as `f` makes it, of a grid in fixed gear, with its turn at slot A; `g` changes the package. -/
def fixedT (f : Wave → Wave) (g : Chip → Chip) : State :=
  let c := chipT.setWave 0 (f { placedWave with turn := some (.A, 0) })
  onChip (g { c with grids := tmap c.grids (fun _ g => { g with kern := { g.kern with fgear := true } }) })

/-- It is the turn of `x`, whose buffer is empty and which nothing earlier of its grid holds back: see `Iss.atTurn`. -/
def atTurnB (x : Iss) (s : State) (l : List (Target × Nat)) : Bool := x.myTurn && (!x.fg || x.w.buf.isEmpty) && x.fgClear s l

/-- The operation is one that its encoding admits, and its context meets `p`. -/
def issues (f : Ops → Form) (o : Ops) (s : State) (p : Iss → Bool) : Bool := (f o).legal o && (issOf (f o) o s).any p

/-- A 64-bit value in the uniform pair from `n` on. -/
def setPair (n v : Nat) (w : Wave) : Wave :=
  { w with s := tset (tset w.s n { UReg.zero with val := BitVec.ofNat 32 v }) (n + 1) { UReg.zero with val := BitVec.ofNat 32 (v / 2 ^ 32) } }

/-- A plain operation on lane registers. -/
def opsL (ty : Ty) : Ops := opsOn (.lane 8) (.lane 4) (.lane 12) .none ty 0

/-- The same with a third source. -/
def opsL3 (ty : Ty) : Ops := opsOn (.lane 8) (.lane 4) (.lane 12) (.lane 16) ty 0

/-- The same with one source. -/
def opsL1 (ty : Ty) : Ops := opsOn (.lane 8) (.lane 4) .none .none ty 0

/-- An operation with no operand. -/
def ops0 (word : Word) : Ops := opsOn .none .none .none .none .b32 word

/-- An operation of format M: scope and modifier in SRCC (R216). -/
def opsM (d a b : Operand) (scope mmod : Nat) (ty : Ty) (word : Word) : Ops := opsOn d a b (.bits (BitVec.ofNat 10 (scope * 128 + mmod))) ty word

/-! ## Decoding (R135, R139 to R143, R148, R321) -/

/-- The worked words of the spec, one of each family of wave instructions. -/
theorem test_decode_wave :
    decodeWave 0x010700100100B00400000000 = .ok (.add (opsOn (.lane 4) (.lane 1) (.lane 2) .none .i32 0)) ∧
    decodeWave 0x0307080400C0700420000010 = .ok (.cmp (opsOn (.pred 1) (.lane 0) (.imm .v32) .none .i32 0x20000010)) ∧
    decodeWave 0xC031800700C03FF0FFFFFFF8 =
      .ok (.call { opsOn (.bits 1) .none .none (.bits 0x3FF) .b32 0xFFFFFFF8 with guard := { neg := false, p := 1 }, hs := true }) ∧
    decodeWave 0x4007001803C0300A00000000 = .ok (.rcp (opsOn (.lane 6) (.lane 3) .none .none .f32 0)) ∧
    decodeWave 0x413704100280F00A60000000 = .ok (.redW (opsOn (.unif 4) (.lane 2) (.pred 3) .none .f32 0x60000000)) ∧
    decodeWave 0x80470C010043000100000001 = .ok (.st (opsOn .none (.unif 0) (.unif 12) (.bits 0) .b64 1)) ∧
    decodeWave 0x824780281400C00400000010 = .ok (.ratom { opsOn (.lane 10) (.lane 20) (.lane 3) (.bits 0) .i32 16 with hs := true }) ∧
    decodeWave 0x842704511043040000000000 = .ok (.get (opsOn (.unif 20) (.unif 16) (.unif 12) (.bits 0x40) .b32 0)) := by decide

/-- See `test_decode_wave`. -/
theorem test_decode_wave_system :
    decodeWave 0x88070C01084250A000200F00 = .ok (.mma (opsOn .none (.unif 8) (.unif 9) (.unif 10) .b32 0x00200F00)) ∧
    decodeWave 0x890704121241700C00000000 = .ok (.collAllreduce (opsOn (.unif 4) (.handle 2) (.unif 5) .none .bf16 0)) ∧
    decodeWave 0xC1070C0300C030000000002A = .ok (.trap (ops0 42)) ∧
    decodeWave 0xC12704124FC0300000000000 = .ok (.getsr (opsOn (.unif 4) (.sreg .einfo1) .none .none .b32 0)) ∧
    decodeWave 0xC307001000C0300A00006080 = .ok (.apxBegin (opsOn (.lane 4) (.lane 0) .none .none .f32 0x6080)) ∧
    decodeWave 0xC32704410643300000000011 = .ok (.apxCtlRegister (opsOn (.unif 16) (.unif 6) (.unif 12) .none .b32 0x11)) ∧
    decodeWave 0xC0570C0300C0300000000000 = .ok (.exit (ops0 0)) ∧ decodeWave 0xC0070C0300C0300000000000 = .ok (.nop (ops0 0)) := by decide

/-- The worked stream commands of R335. -/
theorem test_decode_stream :
    decodeCmd 0x2078000000000060 = .ok (.ldq 1 14 96) ∧ decodeCmd 0x3010000000000000 = .ok (.layout 0 1) ∧
    decodeCmd 0x08C0000000000003 = .ok (.setq 3 3) ∧ decodeCmd 0x6823000000000000 = .ok (.target 0 2 3) ∧
    decodeCmd 0x7070000000000001 = .ok (.arm 7 1) ∧ decodeCmd 0x5000040000000000 = .ok (.fetchs false 0 0 0 1) ∧
    decodeCmd 0x4040000000000000 = .ok (.stepix 0 1) ∧ decodeCmd 0x89000000FFFFFFFE = .ok (.loop 4 0xFFFFFFFE) ∧
    decodeCmd 0xBC00000000000000 = .ok (.halt true) := by decide

/-- One ill-formed operation for each check of `Form.legal`, each of which the check refuses: an unaccepted type; HSTAT where it is
reserved; each operand class; an odd pair; a selector of the wrong width; a narrow immediate out of its pattern; two immediates; EMODE at no
register; a lane source of a uniform destination; a reserved WORD, a displacement of no operand; a scope of 5; a modifier; a frame of 0. -/
theorem test_ill_formed :
    [Instr.fadd (opsL .i32), .and { opsL .b32 with hs := true }, .add { opsL .i32 with d := .handle 1 }, .add { opsL .i32 with a := .handle 1 },
      .add { opsL .i32 with b := .sreg .lane }, .add { opsL .i32 with c := .lane 4 }, .add { opsL .i64 with d := .lane 3 },
      .add { opsL .i32 with a := .imm .sx64 }, .add { opsL .i8 with a := .imm .v32, word := 0x80 },
      .mad { opsL3 .i32 with a := .imm .v32, b := .imm .v32 }, .add { opsL .i32 with a := .imm .v32, em := 4 },
      .add { opsL .i32 with d := .unif 4 }, .add { opsL .i32 with word := 1 }, .add { opsL .i32 with a := .indexed 0, word := 0x100 },
      .fence (opsM .none .none .none 5 0 .b32 0), .ld (opsM (.lane 4) (.unif 2) .none 0 1 .b32 0),
      .ret (opsOn (.bits 0x3FF) .none .none .none .b32 0), .fetchs false 0 0 4 3].map Instr.wf = List.replicate 18 false := by decide

/-- The well-formed forms beside them are accepted. -/
theorem test_well_formed :
    [Instr.fadd (opsL .f32), .and (opsL .b32), .add { opsL .i32 with hs := true }, .add { opsL .i32 with a := .imm .v32, word := 0x80000000 },
      .add { opsL .i8 with a := .imm .v32, word := 0x7F }, .add { opsL .i32 with a := .indexed 0, word := 0xFF }, .add (opsOn (.unif 4) (.unif 1) (.unif 2) .none .i32 0),
      .fence (opsM .none .none .none 4 0 .b32 0), .fetchs false 0 0 3 3].map Instr.wf = List.replicate 9 true := by decide

/-- An encoder's word is the spec's, and a table word is what its length says (R128, R321). -/
theorem test_encode :
    encode (.add (opsOn (.lane 4) (.lane 1) (.lane 2) .none .i32 0)) = some 0x010700100100B00400000000 ∧
    encode (.ldq 1 14 96) = some 0x2078000000000060 ∧ encode (.promotion 0 0 .A) = none ∧
    decodeTableWord 64 0x08C0000000000003 = some (.setq 3 3) ∧ decodeTableWord 96 0xC0070C0300C0300000000000 = some (.nop (ops0 0)) ∧
    decodeTableWord 96 0 = none := by decide

/-! ## States that meet the hypotheses of the statements -/

/-- IntegerAndBitOperations: every clause. -/
theorem meets_integer :
    ([(formAddSub, opsL .i32), (formAddSub, { opsL .i64 with hs := true }), (formInt2 tysInt true, opsL .i32), (formInt2 tysInt false, opsL .n64),
      (formInt3 tysInt true, opsL3 .i32), (formInt3 tysInt false, opsL3 .n32), (formInt1 [.i8, .i16, .i32, .i64] true, opsL1 .i8),
      (formInt1 tysInt true, opsL1 .i64), (formAdd64, opsL .i32), (formLea, { opsL .n32 with word := 31 }), (formKadd, opsL .i64),
      (formLogic2, opsL .b64), (formLogic1, opsL1 .b32), (formShift, opsL .b32), (formCount, opsL1 .b64), (formInt1 tysRaw false, opsL1 .b32),
      (formBfx, opsL .i64), (formBfi, opsL3 .b64)] : List ((Ops → Form) × Ops)).all
      (fun e => issues e.1 e.2 stateT (fun x => x.calm stateT)) = true := by decide +kernel

/-- PredicatesSelectAndMove: every clause. -/
theorem meets_predicates :
    ([(formLogic2, opsOn (.pred 7) (.pred 0) (.pred 1) .none .b32 0), (formLogic1, opsOn (.pred 1) (.pred 0) .none .none .b32 0),
      (formCmp, { opsL .i32 with d := .pred 1, word := 0x50000000 }), (formFcmp, { opsL .f32 with d := .pred 1 }),
      (formDmask, { opsL .n16 with d := .pred 1, c := .lane 16 }), (formSel, { opsL .i8 with c := .pred 2 }), (formMov, opsL1 .b64),
      (formMovi, opsOn (.lane 8) .none .none (.bits 0x3FF) .b64 0xFFFFFFFF)] : List ((Ops → Form) × Ops)).all
      (fun e => issues e.1 e.2 stateT (fun x => x.calm stateT)) = true := by decide +kernel

/-- FloatOperations: every clause. -/
theorem meets_float :
    ([(formFadd, opsL .f32), (formFadd, { opsL .bf16 with hs := true }), (formFfma, opsL3 .f16), (formFscale, opsL .f32), (formFmin, opsL .f16),
      (formSf true, { opsL1 .f32 with hs := true }), (formSf false, opsL1 .f32), (formFfma2, opsL3 .f32), (formHfma2, opsL3 .f16),
      (formFcvt, { opsL1 .i8 with word := 10 * 2 ^ 24 }), (formDot4, opsL3 .n32), (formFamax, opsL1 .f32),
      (formFqb, { opsL1 .f32 with word := 0 })] : List ((Ops → Form) × Ops)).all
      (fun e => issues e.1 e.2 stateT (fun x => x.calm stateT)) = true := by decide +kernel

/-- CrossLaneAndGenerator: every clause. -/
theorem meets_cross :
    ([(formShfl, opsL .b32), (formVote, opsOn (.unif 4) (.pred 1) .none .none .b32 0), (formRfal, opsOn (.unif 4) (.lane 4) .none .none .b32 0),
      (formRedW, opsOn (.unif 4) (.lane 2) (.pred 3) .none .f32 0x60000000), (formScan, { opsL1 .n64 with word := 0x08000000 }),
      (formMatch, { opsL1 .b64 with d := .lane 3 }), (formKcg, opsL .b32)] : List ((Ops → Form) × Ops)).all
      (fun e => issues e.1 e.2 stateT (fun x => x.calm stateT)) = true := by decide +kernel

/-- A wave half of whose lanes have p0 true. -/
def halfT : State := onWave (fun w => { w with p := [(0, 0xFFFF)] })

/-- A wave whose window stands below the top by a frame of 8, whose last pair holds 0x10000. -/
def calledT : State :=
  onWave (fun w => { w with
    slotA := w.slotA.map (fun q => { q with wbase := w.D - 8 })
    v := [(w.D - 2, { LaneReg.zero with vals := List.replicate 32 0x10000 }), (w.D - 1, LaneReg.zero)] })

/-- In handler mode, to resume at 0x10000. -/
def handlerT : State := onWave (fun w => { setPair 8 0x10000 w with cause := 0x8030, epc := 0x10000 })

/-- See `setPair`. -/
def setPairs (w : Wave) : Wave := setPair 8 0x10000 w

/-- Slot B holds a path of the upper 16 lanes at `pc`, in the wait `v`, slot A the lower 16 at 0x10000. -/
def besideT (pc : DWord) (v : Wait) (f : Wave → Wave) : State :=
  onWave (fun w => f { w with
    slotA := w.slotA.map (fun q => { q with mask := 0xFFFF })
    slotB := w.slotA.map (fun q => { q with pc := pc, mask := 0xFFFF0000, wait := v }) })

/-- A path stands in the heap. -/
def heapedT (pc h : DWord) : State :=
  let p := placedWave.slotA.map (fun q => { q with pc := h, mask := 0xF0000000 })
  besideT pc .none (fun w => { w with heap := p.toList, heapRes := 1, slotB := w.slotB.map (fun q => { q with mask := 0xFFF0000 }) })

/-- The same, where every slot of the line is a check point (R129), and the operation is a word of its own. -/
def checked (s : State) : State :=
  alone (s.modChip 0 (fun c => { c with dram := memPut c.dram 0x10000 (leBytes 64 (lineOf nopWord + 30 * 2 ^ 480)) }))

/-- TransfersAndExit: every clause about paths that part, meet or take one another's place. -/
theorem meets_divergence :
    let br := { opsOn .none .none .none (.bits 0) .b32 0 with guard := { neg := false, p := 0 }, hs := true }
    let parts := fun (x : Iss) => x.ready && !x.w.hmode && x.w.heap.isEmpty && x.w.heapRes == 0 && x.exe != 0 && x.exe != x.q.mask &&
      x.legalTarget x.dispTarget && x.dispTarget != x.nextPc
    let half := onWave (fun w => { w with p := [(0, 0xFFFF)] })
    let waiting := besideT 0x10040 (.polling false) (fun w => { w with p := [(0, 0xFF)] })
    [issues formBr br half (fun x => parts x && (x.w.path? x.sl.other).isNone),
     issues formBr br waiting (fun x => parts x && (x.w.path? x.sl.other).any Path.waiting && decide (0 < x.w.heapDepth)),
     issues (fun _ => formBare false) (ops0 0) (checked (besideT 0x10001 .none id)) (fun x => x.ready && !x.w.hmode && x.half == .single && x.w.heap.isEmpty &&
       x.w.heapRes == 0 && (checked (besideT 0x10001 .none id)).cpOf x.p x.w x.nextPc && (x.w.path? x.sl.other).any (fun y => y.pc == x.nextPc && y.wbase == x.q.wbase && !y.waiting)),
     issues (fun _ => formBare false) (ops0 0) (checked (heapedT 0x10003 0x10000)) (fun x => x.ready && !x.w.hmode && x.half == .single &&
       (x.w.heap.map (fun h => (h.late, h.pc))) == [(false, 0x10000)] && x.w.heapRes == 1 && decide (0 < x.w.heapDepth) && (checked (heapedT 0x10003 0x10000)).cpOf x.p x.w x.nextPc &&
       (x.w.path? x.sl.other).any (fun y => y.pc != x.nextPc) && decide (0x10000 < x.nextPc.toNat)),
     issues (fun _ => formBare false) (ops0 0) (alone (heapedT 0x10001 0x10000)) (fun x => x.ready && x.half == .single && x.w.heap.all (fun h => !h.late) && x.w.heapRes == 1 &&
       (x.w.path? x.sl.other).any (fun y => !(alone (heapedT 0x10001 0x10000)).cpOf x.p x.w y.pc) && x.exe == x.q.mask && x.exe != 0)].all id = true := by decide +kernel

/-- TransfersAndExit: every other clause. -/
theorem meets_transfers :
    [issues (fun _ => formBare false) (ops0 0) stateT (fun x => x.calm stateT),
     issues formBr { opsOn .none .none .none (.bits 0) .b32 0 with guard := { neg := false, p := 0 } } stateT (fun x => x.exe == 0 && x.calm stateT),
     issues formBr (opsOn .none .none .none (.bits 0) .b32 0) stateT
       (fun x => x.clearAt x.dispTarget x.q.wbase && x.exe == x.q.mask && x.exe != 0 && x.legalTarget x.dispTarget),
     issues formBrx (opsOn .none (.unif 8) .none .none .b32 0) (besideT 0x10004 .none setPairs) (fun x => x.clearAt 0x10000 x.q.wbase && x.exe == x.q.mask && x.exe != 0 &&
       (lanesOf x.exe).all (fun k => x.dword .a k == 0x10000) && x.legalTarget 0x10000),
     issues formCall (opsOn (.bits 1) .none .none (.bits 0) .b32 0) stateT (fun x => x.clearAt 0x10000 (x.q.wbase - frameOf x.o) && x.exe == x.q.mask && x.exe != 0 &&
       (lanesOf x.exe).all (fun k => x.goal k == 0x10000) && x.legalTarget 0x10000 && decide (frameOf x.o ≤ x.w.L ∧ frameOf x.o ≤ x.q.wbase) &&
       x.frameFull (x.q.wbase - frameOf x.o) (frameOf x.o)),
     issues formRet (opsOn (.bits 1) .none .none .none .b32 0) calledT (fun x => x.clearAt 0x10000 (x.q.wbase + frameOf x.o) && x.exe == x.q.mask && x.exe != 0 &&
       decide (x.q.wbase + frameOf x.o ≤ x.w.D) && x.frameFull x.q.wbase (frameOf x.o) &&
       [x.q.wbase + frameOf x.o - 2, x.q.wbase + frameOf x.o - 1].all (fun r => !(x.frameReg r).err) &&
       (lanesOf x.exe).all (fun k => dword ((x.frameReg (x.q.wbase + frameOf x.o - 2)).vals.getD k 0)
         ((x.frameReg (x.q.wbase + frameOf x.o - 1)).vals.getD k 0) == 0x10000) && x.legalTarget 0x10000),
     issues (fun _ => formBare false) { ops0 0 with guard := { neg := false, p := 0 } } (alone halfT) (fun x => x.exe != 0 && x.exe != x.q.mask && x.calm (alone halfT) && x.half != .first),
     issues (fun _ => formBare false) (ops0 0) stateT (fun x => x.exe != 0 && x.lone && x.exe == x.q.mask)].all id = true := by decide +kernel

/-- TrapEntry: every clause. -/
theorem meets_trap_entry :
    [issues formTrap { ops0 7 with guard := { neg := false, p := 0 } } stateT (fun x => !x.go && x.calm stateT),
     issues formTrap (ops0 0xFFFF) (alone stateT) (fun x => x.go && x.ready && x.half == .single && !x.w.hmode && !x.w.dbg.getLsbD 1 &&
       ((x.c.kernOf x.w).map LaunchRec.trapPc) == some 0x10000 && x.c.trapEntryOk stateT.tick x.w.core (x.c.asidOf x.w.grow) 0x10000),
     issues formTrap (ops0 0) (alone (onWave (fun w => { w with dbg := 2 }))) (fun x => x.go && x.half == .single && x.ready && x.w.dbg.getLsbD 1 &&
       x.calm (alone (onWave (fun w => { w with dbg := 2 }))))].all id = true := by decide +kernel

/-- ReturnFromTrap: every clause. -/
theorem meets_return :
    [issues formTrapRes (ops0 0x40000001) handlerT (fun x => x.lone && x.go && x.w.hmode),
     issues formTrapRet (opsOn .none (.unif 8) .none .none .b32 0x80000000) handlerT (fun x => x.lone && x.go && x.w.hmode && x.legalTarget (x.dword .a 0)),
     (issOf (formBare true) (ops0 0x40000000) stateT).any
       (fun x => !x.w.hmode && x.ready && x.half != .single),
     (issOf (formBare true) (ops0 0x40000000) (alone stateT)).any (fun x => !x.w.hmode && x.ready && x.half == .single &&
       ((x.c.kernOf x.w).map LaunchRec.trapPc) == some 0x10000 && x.c.trapEntryOk stateT.tick x.w.core (x.c.asidOf x.w.grow) 0x10000)].all id = true := by decide +kernel

/-- SystemInstructions: every clause. -/
theorem meets_system :
    [issues formGetsr (opsOn (.lane 8) (.sreg .lane) .none .none .b32 0) stateT (fun x => x.calm stateT),
     issues (fun _ => { d := Opd.u 2, once := true }) (opsOn (.unif 8) .none .none .none .b32 0) stateT (fun x => x.calm stateT),
     issues formSetsr (opsOn (.sreg .flags) (.unif 8) .none .none .b32 0) stateT (fun x => x.calm stateT),
     issues formSetsr (opsOn (.sreg .lane) (.unif 8) .none .none .b32 0) stateT (fun x => x.calm stateT),
     issues (fun _ => { modOk := fun w => w < 256, once := true }) (ops0 255) stateT (fun x => x.calm stateT && x.go),
     issues (fun _ => formBare true) (ops0 0) stateT (fun x =>
       let y : Iss := { x with q := { x.q with line := none } }
       x.ready && x.go && y.calmAfter (stateT.modChip x.p (fun c => (c.setCore x.w.core { c.core x.w.core with icache := [], icBad := [], icMet := [] }).modWave x.wid
         (fun w => w.setPath x.sl (some y.q))))),
     issues (fun _ => { modOk := fun w => w == 1, once := true }) (ops0 1) stateT (fun x =>
       let y : Iss := { x with q := { x.q with line := none } }
       x.ready && x.go && y.calmAfter (stateT.modChip x.p (fun c => { c with cores := tmap c.cores (fun _ k => { k with icache := [], icBad := [], icMet := [] }) }.modWave x.wid
         (fun w => w.setPath x.sl (some y.q))))),
     issues (fun _ => formBare true) (ops0 0) stateT (fun x => x.calm stateT && x.myTurn),
     issues (fun _ => formBare true) (ops0 0) (fixedT (fun w => { w with turn := none }) id) (fun x => !x.myTurn && !x.q.waiting)].all id = true := by decide +kernel

/-- The accesses of `x` have targets and nothing keeps them (as `Iss.Global` asks). -/
def reaches (x : Iss) (s : State) (k : AccessKind) (n : Nat) : Bool :=
  !x.outLanes.isEmpty && !x.c.throttled x.r x.sl && (x.globalTrap (x.outLanes.map (fun l => (l, x.gaddr l))) n).isNone &&
  (match x.translate s k (x.outLanes.map (fun l => (l, x.gaddr l))) with | .ok _ => true | .error _ => false)

/-- The local accesses of `x` have targets that no array command keeps. -/
def reachesLocal (x : Iss) (write : Bool) (n : Nat) : Bool :=
  match x.localTargets (x.outLanes.map (fun l => (l, x.laddr l))) n n with
  | .ok ts => !x.arrayHolds write ts n
  | .error _ => false

/-- Line 0 of DRAM stands in the L1 of core 0. -/
def cachedT : State := onChip (chipT.setCore 0 { chipT.core 0 with l1 := [{ line := 0, data := List.replicate 128 7, filler := 0 }] })

/-- A wave that runs one lane, in an open region. -/
def soloT : State := onWave (fun w => { w with slotA := w.slotA.map (fun q => { q with mask := 1 }) })

/-- Loads: every clause, the quick load among them. -/
theorem meets_loads :
    [issues (formLoad [.lane] [.lane, .unif] 2) (opsM (.lane 8) (.lane 4) .none 0 64 .b32 0x3FFFFFF0) stateT (fun x => x.calm stateT && reaches x stateT .load 16 &&
       !x.hitBad (.dram 0x3FFFFFF0) 16),
     issues (formLoad [.lane] [.lane, .unif] 2) (opsM (.lane 8) (.lane 4) .none 0 0 .i8 127) cachedT (fun x => x.calm cachedT && reaches x cachedT .load 1 &&
       (x.hitBytes (.dram 127) 1).isSome && !(x.c.cluster 0).fused),
     issues (formLoad [.unif] [.unif] 2) (opsM (.unif 8) (.unif 4) .none 0 0 .b64 0) stateT (fun x => x.calm stateT && reaches x stateT .load 8),
     issues (formLoad [.lane, .unif] [.lane, .unif] 1) (opsM (.lane 8) (.lane 4) .none 0 0 .n16 0xFFE) stateT (fun x => x.calm stateT && reachesLocal x false 2 && (x.localTargets (x.outLanes.map (fun l => (l, x.laddr l))) 2 2).toOption.any (fun ts =>
       ts.all (fun e => (stateT.readTgt x.p e.2 2).isSome)))
     ].all id = true := by decide +kernel

/-- Stores: both instructions. -/
theorem meets_stores :
    [issues (formStore 2) (opsM .none (.lane 4) (.lane 8) 0 64 .b32 0) stateT (fun x => x.calm stateT && reaches x stateT .store 16),
     issues (formStore 2) (opsM .none (.lane 4) (.lane 8) 0 0 .b64 0) (fixedT id id) (fun x => x.calm (fixedT id id) && x.fg && reaches x (fixedT id id) .store 8 &&
       !x.loadLeft (.dram 0) 8),
     issues (formStore 1) { opsM .none (.unif 4) (.unif 8) 0 0 .n8 0xFFF with guard := { neg := true, p := 7 } } stateT (fun x => x.calm stateT && x.outLanes.isEmpty),
     issues (formStore 1) (opsM .none (.unif 4) (.unif 8) 0 0 .n8 0xFFF) stateT (fun x => x.calm stateT && reachesLocal x true 1)].all id = true := by
  decide +kernel

/-- Lane register 4 is empty; register 12 has an error in lane 3. -/
def brokenT : State :=
  onWave (fun w => { w with v := [(w.D + 4, { LaneReg.zero with full := false }), (w.D + 12, { LaneReg.zero with err := true, mask := 8 })] })

/-- OperandAndAccessTraps: each check of an operand. -/
theorem meets_operand_traps :
    let empty := fun (x : Iss) (ps : Pos) => x.badAt ps == 0 && (x.refsAt ps).any (fun r => !x.r.isFull r)
    let pending := fun (x : Iss) => srcPos.any (fun ps => !x.emode ps && empty x ps) || x.badAt .d == 0 && (x.refsAt .d).any (fun r => !x.w.isFull r)
    let mk := fun (a b : Operand) => opsOn (.lane 8) a b .none .i32 0
    let add := fun (o : Ops) (s : State) (p : Iss → Bool) => issues formAddSub o s (fun x => !x.q.waiting && p x)
    [add (mk (.lane 4) (.lane 12)) brokenT pending, add { mk (.lane 12) (.lane 12) with d := .lane 4 } brokenT pending,
     add (mk (.lane 16) (.lane 255)) (onWave (fun w => { w with L := 128 })) (fun x => !pending x && x.badAt .a == 0 && x.badAt .b != 0),
     add { mk (.lane 16) (.lane 4) with em := 2 } brokenT (fun x => !pending x && [Pos.a, .b, .c, .d].all (fun q => x.badAt q == 0) && !empty x .a && empty x .b),
     add (mk (.lane 16) (.lane 12)) brokenT (fun x => !pending x && [Pos.a, .b, .c, .d].all (fun q => x.badAt q == 0) && srcPos.all (fun q => !empty x q) &&
       (x.refsAt .a).all (fun r => !x.r.isErr r) && (x.refsAt .b).any x.r.isErr),
     issues formBrx (opsOn .none (.unif 8) .none .none .b32 0) (onWave (fun w => { w with s := [(9, { UReg.zero with full := false })] })) (fun x => !x.q.waiting && pending x),
     issues (formLoad [.lane] [.lane, .unif] 2) (opsM (.lane 8) (.lane 4) .none 0 0 .b32 0) brokenT (fun x => !x.q.waiting && pending x),
     issues formRed (opsM .none (.lane 4) (.lane 12) 0 64 .f32 0) (fixedT (fun w => { w with v := [(w.D + 12, { LaneReg.zero with err := true, mask := 8 })] }) id)
       (fun x => !x.q.waiting && x.fg && x.myTurn && !pending x && (x.refsAt .b).any x.r.isErr)].all id = true := by decide +kernel

/-- OperandAndAccessTraps: an address of another chip, a misaligned one, one outside the allocation. -/
theorem meets_access_traps :
    [issues (formLoad [.lane] [.lane, .unif] 2) (opsM (.lane 8) (.unif 4) .none 0 0 .b32 0) (onWave (setPair 4 (2 ^ 48))) (fun x => x.ready &&
       !x.c.throttled x.r x.sl && x.outLanes.any (fun k => x.c.offChip (x.gaddr k))),
     issues (formLoad [.lane] [.lane, .unif] 2) (opsM (.lane 8) (.unif 4) .none 0 0 .b32 2) stateT (fun x => x.ready && !x.c.throttled x.r x.sl &&
       x.outLanes.all (fun k => !x.c.offChip (x.gaddr k)) && x.outLanes.any (fun k => x.gaddr k % 4 ≠ 0)),
     issues (formStore 1) (opsM .none (.unif 4) (.unif 8) 0 0 .b32 0x1000) stateT (fun x => x.ready &&
       x.outLanes.any (fun k => (x.c.localAt x.w.blk (x.laddr k) 4).isNone)),
     issues (formAtom 1) (opsM (.lane 8) (.unif 4) (.lane 12) 0 0 .i32 2) stateT (fun x => x.ready &&
       x.outLanes.all (fun k => (x.c.localAt x.w.blk (x.laddr k) 4).isSome) && x.outLanes.any (fun k => x.laddr k % 4 ≠ 0))].all id = true := by
  decide +kernel

/-- One lane of a wave in fixed gear. -/
def fixedSolo : State := fixedT (fun w => { w with slotA := w.slotA.map (fun q => { q with mask := 1 }) }) id

/-- An atomic of that lane, on 8 bytes at 8, at its turn. -/
def fixedAtom (f : Ops → Form) (o : Ops) (p : Iss → Bool) : Bool :=
  issues f o fixedSolo (fun x => x.calm fixedSolo && x.fg && atTurnB x fixedSolo [(.dram 8, 8)] && x.outLanes == [0] && reaches x fixedSolo .atomic 8 &&
    (match x.translate fixedSolo .atomic [(0, x.gaddr 0)] with | .ok l => l == [(0, .dram 8)] | .error _ => false) &&
    (fixedSolo.readTgt 0 (.dram 8) 8).isSome && fixedSolo.canWrite 0 (.dram 8) 8 && p x)

/-- AtomicsIssue: every clause. -/
theorem meets_atomics :
    [issues (formAtom 2) { opsM (.lane 8) (.lane 4) (.lane 12) 0 0 .n64 0 with hs := true } stateT (fun x => x.calm stateT && !x.fg &&
       reaches x stateT .atomic 8 && !x.ordBlocked),
     issues formRed (opsM .none (.lane 4) (.lane 12) 0 64 .f32 0) stateT (fun x => x.calm stateT && !x.fg && reaches x stateT .atomic 4),
     issues formGath (opsM (.lane 8) (.lane 4) (.lane 12) 0 7 .b32 0) stateT (fun x => x.calm stateT && !x.fg && !x.outLanes.isEmpty &&
       !x.c.throttled x.r x.sl &&
       x.outLanes.all (fun k => !x.c.offChip (x.gaddr k) && x.gaddr k % 4 == 0 && (x.gathAddrs k).all (fun a => !x.c.offChip a)) &&
       (match x.translate stateT .load (x.outLanes.flatMap (fun k => (x.gathAddrs k).map (fun a => (k, a)))) with | .ok _ => true | .error _ => false)),
     fixedAtom (formAtom 2) { opsM (.lane 8) (.lane 4) (.lane 12) 0 0 .n64 8 with hs := true } (fun x => !x.ordBlocked),
     fixedAtom formRed (opsM .none (.lane 4) (.lane 12) 0 0 .n64 8) (fun _ => true)].all id = true := by decide +kernel

/-- LocalAtomic: a compare-and-swap of one lane, ordered, on the last word of the allocation, outside and in fixed gear. -/
theorem meets_local_atomic :
    [soloT, fixedSolo].all (fun s =>
      issues (formAtom 1) { opsM (.lane 8) (.lane 4) (.lane 12) 0 56 .b32 0xFFC with hs := true } s (fun x => x.calm s && x.w.buf.isEmpty &&
        atTurnB x s [(.loc 0 false 0xFFC, 4)] && !x.ordBlocked && x.outLanes == [0] &&
        (match x.localTargets [(0, x.laddr 0)] 4 4 with
          | .ok l => l == [(0, .loc 0 false 0xFFC)] && !x.arrayHolds true l 4 && (s.readTgt x.p (.loc 0 false 0xFFC) 4).isSome
          | .error _ => false) && x.w.ordSeq.isEmpty && (s.chip x.p).pend.all (fun a => !a.own x.wid x.q.mask))) = true := by decide +kernel

/-- AtomicWords: the hypotheses of both clauses, at their boundaries. -/
theorem meets_atomic_words :
    Ty.i64.width ∈ [32, 64] ∧ 2 ^ 64 - 1 < 2 ^ Ty.i64.width ∧ Ty.n32.signed = false ∧ Ty.i64.signed = true ∧ 2 ^ 16 - 1 < 2 ^ 16 ∧ 0 < 1 := by decide

/-- A store, an atomic that returns and an ordered one, on DRAM. -/
def pendT : State := onChip { chipT with
  pend := [{ id := 1, seq := 1, wid := 0, pathMask := 1, kind := .store, ty := .b64, tgt := .dram 0x100, size := 8, data := 5, ordered := false, lane := 0, prod := none },
    { id := 2, seq := 2, wid := 0, pathMask := 1, kind := .atomic 0 0, ty := .n32, tgt := .dram 0x200, size := 4, data := 5, ordered := false, lane := 0, prod := some 9 },
    { id := 3, seq := 3, wid := 0, pathMask := 1, kind := .atomic 7 0, ty := .b64, tgt := .dram 0x300, size := 8, data := 5, ordered := true, lane := 0, prod := some 10 }]
  prods := [(9, { wid := 0, pathMask := 1, kind := .atomic, dests := [(0, [.v 136])], res := [] }),
    (10, { wid := 0, pathMask := 1, kind := .atomic, dests := [(0, [.v 138, .v 139])], res := [] })]
  waves := tset chipT.waves 0 { placedWave with ordSeq := [10] } }

/-- AccessPerformed: a store, an atomic and an ordered one that nothing holds back; a poisoned line. -/
theorem meets_performed :
    ((pendT.chip 0).pend.all (fun a => (pendT.chip 0).pend.find? (fun b => b.id = a.id) == some a && decide (a.size ≤ 8) &&
      (a.kind == .store || a.size == a.ty.width / 8) && !(pendT.chip 0).behind a && a.ctrl == none && (pendT.chip 0).ordDue a &&
      pendT.canWrite 0 a.tgt a.size && (pendT.readTgt 0 a.tgt a.size).isSome &&
      (match a.prod with | some i => (tfind (pendT.chip 0).prods i).isSome | none => true)) &&
    ({ pendT.chip 0 with poison := [2] } : Chip).isPoisoned 0x100) = true := by decide +kernel

/-- ProducerLands: a producer of two lanes, one of which has failed. -/
theorem meets_producer :
    let pr : Producer := { wid := 0, pathMask := 3, kind := .atomic, dests := [(0, [.v 136, .v 137]), (1, [.v 136, .v 137])],
                           res := [(0, .ok [1, 2]), (1, .fail 3)] }
    (pr.res.map (·.1)).Nodup ∧ (pr.dests.map (·.1)).Nodup ∧ (∀ d ∈ pr.dests, d.1 < 32 ∧ d.2.Nodup) ∧ ∀ n, (placedWave.lreg n).vals.length = 32 :=
  ⟨by decide, by decide, by decide, fun _ => rfl⟩

/-- The last read of a load of one lane, and a returning atomic whose lane has its result. -/
def readT : State := onChip { chipT with
  prods := [(5, { wid := 0, pathMask := 1, kind := .load .b32 4 true [{ lane := 0, tgts := [(0, .dram 0x40)], got := [], fwd := [] }],
                  dests := [(0, [.v 136])], res := [] }),
    (6, { wid := 0, pathMask := 1, kind := .atomic, dests := [(0, [.v 137])], res := [(0, .ok [1])] }),
    (7, { wid := 0, pathMask := 1, kind := .load .b32 4 false [], dests := [(0, [.v 138])], res := [(0, .ok [1])] })] }

/-- LoadsComplete: every clause. -/
theorem meets_loads_complete :
    (readT.chip 0).prods.all (fun e => readT.wave? 0 e.2.wid == some placedWave && !placedWave.ended && placedWave.saved == none &&
      (match e.2.kind with
        | .load _ size _ [l] => l.tgts.all (fun t => (readT.chip 0).readDue e.1 e.2 t.2 size) && e.2.dests.all (fun d => d.1 == l.lane)
        | _ => e.2.allDone)) = true := by decide +kernel

/-- The block changed by `f`, under a wave changed by `g`. -/
def onBlock (f : Block → Block) (g : Wave → Wave) : State :=
  let c := chipT.setWave 0 (g placedWave)
  onChip { c with blocks := tmap c.blocks (fun _ b => f b) }

/-- One more access of wave 0 to local memory on its way. -/
def busyT : State := onChip { chipT with
  pend := [{ id := 1, seq := 1, wid := 0, pathMask := 1, kind := .store, ty := .b32, tgt := .loc 0 false 0x800, size := 4, data := 5, ordered := false, lane := 0, prod := none }] }

/-- A load of wave 0 is outstanding. -/
def loadingT : State := onChip { chipT with
  prods := [(5, { wid := 0, pathMask := 1, kind := .load .b32 4 true [{ lane := 0, tgts := [(0, .dram 0x40)], got := [], fwd := [] }],
                  dests := [(0, [.v 136])], res := [] })] }

/-- An `ratom` of wave 0 is outstanding: an acquire waits for it, and a release of no pod scope does not. -/
def remoteT : State := onChip { chipT with prods := [(5, { wid := 0, pathMask := 1, kind := .remote, dests := [(0, [.v 136])], res := [] })] }

/-- The empty Fences-like operation at pod scope. -/
def fenceO : Ops := opsM .none .none .none 4 0 .b32 0

/-- In fixed gear, a wave with one store in its buffer. -/
def fixedBuf : State := fixedT (fun w => { w with buf := [{ tgt := .dram 0x1000, data := [1, 2, 3, 4], ty := .b32, quantum := 0 }] }) id

/-- Fences: a path with nothing outstanding, one with a store on its way, one with a load, one with a store in its buffer. -/
theorem meets_fences :
    [issues formFence fenceO fixedBuf (fun x => x.calm fixedBuf && x.go && x.fg && x.released (x.drain fixedBuf) 4 && x.acquired (x.drain fixedBuf) &&
       x.calmAfter (x.publish (x.drain fixedBuf) 4) && x.calmAfter (x.acquire (x.publish (x.drain fixedBuf) 4) 4) && x.acquired fixedBuf),
     issues formFence fenceO stateT (fun x => x.calm stateT && x.go && !x.fg && x.released stateT 4 && x.acquired stateT && x.calmAfter (x.publish stateT 4)),
     issues formFence fenceO busyT (fun x => x.calm busyT && x.go && !x.fg && !x.released busyT 4 &&
       (busyT.chip x.p).pend.any (fun a => a.wid == x.wid && a.pathMask &&& x.q.mask != 0)),
     issues formFence fenceO loadingT (fun x => x.calm loadingT && x.go && !x.fg && !x.acquired loadingT)].all id = true := by decide +kernel

/-- Beside the wave of `s`, a second one of its block, which waits at barrier 0; `f` changes it. -/
def barTwo (f : Wave → Wave) (s : State) : State :=
  let u := f { placedWave with wno := 1, slotA := placedWave.slotA.map (fun q => { q with wait := .bar .single 0 2 0 (some 1) }) }
  onChip (({ s.chip 0 with blocks := tmap chipT.blocks (fun _ b => { b with
    waves := [0, 1], bars := [(0, { arrived := [1], count := 2, fixed := true, phase := false })] }) }).setWave 1 u)

/-- See `barTwo`. -/
def barT : State := barTwo id stateT

/-- Wave 0, let go by a barrier in a word of one operation, or in the second of a pair, its lanes 0 and 1 waiting for a load where `busy`. -/
def freedT (half : Half) (busy : Bool) : State :=
  let w := { placedWave with slotA := placedWave.slotA.map (fun q => { q with wait := .freed half 4 (.pred 0 true) }) }
  onChip { chipT.setWave 0 w with prods := if busy then (loadingT.chip 0).prods else [] }

/-- BlockBarrier: the arrival that is not the last, the last of one, with its loads there and not, the last of two; a path let go. -/
theorem meets_barrier :
    [issues formBar (opsM (.pred 0) .none .none 1 31 .b32 0) stateT (fun x => x.calm stateT && x.go && atTurnB x stateT [] && x.w.path? x.sl.other == none &&
       x.released stateT 1 && x.calmAfter (x.publish stateT 1) && (tfind (stateT.chip 0).blocks 0).any (fun b => b.bars.isEmpty) && x.o.mmod % 32 + 1 == 32 && decide (((stateT.chip 0).waves.map (·.1)).Nodup)),
     issues formBar (opsM (.pred 0) .none .none 4 0 .b32 0) stateT (fun x => x.calm stateT && x.go && atTurnB x stateT [] && x.w.path? x.sl.other == none &&
       x.released stateT 4 && x.calmAfter (x.publish stateT 4) && x.o.mmod % 32 + 1 == 1 && x.acquired stateT),
     issues formBar (opsM (.pred 0) .none .none 0 0 .b32 0) remoteT (fun x => x.calm remoteT && x.go && atTurnB x remoteT [] && x.released remoteT 0 && !x.acquired remoteT &&
       x.calmAfter (x.publish remoteT 0) && (tfind (remoteT.chip 0).blocks 0).any (fun b => b.bars.isEmpty)),
     [barT, barTwo id (fixedT id id)].all (fun s =>
       issues formBar (opsM (.pred 0) .none .none 1 1 .b32 0) s (fun x => x.calm s && x.go && atTurnB x s [] && x.w.path? x.sl.other == none &&
         x.released s 1 && x.calmAfter (x.publish s 1) && x.acquired s && decide (((s.chip 0).waves.map (·.1)).Nodup) &&
         (tfind (s.chip 0).blocks 0).any (fun b => tget Bar.zero b.bars 0 == { arrived := [1], count := 2, fixed := true, phase := false }) &&
         (s.wave? 0 1).any (fun u => u.slotB == none && u.heap.isEmpty && u.slotA.any (fun q => q.wait == .bar .single 0 2 0 (some 1))))),
     issues formBar (opsM (.pred 0) .none .none 1 31 .b32 0) (fixedT id id) (fun x => x.calm (fixedT id id) && x.fg && atTurnB x (fixedT id id) [] && x.released (fixedT id id) 1),
     [Half.single, Half.second].all (fun h => [true, false].all (fun busy =>
       let s := freedT h busy
       (s.wave? 0 0).any (fun w => (w.path? .A).any (fun q => s.candidate 0 w .A && w.arrayTrap.isNone && (w.held .A).isEmpty && q.wait == .freed h 4 (.pred 0 true) &&
         (s.chip 0).acqReady 0 q.mask == !busy && w.slotB.isNone && w.heap.isEmpty && w.heapRes == 0 && !s.cpOf 0 w (pcNext q.pc (if h = .single then 1 else 2))))))].all id = true := by decide +kernel

/-- A block at whose last word an object of phase 1 and count 3 stands. -/
def objectT : State := onBlock (fun b => { b with mem := memPut [] 0xFF8 (leBytes 8 (2 ^ 63 + 3 * 2 ^ 32 + 2)) }) id

/-- The same with a load outstanding. -/
def objectBusyT : State := onChip { objectT.chip 0 with prods := (loadingT.chip 0).prods }

/-- In fixed gear an object of phase 1 with one arrival to come, on which wave 1 is parked. -/
def parkedT : State :=
  barTwo (fun u => { u with slotA := u.slotA.map (fun q => { q with wait := .pbar .single (.loc 0 false 0xFF8) true 1 }) })
    (fixedT id id) |>.modChip 0 (fun c => { c with blocks := tmap c.blocks (fun _ b => { b with mem := memPut [] 0xFF8 (leBytes 8 (2 ^ 63 + 3 * 2 ^ 32 + 1)), bars := [] }) })

/-- An object that an operation reaches. -/
def atObject (x : Iss) (tg : Target) : Bool :=
  (match x.object 8 with | .ok t => t == tg | .error _ => false) && !x.arrayHolds true [(0, tg)] 8

/-- PhaseBarriers: every clause. -/
theorem meets_phase_barriers :
    let o := fun (k m : Nat) (d b : Operand) => opsM d (.unif 4) b (if k = 0 then 0 else 1) m .b32 0xFF8
    [issues (formPbar 0) (o 0 0 .none (.unif 5)) objectT (fun x => x.calm objectT && x.go && atTurnB x objectT [(.loc 0 false 0xFF8, 8)] && !x.fg && atObject x (.loc 0 false 0xFF8)),
     issues (formPbar 1) (o 1 1 .none .none) objectT (fun x => x.calm objectT && x.go && atTurnB x objectT [(.loc 0 false 0xFF8, 8)] && !x.fg && atObject x (.loc 0 false 0xFF8) && x.released objectT 1 && x.calmAfter (x.publish objectT 1) &&
       (objectT.chip x.p).slotPaths.all (fun e => e.2.2.wait == .none)),
     issues (formPbar 2) (o 2 2 .none .none) objectT (fun x => x.calm objectT && x.go && atTurnB x objectT [(.loc 0 false 0xFF8, 8)] && !x.fg && atObject x (.loc 0 false 0xFF8) && x.acquired objectT &&
       nbit (ofLe (x.objectBytes objectT (.loc 0 false 0xFF8) 8)) 63 != pbarQ x.o),
     issues (formPbar 2) (o 2 2 .none .none) objectBusyT (fun x => x.calm objectBusyT && x.go && atTurnB x objectT [(.loc 0 false 0xFF8, 8)] && !x.fg && atObject x (.loc 0 false 0xFF8) && !x.acquired objectBusyT &&
       nbit (ofLe (x.objectBytes objectBusyT (.loc 0 false 0xFF8) 8)) 63 != pbarQ x.o),
     issues (formPbar 2) (o 2 6 .none .none) objectT (fun x => x.calm objectT && x.go && atTurnB x objectT [(.loc 0 false 0xFF8, 8)] && !x.fg && atObject x (.loc 0 false 0xFF8) &&
       nbit (ofLe (x.objectBytes objectT (.loc 0 false 0xFF8) 8)) 63 == pbarQ x.o),
     issues (formPbar 3) (o 3 3 (.pred 0) .none) objectT (fun x => x.calm objectT && x.go && atTurnB x objectT [(.loc 0 false 0xFF8, 8)] && !x.fg && atObject x (.loc 0 false 0xFF8) &&
       x.o.d.isPred && x.acquired objectT),
     issues (formPbar 0) (o 0 0 .none (.unif 5)) parkedT (fun x => x.calm parkedT && x.go && x.fg && atTurnB x parkedT [(.loc 0 false 0xFF8, 8)] && atObject x (.loc 0 false 0xFF8) &&
       parkedT.canWrite 0 (.loc 0 false 0xFF8) 8),
     issues (formPbar 1) (o 1 1 .none .none) parkedT (fun x => x.calm parkedT && x.go && x.fg && atTurnB x parkedT [(.loc 0 false 0xFF8, 8)] && atObject x (.loc 0 false 0xFF8) &&
       x.released parkedT 1 && x.calmAfter (x.publish parkedT 1) && decide (((parkedT.chip 0).waves.map (·.1)).Nodup) && x.wid != 1 &&
       fld (ofLe ((parkedT.readTgt 0 (.loc 0 false 0xFF8) 8).getD [])) 0 16 == 1 && nbit (ofLe ((parkedT.readTgt 0 (.loc 0 false 0xFF8) 8).getD [])) 63 &&
       (parkedT.wave? 0 1).any (fun u => u.slotB == none && u.slotA.any (fun q => q.wait == .pbar .single (.loc 0 false 0xFF8) true 1))),
     issues (formPbar 2) (o 2 6 .none .none) parkedT (fun x => x.calm parkedT && x.go && x.fg && atTurnB x parkedT [(.loc 0 false 0xFF8, 8)] && atObject x (.loc 0 false 0xFF8) &&
       nbit (ofLe (x.objectBytes parkedT (.loc 0 false 0xFF8) 8)) 63 == pbarQ x.o)].all id = true := by decide +kernel

/-- s8 to s11 hold a copy's source, length and tag, s4 and s5 its destination. -/
def copyT : State := onWave (fun w => { setPair 8 0x1000 (setPair 4 0x2000 w) with
  s := tset (setPair 8 0x1000 (setPair 4 0x2000 w)).s 10 { UReg.zero with val := 2 ^ 24 } })

/-- CopiesStart: every instruction, the longest length. -/
theorem meets_copies :
    ([(formCopy true true false false, false, false, none), (formCopy false true true false, true, false, none),
      (formCopy true false false false, false, true, none), (formCopy false true true true, true, false, some (0, .i32)),
      (formCopy true false false true, false, true, some (0, .i32))] : List ((Ops → Form) × Bool × Bool × Option (Nat × Ty))).all (fun e =>
      issues e.1 (opsM (.unif 16) (.unif 4) (.unif 8) 0 0 (if e.2.2.2.isSome then .i32 else .b32) 0) copyT (fun x =>
        x.calm copyT && x.go && atTurnB x copyT [] && (x.copyTrap e.2.1 e.2.2.1 e.2.2.2).isNone && decide (x.c.inFlight84 x.w.core < 512) && !copyInc x.o) &&
      (let s := fixedT (fun w => { placedWave with turn := w.turn, s := ((copyT.wave? 0 0).map Wave.s).getD [] }) id
       issues e.1 (opsM (.unif 16) (.unif 4) (.unif 8) 0 0 (if e.2.2.2.isSome then .i32 else .b32) 0) s (fun x =>
        x.calm s && x.go && x.fg && atTurnB x s [] && (x.copyTrap e.2.1 e.2.2.1 e.2.2.2).isNone))) = true := by decide +kernel

/-- A copy of one unit between two lines of DRAM, one whose units have ended with its producer, and a put that asks for its turn. -/
def unitT : State :=
  let k : CopyCmd :=
    { id := 7, wid := 0, blk := 0, core := 0, asid := 1, put := false, get := false, red := none, dl := false, sl := false, dst := 0x2000,
      src := 0x1000, len := 16, tag := 0x05000003, record := true, inc := false, granted := true, prod := 20, sent := [], finished := [], wrote := 0,
      failed := none, clock := 0, grow := 0 }
  onChip { chipT with
    copies := [k, { k with id := 8, sent := [0], finished := [0], wrote := 1, prod := 21 }, { k with id := 9, put := true, inc := true, granted := false, prod := 22 }]
    prods := [(20, { wid := 0, pathMask := 1, kind := .copy, dests := [(0, [.s 16])], res := [] }),
      (21, { wid := 0, pathMask := 1, kind := .copy, dests := [(0, [.s 17])], res := [] })]
    incast := [(5, (9, 3))] }

/-- CopyUnit: every clause. -/
theorem meets_copy_unit :
    [((unitT.chip 0).copy? 7).any (fun k => unitT.unitDue 0 k 0 && unitFinds unitT (askCopy k.id) k.asid (k.srcAt 0) .unitRead (unitT.wave? 0 0) (.dram 0x1000) &&
       unitFinds unitT (askCopy k.id) k.asid (k.dstAt 0) .unitWrite (unitT.wave? 0 0) (.dram 0x2000) &&
       (unitT.readTgt 0 (.dram 0x1000) 16).any (fun b => b.length == 16) && (unitT.readTgt 0 (.dram 0x2000) 16).isSome && unitT.canWrite 0 (.dram 0x2000) 16 && !k.get && !k.put && (redBytes 0 .i32 (List.replicate 16 1) (List.replicate 16 0)).length == 16),
     ((unitT.chip 0).copy? 8).any (fun k => k.sent.all k.finished.contains && k.finished.length == k.units && !k.inc &&
       (tfind (unitT.chip 0).prods k.prod).any (fun pr => unitT.wave? 0 pr.wid == some placedWave)),
     ((unitT.chip 0).copy? 9).any (fun k => k.inc && !k.granted && k.failed.isNone && k.dst.toNat / 2 ^ 48 == (unitT.chip 0).chipId &&
       ((unitT.chip 0).incastAt k.counter).2.toNat == k.ticketNo)].all id = true := by decide +kernel

/-- A chip that is ALIVE in its own tables, and able to serve every operation. -/
def aliveT : State := onChip { chipT with
  pel := { chipT.pel with rep := { chipT.pel.rep with chips := [(0, { state := .alive, capl := 0, capb := 0, capp := 512 })], caps := [(0, 0xFFFFFFFFFFFFFFFF)] } } }

/-- A lane in fixed gear on that chip. -/
def fixedAlive : State :=
  fixedT (fun w => { w with slotA := w.slotA.map (fun q => { q with mask := 1 }) }) (fun c => { c with pel := (aliveT.chip 0).pel })

/-- One group of an `ratom` whose only lane adds at 0x100. -/
def groupT : State := onChip { chipT with
  requests := [{ Packet.blank with ptype := 5, opw := 0x100, addr := 0x100, asid := 1, len := 4, data := [1, 0, 0, 0], ctx := 9, unit := 2 ^ 31, ty := .n32 }]
  prods := [(9, { wid := 0, pathMask := 0xFFFFFFFF, kind := .remote, dests := [(31, [.v 136])], res := [] })] }

/-- RemoteAtomics: every clause. -/
theorem meets_remote :
    [issues formTicket (opsM (.unif 8) (.unif 4) .none 0 0 .b32 0) aliveT (fun x => x.calm aliveT && x.go && x.myTurn &&
       fld (x.word .a x.low 0).toNat 8 9 == x.c.chipId && !capLacks (x.c.capOf x.c.chipId) capInc && !x.c.unable capInc && decide (x.c.inFlight84 x.w.core < 512)),
     issues (formAtom 2) { opsM (.lane 8) (.lane 4) (.lane 12) 0 0 .i64 8 with hs := true } aliveT (fun x => x.calm aliveT && !x.fg && !x.outLanes.isEmpty &&
       x.outLanes.all (fun k => x.gaddr k / 2 ^ 48 == x.c.chipId && x.gaddr k % 8 == 0) && decide (x.c.chipId < 512) && !capLacks (x.c.capOf x.c.chipId) (capAopBit (aopOf x.o)) &&
       !x.ordBlocked && x.w.ordSeq.isEmpty),
     issues (formAtom 2) { opsM (.lane 8) (.lane 4) (.lane 12) 0 0 .i64 8 with hs := true } fixedAlive (fun x => x.calm fixedAlive && x.fg && x.outLanes == [0] &&
       x.gaddr 0 / 2 ^ 48 == x.c.chipId && x.gaddr 0 == 8 && decide (x.c.chipId < 512) && fixedAlive.pkgOf x.c.chipId == some 0 &&
       !capLacks (x.c.capOf x.c.chipId) (capAopBit (aopOf x.o)) && !x.c.unable (capAopBit (aopOf x.o)) && !x.ordBlocked && x.w.ordSeq.isEmpty &&
       atTurnB x fixedAlive [(.dram 8, 8)] && fixedAlive.sideAt 0 x.w.blk (x.c.asidOf x.w.grow) false (x.gaddr 0) == some (0, .dram 8) &&
       unitFinds fixedAlive (askReq { x.atPacket (fixedAlive.chip 0).next (x.gaddr 0, [0]) (laneMask [0]).toNat with src := x.c.chipId }) (x.c.asidOf x.w.grow) 8 .atomic
         (some x.w) (.dram 8) && (fixedAlive.readTgt 0 (.dram 8) 8).isSome && fixedAlive.canWrite 0 (.dram 8) 8),
     (groupT.chip 0).requests.all (fun pk => pk.ptype == 5 && pk.dst == (groupT.chip 0).chipId && fld pk.opw.toNat 8 8 == 1 && pk.unit == 2 ^ 31 &&
       pk.ty.width == (if nbit pk.opw.toNat 4 then 64 else 32) && pk.data.length == pk.ty.width / 8 && !(groupT.chip 0).unable (capAopBit 0) &&
       (groupT.chip 0).groupClear pk && unitFinds groupT (askReq pk) pk.asid pk.addr.toNat .atomic
         (((groupT.starter pk).filter (fun e => e.1 = 0)).map (·.2.2)) (.dram 0x100) && (groupT.readTgt 0 (.dram 0x100) 4).isSome &&
       groupT.canWrite 0 (.dram 0x100) 4 && (tfind (groupT.chip 0).prods pk.ctx).isSome && (groupT.chip 0).got.isEmpty)].all id = true := by decide +kernel

/-- A window of two slots of 128 bytes at 0, its header and slot words as given, its handle in h0, `b` in s4. -/
def winT (hd s0 s1 : Nat) (b : Word) : State :=
  onBlock (fun k => { k with mem := memPut (memPut (memPut [] 0 (leBytes 8 hd)) 16 (leBytes 8 s0)) 24 (leBytes 8 s1) })
    (fun w => { w with h := [(0, 2 ^ 32)], s := [(4, { UReg.zero with val := b })] })

/-- The same with a local store on its way. -/
def winBusyT : State :=
  { winT 0 3 3 0x101 with chips := tmap (winT 0 3 3 0x101).chips (fun _ c => { c with pend := (busyT.chip 0).pend }) }

/-- Windows: every clause; slot 1, the last, with its phase, with the other, and failed; a post that fits and one that does not; no window. -/
theorem meets_windows :
    let o := opsOn .none (.handle 0) (.unif 4) .none .b32 0
    let p := opsOn (.pred 0) (.handle 0) (.unif 4) .none .b32 0
    let slot := fun (f : Bool) (o : Ops) (s : State) (hit bad : Bool) => issues (formWin f) o s (fun x => x.calm s && x.go && !x.fg &&
      (match x.winSlot with
        | .ok (tg, j) =>
          let st := ofLe (x.objectBytes s (tg.shift (16 + 8 * j)) 8)
          j == 1 && !x.arrayHolds false [(0, tg.shift (16 + 8 * j))] 8 && decide (st < 2 ^ 64) && (nbit st 0 && nbit st 1 == x.slotQ) == hit && nbit st 2 == bad
        | .error _ => false))
    [slot false o (winT 0 3 3 0x101) true false, slot false o (winT 0 3 3 1) false false, slot true p (winT 0 3 3 0x101) true false,
     slot false o (winT 0 3 7 0x101) true true, slot true p (winT 0 3 7 0x101) true true,
     slot false o winBusyT true false && !(winBusyT.chip 0).localDone 0 && ((winT 0 3 3 0x101).chip 0).localDone 0,
     issues (formWin false) o (winT 0xFFFE 0 0 1) (fun x => x.calm (winT 0xFFFE 0 0 1) && x.go && x.window == some (.loc 0 false 0) &&
       (winT 0xFFFE 0 0 1 |>.chip x.p).pend.isEmpty && !x.c.badAt (.loc 0 false 0) 8 && !x.arrayHolds true [(0, .loc 0 false 0)] 8 &&
       decide (fld (ofLe (x.objectBytes (winT 0xFFFE 0 0 1) (.loc 0 false 0) 8)) 0 16 + (x.word .b x.low 0).toNat < 2 ^ 16)),
     issues (formWin false) o (winT 0xFFFF 0 0 1) (fun x => x.calm (winT 0xFFFF 0 0 1) && x.go && x.window == some (.loc 0 false 0) &&
       (winT 0xFFFF 0 0 1 |>.chip x.p).pend.isEmpty && !x.c.badAt (.loc 0 false 0) 8 && !x.arrayHolds true [(0, .loc 0 false 0)] 8 &&
       decide (2 ^ 16 ≤ fld (ofLe (x.objectBytes (winT 0xFFFF 0 0 1) (.loc 0 false 0) 8)) 0 16 + (x.word .b x.low 0).toNat)),
     issues (formWin false) o stateT (fun x => x.calm stateT && x.go && x.window == none)].all id = true := by decide +kernel

/-- A tile word of value `v` at 0xFF8, whose address is in s4. -/
def tileT (v : Nat) : State := onBlock (fun k => { k with mem := memPut [] 0xFF8 (leBytes 8 v) }) (fun w => { w with s := [(4, { UReg.zero with val := 0xFF8 })] })

/-- TileWords: every clause. -/
theorem meets_tiles :
    let at_ := fun (k : Nat) (d : Operand) (s : State) => issues (formObit k) (opsOn d (.unif 4) .none .none .b32 (BitVec.ofNat 32 k)) s (fun x =>
      x.calm s && x.go && !x.fg && (match x.tileWord with | .ok t => t == .loc 0 false 0xFF8 && !x.arrayHolds false [(0, t)] 8 | .error _ => false))
    [at_ 0 .none (tileT 2), (tileT 2).chip 0 |>.localDone 0, at_ 1 .none (tileT 0), at_ 1 .none (tileT 1), at_ 2 (.pred 0) (tileT 1), at_ 2 (.pred 0) (tileT 0),
     at_ 1 .none (tileT 0x500000002), at_ 2 (.pred 0) (tileT 0x500000002)].all id = true := by decide +kernel

/-- Entry 1 of the residency table is pinned and h0 names it; the table holds `more` beside. -/
def resT (more : Tbl ResEntry) : State :=
  onChip { (chipT.setWave 0 { placedWave with h := [(0, 1)] }) with
    res := (1, { gen := 0, base := 0, lines := 1, prio := 0, state := .pinned, asid := 1 }) :: more }

/-- Every entry but 1, taken. -/
def fullRes : Tbl ResEntry := (List.range 1024).map (fun n => (n, { gen := 0, base := 0, lines := 1, prio := 0, state := .demoted, asid := 1 }))

/-- Every entry of the table is taken. -/
def fullT : State := resT fullRes

/-- See `fullT`. -/
theorem fullT_taken (n : Nat) (h : n < 1024) : ((fullT.chip 0).resAt n).state ≠ .free := by
  have key : ∀ t : Tbl ResEntry, (∀ e ∈ t, e.2.state ≠ .free) → (∃ e ∈ t, e.1 = n) → ∀ d, (tget d t n).state ≠ .free := by
    intro t ht hn d
    obtain ⟨e, he, hk⟩ := hn
    induction t with
    | nil => cases he
    | cons a r ih =>
      simp only [tget, tfind] at ih ⊢
      by_cases hs : a.1 = n
      · simp [hs]; exact ht a (by simp)
      · simp [hs] at ih ⊢
        rcases List.mem_cons.1 he with rfl | he
        · exact absurd hk hs
        · exact ih (fun x y hx => ht (x, y) (List.mem_cons_of_mem _ hx)) he
  have hr : ∀ e ∈ fullRes, e.2.state ≠ .free := by
    intro e he
    obtain ⟨m, -, rfl⟩ := List.mem_map.1 he
    simp
  have hm : ∃ e ∈ fullRes, e.1 = n := ⟨_, List.mem_map.2 ⟨n, List.mem_range.2 h, rfl⟩, rfl⟩
  have hd : (fullT.chip 0).resAt n = tget ResEntry.free ((1, { gen := 0, base := 0, lines := 1, prio := 0, state := .pinned, asid := 1 }) :: fullRes) n := rfl
  rw [hd]
  refine key _ ?_ ?_ _
  · intro e he
    rcases List.mem_cons.1 he with rfl | he
    · simp
    · exact hr e he
  · obtain ⟨e, he, hk⟩ := hm
    exact ⟨e, List.mem_cons_of_mem _ he, hk⟩

/-- Residency: an allocation, a full table, a handle of no entry, and every operation on an entry. -/
theorem meets_residency :
    let o := opsOn (.unif 8) .none (.unif 12) .none .b32 0
    let p := fun (k : Nat) => opsOn (.unif 8) (.handle 0) (if k = 5 then .unif 12 else .none) .none .b32 (BitVec.ofNat 32 k)
    ([issues (formRes 0) o stateT (fun x => x.calm stateT && x.go && (x.dword .b x.low).toNat % 128 == 0 && decide ((x.c.resAt 0).state = .free)),
      issues (formRes 0) o fullT (fun x => x.calm fullT && x.go && (x.dword .b x.low).toNat % 128 == 0)] ++
     [1, 2, 3, 4, 5].flatMap (fun k => [issues (formRes k) (p k) stateT (fun x => x.calm stateT && x.go && x.resIndex == none),
       issues (formRes k) (p k) (resT []) (fun x => x.calm (resT []) && x.go && x.resIndex == some 1)])).all id = true := by decide +kernel

/-- A block with an array of 256 rows, two cores where `tandem`, 128 KiB of local memory, both banks of INT8 tiles loaded and the array queue `aq`. -/
def arrayT (tandem : Bool) (aq : List ArrCmd) : State :=
  let bank := { Bank.empty with loaded := true, issLoaded := true }
  let c := { chipT with blocks := tmap chipT.blocks (fun _ b => { b with tandem := tandem, acc := 256, lsize := 0x20000 }) }
  let k := { c.core 0 with banks := [(0, bank), (1, bank)], aq := aq }
  onChip ((c.setCore 0 k).setCore 1 { c.core 1 with banks := k.banks })

/-- The array takes one more command. -/
def arrayTakes (x : Iss) (b : Block) (both fol : Bool) : Bool :=
  x.go && (match x.arrayGate both fol with | .ok k => decide (k = b) | .error _ => false) && decide ((x.c.core b.core).aq.length < 8)

/-- A range, a record or a list of ranges is there. -/
def there {ε α : Type} (r : Except ε α) : Bool := match r with | .ok _ => true | .error _ => false

/-- The record that a matrix operation reads at 32 or 64 bytes. -/
def recordOf (x : Iss) (s : State) (ps : Pos) (n : Nat) : Option Nat := (x.recordAt ps n).toOption.bind (fun tg => (x.readRecord s tg n).toOption)

/-- The block of the array states. -/
def arrayBlock (s : State) : Block := (tfind (s.chip 0).blocks 0).getD
  { grow := 0, block := 0, cohort := 0, crank := 0, core := 0, tandem := false, lsize := 0, acc := 0, mem := [], folMem := [], bars := [],
    waves := [], node := none, saved := none, ended := true }

/-- ArrayCommands: every clause, the last row among them. -/
theorem meets_array_commands :
    let s := arrayT false []
    let t := arrayT true []
    let fits := fun (x : Iss) (s : State) (fol : Bool) => x.calm s && arrayTakes x (arrayBlock s) false fol && decide (wordR0 x.o + wordN x.o ≤ (arrayBlock s).acc)
    [issues (fun _ => formArr Opd.none Opd.none Opd.none (2 ^ 17)) (ops0 0x100FF) t (fun x => fits x t true),
     issues (fun _ => formArr (Opd.u 1) Opd.none Opd.none (2 ^ 18)) (opsOn .none (.unif 4) .none .none .b32 0x20000) s (fun x => fits x s false &&
       there (x.localRange (x.word .a x.low 0).toNat 4 16)),
     issues (fun _ => formArr (Opd.u 8) Opd.none Opd.none 4) (opsOn .none (.unif 8) .none .none .b32 1) s (fun x => x.calm s &&
       arrayTakes x (arrayBlock s) false false && !imageBad ((List.range 8).map (fun j => x.word .a x.low j))),
     issues (fun _ => formArr (Opd.u 1) (Opd.u 1) Opd.none 4) (opsOn .none (.unif 4) (.unif 5) .none .b32 0) s (fun x => x.calm s &&
       arrayTakes x (arrayBlock s) false false && recordOf x s .b 32 == some 0 && !descBad (fbB 0) (fbSB 0) false && !descScp (fbB 0) &&
       there (x.localRanges [(0, (x.word .a x.low 0).toNat, 65536, 64)])),
     issues (fun _ => formArr (Opd.u 1) (Opd.u 1) Opd.bo (2 ^ 32)) (opsOn .none (.unif 4) (.unif 5) (.unif 6) .b32 0x100FC) s (fun x => x.calm s &&
       arrayTakes x (arrayBlock s) false false && recordOf x s .b 32 == some 0 && !mmaBad 0 [(x.c.core 0).bank 1] &&
       decide (wordR0 x.o + wordN x.o * (tileCols 0 / 256) ≤ 256) && there (x.localRanges (mmaRanges 0 0 0 1)) && there (x.arrayBo .c)),
     issues (fun _ => formArr (Opd.u 1) (Opd.u 1) Opd.bo (2 ^ 32)) (opsOn .none (.unif 4) (.unif 5) .none .b32 0) t (fun x => x.calm t &&
       arrayTakes x (arrayBlock t) true false && recordOf x t .b 32 == some 0 && !mmaBad 0 [(x.c.core 0).bank 0, (x.c.core 1).bank 0] &&
       there (x.localRanges (mmaRanges 0 0 0 1)) && there (x.arrayBo .c)),
     issues formMdrain (opsOn .none (.unif 4) .none .none .f32 0xFF) s (fun x => x.calm s && arrayTakes x (arrayBlock s) false false &&
       recordOf x s .a 64 == some 0 && !drainBad 0 && decide (wordR0 x.o + wordN x.o ≤ 256) && there (x.localRange 0 1024 16) &&
       there (x.localRanges (drainReads 0 1 256)) && there (x.arrayBo .b))].all id = true := by decide +kernel

/-- A command of wave 0 in the array queue. -/
def arrayCmd (op : ArrOp) : ArrCmd :=
  { id := 1, op := op, wid := 0, blk := 0, mask := 0xFFFFFFFF, fol := false, bank := 1, fb := 0, desc := 0, image := List.replicate 8 0, r0 := 255, n := 1,
    q := 1, st := 0, sum := false, ty := .f32, reads := [(0, .loc 0 false 0, 1024)], writes := if op = .mst ∨ op = .mdrain then [(.loc 0 false 0, 1024)] else [],
    bo := none, clock := 0, row := 0, flags := 0, done := false }

/-- ArrayChecksAndStatus: every clause. -/
theorem meets_array_checks :
    let z := fun (w : Word) (s : State) (p : Iss → Bool) => issues (fun _ => formArr Opd.none Opd.none Opd.none (2 ^ 17)) (ops0 w) s (fun x =>
      x.calm s && x.go && (tfind x.c.blocks x.w.blk).isSome && p x)
    let dead := onChip ((arrayT false []).chip 0 |>.setCore 0 { ((arrayT false []).chip 0).core 0 with retired := true })
    let half := onBlock (fun b => { b with acc := 128 }) id
    [z 0 dead (fun x => (x.c.core 0).retired && decide ((x.c.core 0).aq.length < 8)), z 0 (arrayT false (List.replicate 8 (arrayCmd .mzero))) (fun x => decide (8 ≤ (x.c.core 0).aq.length)), z 0 stateT (fun x => (arrayBlock stateT).acc == 0 && !(x.c.core 0).retired),
     z 0x10000 (arrayT false []) (fun x => nbit x.o.modw 16 && !(arrayBlock (arrayT false [])).tandem),
     z 0x80 half (fun x => (arrayBlock half).acc == 128 && fld x.o.modw 0 8 + fld x.o.modw 8 8 + 1 == 129),
     issues formMstat (opsOn (.unif 4) .none .none .none .b32 0) stateT (fun x => x.calm stateT && x.go),
     issues (fun _ => formBare true) (ops0 0) stateT (fun x => x.calm stateT && x.go && (x.c.core 0).aq.all (fun k => k.wid != x.wid)),
     issues (fun _ => formBare true) (ops0 0) (arrayT false [arrayCmd .mzero]) (fun x => x.calm (arrayT false [arrayCmd .mzero]) && x.go &&
       (x.c.core 0).aq.any (fun k => k.wid == x.wid))].all id = true := by decide +kernel

/-- ArrayPerformed and ArrayRows: a command of each kind that is due, of the leader's array and of its follower's, and one that is done. -/
theorem meets_array_performed :
    [true, false].all (fun fol => ([.mwld, .mcb, .mzero, .mld, .mst, .mdrain, .mma] : List ArrOp).all (fun op =>
      let k := { arrayCmd op with fol := fol }
      let s := arrayT true [k]
      let c := s.chip 0
      decide (c.arrayDue 0 0 (fun o => o = op) = some k) && (s.wave? 0 0).any (fun w => w.buf.isEmpty) && c.arrayLead 0 == 0 &&
      (tfind c.blocks 0).isSome && (c.badRow k k.allRows).isNone && s.canWrite 0 (.loc 0 false 0) 1024)) = true ∧
    (let s := arrayT false [{ arrayCmd .mma with done := true, row := 1 }]
     ((s.chip 0).core 0).aq[0]?.any (fun k => k.done && k.bo == none && (s.wave? 0 k.wid).isSome)) = true := by decide +kernel

/-- A row of A whose magnitudes are all zero passes the check of every bank, and fails it where a column sum is one too high. -/
theorem zero_row (r : ARow) (b : Bank) (h : ∀ g, ∀ m ∈ (r.groups.getD g ([], 0, false)).1, m = 0) : r.passes b 0 = true ∧ r.passes b 1 = false := by
  have mul : ∀ (l k : List Int), (∀ m ∈ l, m = 0) → ∀ z : Int, ((l.zip k).map (fun m => m.1 * m.2)).foldl (· + ·) z = z := by
    intro l
    induction l with
    | nil => intro k _ z; simp
    | cons a t ih =>
      intro k hl z
      cases k with
      | nil => simp
      | cons c k =>
        have ha := hl a (by simp)
        simp only [List.zip_cons_cons, List.map_cons, List.foldl_cons, ha, Int.zero_mul, Int.add_zero]
        exact ih k (fun m hm => hl m (by simp [hm])) z
  have chk : ∀ (l : List Int) (k : List Nat) (f : Nat → Int), (∀ m ∈ l, m = 0) → ∀ z : Int, (l.zip k).foldl (fun a m => a + (m.1 % 7) * f m.2) z = z := by
    intro l
    induction l with
    | nil => intro k f _ z; simp
    | cons a t ih =>
      intro k f hl z
      cases k with
      | nil => simp
      | cons c k =>
        have ha := hl a (by simp)
        simp only [List.zip_cons_cons, List.foldl_cons, ha, Int.zero_emod, Int.zero_mul, Int.add_zero]
        exact ih k f (fun m hm => hl m (by simp [hm])) z
  have sum : ∀ g (l : List Nat) (z : Int), l.foldl (fun a n => a + r.partialSum b g n) z = z := by
    intro g l
    have p : ∀ n, r.partialSum b g n = 0 := fun n => mul _ _ (h g) 0
    induction l with
    | nil => simp
    | cons n t ih => intro z; simp [p]
  have c0 : ∀ g, r.checkSum b g = 0 := fun g => by
    show (_ % 7 : Int) = 0
    rw [chk _ _ (fun j => b.rowResidue (32 * g + j)) (h g)]
    rfl
  constructor
  · simp only [ARow.passes, sum, c0]; decide
  · simp only [ARow.passes, sum, c0]; decide

/-- A row of a multiply that names the leader's array, the follower's, or both. -/
def rowK (op : ArrOp) (fol : Bool) : ArrCmd := { arrayCmd op with fol := fol }

/-- Whether all magnitudes of the row of A of a command are zero. -/
def zeroRow (k : ArrCmd) : Bool := ((arrayT true [k]).aRow 0 k 0).groups.all (fun e => e.1.all (fun m => m == 0))

/-- See `zeroRow`. -/
theorem zero_magnitudes (k : ArrCmd) (h : zeroRow k = true) : ∀ g, ∀ m ∈ (((arrayT true [k]).aRow 0 k 0).groups.getD g ([], 0, false)).1, m = 0 := by
  intro g m hm
  rw [List.getD_eq_getElem?_getD] at hm
  cases he : ((arrayT true [k]).aRow 0 k 0).groups[g]? with
  | none => simp [he] at hm
  | some e =>
    simp only [he, Option.getD_some] at hm
    have := List.all_eq_true.1 (List.all_eq_true.1 h e (List.mem_of_getElem? he)) m hm
    simpa using this

/-- ArrayRows: a row that passes, and one whose check fails twice, in an array that the command names; a bank with the check data of its tile. -/
theorem meets_array_rows :
    (∀ k ∈ [rowK .mma false, rowK .mma true, rowK .mmaT false],
      let s := arrayT true [k]
      (s.chip 0).arrayLead 0 = 0 ∧ (s.chip 0).arrayLead 1 = 0 ∧ (s.chip 0).arrayDue 0 0 (fun o => o = .mma || o = .mmaT) = some k ∧
      (s.chip 0).badRow k [k.row] = none ∧ (s.chip 0).rowFails 0 0 k (s.aRow 0 k 0) 0 = [] ∧
      (∃ n < 2, (s.chip 0).rowFails 0 n k (s.aRow 0 k 0) 1 = [n]) ∧ (s.chip 0).arrayDue 0 0 (fun _ => true) = some k) ∧
    (Bank.empty.checked.cbT.length = 16 ∧ Bank.empty.cbT = fixedEntries 0 ∧ Bank.empty.checked.check = (List.range 128).map Bank.empty.checked.rowCheck) := by
  have zs : [rowK .mma false, rowK .mma true, rowK .mmaT false].all (fun k => zeroRow k &&
      decide ((((arrayT true [k]).chip 0).arrayLead 0 = 0 ∧ ((arrayT true [k]).chip 0).arrayLead 1 = 0 ∧
        ((arrayT true [k]).chip 0).arrayDue 0 0 (fun o => o = .mma || o = .mmaT) = some k ∧ ((arrayT true [k]).chip 0).badRow k [k.row] = none ∧
        ((arrayT true [k]).chip 0).arrayDue 0 0 (fun _ => true) = some k))) = true := by decide +kernel
  refine ⟨fun k hk => ?_, by decide, by decide, rfl⟩
  obtain ⟨hz, hd⟩ := Bool.and_eq_true_iff.1 (List.all_eq_true.1 zs k hk)
  obtain ⟨h0, h1, h2, h3, h4⟩ := of_decide_eq_true hd
  have z := fun b => zero_row ((arrayT true [k]).aRow 0 k 0) b (zero_magnitudes k hz)
  refine ⟨h0, h1, h2, h3, ?_, ?_, h4⟩
  · rw [Chip.rowFails, List.filter_eq_nil_iff]
    intro n _
    simp [(z _).1]
  · simp only [List.mem_cons, List.not_mem_nil, or_false] at hk
    rcases hk with rfl | rfl | rfl
    · refine ⟨0, by decide, ?_⟩
      have f : (rowK ArrOp.mma false).onFollower = [false] := by decide
      simp only [Chip.rowFails, f, List.map_cons, List.map_nil, b2n, List.filter_cons, List.filter_nil]
      simp [(z _).2]
    · refine ⟨1, by decide, ?_⟩
      have f : (rowK ArrOp.mma true).onFollower = [true] := by decide
      simp only [Chip.rowFails, f, List.map_cons, List.map_nil, b2n, List.filter_cons, List.filter_nil]
      simp [(z _).2]
    · refine ⟨0, by decide, ?_⟩
      have f : (rowK ArrOp.mmaT false).onFollower = [false, true] := by decide
      simp only [Chip.rowFails, f, List.map_cons, List.map_nil, b2n, List.filter_cons, List.filter_nil]
      simp [(z _).1, (z _).2]

/-! ### Collectives -/

/-- A collective record: an `f32` tile of four elements a rank, IN at 0x100, OUT at 0x200, WORK at 0x300, one rank, block 0. -/
def collRec : Nat := 0x100 + 0x200 * 2 ^ 32 + 0x300 * 2 ^ 64 + 4 * 2 ^ 96 + 2 ^ 160 + 7 * 2 ^ 224

/-- The record stands at 0x40, and h0 names it with CID 9. -/
def collS (f : Chip → Chip) : State :=
  let s := onBlock (fun b => { b with mem := memPut (memPut [] 0x40 (leBytes 64 collRec)) 0x300 [1, 2, 3] }) (fun w => { w with h := [(0, BitVec.ofNat 64 (0x40 + 9 * 2 ^ 32))] })
  onChip (f (s.chip 0))

/-- The same with a second wave in the block. -/
def collTwoS : State := collS (fun c => c.setWave 1 { placedWave with wno := 1 })

/-- The state in fixed gear, at the turn of wave 0. -/
def inFixed (s : State) : State :=
  onChip (((s.chip 0).modWave 0 (fun w => { w with turn := some (.A, 0) })) |> fun c =>
    { c with grids := tmap c.grids (fun _ g => { g with kern := { g.kern with fgear := true } }) })

/-- The collective of the record at block 0. -/
def collK : Coll :=
  { cid := 9, grow := 0, blk := 0, rank := 0, handle := 0, ty := .f32, word := 0, crec := BitVec.ofNat 512 collRec, arrived := [(0, 8, 0xFFFFFFFF)], prods := [30],
    chips := [0], heldAt := none,
    bo := none, started := true, clock := 0, startWid := 0, got := 16, ready := false, sat := 0, decision := none, outcome := none, lost := none }

/-- It stands at its key. -/
def withColl (k : Coll) : State := collS (fun c => { c with
  colls := [(collKey 0 9, k)], prods := [(30, { wid := 0, pathMask := 0xFFFFFFFF, kind := .coll, dests := [(0, [.s 8])], res := [] })] })

/-- An operand of collectives. -/
def opsColl (d : Operand) (ty : Ty) (w : Word) : Ops := opsOn d (.handle 0) .none .none ty w

/-- Collectives: each kind, with and without another wave; a status there and none; a collective to abort and none. -/
theorem meets_collectives :
    let first := fun (e : Nat) (s : State) (more : Bool) => issues (formColl e) (opsColl (.unif 8) .f32 (BitVec.ofNat 32 e)) s (fun x =>
      let h := (x.dword .a x.low).toNat
      x.calm s && x.go && atTurnB x s [] && x.o.d == .unif 8 && (x.handleRecord h).toOption.any (fun tg => ofLe (x.objectBytes s tg 64) == collRec &&
        !x.arrayHolds false [(0, tg)] 64 && !x.c.badAt tg 64) && !x.collDiffers (x.dword .a x.low) &&
      there (x.arrayBo .b) && x.c.colls.isEmpty && !x.cidBusy 9 && fld h 32 16 == 9 && x.c.localDone x.wid && there (x.recordCheck collRec x.w.grow) &&
      (x.c.rankChips x.w.grow collRec).all (fun id => x.c.reaches id && !capLacks (x.c.capOf id) (capKindBit e) && !capLacks (x.c.capOf id) (capCollBit .f32)) &&
      x.c.waves.any (fun e => e.2.blk = x.w.blk && !e.2.ended && e.1 ≠ x.wid) == more)
    let has := fun (f : Ops → Form) (o : Ops) (s : State) (p : Iss → Bool) => issues f o s (fun x => x.calm s && x.go && atTurnB x s [] && x.handleTrap.isNone && p x)
    [first 0 (collS id) false, first 1 (collS id) false, first 2 (collS id) false, first 3 (collS id) false, first 4 (collS id) false, first 0 collTwoS true, first 0 (inFixed (collS id)) false, first 0 (inFixed collTwoS) true,
     has formCollWait (opsColl (.unif 8) .b32 0) (withColl { collK with outcome := some 5 }) (fun x => (tfind x.c.colls (collKey x.w.blk 9)).any (fun k => k.outcome == some 5)),
     has formCollWait (opsColl (.unif 8) .b32 0) (collS id) (fun x => (tfind x.c.colls (collKey x.w.blk 9)).isNone),
     has formCollAbort (opsColl .none .b32 0) (collS id) (fun x => x.c.colls.isEmpty),
     has formCollAbort (opsColl .none .b32 0) (withColl collK) (fun x =>
       (x.c.colls.find? (fun e => e.2.cid == 9 && e.2.started && e.2.outcome.isNone)).isSome)].all id = true := by decide +kernel

/-- A message of the collective units on its way, with a collective at its rank and an entry at its coordinator. -/
def msgS (m : Nat) (k : Coll) (d : Coord) (bs : List Byte) : State :=
  let s := withColl k
  { s.setChip 0 { s.chip 0 with coords := [d] } with net := [{ Packet.blank with
      ptype := 12, opw := BitVec.ofNat 32 (m + 16 * 9), data := bs, len := bs.length, ty := .f32 }] }

/-- The coordinator's entry once rank 0 has sent its parameters. -/
def coordK : Coord := { cid := 9, grow := 0, params := [(0, 0, BitVec.ofNat 512 collRec, .f32, 0)], chips := [0], ready := [], decided := none, want := none }

/-- CollectiveMessages: every clause. -/
theorem meets_collective_messages :
    let of := fun (s : State) (m : Nat) => (s.clPacket 0 0 m).any (fun k => decide (k.2 = (9, 0, 0)))
    let there := fun (s : State) (p : Coll → Bool) => ((s.chip 0).collAt 9 0 0).any (fun k => p k.2)
    let coord := fun (s : State) (k : Coord) => (s.chip 0).coordOf 9 0 0 == some k
    let s1 := msgS 1 { collK with got := 0 } coordK (leBytes 16 0x4433)
    let d := { coordK with ready := [0] }
    [of (msgS 0 collK { coordK with params := [] } (leBytes 64 collRec)) 0 && (let c := (msgS 0 collK { coordK with params := [] } (leBytes 64 collRec)).chip 0
       let s := msgS 0 collK { coordK with params := [] } (leBytes 64 collRec)
       (s.clPacket 0 0 0).all (fun k => (s.clTables c k.1 9 0 0 (c.rankChips 0 collRec)).isNone) && (c.coordAt 9 0 0).decided.isNone && (c.rankChips 0 collRec).all c.reaches &&
       ((msgS 0 collK { coordK with params := [] } (leBytes 64 collRec)).clPacket 0 0 0).any (fun k => (c.clWord k.1 9 0).isSome)),
     of s1 1 && there s1 (fun _ => true) && ((s1.chip 0).localAt 0 (crWork collRec + 0) 16).any (fun tg => s1.canWrite 0 tg 16) && ((tfind (s1.chip 0).blocks 0).bind Block.saved).isNone,
     (tfind (s1.chip 0).colls (collKey 0 9)).isSome && decide (collOut 0 collRec * 4 ≤ collK.got) && collK.started && !collK.ready && collK.outcome.isNone,
     (let s := msgS 0 collK coordK (leBytes 64 collRec)
      let c := s.chip 0
      (s.clPacket 0 0 0).any (fun k => (s.clTables c k.1 9 0 0 (c.rankChips 0 collRec)).isNone && (c.coordAt 9 0 0).decided.isNone && (c.coordAt 9 0 0).want.isNone &&
        (c.coordAt 9 0 0).params.any (fun e => e.1 == 0) && (c.clWord k.1 9 0).any (fun w => !s.rankRefuses k.1.src w.1 w.2))),
     (let s := (msgS 2 collK coordK []).modChip 0 (fun c => { c with blocks := tmap c.blocks (fun _ b => { b with bad := [(false, 0xC0)] }) })
      coord s coordK && of s 2 && s.pkgOf 0 == some 0 && there s (fun _ => true) && ((s.chip 0).collAt 9 0 0).any (fun k => s.collWork 0 k.2 == none)),
     (msgS 2 collK coordK []).collWork 0 collK != none, coord (msgS 2 collK coordK []) coordK, of (msgS 2 collK coordK []) 2 && !(0 ∈ coordK.ready),
     coord (msgS 2 collK { coordK with want := some 1 } []) { coordK with want := some 1 } && of (msgS 2 collK { coordK with want := some 1 } []) 2,
     of (msgS 4 collK coordK []) 4 && coordK.want.isNone && !coordK.allReady, coord (msgS 4 collK d []) d && of (msgS 4 collK d []) 4 && d.allReady,
     [coordK, d, { coordK with want := some 1 }, { coordK with want := some 4 }].all (fun k =>
       (((msgS 0 collK k []).chip 0).coords.find? (fun e => e.cid = 9 && e.grow = 0 && e.decided.isNone && (e.want.isSome || e.allReady)) == some k) == (k != coordK)),
     d.params.find? (fun e => e.1 = 0) == some (0, 0, BitVec.ofNat 512 collRec, .f32, 0) && (List.range (crRanks (BitVec.ofNat 512 collRec).toNat)).all d.ready.contains,
     of (msgS 3 collK coordK [1]) 3 && there (msgS 3 collK coordK [1]) (fun k => k.lost.isNone && k.decision.isNone),
     of (msgS 5 collK coordK []) 5 && there (msgS 5 collK coordK []) (fun k => k.lost.isNone && k.decision.isNone)].all id = true := by decide +kernel

/-- CollectiveOutcome: committed, and aborted; outside and in fixed gear. -/
theorem meets_collective_outcome :
    [true, false].all (fun commit => [false, true].all (fun fg =>
      let k := { collK with decision := some (commit, 1, 1, 0), heldAt := if fg then some (5 * 2 ^ 64) else none }
      let s := if fg then (inFixed (withColl k)).modChip 0 (fun c => c.modWave 0 (fun w => { w with clock := 9, turn := none })) else withColl k
      let c := s.chip 0
      (k.result.any (fun r => r.1 == commit)) && (tfind c.prods 30).isSome && c.fgear k.grow == fg && decide ((c.waves.map (·.1)).Nodup) &&
      (!fg || s.isTurn 0 (.coll 9 (crShared k.crec.toNat)) (5 * 2 ^ 64) && !s.fgBusy 0 (5 * 2 ^ 64) (k.touched c 0)) && (s.wave? 0 0).any (fun w => !w.ended && w.saved.isNone) &&
      (match c.localAt 0 (crWork k.crec.toNat) 16, c.localAt 0 (crOut k.crec.toNat) 16 with
        | some a, some b => !a.overlaps 16 b 16 && (s.readTgt 0 a 16).isSome && s.canWrite 0 a 16 && s.canWrite 0 b 16
        | _, _ => false) &&
      c.slotPaths.all (fun e => match e.2.2.wait with | .coll _ _ _ => false | _ => true))) = true := by decide +kernel

/-! ### Approximable regions -/

/-- The word of `apx.end` of region 0 with one output. -/
def apxEndOps : Ops := opsOn .none (.lane 4) .none .none .f32 0

/-- `apx.begin` of region 0, one input, one output, its target the next line. -/
def apxBeginOps : Ops := opsOn (.lane 8) (.lane 4) .none .none .f32 0x10000

/-- A surrogate of one input, one unit and one output, all weights 1. -/
def surK : Surrogate := { ni := 1, no := 1, h1 := 1, h2 := 0, w := List.replicate 4 0x3F800000 }

/-- A copy of a region. -/
def copyK (st : Nat) : RegionCopy := { home := true, state := st, ewma := 0, samples := 31, sur := some surK, ring := [], nextPair := 0, obs := 0, batch := [] }

/-- Region 0 bound to cluster 0, with the copy there, SEXP 16 and the image loaded; the line at 0x10040 holds its `apx.end`. -/
def apxS (r : RegionCopy) (f : FitEngine → FitEngine) (g : Wave → Wave) : State :=
  let b : Binding := { home := 0, mirrors := [], asid := 1, first := 0, last := 0, frames := [], loaded := true,
                       regs := [0x3F800000, 0x3F000000, 16, 0x3C23D70A, 32, 0x3F800000] }
  let k := chipT.cluster 0
  let c := (chipT.setWave 0 (g placedWave)).setCluster 0 { k with fit := f { k.fit with regions := [(0, r)] } }
  onChip { c with bindings := [(0, b)], dram := memPut c.dram 0x10040 (leBytes 64 (lineOf ((encode (.apxEnd apxEndOps)).getD 0))) }

/-- The region as `apx.begin` opens it. -/
def openK (st : Nat) (m : RegionMode) : OpenRegion := { num := 0, state := st, outs := 1, mode := m, lanes := 0xFFFFFFFF, inputs := [List.replicate 32 0] }

/-- One `apx.ctl` that sets LR, with its producer. -/
def ctlS (v : DWord) : State :=
  let s := apxS (copyK 0) id id
  onChip { s.chip 0 with
    apxOps := [{ wid := 0, grow := 0, cluster := 0, asid := 1, op := 1, idx := 3, region := 0, b := v, fgear := false, prod := 40 }]
    prods := [(40, { wid := 0, pathMask := 1, kind := .apxCtl, dests := [(0, [.s 16])], res := [] })] }

/-- ApproximableRegions: every clause; each state of a region. -/
theorem meets_regions :
    let at_ := fun (f : Ops → Form) (o : Ops) (s : State) (p : Iss → Bool) => issues f o s (fun x => x.calm s && p x)
    let begun := fun (s : State) (o : Ops) (p : Iss → Bool) => at_ formApxBegin o s p
    let wave := fun (m : RegionMode) (w : Wave) => { w with region := some (openK 1 m) }
    [begun stateT { apxBeginOps with guard := { neg := false, p := 0 } } (fun x => !x.go),
     begun (apxS (copyK 0) id id) apxBeginOps (fun x => x.go && (x.apxBeginCheck (apxS (copyK 0) id id)).isNone && x.apxState (x.c.regionAt 0 0) == 0),
     begun (apxS (copyK 2) id id) apxBeginOps (fun x => x.go && (x.apxBeginCheck (apxS (copyK 2) id id)).isNone && x.apxState (x.c.regionAt 0 0) == 2),
     begun (apxS (copyK 3) id id) apxBeginOps (fun x => x.go && x.apxFate == .ok && (x.apxBeginCheck (apxS (copyK 3) id id)).isNone && x.apxState (x.c.regionAt 0 0) == 3 &&
       !x.apxSampled 0 (x.c.regionReg 0 2) && x.w.path? x.sl.other == none && (x.c.regionAt (clusterOf x.w.core) 0) == some (copyK 3) &&
       (copyK 3).sur == some surK && (x.c.cluster 0).fit.queue.isEmpty),
     at_ formApxEnd apxEndOps (apxS (copyK 1) id (wave .recorded)) (fun x => x.go && x.w.region == some (openK 1 .recorded) && x.w.regionWhole x.q &&
       apxRegion x.o == 0 && apxO x.o == 1 && (x.c.cluster 0).fit.input.isEmpty),
     at_ (fun o => { formApxEnd o with a := { cls := [.lane], n := 0 } }) apxEndOps (apxS (copyK 3) id (wave .surrogate)) (fun x => x.go &&
       x.w.region == some (openK 1 .surrogate) && x.w.regionWhole x.q && apxRegion x.o == 0 && apxO x.o == 1)] ++
    [(0, 0), (1, 0x19), (2, 2), (3, 3)].map (fun (e : Nat × Nat) => at_ (formApxCtl e.1) (opsOn (.unif 16) (.unif 4) (.unif 12) .none .b32 (BitVec.ofNat 32 e.2))
       (apxS (copyK 0) id id) (fun x => x.go && (x.c.binding? x.regionArg).isSome)) ++
    [at_ (fun _ => { a := { cls := [.unif, .imm] }, once := true }) (opsOn .none (.unif 4) .none .none .b32 0) (apxS (copyK 3) id id) (fun x =>
       x.go && !nbit (x.word .a x.low 0).toNat 6 && (x.c.binding? x.regionArg).isSome),
     at_ (fun _ => { d := Opd.u 2, a := Opd.u 1, once := true }) (opsOn (.unif 8) (.unif 4) .none .none .b32 0) (apxS (copyK 3) id id) (fun x =>
       x.go && (x.c.binding? x.regionArg).isSome)] = List.replicate 12 true := by decide +kernel

/-- A pair of finite values. -/
def pairK (n : Nat) : Pair := { num := n, x := [0x3F800000], t := [0x40000000], grow := 0 }

/-- An invocation of the surrogate, with its producer; an entry of the input buffer. -/
def invS : State :=
  let s := apxS (copyK 3) (fun f => { f with queue := [{ wid := 0, grow := 0, region := 0, lanes := 1, inputs := [List.replicate 32 0x3F800000], sur := surK, prod := 41 }] }) id
  onChip { s.chip 0 with prods := [(41, { wid := 0, pathMask := 1, kind := .apxOut, dests := [(0, [.v 136])], res := [] })] }

/-- An entry of the input buffer of lane 0. -/
def inputK : FitInput :=
  { sampled := false, region := 0, state := 1, lanes := 1, inputs := [List.replicate 32 0x3F800000], outputs := [List.replicate 32 0x40000000], grow := 0 }

/-- See `inputK`. -/
def takeS : State := apxS { copyK 1 with sur := none } (fun f => { f with input := [inputK] }) id

/-- A region in TRAIN whose next pair is a validation pair, its EWMA so far. -/
def validS (thr : Nat) : State := apxS { copyK 2 with ring := [pairK 7], ewma := BitVec.ofNat 32 thr } id id

/-- A region in TRAIN with a full batch. -/
def sgdS : State := apxS { copyK 2 with batch := (List.range 32).map (fun _ => pairK 1) } id id

/-- FittingEngine: every clause. -/
theorem meets_fitting :
    let open_ := fun (s : State) (n : Nat) => (tfind (s.chip 0).prods n).any (fun pr => s.wave? 0 pr.wid == some placedWave)
    let f := fun (s : State) => ((s.chip 0).cluster 0).fit
    [(f invS).queue.length == 1 && open_ invS 41 && (ctlS 0).asks.isEmpty && (ctlS 0).taken.isEmpty,
     (f takeS).queue.isEmpty && (f takeS).input.all (fun e => ((takeS.chip 0).regionAt 0 e.region).any (fun r => r.state == e.state && r.sur == none && decide (r.ring.length < 256)) &&
       !e.sampled && lanesOf e.lanes == [0] && finitePair (laneOf e.inputs 0) (laneOf e.outputs 0)),
     ((validS 0).chip 0).training 0 0 == some { copyK 2 with ring := [pairK 7] }, 
     (sgdS.chip 0).training 0 0 == (sgdS.chip 0).regionAt 0 0 && ((sgdS.chip 0).regionAt 0 0).any (fun r => r.batch.length == 32 && r.sur == some surK),
     ((ctlS 0x3F000000).chip 0).apxOps.all (fun k => k.op == 1 && (((ctlS 0x3F000000).chip 0).binding? k.region).any (fun b => decide (k.idx < b.regs.length))) &&
       open_ (ctlS 0x3F000000) 40,
     ((apxS (copyK 3) id id).chip 0).regionAt 0 0 == some (copyK 3)].all id = true := by decide +kernel

/-! ### Stream engines -/

/-- A layout of bytes: two rows of 16 at 0x1000, 256 apart, in tiles of 16 by 2. -/
def layK : BitVec 512 :=
  BitVec.ofNat 512 (0x1000 + 2 ^ 64 + 2 ^ 68 + 16 * 2 ^ 128 + 16 * 2 ^ 192 + 2 * 2 ^ 224 + 256 * 2 ^ 256 + 2 * 2 ^ 288)

/-- A window of two slots of 128 bytes at 0, its handle; a header with one posted slot. -/
def winH : DWord := 2 ^ 32

/-- Context 0 of engine 0 stands before a command, as `f` makes it; `g` changes the package, `b` its block. -/
def ctxS (f : Ctx → Ctx) (g : Chip → Chip) (b : Block → Block) : State :=
  let c := { chipT with blocks := tmap chipT.blocks (fun _ k => b k) }
  onChip (g (c.setCtx 0 0 (f placedCtx)))

/-- The registers that the commands below read. -/
def ctxRegs : Tbl DWord :=
  [(1, 0x2000), (2, 0x3000), (3, 16), (4, winH), (5, 1), (6, 0x80000040), (7, 0x80000400), (8, 0x4004), (9, 0x4004), (15, 7)]

/-- A context with a layout and a target. -/
def cmdS : State :=
  ctxS (fun x => { x with q := ctxRegs, lay := [(0, { lay := layK, j := [0, 0, 0, 0] })], tgt := [(1, { handle := winH, mask := 1, next := 1 })] })
    (fun c => { c with dram := memPut c.dram 0x3000 (leBytes 64 layK.toNat) }) id

/-- The context that `State.scur` names. -/
def headCtx (s : State) : Ctx := ((s.chip 0).engine 0).context 0

/-- See `State.CmdReady`. -/
theorem meets_ready : cmdS.CmdReady (headCtx cmdS) := by
  refine ⟨⟨rfl, rfl⟩, rfl, ?_, ?_, ?_, ?_, ?_, ?_⟩ <;> decide +kernel

/-- StreamRegisters, StreamMemory and StreamTiles: every clause. -/
theorem meets_commands :
    let x := headCtx cmdS
    let c := cmdS.chip 0
    let reads := fun (a : Nat) =>
      let r := cmdS.streamRead 0 (askCtx 0 0) x a 16
      r.s == cmdS && r.status == 0 && !r.off
    let reach := fun (a n pa : Nat) (k : AccessKind) => !c.rangeOff a n && pa % 128 == a % 128 && unitFinds cmdS (askCtx 0 0) x.asid a k (tfind c.waves x.wid) (.dram pa)
    [(tfind x.lay (0 : BitVec 2).toNat).isSome && layRank layK.toNat == 1,
     winOk winH.toNat && fld winH.toNat 19 5 == 0 && fld winH.toNat 25 7 == 0 && (lanesOf (lo32 (x.reg 5))).all (fun r => (c.ctxWindow x r winH.toNat).isSome) && lo32 (x.reg 5) != 0,
     (x.reg 1).toNat % 8 == 0 && x.reg 5 - 1 == 0 && x.reg 0 == 0,
     decide (x.flying < 16) && x.addr 1 0xFFFFFFF8 == 0x1FF8 && reach 0x1FF8 8 0x1FF8 .unitRead && reach 0x1FF8 8 0x1FF8 .unitWrite &&
       (cmdS.readTgt 0 (.dram 0x1FF8) 8).isSome && cmdS.canWrite 0 (.dram 0x1FF8) 8,
     (x.reg 2).toNat % 64 == 0 && reach 0x3000 64 0x3000 .unitRead && cmdS.readTgt 0 (.dram 0x3000) 64 == some (leBytes 64 layK.toNat) && !c.layBad layK.toNat,
     (x.reg 3).toNat == 16 && reach 0x3000 16 0x3000 .unitRead && reach 0x2000 16 0x2000 .unitWrite && (cmdS.readTgt 0 (.dram 0x3000) 16).isSome &&
       cmdS.canWrite 0 (.dram 0x2000) 16,
     !(c.engine 1).isBad 5 && !c.badAt (.loc 0 false 0x40) 8,
     x.cmds.isEmpty && c.ctxLocal x (lo32 (x.reg 6)) 8 == (tfind c.blocks 0).map (fun b => (0, b, .loc 0 false 0x40)) && (tfind c.blocks 0).all (fun b => b.saved.isNone) &&
       c.slotPaths.all (fun e => match e.2.2.wait with | .pbar _ _ _ _ => false | _ => true),
     decide (tileSize layK.toNat ≤ winSize winH.toNat) && (tileRowsIn layK.toNat [0, 0, 0, 0] 1 2).map (fun r => r.2.1) == [0x1100] &&
       [0x1000, 0x1100].all (fun a => !c.rangeOff a 16 && reads a),
     (c.ctxLocal x (lo32 (x.reg 6)) (tileSize layK.toNat)).isSome && (c.ctxLocal x (lo32 (x.reg 7)) 8).isSome && (lo32 (x.reg 6)).toNat % 16 == 0 &&
       (lo32 (x.reg 7)).toNat % 8 == 0].all id = true := by decide +kernel

/-- Beside the context that runs, context 1 is armed on counter 5, and context 2 has named it for its next command. -/
def cancelS : State :=
  onChip (((cmdS.chip 0).setCtx 0 1 { placedCtx with armed := [(5, 4, false)] }).setCtx 0 2 { placedCtx with arms := [(5, 4)] })

/-- StreamMemory: what `cset` cancels. -/
theorem meets_cancel : cancelS.CmdReady (headCtx cancelS) ∧
    [1, 2].all (fun k => (tfind ((cancelS.chip 0).engine 0).ctx k).any (fun y => y.busy && y.ending.isNone &&
      (y.armed.any (fun a => a.1.toNat = 5) || y.arms.any (fun a => a.1.toNat = 5)))) = true := by
  refine ⟨⟨⟨rfl, rfl⟩, rfl, ?_, ?_, ?_, ?_, ?_, ?_⟩, ?_⟩ <;> decide +kernel

/-- A slice of 16 bytes on its way to slot 1 of the window, which is posted. -/
def fetchK : DataCmd :=
  { op := .fetch winH 16 (leBytes 16 0x1234) 1 [{ rank := 0, slot := 1, state := .waiting }], record := true, tag := 7, status := 0, done := false, target := 1 }

/-- See `fetchK`. -/
def sliceS : State := ctxS (fun x => { x with cmds := [fetchK] }) id (fun b => { b with mem := memPut [] 0 (leBytes 8 1) })

/-- A tile write of one row, whose word says that the engine owns it. -/
def tilewK : DataCmd :=
  { op := .tilew (layK - BitVec.ofNat 512 (2 ^ 288)) [0, 0, 0, 0] 0x80000040 0x80000400, record := false, tag := 0, status := 0, done := false, target := 0 }

/-- See `tilewK`. -/
def tilewS : State := ctxS (fun x => { x with cmds := [tilewK] }) id (fun b => { b with mem := memPut (memPut [] 0x40 (leBytes 16 0xABCD)) 0x400 (leBytes 8 5) })

/-- A command that is armed on one condition that is met and one that is not; contexts that end. -/
def armedS : State :=
  let s := ctxS (fun x => { x with armed := [(1, 4, false), (2, 4, false)] }) id id
  onChip ((s.chip 0).setEngine 0 { (s.chip 0).engine 0 with cnt := [(1, 5), (2, 3)] })

/-- StreamEvents: every clause. -/
theorem meets_stream_events :
    let x := headCtx sliceS
    let y := headCtx tilewS
    let c := sliceS.chip 0
    let d := tilewS.chip 0
    let rd := fun (s : State) (a : Nat) => ofLe ((s.readTgt 0 (.loc 0 false a) 8).getD [])
    let lr := (layK - BitVec.ofNat 512 (2 ^ 288)).toNat
    let bs := (tilewS.imageRow 0 (.loc 0 false 0x40) lr 0).getD []
    let r := tilewS.streamWrite 0 (askCtx 0 0) y false 0x1000 (bs.take 16)
    [x.cmds[0]? == some fetchK && decide (1 < winSlots winH.toNat) && (c.ctxBlock x 0).any (fun e => e.2.saved.isNone) && !nbit (rd sliceS 24) 0 &&
       fld (rd sliceS 0) 0 16 == 1 && sliceS.canWrite 0 (.loc 0 false 0) 8 && sliceS.canWrite 0 (.loc 0 false 24) 8 &&
       sliceS.canWrite 0 (.loc 0 false (winDataAt winH.toNat 1 + 16)) 16 && !delBefore (x.cmds.take 0) 1 0 winH true && !c.badAt (.loc 0 false 0) 8 && !c.badAt (.loc 0 false 24) 8,
     y.cmds[0]? == some tilewK && (d.ctxLocal y 0x80000040 (tileSize lr)).any (fun e => e.2.1.saved.isNone && e.2.2 == .loc 0 false 0x40) &&
       (d.ctxLocal y 0x80000400 8).any (fun e => e.2.1.saved.isNone && e.2.2 == .loc 0 false 0x400) && nbit (rd tilewS 0x400) 0 &&
       tileRowsIn lr [0, 0, 0, 0] 0 (tileRowCount lr) == [(0, 0x1000, 128)] && tilewS.canWrite 0 (.loc 0 false 0x400) 8 && !r.off && r.status == 0 &&
       bs == leBytes 16 0xABCD && r.s.asks.isEmpty && r.s.taken.isEmpty && !tileBefore (y.cmds.take 0) 0x80000400 && !d.badAt (.loc 0 false 0x400) 8 &&
       !d.badAt (.loc 0 false 0x40) (tileSize lr),
     (headCtx armedS).busy && (headCtx armedS).armed.any (fun a => reached (((armedS.chip 0).engine 0).counter a.1.toNat) a.2.1) &&
       (headCtx armedS).armed.any (fun a => !reached (((armedS.chip 0).engine 0).counter a.1.toNat) a.2.1) &&
       (headCtx armedS).armed.all (fun a => !((armedS.chip 0).engine 0).isBad a.1.toNat),
     (headCtx (ctxS (fun x => { x with halted := true }) id id)).halted && (headCtx (ctxS (fun x => { x with ending := some 3 }) id id)).ending == some 3 && (headCtx (ctxS (fun x => { x with ending := some 3 }) id id)).cmds.isEmpty].all id = true := by
  decide +kernel

/-- An access of wave 0 to the control page of engine 3. -/
def ctrlAccess (k : AccKind) (ty : Ty) (off size : Nat) (data : DWord) (pr : Option Nat) : PendAcc :=
  { id := 1, seq := 1, wid := 0, pathMask := 1, kind := k, ty := ty, tgt := .aperture (0x8000003000 + off), size := size, data := data, ordered := false,
    lane := 0, prod := pr }

/-- It is pending, with the producer of an atomic. -/
def ctrlS (a : PendAcc) : State := onChip { chipT with
  pend := [a], prods := [(50, { wid := 0, pathMask := 1, kind := .atomic, dests := [(0, [.v 136, .v 137])], res := [] })] }

/-- A record on its way to cluster 0, one in its event queue, and a mirror whose last place of 256 is free. -/
def recordK : RecordOut := { cluster := 0, grow := some 0, tag := 0x7FFFFFFF, count := 1, status := 0, unit := 2, source := 0 }

/-- See `recordK`. -/
def queueS (rmir : Nat) : State :=
  let k := (served chipT).cluster 0
  onChip { ((served chipT).setCluster 0 { k with evq := [recordK], evqHead := 5 }) with
    recOut := [recordK], grids := tmap chipT.grids (fun _ g => { g with kern := { g.kern with rmir := rmir } })
    dram := memPut (memPut chipT.dram 0x4000 (leBytes 8 255)) 0x4008 (leBytes 8 0) }

/-- ControlPagesAndRecords: every clause. -/
theorem meets_control_pages :
    let due := fun (a : PendAcc) (k : CtrlKind) => let c := (ctrlS a).chip 0
      !c.behind a && c.ordDue a && apAddr 0x80000030FC == .control 3 0xFC && (c.pend.find? (fun b => b.id = a.id && b.ctrl = some k)) == some a
    let c := (queueS 2).chip 0
    [due (ctrlAccess (.atomic 0 0) .n32 0xFC 4 5 none) .add, due (ctrlAccess .store .b32 0xFC 4 5 none) .set,
     due (ctrlAccess (.atomic 6 0) .b64 0x100 8 0x10000 (some 50)) .request, due (ctrlAccess .store .b64 0x100 8 0x10000 none) .store,
     decide ((c.cluster 0).evq.length < 4096), !(c.engine 3).isBad 63 && (queueS 0).asks.isEmpty && (queueS 0).taken.isEmpty && (((queueS 0).chip 0).cluster 0).evq.all (fun r => (((queueS 0).chip 0).mirrorOf r).isNone),
     (c.cluster 0).evq.all (fun r => (c.mirrorOf r).any (fun g => g.kern.rmir == 2 && unitFinds (queueS 2) (askRing 0) g.asid 0x4000 .unitWrite none (.dram 0x4000) &&
         unitFinds (queueS 2) (askRing 0) g.asid 0x5000 .unitWrite none (.dram 0x5000)) && !nbit r.tag.toNat 31) &&
       (queueS 2).readTgt 0 (.dram 0x4000) 8 == some (leBytes 8 255) && (queueS 2).readTgt 0 (.dram 0x4008) 8 == some (leBytes 8 0) &&
       (queueS 2).canWrite 0 (.dram 0x4000) 8 && (queueS 2).canWrite 0 (.dram 0x5FF0) 16].all id = true := by decide +kernel

/-! ### Issue, queues and the queue engine -/

/-- The grid in fixed gear, its wave as `f` makes it, before a line whose first operation is `i`. -/
def gearS (i : Instr) (f : Wave → Wave) : State :=
  let c := chipT.setWave 0 (f placedWave)
  onChip { c with
    grids := tmap c.grids (fun _ g => { g with kern := { g.kern with fgear := true } })
    dram := memPut c.dram 0x10000 (leBytes 64 (lineOf ((encode i).getD nopWord))) }

/-- Wave 1 behind wave 0 in a core with one permit. -/
def heldS : State :=
  let c := chipT.setWave 1 { placedWave with wno := 1 }
  onChip (c.setCore 0 { c.core 0 with permitN := 1, l1 := [{ line := 5, data := [], filler := 1 }] })

/-- The same before a line that begins with a load; each slot A as `i`, in cycle 5,000. -/
def loadS (i : SlotIssue) : State :=
  let c := heldS.chip 0
  onChip { c with
    cycle := 5000, waves := tmap c.waves (fun _ w => { w with issueA := i })
    dram := memPut c.dram 0x10000 (leBytes 64 (lineOf ((encode (.ld (opsM (.lane 4) (.unif 2) .none 0 0 .b32 0))).getD nopWord))) }

/-- IssueEvents: every clause. -/
theorem meets_issue_events :
    let fs := gearS (.bar (opsM (.pred 0) .none .none 1 31 .b32 0)) id
    let fw := placedWave
    let bw := { placedWave with clock := 4096, buf := [{ tgt := .dram 0x1000, ty := .b32, data := [1, 2, 3, 4], quantum := 0 }] }
    let qs := gearS (.nop (ops0 0)) (fun _ => bw)
    let i : SlotIssue := { promo := 0, age := some 1, since := 4936, throttledAt := some 904, yieldEnd := some 5000, permit := false }
    let ls := loadS { i with yieldEnd := none }
    [(ls.wave? 0 0).any (fun w => ls.readyAt 0 0 w .A && !ls.heldBack 0 w .A && (w.issueOf .A).age.isSome && (w.issueOf .A).since.toNat + 64 == (ls.chip 0).cycle.toNat),
     ((loadS i).wave? 0 0).any (fun w => (w.issueOf .A).yieldEnd == some 5000 && ((loadS i).chip 0).cycle == 5000),
     (ls.wave? 0 1).any (fun w => ls.heldBack 0 w .A && (w.issueOf .A).throttledAt == some 904),
     (heldS.portList 0 0).map (fun x => (x.wno, x.slot)) == [(0, .A), (1, .A)],
     fs.wave? 0 0 == some fw && (fs.chip 0).fgear 0 && (fs.chip 0).atSync fs.tick fw .A && !fs.pathParked 0 0 fw .A &&
       !fw.ended && fw.turn.isNone && (fw.path? .A).all (fun q => !fs.barIdle 0 0 fw .A q) && fs.otherReady 0 fw .A && fs.gridLive 0 && !fw.hmode && (fs.parties 0).all (fun e => decide (e.1 = .wave 0 0)),
     decide (256 ≤ ((ls.chip 0).cycle - ((ls.chip 0).core 0).shiftAt).toNat), ((heldS.chip 0).core 0).l1.length == 1,
     qs.chips.any (fun e => e.2.fgear 0) && qs.quantumDue 0 && qs.wave? 0 0 == some bw && !qs.gone 0 (qs.chip 0) && bw.quant == qs.quantumOf 0 && qs.canWrite 0 (.dram 0x1000) 4].all id = true := by decide +kernel

/-- A packet of a type, with a payload. -/
def pktK (ty : Nat) (pl : List DWord) (st : PktStage) : StartedPkt :=
  { n := 3, hdr := BitVec.ofNat 64 (1 + 2 * ty), csig := 0, payload := pl ++ List.replicate (6 - pl.length) 0, stage := st, deps := [], code := 0, detail := 0, cause := 0,
    faultId := 0, kern := none }

/-- Queue 511 of half 1 with it: ring at 0x6000 of 4 slots, in address space 1. -/
def ringS (k : List StartedPkt) (fetch : DWord) (slot : Nat) : State :=
  onChip { served chipT with
    queues := [(1023, { ring := 0x6000, log2 := 2, asid := 1, notify := 5, fetch := fetch, doneCnt := 3, stall := false, started := k })]
    dram := memPut (memPut chipT.dram 0x6000 (leBytes 256 slot)) 0x5000 (leBytes 8 (2 ^ 63)) }

/-- The same queue, its ring on another chip. -/
def farS (k : List StartedPkt) : State :=
  let c := (ringS k 4 0).chip 0
  onChip { c with queues := tmap c.queues (fun _ x => { x with ring := 0x1000000000000 }) }

/-- The second GiB of address space 1 is host memory from 0 on. -/
def hostS (k : List StartedPkt) : State :=
  let c := (ringS k 5 0).chip 0
  let e : TlbEntry := { asid := 1, base := 0x40000000, log2 := 30, pa := 0, w := true, x := true, host := true }
  onChip { c with dram := memPut c.dram 0x21008 (leBytes 8 0x3000000000000003), clusters := tmap c.clusters (fun _ u => { u with l2tlb := e :: u.l2tlb }) }

/-- QueuePackets: every clause. -/
theorem meets_queues :
    let q := fun (s : State) => (s.chip 0).queueAt 1 511
    let starts := fun (k : StartedPkt) (ty : Nat) (res : Bool) => (q (ringS [k] 5 0)).any (fun x => x.pkt 3 == some k && k.type == ty && x.mayStart k && k.code == 0 && k.reserved == res && !((ringS [k] 5 0).chip 0).csigHost x.asid k)
    let reads := fun (s : State) (a n : Nat) (p : List Byte → Bool) => let r := s.unitBytes 0 (askPkt 1 511 3) 1 a n 0
      decide (r.1 = s) && r.2.any p
    let at_ := fun (s : State) (n a : Nat) (k : AccessKind) => unitFinds s (askPkt 1 511 n) 1 a k none (.dram a)
    let got := fun (s : State) (tg : Target) (n : Nat) => match s.unitRead 0 0 tg n with | .ok bs => bs.length == n | .error _ => false
    let goodRec := 0x10000 + 0x10000 * 2 ^ 64 + 4096 * 2 ^ 256 + 2 ^ 544
    let s := ringS [] 4 0
    let r := ringS [pktK 0 [0] .fetched] 5 goodRec
    [(q (ringS [] 5 0)).any (fun x => decide (x.notify.toNat ≤ x.fetch.toNat)),
     (q s).any (fun x => decide (x.fetch.toNat < x.notify.toNat) && !(s.chip 0).offChip 0x6000 && at_ s 4 0x6000 .unitRead) && got s (.dram 0x6000) 64 && nbit goodRec 0 == false,
     (q (farS [])).any (fun x => decide (x.fetch.toNat < x.notify.toNat) && ((farS []).chip 0).offChip 0x1000000000000) && (farS []).asks.isEmpty && (farS []).taken.isEmpty,
     starts (pktK 0 [0, 1] .fetched) 0 true, starts (pktK 1 [0, 0, 0, 0, 1] .fetched) 1 true, starts (pktK 2 [0, 0, 1] .fetched) 2 true, starts (pktK 3 [0, 0, 0, 1] .fetched) 3 true,
     starts (pktK 0 [0x80] .fetched) 0 false && starts (pktK 0 [0x6000] .fetched) 0 false,
     reads (ringS [pktK 0 [0x6000] .fetched] 5 1) 0x6000 256 (fun b => (r.chip 0).checkRec 1 (ofLe b) == some 2),
     reads r 0x6000 256 (fun b => (r.chip 0).checkRec 1 (ofLe b) == none) && (r.chip 0).rowFree && !r.barred 0 1 (pktK 0 [0x6000] .fetched) && (q r).any (fun x => x.started.all (fun j => j.stage != .waiting)),
     starts (pktK 1 [4] .fetched) 1 false && starts (pktK 1 [0x5000, 0x6000] .fetched) 1 false && reads (ringS [] 5 7) 0x5000 8 (fun b => decide (asSigned 64 (ofLe b) ≤ 0)) &&
       reads (ringS [] 5 7) 0x6000 8 (fun b => decide (0 < asSigned 64 (ofLe b))),
     (q (ringS [{ pktK 1 [] .started with deps := [0x6000] }] 5 7)).any (fun x => x.pkt 3 == some { pktK 1 [] .started with deps := [0x6000] }),
     starts (pktK 2 [4] .fetched) 2 false && starts (pktK 2 [0x1000000000000] .fetched) 2 false && (s.chip 0).offChip 0x1000000000000 && starts (pktK 2 [0x6000, 1] .fetched) 2 false &&
       at_ s 3 0x6000 .unitWrite && s.canWrite 0 (.dram 0x6000) 8 && (s.readTgt 0 (.dram 0x6000) 8).isSome && !(s.chip 0).offChip 0x6000 &&
       (s.hostSays true).isSome && (s.hostSays false).isSome && !(s.chip 0).csigHost 1 (pktK 2 [0x6000, 1] .fetched),
     (let u := hostS [{ pktK 2 [0x6000, 1] .fetched with csig := 0x40000000 }]
      let v := { u with hostAtomics := some false }
      (v.chip 0).queueAt 1 511 == (u.chip 0).queueAt 1 511 && (u.chip 0).csigHost 1 { pktK 2 [0x6000, 1] .fetched with csig := 0x40000000 } && at_ u 3 0x6000 .unitWrite &&
        v.barred 0 1 { pktK 2 [0x6000, 1] .fetched with csig := 0x40000000 }),
     starts (pktK 3 [0x5000, 0x6000, 15] .fetched) 3 false && starts (pktK 3 [0x1000000000000, 0x6000, 16] .fetched) 3 false &&
       (s.chip 0).rangeOff 0x1000000000000 16 && starts (pktK 3 [0x5000, 0x6000, 16] .fetched) 3 false && !(s.chip 0).rangeOff 0x5000 16 && !(s.chip 0).rangeOff 0x6000 16 &&
       at_ s 3 0x6000 .unitRead && at_ s 3 0x5000 .unitWrite && got s (.dram 0x6000) 16 && s.canWrite 0 (.dram 0x5000) 16,
     (q (ringS [pktK 3 [] .resolved] 5 0)).any (fun x => x.pkt 3 == some (pktK 3 [] .resolved)) && at_ s 3 0x60C0 .unitWrite && s.canWrite 0 (.dram 0x60C0) 8 && !(s.chip 0).offChip 0x60C0,
     starts (pktK 7 [] .fetched) 7 false, at_ s 3 0x5000 .unitWrite && !(s.chip 0).offChip 0x5000 && (s.readTgt 0 (.dram 0x5000) 8).isSome &&
       s.canWrite 0 (.dram 0x5000) 8, unitFinds (hostS []) (askPkt 1 511 3) 1 0x40000000 .unitWrite none (.host 0) && !((hostS []).chip 0).offChip 0x40000000 && at_ (hostS []) 3 0x60C0 .unitWrite,
     (q (ringS [{ pktK 0 [] .fetched with code := 4 }] 5 0)).any (fun x => (x.pkt 3).any (fun k => k.code == 4 && k.stage == .fetched && x.mayStart k && k.csig == 0))].all id = true := by decide +kernel

/-- A cohort of grid 0. -/
def cohortK (st : CohortAt) (blocks : List Nat) : Cohort :=
  { grow := 0, num := 1, rc := 0, first := 4, count := 2, cluster := 0, status := st, blocks := blocks, order := 1, node := none }

/-- Cohorts of cluster 0, with its lists; `f` changes the package. -/
def engineS (k : Tbl Cohort) (lat bulk : List Nat) (f : Chip → Chip) : State :=
  let c := { chipT with cohorts := k }
  onChip (f (c.setCluster 0 { c.cluster 0 with lat := lat, bulk := bulk }))

/-- Block 0 is that of a bulk cohort, on a reserved core; the latency cohort of a second grid of two tandem blocks of 16 does not fit. -/
def borrowS : State :=
  engineS [(9, { cohortK .resident [0] with count := 1 }), (8, { cohortK .pending [] with grow := 1, count := 17 })] [8] [] (fun c =>
    let g : GridRun := { grow := 1, ggen := 0, asid := 1, origin := 0, kern := { placedKern with latency := true, tandem := true }, recAddr := 0, live := true }
    let d := { c with grids := tset c.grids 1 g, savepool := 4 + 2 ^ 21 }
    d.setCluster 0 { d.cluster 0 with lres := 32 })

/-- Cluster 1 is idle, and a core of it asks cluster 0, which holds a cohort in its bulk list. -/
def stealS : State := engineS [(9, cohortK .pending [])] [] [9] (fun c => { c with steals := [{ core := 32, victim := 0 }] })

/-- A gang of one cohort whose blocks fit no core. -/
def gangS : State :=
  engineS [(9, cohortK .pending [])] [] [9] (fun c =>
    { c with grids := tmap c.grids (fun _ g => { g with kern := { g.kern with gang := true, stages := g.kern.stages.map (fun st => { st with waves := 200 }) } }) })

/-- QueueEngine: every clause. -/
theorem meets_engine :
    let p := fun (s : State) => s.chip 0
    let s := engineS [(9, cohortK .pending [])] [] [9] id
    let big := { cohortK .pending [] with count := 9, node := none }
    let full := engineS [(9, big)] [] [9] (fun c => { c with cores := (List.range 32).map (fun n => (n, { Core.reset n with retired := true })) })
    [((p stateT).cluster 0).lat.isEmpty && ((p stateT).cluster 0).bulk.isEmpty, ((p full).fits 0 big).isNone,
     (p gangS).rowPending 0 0 == [9] && ((p gangS).grid? 0).any (fun g => g.kern.gang) && ((p gangS).gangCluster [9] (cohortK .pending []) false).isNone,
     (p s).fits 0 (cohortK .pending []) == some [0, 0] && ((p s).grid? 0).any (fun g => g.kern.nbin == 0) && ((p s).cohortNeed (cohortK .pending [])).isSome,
     ((p borrowS).fits 0 { cohortK .pending [] with grow := 1, count := 17 }).isNone && (p borrowS).borrower 0 == some (9, { cohortK .resident [0] with count := 1 }) &&
       (tfind (p borrowS).blocks 0).any (fun b => !(p borrowS).blockOver 0 b && b.cores.length == 1) && (p borrowS).freeSlots.length == 4 &&
       (p borrowS).clusters.all (fun e => e.2.fit.queue.isEmpty),
     clusterOf 511 == 15 && !((p stateT).core 511).retired && ((p stateT).coreBlocks 511).isEmpty && (p stateT).steals.isEmpty,
     ((p stealS).cluster 1).bulk.isEmpty && (p stealS).stealable 0 1 == some (9, cohortK .pending [], [32, 32]),
     (p stealS).stealable 1 1 == none].all id = true := by decide +kernel

/-- A bin of grid 0 in cluster 0; its buffer is at 0x7000. -/
def binK (pending : Nat) : Bin :=
  { grow := 0, num := 5, timer := 9, cnt := 2, buf := 0x7000, node := placedKern, tail := 1023, pending := pending, held := 0, running := pending ≠ 0 }

/-- See `binK`. -/
def binS (b : List Bin) : State :=
  let c := (chipT.setWave 0 { placedWave with s := [(4, { UReg.zero with val := 5 }), (5, { UReg.zero with val := 0x40 })] })
  onChip (c.setCluster 0 { c.cluster 0 with bins := b })

/-- The row of grid 0 on this chip, all of whose blocks have ended. -/
def overS : State :=
  let c := chipT.setWave 0 { placedWave with ended := true }
  onChip { c with
    cohorts := [(9, { cohortK .resident [0] with count := 1 })], blocks := tmap c.blocks (fun _ b => { b with ended := true })
    pel := { c.pel with rep := { c.pel.rep with places := [(0, { state := .running, first := 0, count := 1, cores := 1, exec := 0 })] } } }

/-- NodeRecords: every clause. -/
theorem meets_node_records :
    let o := opsOn (.unif 8) (.unif 4) (.unif 5) .none .b32 0
    let ask := fun (s : State) (p : Iss → Bool) => issues formQemit o s (fun x => x.calm s && x.go && (x.word .a x.low 0).toNat % 256 == 5 &&
      (match x.localTargets [(x.low, (x.word .b x.low 0).toNat)] 64 64 with | .ok ts => ts.map (·.2) == [.loc 0 false 0x40] | .error _ => false) && p x)
    let c := overS.chip 0
    let room := fun (b : Bin) => ask (binS [b]) (fun x => decide (b.pending + b.held < 1024) && !x.arrayHolds false [(0, .loc 0 false 0x40)] 64 && x.c.pend.isEmpty &&
      (x.c.grid? 0).isSome && !x.c.offChip (b.buf.toNat + 64 * b.tail) &&
      unitFinds (binS [b]) (askWave x.wid) 1 (b.buf.toNat + 64 * b.tail) .unitWrite (some x.w) (.dram 0x16FC0) && (binS [b]).canWrite x.p (.dram 0x16FC0) 64)
    [ask (binS []) (fun x => (x.c.cluster 0).bins.isEmpty), ask (binS [binK 1024]) (fun _ => true), room (binK 0), room (binK 1),
     issues formQemit { o with guard := { neg := false, p := 0 } } stateT (fun x => !x.go && x.ready && x.calmAfter stateT),
     (((binS [binK 1]).chip 0).cluster 0).bins.all (fun b => b.running && b.pending ≠ 0),
     (c.grid? 0).isSome && (tget PlaceRow.empty c.pel.rep.places 0).exec == c.chipId && c.cohorts.all (fun e => e.2.status ≠ .finished && e.2.blocks.all (fun i =>
       (tfind c.blocks i).all (fun b => b.ended && b.waves.all c.waveDrained))) && c.clusters.all (fun e => e.2.bins.isEmpty) && !c.proposing 1 0].all id = true := by decide +kernel

/-! ### Peloton -/

/-- A package in the pod, ALIVE in its own tables, its part in the scheduler as `f` makes it, the sequencer as `g`, the packets `net` on their way. -/
def podS (f : Peloton → Peloton) (g : Switch → Switch) (net : List Packet) : State :=
  let c := aliveT.chip 0
  { onChip { c with joined := true, pel := f c.pel } with net := net, sw := g State.reset.sw }

/-- An event record of chip 0. -/
def evK (ty pnum seq pay : Nat) : EventRec := eventRec false 0 ty pnum 1 seq pay

/-- A packet of the scheduler for the switch, or for chip 0. -/
def pelK (ty : Nat) (sw : Bool) (opw : Word) (addr : DWord) (bs : List Byte) : Packet :=
  { Packet.blank with ptype := ty, dstSw := sw, opw := opw, addr := addr, data := bs, len := bs.length }

/-- Chip 0 is in a state in the tables of a replica. -/
def withChip (n : Nat) (st : ChipState) (r : Replica) : Replica := { r with chips := tset r.chips n { state := st, capl := 0, capb := 0, capp := 512 } }

/-- Everything that a premise about a packet asks. -/
def forSwitch (s : State) (ty : Nat) : Bool := s.net[0]?.any (fun k => k.ptype == ty && k.dstSw)
/-- See `forSwitch`. -/
def forChip (s : State) (ty : Nat) : Bool := s.net[0]?.any (fun k => k.ptype == ty && !k.dstSw && k.dst == (s.chip 0).chipId) && (s.chip 0).online

/-- PelotonService: every clause. -/
theorem meets_service :
    let x := fun (s : State) => (s.chip 0).pel
    let e := evK 1 1 1 0
    let s := podS (fun x => { x with props := [e], outstanding := [e], inbuf := [e] }) id []
    let inbox := fun (st : ChipState) (last : Nat) (e : EventRec) => podS id (fun w => { w with inbox := [e], lastPnum := [(0, last)], witness := withChip 0 st w.witness }) []
    let asks := fun (st : ChipState) (last : Nat) (e : EventRec) (p : Nat → Nat → ChipState → Bool) => let w := (inbox st last e).sw
      w.emit.isEmpty && w.inbox[0]? == some e && p (evPnum e) (tget 0 w.lastPnum (evOrigin e)) (w.witness.chip (evOrigin e)).state
    let gap := podS (fun x => { x with inbuf := [evK 1 1 3 0] }) id []
    let old := podS (fun x => { x with rep := { x.rep with term := 2 }, inbuf := [e] }) id []
    let rtq := fun (seq : DWord) => podS id (fun w => { w with retrans := [e] }) [pelK 16 true 1 seq []]
    [(s.chip 0).online && (s.chip 0).joined && !(x s).stuck && (x s).rejoining == .none && (x s).props[0]? == some e && (x s).outstanding[0]? == some e,
     forSwitch (podS id id [pelK 13 true 0 0 (leBytes 64 e.toNat)]) 13, (podS id (fun w => { w with emit := [e] }) []).sw.emit == [e],
     asks .alive 0 (eventRec true 0 4 0 0 0 0) (fun _ _ _ => true), asks .alive 5 (evK 1 5 0 0) (fun n l _ => decide (n ≤ l)), asks .joining 5 (evK 6 4 0 0) (fun n l st => decide (n ≤ l) && st == .joining),
     asks .fenced 5 (evK 6 4 0 0) (fun n l st => decide (n ≤ l) && st == .fenced), asks .fenced 5 (evK 6 5 0 0) (fun n l st => n == l && st == .fenced), asks .absent 5 (evK 6 9 0 0) (fun n l _ => decide (l < n)),
     asks .fenced 5 (evK 1 9 0 0) (fun n l st => decide (l < n) && st == .fenced), asks .alive 5 (evK 1 6 0 0) (fun n l st => n == l + 1 && st == .alive),
     asks .alive 5 (evK 1 7 0 0) (fun n l st => decide (l + 1 < n) && st == .alive),
     forChip (podS id id [pelK 14 false 0 0 (leBytes 64 e.toNat)]) 14,
     evSeq e == (x s).rep.seq + (x s).apply.length + 1 && decide ((x s).topTerm ≤ evTerm e) && (x s).inbuf == [e],
     evSeq e == (x old).rep.seq + 1 && decide (evTerm e < (x old).topTerm), (x gap).inbuf.all (fun e => decide ((x gap).rep.seq + 1 < evSeq e)) && gap.net.isEmpty,
     forSwitch (rtq 1) 16 && (rtq 1).sw.retrans.any (fun e => evSeq e == 1), forSwitch (rtq 2) 16 && (rtq 2).sw.retrans.all (fun e => evSeq e != 2) && (rtq 2).pkgOf 0 == some 0,
     (podS id (fun w => { w with ticked := true }) []).sw.ticked, !(podS id (fun w => { w with ticked := false }) []).sw.ticked,
     ((x s).rep.chip (s.chip 0).chipId).state == .alive && !(x s).stuck && ((s.chip 0).link 7).up && ((s.chip 0).link 7).waiting.isEmpty && ((s.chip 0).link 7).parcels.isEmpty &&
       decide (1 ≤ ((s.chip 0).link 7).credits.getD 2 0) && ((s.chip 0).link 7).replay.isEmpty,
     forSwitch (podS id id [pelK 15 true 3 0 []]) 15, ((podS id (fun w => { w with heard := [0] }) []).sw.heard).contains 0,
     (let w := (inbox .alive 0 e).sw
      w.heard.isEmpty && (w.witness.chip 0).state == .alive && w.emit.isEmpty)].all id = true := by decide +kernel

/-- Chip 0 is about to apply event `e`, with the tables that `f` makes. -/
def applyS (e : EventRec) (f : Replica → Replica) : State :=
  let s := podS (fun x => { x with apply := [e], rep := f x.rep }) id []
  onChip { s.chip 0 with grids := [], cohorts := [], lrecs := [(lrecOff 0, (1, leBytes 256 (0x10000 + 0x10000 * 2 ^ 64 + 4096 * 2 ^ 256 + 2 ^ 544)))] }

/-- The premises of an application but the order of the tables. -/
def applies (s : State) (ty : Nat) : Bool :=
  let x := (s.chip 0).pel
  x.apply.head?.any (fun e => evType e == ty) && (s.chip 0).online && !x.stuck && x.rejoining == .none && x.rep.chips.all (fun y => decide (y.1 < 512))

/-- A submission by chip 0 of one block of one core in the partition class, its record the copy of packet 0 of queue 0. -/
def submitK : EventRec := evK 0 1 1 (lrecOff 0 + 1 * 2 ^ 64 + 1 * 2 ^ 109 + 2 * 2 ^ 115)

/-- A row of the grid table. -/
def gridK (st : GridState) : GridRow := { GridRow.free with state := st, ggen := 1 }

/-- A row of the placement table. -/
def placeK : PlaceRow := { state := .running, first := 0, count := 1, cores := 1, exec := 0 }

/-- The tables with grid 0 running on the chips `l`. -/
def runningK (l : List Nat) (r : Replica) : Replica := { r with grids := [(0, gridK .running)], places := l.map (fun n => (n, { placeK with exec := n })) }

/-- What a table of one value at every number of a list holds. -/
theorem tget_const {α : Type} (d x : α) (n : Nat) : ∀ l : List Nat, n ∈ l → tget d (l.map (fun m => (m, x))) n = x := by
  intro l
  induction l with
  | nil => simp
  | cons a t ih =>
    intro h
    by_cases ha : a = n
    · simp [tget, tfind, ha]
    · have ht := ih (by rcases List.mem_cons.1 h with h | h; exacts [absurd h.symm ha, h])
      simpa [tget, tfind, ha] using ht

/-- Such a table over a range is in order. -/
theorem sorted_const {α : Type} (x : α) (k : Nat) : Sorted ((List.range k).map (fun m => (m, x))) :=
  List.pairwise_map.2 (List.pairwise_lt_range.imp (fun h => h))

/-- ApplyScheduling: every row of the grid table is taken. -/
theorem meets_full_tables :
    (∀ t, let s := applyS submitK (fun r => { r with grids := t })
      applies s 0 = applies (applyS submitK id) 0 ∧ (s.chip 0).pel.rep.grids = t ∧ (s.chip 0).pel.rep.places = []) ∧
    ∃ t, Sorted t ∧ ∀ h < 4096, (tget GridRow.free t h).state ≠ .free := by
  refine ⟨fun t => ⟨rfl, rfl, rfl⟩, (List.range 4096).map (fun n => (n, gridK .waiting)), sorted_const _ _, fun h hh => ?_⟩
  rw [tget_const GridRow.free (gridK .waiting) h (List.range 4096) (List.mem_range.2 hh)]
  decide

/-- ApplyScheduling: every clause but that of a full table. -/
theorem meets_scheduling :
    let x := fun (s : State) => (s.chip 0).pel.rep
    let sorted := fun (s : State) => decide ((x s).grids.Pairwise (fun a b => a.1 < b.1)) && decide ((x s).places.Pairwise (fun a b => a.1 < b.1))
    let s := applyS submitK id
    let fin := fun (gen : Nat) (l : List Nat) => applyS (evK 1 1 1 (gen * 2 ^ 12)) (runningK l)
    let flt := fun (gen : Nat) => applyS (evK 3 1 1 (gen * 2 ^ 12)) (runningK [0])
    [applies s 0 && sorted s && ((x s).grid 0).state == .free && ((x s).eligible (evPay submitK 115 2) (evPay submitK 109 6)).map (·.1) == [0] && (x s).grids.isEmpty &&
       (x s).places.isEmpty && evPay submitK 117 1 == 0 && evPay submitK 119 1 == 0 && (s.chip 0).chipId == 0 && ((s.chip 0).grid? 0).isNone && s.pkgOf (evPay submitK 0 64 / 2 ^ 48) == some 0 &&
       ((s.chip 0).recordAt (evPay submitK 64 16) (evPay submitK 0 64 % 2 ^ 48)).any (fun k => !k.gang),
     applies (fin 0 [0]) 1 && sorted (fin 0 [0]) && ((x (fin 0 [0])).grid 0).ggen.toNat != 0,
     applies (fin 1 [0, 3]) 1 && sorted (fin 1 [0, 3]) && ((x (fin 1 [0, 3])).place 0 0).state == .running && ((x (fin 1 [0, 3])).place 0 3).state == .running,
     applies (fin 1 [0]) 1 && ((x (fin 1 [0])).place 0 0).exec == 0 && (x (fin 1 [0])).places.length == 1,
     applies (applyS (evK 2 1 1 5) id) 2 && ((x (applyS (evK 2 1 1 5) id)).chip 0).state == .alive,
     applies (flt 0) 3 && ((x (flt 0)).grid 0).ggen.toNat != 0, applies (flt 1) 3 && ((x (flt 1)).grid 0).ggen.toNat == 1 && ((x (flt 1)).grid 0).state == .running].all id = true := by
  decide +kernel

/-- A point of chip 0 alone, with the reports `l`. -/
def pointK (l : List (Option Nat × BitVec 128)) : DigestPoint := { seq := 3, parts := [0], reports := l, own := 7, verdict := none, late := none }

/-- ApplyMembership: every clause. -/
theorem meets_membership :
    let x := fun (s : State) => (s.chip 0).pel.rep
    let s := fun (ty pay : Nat) (f : Replica → Replica) => applyS (evK ty 1 9 pay) f
    let dg := fun (l : List (Option Nat × BitVec 128)) => s 7 (3 + 7 * 2 ^ 64) (fun r => { r with points := [pointK l] })
    let at_ := fun (l : List (Option Nat × BitVec 128)) => applies (dg l) 7 && (x (dg l)).points.find? (fun y => y.seq = 3 && y.verdict.isNone) == some (pointK l) &&
      l.all (fun z => z.1 != some 0) && evPay (evK 7 1 9 (3 + 7 * 2 ^ 64)) 0 64 == 3 && evPay (evK 7 1 9 (3 + 7 * 2 ^ 64)) 64 128 == 7
    let two := withChip 5 .alive
    [applies (s 4 0 id) 4 && evPay (evK 4 1 9 0) 0 9 == (applyS submitK id |>.chip 0).chipId, applies (s 4 5 (fun r => two (runningK [0, 5] r))) 4 && ((x (s 4 5 (fun r => two (runningK [0, 5] r)))).place 0 5).exec == 5,
     applies (s 5 5 two) 5 && ((x (s 5 5 two)).chip 5).state == .alive, applies (s 5 0 id) 5 && ((x (s 5 0 id)).chip 0).state == .alive && ((s 5 0 id).chip 0).joined,
     applies (s 6 0 (withChip 0 .absent)) 6 && ((x (s 6 0 (withChip 0 .absent))).chip 0).state == .absent && (x (s 6 0 id)).points.isEmpty,
     at_ [], at_ [(none, 7)], (pointK []).parts == [0]].all id = true ∧
    (let t := podS (fun x => { x with due := [3], rep := { x.rep with points := [pointK []] } }) id []
     (t.chip 0).pel.rep.points.find? (fun x => x.seq = 3) = some (pointK []) ∧ 3 ∈ (t.chip 0).pel.due) := by decide +kernel

/-- Bytes of a snapshot with chip 1 ALIVE and no other row, at point 1 with verdict `v`. -/
def imageK (v : BitVec 128) : List Byte :=
  leBytes 16 ((withChip 1 .alive Replica.formation).chipWord 1) ++ List.replicate (511 * 16 + 16 + 4096) 0 ++ leBytes 8 1 ++ leBytes 16 v.toNat

/-- The digest of those tables. -/
def digestK : BitVec 128 := ({ withChip 1 .alive Replica.formation with seq := 1 } : Replica).pointDigest

/-- Rejoining: a snapshot whose digest is its verdict, and one whose digest is not. -/
theorem meets_snapshot :
    [digestK, digestK + 1].all (fun v => (replicaOf (imageK v) Replica.formation).any (fun e => e.2 == v && e.1.seq == 1 && (e.1.pointDigest == v) == (v == digestK))) = true := by
  decide +kernel

/-- Chip 0 rejoins as `f` says; `g` changes its package, and chip 1 is in state `st` to the sequencer. -/
def rejoinS (f : Peloton → Peloton) (g : Chip → Chip) (st : ChipState) (net : List Packet) : State :=
  let s := podS f (fun w => { w with witness := withChip 1 st w.witness }) net
  { onChip (g (s.chip 0)) with sw := s.sw, net := net }

/-- A request for a snapshot to chip 1. -/
def snqK : Packet := { Packet.blank with ptype := 17, dst := 1 }

/-- Rejoining: every clause. -/
theorem meets_rejoining :
    let x := fun (s : State) => (s.chip 0).pel
    let runs := fun (s : State) => (s.chip 0).online && (s.chip 0).joined && !(s.chip 0).recovery
    let lost := fun (s : State) => (s.chip 0).requests.any (fun k => k.ptype == 17 && (s.sw.witness.chip k.dst).state != .alive)
    let free := fun (s : State) => (s.chip 0).mayAsk 1 && (s.chip 0).askWait.isEmpty
    let stuck := rejoinS (fun x => { x with stuck := true, inbuf := [evK 5 1 4 0] }) id .alive []
    let lone := rejoinS (fun x => { x with stuck := true }) id .alive []
    let out := rejoinS (fun x => { x with rep := withChip 0 .fenced x.rep }) id .alive []
    let here := rejoinS id id .alive []
    let start := fun (st : ChipState) => rejoinS (fun x => { x with rejoining := .start }) id st []
    let asked := fun (st : ChipState) => rejoinS (fun x => { x with rejoining := .snapshot }) (fun c => { c with requests := [snqK] }) st []
    let empty := rejoinS (fun x => { x with rejoining := .snapshot, pieces := [(0, [])], pieceCount := some 1 }) id .alive []
    let got := rejoinS (fun x => { x with rejoining := .snapshot, src := some Replica.formation, pieces := [(0, imageK digestK)], pieceCount := some 1 }) id .alive []
    let tail := fun (seq : Nat) => rejoinS (fun x => { x with rejoining := .tail, pieces := [(0, leBytes 64 (evK 2 1 seq 0).toNat)], pieceCount := some 1 }) id .alive []
    let sent := fun (l : List (Nat × Word × List Byte × Option Replica)) =>
      rejoinS (fun x => { x with snap := some Replica.formation }) (fun c => { c with snSent := l }) .alive [pelK 17 false 0 0 []]
    let ask := sent []
    let twice := sent [(0, 0, [1, 2], none)]
    let piece := rejoinS id (fun c => { c with requests := [{ snqK with dst := 0 }] }) .alive [pelK 18 false 0x80000000 512 [1, 2]]
    [stuck, lone, out, here, start .alive, asked .alive, empty, got, tail 1, ask, twice, piece].all runs ∧
    [(x stuck).stuck && (x stuck).inbuf.all (fun e => evType e == 5 && evPay e 0 9 == (stuck.chip 0).chipId && decide ((x stuck).rep.seq < evSeq e)), (x lone).stuck && (x lone).inbuf.isEmpty,
     (x out).rejoining == .none && ((x out).rep.chip 0).state == .fenced, (x here).rejoining == .none && ((x here).rep.chip 0).state == .alive,
     (start .alive).neighbour 0 == some 1 && free (start .alive), (start .fenced).neighbour 0 == none, lost (asked .fenced), !lost (asked .alive),
     (x empty).received == some [] && (replicaOf [] Replica.formation).isNone && !lost empty && empty.neighbour 0 == some 1, (x got).received.isSome && (x got).src == some Replica.formation && !lost got && free got,
     (x (tail 1)).received.any (fun b => inSeries 1 ((pieces 64 (b.length / 64) b).map (fun b => BitVec.ofNat 512 (ofLe b)))) && (x (tail 1)).rep.seq == 0 && !lost (tail 1),
     (x (tail 2)).received.any (fun b => !inSeries 1 ((pieces 64 (b.length / 64) b).map (fun b => BitVec.ofNat 512 (ofLe b)))),
     forChip ask 17 && ((x ask).rep.chip 0).state == .alive && (x ask).rejoining == .none && (x ask).snap.isSome && (ask.chip 0).snSent.isEmpty,
     forChip twice 17 && (twice.chip 0).snSent.find? (fun a => a.1 = 0 && a.2.1 = 0) == some (0, 0, [1, 2], none),
     forChip piece 18 && (piece.chip 0).requests.find? (fun r => r.ptype = 17 && r.dst = 0 && r.tid = 0) == some { snqK with dst := 0 }].all id = true := by decide +kernel

/-! ### Between chips -/

/-- A packet of the fabric from chip 5 to chip 0. -/
def wireK (ty : Nat) (opw : Word) (addr : DWord) (len : Nat) (bs : List Byte) : Packet :=
  { Packet.blank with ptype := ty, src := 5, opw := opw, addr := addr, asid := 1, len := len, data := bs, tid := 3, ty := .n32 }

/-- It is on its way to a package in the pod, which `f` changes. -/
def wireS (k : Packet) (f : Chip → Chip) : State := let s := podS id id [k]; { onChip (f (served (s.chip 0))) with sw := s.sw, net := [k] }

/-- RemotePackets, requests: every clause. -/
theorem meets_requests :
    let serves := fun (s : State) (ty : Nat) => forChip s ty && ((s.chip 0).pel.rep.chip (s.chip 0).chipId).state == .alive && (s.chip 0).pel.rejoining == .none && (s.chip 0).answered.isEmpty &&
      s.net[0]?.any (fun k => s.awaited k)
    let xl := fun (s : State) (a : Nat) (k : AccessKind) => s.net[0]?.any (fun m => unitFinds s (askReq m) 1 a k (((s.starter m).filter (fun e => e.1 = 0)).map (·.2.2)) (.dram a))
    let wr := wireS (wireK 1 0 0x100 16 (List.replicate 16 7)) id
    let red := wireS (wireK 1 (1 + 2 * 0 + 8 * Ty.i32.code) 0x100 16 (List.replicate 16 7)) id
    let bad := wireS (wireK 1 0 0x40000000 16 (List.replicate 16 7)) (fun c =>
      let m := wireK 1 0 0x40000000 16 (List.replicate 16 7)
      { c with unitWalks := [{ asid := 1, page := 0x40000, req := { kind := .unitWrite, cluster := unitCluster none 1 0x40000000, who := askReq m }, entry := none, cause := 2, level := 1 }] })
    let rd := wireS (wireK 3 0 0x100 16 []) id
    let at_ := wireS (wireK 5 0x100 0x100 4 [1, 0, 0, 0]) id
    let tk := wireS (wireK 7 255 0 0 []) id
    let tkw := fun (n : Word) => wireS (wireK 9 (n + 255 * 2 ^ 24) 0 0 []) id
    let weak := fun (ty : Nat) => wireS (wireK ty 255 0 0 []) (fun c => { c with ownCap := 0 })
    let tka := wireS (wireK 11 7 0 0 []) (fun c => { c with tkWait := [wireK 9 (1 + 7 * 2 ^ 24) 0 0 []] })
    let again := wireS (wireK 7 255 0 0 []) (fun c => { c with answered := [(5, 3, wireK 8 9 0 0 [])] })
    [forChip again 7 && (again.chip 0).answered.find? (fun a => a.1 = 5 && a.2.1 = 3) == some (5, 3, wireK 8 9 0 0 []) && (again.chip 0).pel.rejoining == .none && ((again.chip 0).pel.rep.chip (again.chip 0).chipId).state == .alive &&
       again.asks.isEmpty && again.taken.isEmpty,
     serves wr 1 && xl wr 0x100 .unitWrite && (wr.readTgt 0 (.dram 0x100) 16).isSome && wr.canWrite 0 (.dram 0x100) 16,
     serves red 1 && red.net[0]?.any (fun k => nbit k.opw.toNat 0 && fld k.opw.toNat 1 2 == 0 && (Ty.ofCode (fld k.opw.toNat 3 5)).getD .b32 == .i32) && !(red.chip 0).unable (capTypeBit .i32) &&
       !(red.chip 0).unable (capRopBit 0) && xl red 0x100 .atomic && (redBytes 0 .i32 (List.replicate 16 7) (List.replicate 16 0)).length == 16,
     serves bad 1 && bad.asks.isEmpty && bad.taken.isEmpty && bad.net[0]?.any (fun m =>
       match (bad.chip 0).unitLook { kind := .unitWrite, cluster := unitCluster (((bad.starter m).filter (fun e => e.1 = 0)).map (·.2.2)) 1 0x40000000, who := askReq m } 1 0x40000000 with
       | some (.error e) => e == (2, 1)
       | _ => false),
      serves rd 3 && xl rd 0x100 .unitRead && (rd.readTgt 0 (.dram 0x100) 16).isSome,
     serves at_ 5 && at_.net[0]?.any (fun k => fld k.opw.toNat 8 8 == 1 && !nbit k.opw.toNat 5 && k.ty.width == 32 && k.data.length == 4) && !(at_.chip 0).unable (capAopBit 0) && xl at_ 0x100 .atomic &&
       (at_.readTgt 0 (.dram 0x100) 4).isSome && at_.canWrite 0 (.dram 0x100) 4,
     serves tk 7 && !(tk.chip 0).unable capInc, serves (tkw 0) 9 && !((tkw 0).chip 0).unable capInc && ((tkw 0).chip 0).incastAt 255 == (0, 0), serves (tkw 1) 9 && ((tkw 1).chip 0).tkWait.isEmpty,
     serves (weak 7) 7 && ((weak 7).chip 0).unable capInc, serves (weak 9) 9 && ((weak 9).chip 0).unable capInc, serves tka 11 && (tka.chip 0).incastAt 7 == (0, 0)].all id = true := by decide +kernel

/-- A copy command that has asked, and its request to chip 5. -/
def askS (ty rty : Nat) (opw : Word) (bs : List Byte) (f : Chip → Chip) : State :=
  wireS (wireK ty opw 0 bs.length bs) (fun c => f { c with
    copies := [{ id := 7, wid := 0, blk := 0, core := 0, asid := 1, put := rty ≠ 3, get := rty = 3, red := none, dl := false, sl := false, dst := 0x2000,
                 src := 0x1000, len := 16, tag := 0, record := false, inc := rty = 9, granted := false, prod := 50, sent := [0], finished := [], wrote := 0,
                 failed := none, clock := 0, grow := 0 }]
    prods := [(50, { wid := 0, pathMask := 1, kind := .ticket, dests := [(0, [.s 16])], res := [] })]
    requests := [{ Packet.blank with ptype := rty, dst := 5, tid := 3, ctx := if rty = 7 then 50 else 7 }] })

/-- RemotePackets, responses: every clause. -/
theorem meets_responses :
    let hears := fun (s : State) (ty : Nat) => forChip s ty && (s.chip 0).requests.find? (fun r => r.dst = 5 && r.tid = 3) == (s.chip 0).requests.head? && (s.chip 0).requests.length == 1 &&
      (s.chip 0).askWait.isEmpty
    let cmd := fun (s : State) => ((s.chip 0).requests.head?.bind (fun r => (s.chip 0).copy? r.ctx)).isSome
    let late := askS 10 9 0 [] (fun c => { c with askWait := [{ Packet.blank with ptype := 7, dst := 5 }] })
    let rdd := askS 4 3 0 (List.replicate 16 1) id
    [hears (askS 2 1 0 [] id) 2 && cmd (askS 2 1 0 [] id), hears (askS 2 9 5 [] id) 2 && cmd (askS 2 9 5 [] id), hears (askS 4 3 5 [] id) 4 && cmd (askS 4 3 5 [] id),
     hears rdd 4 && ((rdd.chip 0).copy? 7).any (fun k => unitFinds rdd (askCopy 7) 1 (k.dstAt 0) .unitWrite (rdd.wave? 0 k.wid) (.dram 0x2000)) && (rdd.readTgt 0 (.dram 0x2000) 16).isSome && rdd.canWrite 0 (.dram 0x2000) 16,
     hears (askS 6 5 0 [1, 0, 0, 0] id) 6, hears (askS 8 7 0 [] id) 8 && (tfind ((askS 8 7 0 [] id).chip 0).prods 50).isSome, hears (askS 10 9 0 [] id) 10 && cmd (askS 10 9 0 [] id),
     forChip late 10 && (late.chip 0).askWait.find? (fun r => r.dst = 5) == some { Packet.blank with ptype := 7, dst := 5 } && (late.chip 0).requests.length == 1].all id = true := by decide +kernel

/-- Bits from `n` on leave bit `i` below as it is. -/
theorem nbit_above (n x d i : Nat) (hi : i < n) : nbit (x + d * 2 ^ n) i = nbit x i := by
  have e : (2 : Nat) ^ n = 2 ^ i * (2 * 2 ^ (n - 1 - i)) := by
    rw [← Nat.pow_succ', ← Nat.pow_add, show i + (n - 1 - i).succ = n from by omega]
  have e2 : x + d * 2 ^ n = x + 2 ^ i * (2 * (2 ^ (n - 1 - i) * d)) := by rw [e]; ring
  simp only [nbit, e2, Nat.add_mul_div_left _ _ (Nat.two_pow_pos i), Nat.add_mul_mod_self_left]

/-- The CRC covers the low `n` bits only. -/
theorem crc32_above (n x d : Nat) : crc32 n (x + d * 2 ^ n) = crc32 n x := by
  have key : ∀ (l : List Nat) (c : Word), (∀ i ∈ l, i < n) →
      l.foldl (fun c i => crcBit c (nbit (x + d * 2 ^ n) i)) c = l.foldl (fun c i => crcBit c (nbit x i)) c := by
    intro l
    induction l with
    | nil => intro c _; rfl
    | cons i l ih =>
      intro c h
      rw [List.foldl_cons, List.foldl_cons, nbit_above n x d i (h i (by simp))]
      exact ih _ (fun j hj => h j (by simp [hj]))
  unfold crc32
  rw [key _ _ (fun i hi => List.mem_range.1 hi)]

/-- A word of `n` bits above `n + 32` others reads back. -/
theorem fld_above (n x d : Nat) (hx : x < 2 ^ n) (hd : d < 2 ^ 32) : fld (x + d * 2 ^ n) n 32 = d := by
  rw [fld, Nat.add_mul_div_right _ _ (Nat.two_pow_pos n), Nat.div_eq_of_lt hx, Nat.zero_add, Nat.mod_eq_of_lt hd]

/-- A number of `n` bits with 32 above it has `n + 32` bits. -/
theorem toNat_above (n x d : Nat) (hx : x < 2 ^ n) (hd : d < 2 ^ 32) : (BitVec.ofNat (n + 32) (x + d * 2 ^ n)).toNat = x + d * 2 ^ n := by
  rw [BitVec.toNat_ofNat, Nat.mod_eq_of_lt]
  rw [Nat.pow_add]
  nlinarith [Nat.two_pow_pos n]

/-- A flit is good where its upper 32 bits hold the CRC of the rest (R376). -/
theorem flit_good_iff (x d : Nat) (hx : x < 2 ^ 480) (hd : d < 2 ^ 32) :
    flitGood (BitVec.ofNat 512 (x + d * 2 ^ 480)) = true ↔ (crc32 480 x).toNat = d := by
  have hn : (BitVec.ofNat 512 (x + d * 2 ^ 480)).toNat = x + d * 2 ^ 480 := toNat_above 480 x d hx hd
  unfold flitGood
  rw [hn, crc32_above, fld_above 480 x d hx hd, decide_eq_true_eq]

/-- A field below bit `n` is not changed by what stands above. -/
theorem fld_below (n x d lo len : Nat) (h : lo + len ≤ n) : fld (x + d * 2 ^ n) lo len = fld x lo len := by
  have e : (2 : Nat) ^ n = 2 ^ lo * (2 ^ len * 2 ^ (n - lo - len)) := by
    rw [← Nat.pow_add, ← Nat.pow_add, show lo + (len + (n - lo - len)) = n from by omega]
  have e2 : x + d * 2 ^ n = x + 2 ^ lo * (2 ^ len * (2 ^ (n - lo - len) * d)) := by rw [e]; ring
  rw [fld, fld, e2, Nat.add_mul_div_left _ _ (Nat.two_pow_pos lo), Nat.add_mul_mod_self_left]

/-- The low 480 bits of a packet flit of channel 2 that is all of its packet. -/
def flitX (seq : Nat) : Nat := seq + 2 ^ 16 + 2 * 2 ^ 19 + 2 ^ 21 + 2 ^ 22 + 5 * 2 ^ 32

/-- Links: a good packet flit whose LSEQ is the next, a good one whose LSEQ is not, and one whose CRC is wrong. -/
theorem meets_flits :
    (∀ n ∈ [1, 2], let f := BitVec.ofNat 512 (flitX n + (crc32 480 (flitX n)).toNat * 2 ^ 480)
      flitGood f = true ∧ flitKind f = 1 ∧ (flitSeq f).toNat = n) ∧
    flitGood (BitVec.ofNat 512 (flitX 1 + ((crc32 480 (flitX 1)).toNat + 1) % 2 ^ 32 * 2 ^ 480)) = false := by
  have low : ∀ n ∈ [1, 2], flitX n < 2 ^ 480 ∧ fld (flitX n) 16 3 = 1 ∧ fld (flitX n) 0 8 = n := by decide
  constructor
  · intro n hn
    have h := low n hn
    have hd := (crc32 480 (flitX n)).isLt
    have t := toNat_above 480 (flitX n) (crc32 480 (flitX n)).toNat h.1 hd
    refine ⟨(flit_good_iff _ _ h.1 hd).2 rfl, ?_, ?_⟩
    · unfold flitKind
      rw [t, fld_below _ _ _ _ _ (by decide), h.2.1]
    · unfold flitSeq
      have f := fld_below 480 (flitX n) (crc32 480 (flitX n)).toNat 0 8 (by decide)
      rw [h.2.2] at f
      rw [BitVec.toNat_ofNat, t]
      simpa [fld] using f
  · rw [Bool.eq_false_iff]
    intro h
    have hd := (crc32 480 (flitX 1)).isLt
    have e := (flit_good_iff _ _ (low 1 (by decide)).1 (Nat.mod_lt _ (Nat.two_pow_pos 32))).1 h
    omega

/-- CRC-32 of the nine digits, its published check value (R376). -/
theorem test_crc : crc32 72 (ofLe [0x31, 0x32, 0x33, 0x34, 0x35, 0x36, 0x37, 0x38, 0x39]) = 0xCBF43926 := by decide +kernel

/-- Port 47 of a package as `f` makes it, with a request asked over it. -/
def linkS (f : Link → Link) : State :=
  let s := podS id id []
  onChip ((s.chip 0).setLink 47 (f Link.trained) |> fun c => { c with requests := [{ Packet.blank with ptype := 1, dst := 5, plane := 47 }] })

/-- Links: every clause. -/
theorem meets_links :
    let l := fun (s : State) => (s.chip 0).link 47
    let s := linkS id
    let down := linkS (fun l => { l with up := false })
    [(l s).up && (s.chip 0).online && decide ((l s).failed < 16) && (l s).accepted == 0, (s.chip 0).chipId != 5 && ((s.chip 0).setLink 47 { l s with up := false }).planeFor 47 != 47,
     (l s).waiting.isEmpty && (l s).parcels.isEmpty && (l s).replay.isEmpty && decide (({ Packet.blank with plane := 47 } : Packet).bodies.length ≤ (l s).credits.getD (vcOf 0) 0) &&
       decide (({ Packet.blank with plane := 47 } : Packet).bodies.length ≤ 128), !(l down).up && (l down).waiting.isEmpty].all id = true := by decide +kernel

/-! ## Memory management, management, debug -/

/-- WritesAndReads: both clauses. -/
theorem meets_writes :
    let bad := onChip { chipT with poison := [0x5000 / 128] }
    [stateT.canWrite 0 (.dram 0x5000) 128, stateT.canWrite 0 (.host 0x5000) 128, stateT.canWrite 0 (.loc 0 false 0) 4,
     !(bad.writeTgt 0 (.dram 0x5000) [1]).2].all id = true := by decide +kernel

/-- A walk for slot A of wave 0 waits in the queue of a vault, for a page of address space 1. -/
def walkK (a : Nat) : Walk :=
  { age := 3, asid := 1, page := a / 4096, reqs := [{ kind := .load, wid := 0, slot := .A, pc := 0x10000, core := 0, lanes := 1, addr := a }] }

/-- See `walkK`. -/
def walkS (v a : Nat) : State := onChip { chipT with walks := [(v, [walkK a])] }

/-- The same for the load of a copy unit, by its own access. -/
def unitWalkS (a : Nat) : State := onChip { chipT with walks := [(1, [{ walkK a with reqs := [], units := [{ kind := .unitRead, cluster := 3, who := 5 }] }])] }

/-- A word of block 0 that holds an uncorrectable error. -/
def spoiltS : State := onChip { chipT with blocks := tmap chipT.blocks (fun _ b => { b with bad := [(false, 2)] }) }

/-- A fault record waits; the queue of 128 entries stands at 0x7000, or is not enabled. -/
def faultS (base : DWord) : State := onChip { chipT with fqbase := base, pendFaults := [{ record := 0, token := 9 }] }

/-- MemoryManagement: every clause. -/
theorem meets_memory_management :
    let ok := walkS 1 0x5000
    let no := walkS 1 0x80000000
    let finds := fun (s : State) (a : Nat) => match walkTable (s.chip 0) 1 a .load with | .ok _ => true | .fail _ _ => false
    let inv := fun (sc : Nat) => onChip { chipT with tlbBusy := true, tlbScope := some (sc, 1, 0) }
    [((ok.chip 0).walkerNext 0).any (fun e => e.1 ≠ 0), ((ok.chip 0).walkerNext 1) == some (1, walkK 0x5000) && tget [] (ok.chip 0).walks 1 == [walkK 0x5000] && finds ok 0x5000,
     ((unitWalkS 0x5000).chip 0).walkerNext 1 == some (1, { walkK 0x5000 with reqs := [], units := [{ kind := .unitRead, cluster := 3, who := 5 }] }) &&
       (match walkTable ((unitWalkS 0x5000).chip 0) 1 0x5000 .unitRead with | .ok _ => true | .fail _ _ => false),
     ((no.chip 0).walkerNext 1) == some (1, walkK 0x80000000) && !finds no 0x80000000 && (walkK 0x80000000).page * 4096 == 0x80000000 &&
       (no.wave? 0 0).any (fun w => !w.ended && w.saved.isNone && (w.path? .A).any (fun q => q.pc == 0x10000 && q.mask &&& 1 != 0) && (w.held .A).isEmpty),
     ((faultS 0).chip 0).pendFaults.length == 1 && !((faultS 0).chip 0).fqRoom, ((faultS 0x7007).chip 0).fqRoom && (faultS 0x7007).canWrite 0 (.dram 0x7000) 32,
     chipT.accepts && !chipT.tlbBusy, ((inv 0).chip 0).tlbBusy,
     [0, 1, 2].all (fun n => ((inv n).chip 0).tlbScope.any (fun x => x.1 == n) && ((inv n).chip 0).accessesDone),
     (let s := apxS (copyK 2) id id
      let c := { s.chip 0 with tlbBusy := true, tlbScope := some (2, 0, 0) }
      c.tlbScope == some (2, 0, 0) && c.accessesDone && c.bindings.any (fun e => e.1 == 0) && tfind (c.cluster 0).fit.regions 0 == some (copyK 2)),
     (stateT.chip 0).blocks.any (fun e => decide (0 < e.2.lsize) && !e.2.tandem), (spoiltS.chip 0).blocks.any (fun e => e.2.bad == [(false, 2)] && e.2.met.isEmpty),
     (let s := ctxS id id id
      ((s.chip 0).engine 0).ctx.any (fun e => e.2.busy && e.2.ending.isNone))].all id = true := by decide +kernel

/-- Port 0 owns the semaphore; the package is as `f` makes it. -/
def ownedS (f : Chip → Chip) : State := onChip (f { chipT with semOwner := 1 })

/-- The order of 48 planes. -/
def planesK : List Byte := (List.range 48).map (BitVec.ofNat 8)

/-- Management: every clause. -/
theorem meets_management :
    let join : DWord := 0x8000000000005000
    let js := ownedS (fun c => { c with dram := memPut c.dram 0x5000 planesK })
    let good : FwImage := FwImage.factory
    let staged := fun (i : FwImage) => ownedS (fun c => { c with fwState := 1, fwSram := some i, fwMin := 3 })
    let image := { good with svn := 3 }
    let hurt := ownedS (fun c => { c with recovery := true })
    let att := ownedS (fun c => { c with attState := 1, attBuf := 0x5000, attNonce := planesK })
    [chipT.powered && chipT.semOwner == 0 && chipT.online && !chipT.recovery, !({ chipT with powered := false } : Chip).powered,
     ((ownedS id).chip 0).semOwner == 1 && ((ownedS id).chip 0).powered, !((ownedS id).chip 0).stopped && !((ownedS id).chip 0).recovery, (hurt.chip 0).recovery && (hurt.chip 0).online,
     decide (600 ≤ fld 1200 0 12 ∧ fld 1200 0 12 ≤ 2400 ∧ fld 600 0 12 = 600 ∧ fld 2400 0 12 = 2400 ∧ fld 599 0 12 < 600 ∧ 2400 < fld 2401 0 12),
     ((ownedS id).chip 0).fwState != 1 && (1 : DWord).getLsbD 0,
     js.readTgt 0 (.dram (fld join.toNat 12 40 * 4096)) 48 == some planesK && planesK.length == 48 && (List.range 48).all (fun n => planesK.contains (BitVec.ofNat 8 n)) &&
       join.getLsbD 63 && (js.sw.witness.chip (fld join.toNat 0 9)).state != .alive && js.chips.all (fun e => e.1 == 0),
     (let s := podS (fun x => { x with rep := withChip 0 .fenced x.rep }) id []
      (s.chip 0).powered && ((s.chip 0).pel.rep.chip (s.chip 0).chipId).state == .fenced),
     [image, { image with readable := false }, { image with readable := false, svn := 2 }, { image with lmsOk := false, svn := 2 }, { image with ecdsaOk := false, lmsOk := false },
       { image with headerOk := false, ecdsaOk := false }].all (fun i => ((staged i).chip 0).fwState == 1 && ((staged i).chip 0).online && ((staged i).chip 0).fwSram == some i &&
       ((staged i).chip 0).fwMin == 3) && image.readable && image.headerOk && image.ecdsaOk && image.lmsOk, ((staged good).chip 0).fwSram != some image,
     chipT.attState != 1 && chipT.attLeft != 0 && (stateT.readTgt 0 (.dram 0x5000) 48).isSome,
     ((onChip { chipT with poison := [0x5000 / 128] }).readTgt 0 (.dram 0x5000) 48).isNone, ({ chipT with attLeft := 0 } : Chip).attLeft == 0,
     (att.chip 0).attState == 1 && (att.chip 0).poison.isEmpty && decide ((att.chip 0).attBuf.toNat + 4096 ≤ dramBytes) && (att.chip 0).attNonce.length == 48 && (att.chip 0).online,
     (let s := podS id id []
      (s.chip 0).online && !((s.chip 0).engine 127).isBad 63 && portDram 0x5000 8 && (s.readTgt 0 (.dram 0x5000) 8).isSome && s.canWrite 0 (.dram 0x5000) 8)].all id = true := by decide +kernel

/-- The mailbox reads record `r` at 0x6000. -/
def mboxS (r : Nat) (f : Chip → Chip) : State := onChip (f { chipT with dram := memPut chipT.dram 0x6000 (leBytes 32 r) })

/-- A binding of a region. -/
def bindK : Binding := { home := 0, mirrors := [], asid := 1, first := 0x10000, last := 0x10040, frames := [], loaded := false, regs := [] }

/-- A queue with no packet. -/
def queueK : Queue := { ring := 0x8000, log2 := 4, asid := 1, notify := 0, fetch := 0, doneCnt := 0, stall := false, started := [] }

/-- MailboxRegistersAndDebug: what is read as a record, and which are performed and refused. -/
theorem meets_mailbox :
    let reads := fun (r : Nat) (f : Chip → Chip) (ok : Bool) => let s := mboxS r f
      (s.chip 0).powered && !(s.chip 0).stopped && !(s.chip 0).recovery && (s.readTgt 0 (.dram (fld 0x6000 6 46 * 64)) 32).any (fun b => ofLe b == r) && (s.chip 0).mboxOk r == ok
    let bound := fun (c : Chip) => { c with bindings := [(5, bindK)] }
    let queued := fun (c : Chip) => { c with queues := [(1023, queueK)] }
    let full := fun (c : Chip) => c.setCluster 0 { c.cluster 0 with lres := 1, part := 1 }
    let bind := 1 + 5 * 2 ^ 16 + 1 * 2 ^ 24 + 3 * 2 ^ 32 + 1 * 2 ^ 48 + 0x10000 * 2 ^ 64 + 0x10040 * 2 ^ 128
    let que := fun (op : Nat) => op + 1 * 2 ^ 16 + 511 * 2 ^ 32
    [reads bind id true, reads (2 + 5 * 2 ^ 16) bound true, reads (3 + 32 * 2 ^ 24) id true, reads (4 + 31 * 2 ^ 24) full true, reads (5 + 0x5000 * 2 ^ 64) id true,
     reads (que 6 + 4 * 2 ^ 24 + 1 * 2 ^ 48 + 0x8000 * 2 ^ 64) id true, reads (que 7) queued true,
     reads 0 id false, reads 8 id false, reads (2 + 5 * 2 ^ 16) id false, reads (3 + 32 * 2 ^ 24) full false, reads (4 + 32 * 2 ^ 24) full false,
     reads (5 + dramBytes * 2 ^ 64) id false, reads (que 6 + 4 * 2 ^ 24 + 1 * 2 ^ 48 + 0x8000 * 2 ^ 64) queued false, reads (que 7) id false, reads (que 6 + 4 * 2 ^ 24 + 1 * 2 ^ 48 + 2 ^ 57 * 2 ^ 64) id false,
     reads (6 + 4 * 2 ^ 24 + 512 * 2 ^ 32 + 0x8000 * 2 ^ 64) id false, reads (7 + 512 * 2 ^ 32) (fun c => { c with queues := [(512, queueK)] }) false].all id = true := by decide +kernel

/-- MailboxRegistersAndDebug: registers and the debug interface. -/
theorem meets_debug :
    let dbg := fun (d : Word) => onWave (fun w => { w with dbg := d })
    let names := fun (s : State) (d : Word) => (s.chip 0).accepts && (s.chip 0).dbgWaves == [0] && (s.wave? 0 0).any (fun w => w.saved.isNone && w.dbg == d) && !(s.chip 0).dbgEvery &&
      (s.chip 0).poison.isEmpty
    [chipT.powered && !chipT.recovery, ({ chipT with recovery := true } : Chip).powered, (0x7007 : DWord).toNat % 32 == 7, (0x7010 : DWord).toNat % 32 == 16, (4 : DWord).getLsbD 2,
     [0, 0x40, 0x80, 0xC0].map (fun v => fld v 6 2) == [0, 1, 2, 3], names (dbg 0) 0, names (dbg 1) 1, (0x88 : Word).getLsbD 3,
     ((onWave (fun w => { w with stepping := .issued })).wave? 0 0).any (fun w => !w.ended && w.stepping == .issued && !w.dbg.getLsbD 2)].all id = true := by decide +kernel

/-! ## Stepping -/

/-- The placed wave before a line of which slots 0 and 1 hold `x` and `y`, as a pair where `pair` says so. -/
def pairLine (x y : Nat) (pair : Bool) : Nat :=
  let slot := fun (k : Nat) => if k = 0 then x else if k = 1 then y else nopWord
  let w0 := 1 + b2n pair * 2 ^ 5 + ((List.range 5).map (fun k => b2n (parity 96 (slot k)) * 2 ^ (9 + k))).sum
  ((List.range 5).map (fun k => slot k * 2 ^ (96 * k))).sum + (w0 + b2n (parity 14 w0) * 2 ^ 14) * 2 ^ 480

/-- The encoding of an instruction. -/
def wordK (i : Instr) : Nat := (encode i).getD 0

/-- An addition of lane registers. -/
def addK : Instr := .add (opsOn (.lane 4) (.lane 1) (.lane 2) .none .i32 0)

/-- The next input is `x`, and the placed wave stands before a line. -/
def inputS (line : Nat) (x : Input) : State := { onChip (Chip.reset.placed (leBytes 64 line)) with inputs := [x] }

/-- Slot A of wave 0. -/
def slotK : Cursor := { pkg := 0, wid := 0, slot := .A, half := .single }

/-- `State.MayIssue`, `State.Fetches` and that the path waits for nothing, of slot A of wave 0 after the passing of time. -/
def mayFetch (s : State) (line : Nat) : Bool :=
  let u := { s.passTime with inputs := [] }
  match u.wave? 0 0 with
  | none => false
  | some w =>
    (w.path? .A).any (fun q => u.candidate 0 w .A && w.arrayTrap.isNone && (w.held .A).isEmpty && q.wait == .none && q.pc == 0x10000 && q.line.isNone) &&
    (match (u.chip 0).tlbLookup w.core ((u.chip 0).asidOf w.grow) 0x10000 .fetch with
     | some e => e.target 0x10000 == .dram 0x10000
     | none => false) && (u.chip 0).fetchLine u.tick w.core 0x10000 == some (BitVec.ofNat 512 line) && !lineBad (BitVec.ofNat 512 line)

/-- What the step leaves of slot A of wave 0. -/
def afterStep (s : State) : Option (Last × Option DWord) :=
  match step s with
  | .next t => some (t.last, ((t.wave? 0 0).bind (fun (w : Wave) => w.path? .A)).map Path.pc)
  | _ => none

/-- The state in which the word at the PC is performed, after the passing of time. -/
def atWord (s : State) (line : Nat) : State :=
  let u := { s.passTime with inputs := [], cur := slotK, pairSrc := none }
  u.modChip 0 (fun c => (c.cacheLine u.tick 0 0x10000 (BitVec.ofNat 512 line)).modWave 0 (fun w => w.enterLine .A (BitVec.ofNat 512 line)))

/-- An operation completes there. -/
def completes (s : State) (h : Half) (i : Instr) : Bool :=
  match exec i { s with cur := { s.cur with half := h } } with
  | .next t => t.last == .completed
  | _ => false

/-- A step fetches and runs a word; a transfer into the middle of the line traps; a pair runs as one word. -/
theorem meets_issue :
    let one := lineOf (wordK addK)
    let bad := lineOf (wordK (.br (opsOn .none .none .none (.bits 0) .b32 1)))
    let two := pairLine nopWord (wordK addK) true
    let s := fun (l : Nat) => inputS l (.issue slotK)
    let t := fun (l : Nat) => atWord (s l) l
    let q := { pc := 0x10000, mask := 0xFFFFFFFF, wbase := 128, fresh := true, wait := .none, line := some (BitVec.ofNat 512 bad) : Path }
    [mayFetch (s one) one && !pairedAt (BitVec.ofNat 512 one) 0x10000 && decodeWave (lineSlot (BitVec.ofNat 512 one) 0) == .ok addK &&
       ((t one).targetTrap slotK { q with line := some (BitVec.ofNat 512 one) } q.pc (lineSlot (BitVec.ofNat 512 one) 0)).isNone,
     afterStep (s one) == some (.completed, some 0x10001),
     mayFetch (s bad) bad && ((t bad).targetTrap slotK q q.pc (lineSlot (BitVec.ofNat 512 bad) 0)).any (fun r => r.cause == 4),
     (match afterStep (s bad) with | some (.trapped c n _ _ _, _) => c == 4 && n == 0 | _ => false),
     mayFetch (s two) two && pairedAt (BitVec.ofNat 512 two) 0x10000 && decodeWave (lineSlot (BitVec.ofNat 512 two) 0) == .ok (.nop (ops0 0)) &&
       decodeWave (lineSlot (BitVec.ofNat 512 two) 1) == .ok addK && pairOk (.nop (ops0 0)) addK,
     [(0, q.pc), (1, pcNext q.pc 1)].all (fun e => ((t two).targetTrap slotK { q with line := some (BitVec.ofNat 512 two) } e.2 (lineSlot (BitVec.ofNat 512 two) e.1)).isNone),
     completes (t two) .first (.nop (ops0 0)), completes (t two) .second addK,
     (match exec (.nop (ops0 0)) { (t two) with cur := { slotK with half := .first } } with
      | .next s1 => completes { s1 with pairSrc := (t two).wave? 0 0 } .second addK
      | _ => false),
     (match exec (.br (opsOn .none .none .none (.bits 0) .b32 1)) { (t bad) with cur := slotK } with
      | .next s1 => s1.last != .notReady
      | _ => false),
     afterStep (s two) == some (.completed, some 0x10002)].all id = true := by decide +kernel

/-- An issue port of core 0 is next. -/
def portS : State := inputS (lineOf (wordK addK)) (.port 0 0)

/-- After the passing of time. -/
def portU : State := { portS.passTime with inputs := [] }

theorem chosenNow_nil (k : Core) (now : DWord) (h : k.chosen = []) : k.chosenNow now = [] := by
  simp [Core.chosenNow, h]

/-- A slot that no port of the cycle has chosen may be chosen where it is a candidate of the core. -/
theorem choosable_first (s : State) (p core wid : Nat) (w : Wave) (h : ((s.chip p).core core).chosen = []) :
    s.choosable p core wid w = fun sl => w.core = core && s.candidate p w sl && (w.path? sl).any (fun q => !q.waiting) &&
      ((s.chip p).classesAt s.tick w sl).all (fun k => decide (0 < classPlaces k)) := by
  funext sl
  simp [State.choosable, chosenNow_nil _ _ h]

/-- The port finds the placed wave, and its word issues. -/
theorem meets_port :
    (portU.portList 0 0).map (fun x => (x.wid, x.slot)) = [(0, .A)] ∧ (((portU.chip 0).core 0).chosenNow (portU.chip 0).cycle).length < 2 ∧
    (match issueWord exec portU slotK with | .next t => !t.notIssued slotK | _ => false) = true := by
  have h : ((portU.chip 0).core 0).chosen = [] := by decide +kernel
  refine ⟨?_, by simp [chosenNow_nil _ _ h], by decide +kernel⟩
  simp only [State.portList, choosable_first portU 0 0 _ _ h]
  decide +kernel

/-- Slot B of wave 0, of one promotion and older than slot A, stands at a `trap`. -/
def bothS : State :=
  let s := portS.setChip 0 ((portS.chip 0).modWave 0 (fun w =>
    { w with
      slotA := w.slotA.map (fun q => { q with mask := 0xFFFF })
      slotB := w.slotA.map (fun q => { q with mask := 0xFFFF0000, pc := 0x20000, line := some (BitVec.ofNat 512 (lineOf (wordK (.trap (ops0 42))))) })
      issueA := { w.issueA with age := some 5 }
      issueB := { w.issueB with age := some 4, promo := 1 } }))
  { s.passTime with inputs := [] }

/-- The port chooses slot B first, and its word traps. -/
theorem meets_trap_order :
    (bothS.portList 0 0).map (fun x => (x.wid, x.slot)) = [(0, .B), (0, .A)] ∧ bothS.chosenAt 0 0 = [] ∧
    (let c := { slotK with slot := .B }
     match issueWord exec bothS c with | .next t => !t.notIssued c && t.raised.isSome | _ => false) = true := by
  have h : ((bothS.chip 0).core 0).chosen = [] := by decide +kernel
  refine ⟨?_, chosenNow_nil _ _ h, by decide +kernel⟩
  simp only [State.portList, choosable_first bothS 0 0 _ _ h]
  decide +kernel

/-- A stream command, an image to verify, packets, an event to apply; nothing to do, and something. -/
theorem meets_inputs :
    let st := State.reset.withFetchWord 64 0x08C0000000000003
    let u : State := { st.passTime with inputs := [] }
    let x := ((u.chip 0).engine 0).context 0
    let r := u.streamRead 0 (askCtx 0 0) x x.ptr.toNat 8
    let cl := { podS id id [wireK 12 3 0 0 []] with inputs := [.packet 0 0] }
    let vf := { onChip { chipT with fwState := 1, fwSram := some FwImage.factory } with inputs := [.verify 0] }
    let wr := { podS id id [wireK 1 0 0 0 []] with inputs := [.packet 0 0] }
    let ap := { applyS submitK id with inputs := [.apply 0] }
    [u.ctxRuns 0 0 0 && r.s.asks.isEmpty && !r.off && r.status == 0 && decodeCmd (ofLe r.bytes) == .ok (.setq 3 3),
     ({ wr.passTime with inputs := [] } : State).net[0]?.any (fun k => k.ptype == 1),
     ({ cl.passTime with inputs := [] } : State).net[0]?.any (fun k => k.ptype == 12 && fld k.opw.toNat 0 4 == 3 && !k.dstSw),
     (({ vf.passTime with inputs := [] } : State).chip 0).fwSram.isSome,
     (({ ap.passTime with inputs := [] } : State).chip 0).pel.apply.head?.any (fun e => evType e == 0),
     (agenda { State.reset with inputs := [] }).isEmpty, !(agenda { onChip chipT with inputs := [] }).isEmpty].all id = true := by decide +kernel

/-- A word that `withFetchWord` places is run by the very next step. -/
theorem test_with_fetch_word :
    afterStep (State.reset.withFetchWord 96 0x010700100100B00400000000) = some (.completed, some 0x10001) := by decide +kernel

/-! ## Worked values of the spec -/

/-- R211: the block of a counter of zero and a key of zero. -/
theorem test_kcg : kcgBlock (0, 0, 0, 0) 0 0 = (0x17E7519D, 0x372BE420, 0x4CD933EF, 0x74478C8D) := by decide +kernel

/-- The worked line of chapter 5: its line word is 0x7821 (R129), and with one bit of slot 2 flipped it is malformed (R130). -/
theorem test_line :
    let line := fun (exit : Nat) => 0x010700100100B00400000000 + 0x4007001803C0300A00000000 * 2 ^ 96 + exit * 2 ^ 192 + nopWord * 2 ^ 288 + nopWord * 2 ^ 384 + 0x7821 * 2 ^ 480
    lineBad (BitVec.ofNat 512 (line 0xC0570C0300C0300000000000)) = false ∧ lineBad (BitVec.ofNat 512 (line 0xC0570C0300C0300000000001)) = true := by decide +kernel

/-- The wave of the worked example of chapter 7: lanes 0 to 7, with p3 and p4. -/
def sumT : State :=
  onWave (fun w => { w with
    slotA := w.slotA.map (fun q => { q with mask := 0xFF })
    p := [(3, 0x66), (4, 0)]
    v := [(130, { LaneReg.zero with vals := [0x40A00000, 0x4B800000, 0x3F800000, 0x40A00000, 0x40A00000, 0x3F800000, 0xCB800000, 0x40A00000] ++ List.replicate 24 0 }),
          (133, LaneReg.zero)] })

/-- The wave after an operation on `sumT`. -/
def sumAfter (i : Instr) : Option Wave :=
  match exec i sumT with
  | .next t => t.wave? 0 0
  | _ => none

/-- R207 to R209: the sum of a wave is exact and rounded once; of no lane it is the identity. -/
theorem test_wave_sum :
    (sumAfter (.redW (opsOn (.unif 4) (.lane 2) (.pred 3) .none .f32 0x60000000))).map (fun (w : Wave) => (w.ureg 4).val) = some 0x40000000 ∧
    (sumAfter (.redW (opsOn (.unif 6) (.lane 2) (.pred 4) .none .f32 0x60000000))).map (fun (w : Wave) => (w.ureg 6).val) = some 0x80000000 ∧
    (sumAfter (.scan { opsOn (.lane 5) (.lane 2) .none .none .f32 0x60000000 with guard := { neg := false, p := 3 } })).map (fun (w : Wave) => (w.lreg 133).vals.take 8) =
      some [0, 0x4B800000, 0x4B800000, 0, 0, 0x4B800001, 0x40000000, 0] := by decide +kernel

end Sys2Proof.Tests
end

section
/-! The integer, bit, predicate, select and move instructions of chapter 6 complete with the words that their rules give. Each lemma of
`Completes` here speaks of one shape of operation; the statements assemble them, one line for an instruction. -/

namespace Sys2Proof.Machine

open Sys2Proof

/-! ## Operations that write their destination and nothing else -/

/-- An operation whose effect is to write its destination, of whatever form, completes with the words it writes. -/
theorem Completes.of_put {i : Instr} {f : Form} {o : Ops} {n : Nat} {val : Iss → Nat → Nat → Word} {g : Iss → Wave}
    (hexec : ∀ s, exec i s = issue f o s (onWave g)) (hg : ∀ x : Iss, x.o = o → g x = x.put n (val x) x.w) :
    Completes i f o n val 0 := by
  intro s x hx hc
  obtain ⟨-, -, -, -, -, -, -, -, -, ho, -⟩ := issOf_some hx
  rw [hexec]
  exact issue_put hx hc (hg x ho)

/-- Variants 0 to 9 of integer arithmetic (R159): the exact result, saturated or wrapped. -/
theorem Completes.of_intArith {i : Instr} {f : Form} {o : Ops} (g : Ty → Int → Int → Int → Int)
    (hexec : ∀ s, exec i s = issue f o s (intArith g)) :
    Completes i f o o.ty.regs
      (fun x k => intWords o.ty (reduceInt o.ty o.hs (g o.ty (x.int o.ty .a k) (x.int o.ty .b k) (x.int o.ty .c k)))) 0 :=
  .of_put hexec (by rintro x rfl; rfl)

/-- The shifts (R167), by width, value and amount. -/
theorem Completes.of_shiftOp {i : Instr} {f : Form} {o : Ops} (g : Nat → Nat → Nat → Nat)
    (hexec : ∀ s, exec i s = issue f o s (shiftOp g)) :
    Completes i f o o.ty.regs
      (fun x k j => BitVec.ofNat 32 (g o.ty.width (x.valN o.ty .a k) (x.word .b k 0).toNat / 2 ^ (32 * j))) 0 :=
  .of_put hexec (by rintro x rfl; rfl)

/-- `and`, `or` and `xor` over registers (R165). -/
theorem Completes.of_logic2 {i : Instr} {f : Form} {o : Ops} (g : Nat → Nat → Nat) (b : Bool → Bool → Bool)
    (hexec : ∀ s, exec i s = issue f o s (logic2 g b)) (hd : o.d.isPred = false) :
    Completes i f o o.ty.regs (fun x k j => BitVec.ofNat 32 (g (x.valN o.ty .a k) (x.valN o.ty .b k) / 2 ^ (32 * j))) 0 :=
  .of_put hexec (by rintro x rfl; simp only [hd]; rfl)

/-! ## Operations that write a predicate -/

/-- A predicate destination that takes a truth value is one that takes the word 1 or 0. -/
theorem Iss.putPred_eq_put {x : Iss} (hd : x.o.d.isPred = true) (b : Nat → Bool) (w : Wave) :
    x.putPred b w = x.put 1 (fun k _ => if b k then 1 else 0) w := by
  cases hdd : x.o.d with
  | pred d => simp [Iss.putPred, Iss.put, hdd]
  | _ => simp [hdd, Operand.isPred] at hd

/-- An operation whose effect is to write the truth of a condition to a predicate completes with the word 1 where it holds. -/
theorem Completes.of_putPred {i : Instr} {f : Form} {o : Ops} {val : Iss → Nat → Nat → Word} {run : Iss → State → Eff} (b : Iss → Nat → Bool)
    (hexec : ∀ s, exec i s = issue f o s run) (hd : o.d.isPred = true)
    (hrun : ∀ (x : Iss) (s : State), x.o = o → run x s = .done (x.set s (x.putPred (b x) x.w)))
    (hval : ∀ x k j, val x k j = if b x k then 1 else 0) : Completes i f o 1 val 0 := by
  intro s x hx hc
  obtain ⟨-, -, -, -, -, -, -, -, -, rfl, -⟩ := issOf_some hx
  have hput : x.putPred (b x) x.w = x.put 1 (val x) x.w := by
    rw [Iss.putPred_eq_put hd, show val x = fun k _ => if b x k then 1 else 0 from funext₂ (hval x)]
  rw [hexec]
  exact ⟨_, issue_done hx hc (by rw [hrun x s rfl, hput]) (x.put_regOnly 1 (val x) x.w), x.wrote_put s 1 (val x)⟩

/-- The context in which `cmp` reads its sources: with the 28-bit immediate, and the selectors that it stands for (R171). -/
def Iss.cmpContext (x : Iss) (o : Ops) : Iss :=
  { x with immw := cmpImm o, o := { x.o with a := cmpOperand o.ty o.a, b := cmpOperand o.ty o.b } }

/-- The context in which `fcmp` and `dmask` read their sources: with the immediate that stands in WORD [15:0] (R192, R213). -/
def Iss.imm16Context (x : Iss) (o : Ops) : Iss := { x with immw := BitVec.ofNat 32 (fld o.word.toNat 0 16) }

/-- Whether `dmask` keeps lane `k` (R213). -/
def Iss.keeps (x : Iss) (k : Nat) : Bool :=
  (kcgBlock (x.words4 .b k) (x.word .c k 0) (x.word .c k 1)).1.toNat % 65536 ≤ (x.word .a k 0).toNat % 65536

/-- `and`, `or` and `xor` over predicates (R166). -/
theorem Completes.of_logic2_pred {i : Instr} {f : Form} {o : Ops} (g : Nat → Nat → Nat) (b : Bool → Bool → Bool)
    (hexec : ∀ s, exec i s = issue f o s (logic2 g b)) (hd : o.d.isPred = true) :
    Completes i f o 1 (fun x k _ => if b (x.predAt .a k) (x.predAt .b k) then 1 else 0) 0 :=
  .of_putPred (fun x k => b (x.predAt .a k) (x.predAt .b k)) hexec hd
    (by rintro x s rfl; simp only [logic2, onWave, hd, if_true]) (fun _ _ _ => rfl)

end Sys2Proof.Machine

open Sys2Proof Sys2Proof.Machine

/-! ## The statements of the family -/

/-- Settles O1: every instruction of the family writes its destination and nothing else, and the words are those of its shape. -/
theorem integerAndBitOperations : Obligations.IntegerAndBitOperations := by
  unfold Obligations.IntegerAndBitOperations
  refine ⟨fun o => ⟨?add, ?sub, ?mul, ?mulHi, ?mad, ?madHi, ?min, ?max, ?abs, ?neg, ?add64, ?lea, ?kadd⟩,
    fun o => ⟨fun hd => ⟨?and, ?or, ?xor, ?not⟩, ?shl, ?shr, ?sar, ?rot, ?clz, ?popc, ?brev, ?bfx, ?bfi⟩⟩
  case add => exact .of_intArith (fun _ a b _ => a + b) (fun _ => rfl)
  case sub => exact .of_intArith (fun _ a b _ => a - b) (fun _ => rfl)
  case mul => exact .of_intArith (fun _ a b _ => a * b) (fun _ => rfl)
  case mulHi => exact .of_intArith (fun t a b _ => a * b / 2 ^ t.width) (fun _ => rfl)
  case mad => exact .of_intArith (fun _ a b c => a * b + c) (fun _ => rfl)
  case madHi => exact .of_intArith (fun t a b c => a * b / 2 ^ t.width + c) (fun _ => rfl)
  case min => exact .of_intArith (fun _ a b _ => Min.min a b) (fun _ => rfl)
  case max => exact .of_intArith (fun _ a b _ => Max.max a b) (fun _ => rfl)
  case abs => exact .of_intArith (fun _ a _ _ => a.natAbs) (fun _ => rfl)
  case neg => exact .of_intArith (fun _ a _ _ => -a) (fun _ => rfl)
  case add64 => exact .of_put (fun _ => rfl) (by rintro x rfl; rfl)
  case lea => exact .of_put (fun _ => rfl) (by rintro x rfl; rfl)
  case kadd => exact .of_put (fun _ => rfl) (by rintro x rfl; rfl)
  case and => exact .of_logic2 Nat.land and (fun _ => rfl) hd
  case or => exact .of_logic2 Nat.lor or (fun _ => rfl) hd
  case xor => exact .of_logic2 Nat.xor xor (fun _ => rfl) hd
  case not => exact .of_put (fun _ => rfl) (by rintro x rfl; simp only [hd]; rfl)
  case shl => exact .of_shiftOp (fun w a n => if w ≤ n then 0 else a * 2 ^ n % 2 ^ w) (fun _ => rfl)
  case shr => exact .of_shiftOp (fun w a n => if w ≤ n then 0 else a / 2 ^ n) (fun _ => rfl)
  case sar => exact .of_shiftOp (fun w a n => modPow (asSigned w a / 2 ^ Nat.min n (w - 1)) w) (fun _ => rfl)
  case rot => exact .of_shiftOp (fun w a n => (a * 2 ^ (n % w) + a / 2 ^ (w - n % w)) % 2 ^ w) (fun _ => rfl)
  case clz => exact .of_put (fun _ => rfl) (by rintro x rfl; rfl)
  case popc => exact .of_put (fun _ => rfl) (by rintro x rfl; rfl)
  case brev => exact .of_put (fun _ => rfl) (by rintro x rfl; rfl)
  case bfx => exact .of_put (fun _ => rfl) (by rintro x rfl; rfl)
  case bfi => exact .of_put (fun _ => rfl) (by rintro x rfl; rfl)

/-- Settles O2: logic over predicates and the compares write the truth of a condition, and select and move write words. `cmp`, `fcmp` and `dmask`
read their immediate from a part of WORD, in a context that differs from theirs in that alone. -/
theorem predicatesSelectAndMove : Obligations.PredicatesSelectAndMove := by
  unfold Obligations.PredicatesSelectAndMove
  refine fun o => ⟨fun hd => ⟨?and, ?or, ?xor, ?not, ?cmp, ?fcmp, ?dmask⟩, ?sel, ?mov, ?movi⟩
  case and => exact .of_logic2_pred Nat.land and (fun _ => rfl) hd
  case or => exact .of_logic2_pred Nat.lor or (fun _ => rfl) hd
  case xor => exact .of_logic2_pred Nat.xor xor (fun _ => rfl) hd
  case not =>
    exact .of_putPred (fun x k => !x.predAt .a k) (fun _ => rfl) hd
      (by rintro x s rfl; simp only [onWave, hd, if_true]) (fun x k _ => by cases x.predAt .a k <;> rfl)
  case cmp =>
    exact .of_putPred (fun x k => intCond (fld o.modi 28 4) ((x.cmpContext o).int o.ty .a k) ((x.cmpContext o).int o.ty .b k))
      (fun _ => rfl) hd (by rintro x s rfl; rfl) (fun _ _ _ => rfl)
  case fcmp =>
    exact .of_putPred (fun x k => fltCond (fld o.modi 28 4) ((x.imm16Context o).flt o.ty .a k) ((x.imm16Context o).flt o.ty .b k))
      (fun _ => rfl) hd (by rintro x s rfl; rfl) (fun _ _ _ => rfl)
  case dmask =>
    exact .of_putPred (fun x k => (x.imm16Context o).keeps k) (fun _ => rfl) hd
      (by rintro x s rfl; rfl) (fun x k _ => by simp only [Iss.keeps, decide_eq_true_eq]; rfl)
  case sel => exact .of_put (fun _ => rfl) (by rintro x rfl; rfl)
  case mov => exact .of_put (fun _ => rfl) (by rintro x rfl; rfl)
  case movi => exact .of_put (fun _ => rfl) (by rintro x rfl; rfl)
end

section
/-! The cross-lane instructions and the counter generator of chapter 7 complete with the words that their rules give, and the reductions
raise QSAT and EMPTY beside them. -/

namespace Sys2Proof.Machine

open Sys2Proof

/-- An operation that writes its destination and raises flags completes with the words it writes and those flags. -/
theorem Completes.of_put_flags {i : Instr} {f : Form} {o : Ops} {n : Nat} {val : Iss → Nat → Nat → Word} {fl : Iss → Word} {g : Iss → Wave}
    (hexec : ∀ s, exec i s = issue f o s (onWave g))
    (hg : ∀ x : Iss, x.o = o → g x = { x.put n (val x) x.w with flags := x.w.flags ||| fl x, raised := x.w.raised ||| fl x }) :
    Completes i f o n val fl := by
  intro s x hx hc
  obtain ⟨-, -, -, -, -, -, -, -, -, ho, -⟩ := issOf_some hx
  rw [hexec]
  exact issue_put_flags hx hc (hg x ho)

/-- Writing the destination and raising one flag where a condition holds. -/
theorem Iss.put_raiseIf (x : Iss) (n : Nat) (val : Nat → Nat → Word) (b : Bool) (m : Word) :
    (x.put n val x.w).raiseIf b m =
      { x.put n val x.w with flags := x.w.flags ||| if b then m else 0, raised := x.w.raised ||| if b then m else 0 } := by
  rw [Wave.raiseIf_eq, Iss.put_flags, Iss.put_raised]

/-- Writing the destination and raising two flags, each where its condition holds. -/
theorem Iss.put_raiseIf_raiseIf (x : Iss) (n : Nat) (val : Nat → Nat → Word) (b c : Bool) (m k : Word) :
    ((x.put n val x.w).raiseIf b m).raiseIf c k =
      { x.put n val x.w with
        flags := x.w.flags ||| ((if b then m else 0) ||| if c then k else 0)
        raised := x.w.raised ||| ((if b then m else 0) ||| if c then k else 0) } := by
  rw [Iss.put_raiseIf, Wave.raiseIf_eq, BitVec.or_assoc, BitVec.or_assoc]

end Sys2Proof.Machine

open Sys2Proof Sys2Proof.Machine

/-! ## The statement of the family -/

/-- Settles O4: each instruction of the family writes its destination, and the reductions raise QSAT and EMPTY beside it. `shfl` reads its lane
number in a context that differs in the immediate alone, which no destination depends on; `vote` is taken apart by VOP (R204). -/
theorem crossLaneAndGenerator : Obligations.CrossLaneAndGenerator := by
  unfold Obligations.CrossLaneAndGenerator
  refine fun o => ⟨?shfl, ?vote, ?rfal, ?redW, ?scan, ?matchLanes, ?kcg⟩
  case shfl =>
    refine .of_put (g := fun x => x.put o.ty.regs _ x.w) ?_ (fun _ _ => rfl)
    exact fun _ => rfl
  case vote =>
    refine .of_put (fun _ => rfl) (fun x _ => congrArg (x.put 1 · x.w) (funext₂ fun _ _ => ?_))
    generalize fld o.modw 30 2 = vop
    match vop with
    | 0 | 1 | 2 => rfl
    | _ + 3 => simp only [Bool.or_eq_true, decide_eq_true_eq]
  case rfal => exact .of_put (fun _ => rfl) (fun _ _ => rfl)
  case redW => exact .of_put_flags (fun _ => rfl) (fun x _ => x.put_raiseIf_raiseIf ..)
  case scan => exact .of_put_flags (fun _ => rfl) (fun x _ => x.put_raiseIf ..)
  case matchLanes => exact .of_put (fun _ => rfl) (fun _ _ => rfl)
  case kcg => exact .of_put (fun _ => rfl) (fun _ _ => rfl)
end
